-- ==== Sys2Proof/Word.lean ====
section
/-! DEFINITION. The plainest words of the model: bytes, register words, global addresses. -/

namespace Sys2Proof

/-- A byte of a store. -/
abbrev Byte := BitVec 8

/-- A 32-bit scalar register or host register (spec/03 R64, spec/00 R3). -/
abbrev Word := BitVec 32

/-- A 64-bit value: an instruction (R78), a global address (R211), a beat count (R29). -/
abbrev DWord := BitVec 64

end Sys2Proof
end

