-- ==== Sys2Proof/Syntax.lean ====
section
/-! DEFINITION. The commands of the module, one constructor of `Instr` for each row of spec/opcode_table.json,
and the operand types they carry. An operand is what the rest of the world supplies at that step: which core,
port or stack acts, the fields of an instruction, a packet, a message, a measured value, the outcome of a test. -/

namespace Sys2Proof

/-! ## Places -/

/-- A core by its grid coordinates (spec/01 R6). -/
structure CoreId where
  x : Fin 960
  y : Fin 320
  deriving DecidableEq, Repr

/-- A context of a core (spec/03 R64). -/
abbrev Ctx := Fin 4

/-- A stack with its base die, beside the slab of the same index (spec/01 R8). -/
abbrev StackId := Fin 16

/-- The two host ports (spec/14). -/
inductive HPort where
  | a
  | b
  deriving DecidableEq, Repr

/-- The two port dies (spec/01 R18). -/
inductive Die where
  | west
  | east
  deriving DecidableEq, Repr

/-- A Reduit port: 0 X+, 1 X−, 2 Y+, 3 Y−, 4 Z+, 5 Z− (spec/10 R270). -/
abbrev RPort := Fin 6

/-- A submission or completion ring of a host port (spec/14 R372). -/
abbrev Ring := Fin 8

/-! ## Instruction formats (spec/03 R78, R479) -/

/-- Format S, all fields below the opcode. -/
structure FmtS where
  dst : BitVec 5
  srca : BitVec 5
  srcb : BitVec 5
  immsel : BitVec 1
  cond : BitVec 3
  rsv : BitVec 7
  imm : BitVec 32
  deriving DecidableEq, Repr

/-- Format M, all fields below the opcode. -/
structure FmtM where
  dbase : BitVec 5
  abase : BitVec 5
  bbase : BitVec 5
  doff : BitVec 11
  aoff : BitVec 11
  len : BitVec 8
  sub : BitVec 5
  fmt : BitVec 4
  flags : BitVec 4
  deriving DecidableEq, Repr

/-- Format Y, all fields below the opcode. -/
structure FmtY where
  abase : BitVec 5
  ctr : BitVec 6
  consume : BitVec 1
  remote : BitVec 1
  rsv : BitVec 29
  value : BitVec 16
  deriving DecidableEq, Repr

/-- What a WAIT is told besides its word: the cycles it was held back (spec/17 R442), and that it issues in the cycle in which its
counter takes the change of the local SIG that issued before it (spec/09 R225, R226). -/
structure WaitIn where
  held : Nat
  joined : Bool := false
  deriving DecidableEq, Repr

/-! ## Packets (spec/10 R238, R242, R243, R258) -/

/-- Packet kinds of R238. -/
inductive PKind where
  | write
  | read
  | signal
  | ack
  | refuse
  | fail
  | carillon
  | loop
  deriving DecidableEq, Repr

/-- The endpoint code of R243, by its fields. TYPE 0 core, 1 base die, 2 port die. -/
structure EndPt where
  module : BitVec 10
  type : BitVec 2
  posX : BitVec 10
  posY : BitVec 9
  deriving DecidableEq, Repr

/-- A packet: the header fields of R242, its data bytes, the torus extension of R258. The rest are no header bits but
what its endpoints know: `origin` the address its data were read from (R240); `idle` the class of its copy (R200);
`desc` the descriptor of its copy (R216, R220, spec/13 R336); `pos` the place on the peal route of the next core;
`kept` and `was` the data and the kind of a refused packet (R240); `cls` the class of a fault found at the source of a
copy, on a FAIL, 0 for a discard (R264); `last` the last request of its copy, whose data the final write carries (R216);
`via` the port die it entered the mesh by, true the east one, and its transit row (R248); `joined` a SIGNAL that arrives in the arithmetic cycle of the last change of its
counter (spec/09 R225); `renewed` a WRITE that begins a transfer of another module under a tag and slot whose last one was aborted
and has left the fabric with every request (spec/09 R219); `row` the transit row a base die sent it on, 0 before one is counted
out (spec/10 R248). -/
structure Packet where
  kind : PKind
  final : Bool := false
  peal : Bool := false
  blocks : Nat := 0
  route : BitVec 10 := 0
  addr : DWord := 0
  addr2 : DWord := 0
  sigVal : BitVec 8 := 0
  count : Nat := 0
  tag : EndPt
  slot : BitVec 5 := 0
  src : EndPt
  data : List Byte := []
  origin : DWord := 0
  desc : BitVec 512 := 0
  pos : Nat := 0
  kept : List Byte := []
  cls : Nat := 0
  was : PKind := .refuse
  idle : Bool := false
  last : Bool := false
  via : Option (Bool × Nat) := none
  escape : Bool := false
  escDim : BitVec 2 := 0
  hops : Nat := 0
  joined : Bool := false
  renewed : Bool := false
  row : Nat := 0
  loopPort : BitVec 3 := 0
  loopDepth : BitVec 3 := 0
  deriving DecidableEq, Repr

/-- A copy of a flit as it came over a mesh link: its 32 bytes, its CRC, its channel bit, true YX (spec/10 R245). -/
structure FlitTry where
  flit : List Byte
  crc : BitVec 16
  yx : Bool := false
  deriving DecidableEq, Repr

/-! ## The sideband (spec/10 R265) -/

/-- A sideband frame by the fields of R265. -/
structure SbFrame where
  beatLo : BitVec 8
  phase : BitVec 12
  aligned : Bool
  holdNew : BitVec 4
  msgType : BitVec 8
  body : BitVec 320
  deriving DecidableEq, Repr

/-! ## Measured values -/

/-- What a vertical regulator reports (spec/01 R23, spec/12 R306): its output current in mA and its output voltage in mV,
averaged over a beat. -/
structure RailReport where
  mA : Nat
  mV : Nat
  deriving DecidableEq, Repr

/-- What the Tympan is told of the last beat, at its step at c = 12 (spec/01 R23, spec/12 R306): bus voltage in 0.1 V and bus
current in mA, positive into the module; Kettle voltage in 0.1 V and energy in 0.01 J; the report of each slab's regulator, and of
the regulators of each stack and of each port die. -/
structure Measure where
  busV : BitVec 14
  busI : Int
  kettleV : BitVec 14
  kettleE : BitVec 16
  slabs : List RailReport
  hbmStacks : List (List RailReport)
  west : List RailReport
  east : List RailReport
  deriving DecidableEq, Repr

/-- The temperatures read each beat (spec/12 R325, R331; spec/15 R408), 0.125 °C units: the eight sensors of
each slab, the hottest DRAM die of each stack, the coolant. -/
structure Temps where
  slabs : List (List (BitVec 12))
  hbmStacks : List (BitVec 12)
  inlet : BitVec 12
  outlet : BitVec 12
  deriving DecidableEq, Repr

/-- A failing test action of a start-up (spec/16 R418): in which attempt, which step and unit, whether the
alternative was the action that failed, the first failing item. -/
structure StepFail where
  second : Bool
  step : BitVec 8
  unit : BitVec 16
  alternative : Bool
  detail : BitVec 32
  deriving DecidableEq, Repr

/-- A link of the torus between two modules, numbered in any way, and the delay measured for it in 1/16 reference cycles
(spec/02 R31, R49). -/
structure TorusLink where
  a : Nat
  b : Nat
  delay : BitVec 16
  deriving DecidableEq, Repr

/-- The alignment of a start-up (spec/02 R31, R49): the delays measured on the trained ports; the port of an aligned neighbour
and the count, phase, tempo and hops that its ALIGN message gives, or none when the module is elected root; the links of the
torus with their delays. -/
structure AlignRun where
  delays : List (RPort × BitVec 16)
  source : Option (RPort × DWord × BitVec 12 × BitVec 12 × BitVec 5)
  links : List TorusLink
  deriving DecidableEq, Repr

/-- What the controller reads of the module record where it is not what was written (spec/16 R414, R415): the production
part with its signature; the attempt numbers of journal blocks whose signature fails; a preferred-slot block or a knell flag
block whose signature fails; the firmware slots whose signature fails (R423). -/
structure FlashRun where
  part : Option (List Byte) := none
  journal : List (BitVec 32) := []
  preferred : Bool := false
  knell : Bool := false
  slots : List Bool := []
  deriving DecidableEq, Repr

/-- What a start-up meets (spec/16 R415 to R426). Every action not listed in `fails` passes. `noFarEnd`: Reduit
ports that saw no far end. `far`: serial number and port of each trained port's far end. `align`: how the beat aligned,
or none when the start-up waits at step 0x22 for the alignment's own commands. `interrupted`: the power-up before this
one ended in this step (R422). `times`: ms from bus detection at the end of each journalled entry, in order. `flash`: what is read of the record. -/
structure BootRun where
  fails : List StepFail
  noFarEnd : List RPort
  far : List (RPort × DWord × BitVec 3)
  align : Option AlignRun
  interrupted : Option (BitVec 8)
  times : List (BitVec 32)
  bootTime : BitVec 24
  flash : FlashRun := {}
  deriving DecidableEq, Repr

/-! ## Accesses of a host port (spec/14 R366, R371, R389, spec/15 R396) -/

/-- How a BAR0 or BAR4 access is made: to BAR4 instead of BAR0; its length in bytes; its byte enables, bit i for byte i; an
AtomicOp; `same`: a write of the other port that follows in the queue reaches the same register in the same fabric cycle
(spec/14 R389); the upper word of an access of 8 bytes. The default is one word with all four byte enables. -/
structure Access where
  bar4 : Bool := false
  len : Nat := 4
  enables : Nat := 15
  atomic : Bool := false
  same : Bool := false
  high : Word := 0
  deriving DecidableEq, Repr

/-- How a BAR2 request meets the stack: the blocks that fail every read when they are read or a part of them is written; for a
write, those of its blocks, by number, that a write of the other port which follows in the queue reaches in the same fabric cycle
(spec/14 R389); an AtomicOp, which no BAR takes (spec/14 R366). -/
structure Bar2How where
  fails : List Nat := []
  same : List Nat := []
  atomic : Bool := false
  deriving DecidableEq, Repr

/-- What a COPY meets: the bytes read from host memory or from another module; the blocks of the copy, by number, that reach
the stack in the fabric cycle in which a write of the other port that follows in the queue reaches the same block (spec/14 R387,
R389). -/
structure CopyIn where
  bytes : List Byte
  same : List Nat := []
  deriving DecidableEq, Repr

/-- A step of PERMUTE: its operation; whether every chunk that it sent to another module has been written there, which this
module does not see (spec/11 R290). -/
structure PermuteIn where
  op : Fin 64
  written : Bool := false
  deriving DecidableEq, Repr

/-- A dual copy at a shadow stack: the packet; whether the guard of the staging fails where the reduction reads it (spec/11
R286, spec/13 R332 0x08). -/
structure DualIn where
  packet : Packet
  bad : Bool := false
  deriving DecidableEq, Repr

/-- An entry fetched from a submission ring; `same`: taken in the controller cycle of the other port's last command (spec/14
R389). -/
structure Fetched where
  bits : BitVec 512
  same : Bool := false
  deriving DecidableEq, Repr

/-- A write of SEM_k; `same`: a write of it by the other port that follows in the queue comes in the same fabric cycle (spec/14
R385, R389). -/
structure SemWrite where
  sem : Fin 16
  same : Bool := false
  deriving DecidableEq, Repr

/-! ## Faults found from outside a command (spec/13 R332) -/

/-- What a core's guard check found: the class and the failing place (spec/13 R332 0x01 to 0x04), in the
context named. -/
inductive Detect where
  | ls (block : Nat) (k : Ctx)
  | af (entry : Nat) (k : Ctx)
  | stat (entry : Nat) (k : Ctx)
  | instr (pc : Nat) (k : Ctx)
  deriving DecidableEq, Repr

/-- Where a fault that leads to the knell was charged: a core, a stack, or the module. -/
inductive Charged where
  | core (c : CoreId)
  | stack (h : StackId)
  | module
  deriving DecidableEq, Repr

/-- What a shadow or referee run meets (spec/13 R354, R356): whether it finds its idle cycles in time; the bytes that a
failing unit of the running core forms in place of the chain's, none when its units work. -/
structure ShadowTry where
  slack : Bool
  silent : Option (List Byte)
  deriving DecidableEq, Repr

/-- Port events of spec/14 R383. -/
inductive PortEvent where
  | hotReset
  | flr
  | d3hot
  | linkLoss
  deriving DecidableEq, Repr

/-- A request at a base die (spec/08 R199, R200): the packet that asks; a host request or one of the stack's own of some
blocks of the program region; or one of blocks of the module region (spec/01 R13, R16). -/
inductive Request where
  | packet (p : Packet)
  | host (write : Bool) (offset : Nat) (blocks : Nat)
  | own (write : Bool) (offset : Nat) (blocks : Nat)
  | region (write : Bool) (offset : Nat) (blocks : Nat)
  deriving DecidableEq, Repr

/-- Where a packet at a port die came from: the module's mesh, the other die, or a Reduit port. -/
inductive Arrival where
  | mesh
  | transit
  | port (p : RPort)
  deriving DecidableEq, Repr

/-! ## The commands -/

/-- The commands of the module, one per row of the table of operations and events. -/
inductive Instr where
  -- instructions of a context (spec/03 R82)
  | add (c : CoreId) (k : Ctx) (f : FmtS)
  | sub (c : CoreId) (k : Ctx) (f : FmtS)
  | and (c : CoreId) (k : Ctx) (f : FmtS)
  | or (c : CoreId) (k : Ctx) (f : FmtS)
  | xor (c : CoreId) (k : Ctx) (f : FmtS)
  | shl (c : CoreId) (k : Ctx) (f : FmtS)
  | shr (c : CoreId) (k : Ctx) (f : FmtS)
  | sra (c : CoreId) (k : Ctx) (f : FmtS)
  | mul (c : CoreId) (k : Ctx) (f : FmtS)
  | mulh (c : CoreId) (k : Ctx) (f : FmtS)
  | slt (c : CoreId) (k : Ctx) (f : FmtS)
  | ldw (c : CoreId) (k : Ctx) (f : FmtS)
  | stw (c : CoreId) (k : Ctx) (f : FmtS)
  | rdspec (c : CoreId) (k : Ctx) (f : FmtS)
  | brc (c : CoreId) (k : Ctx) (f : FmtS)
  | jmp (c : CoreId) (k : Ctx) (f : FmtS)
  | aload (c : CoreId) (k : Ctx) (f : FmtM)
  | aloadt (c : CoreId) (k : Ctx) (f : FmtM)
  | apass (c : CoreId) (k : Ctx) (f : FmtM)
  /-- the next weight column on its way to the AF of core c is added -/
  | accumulate (c : CoreId)
  | aclr (c : CoreId) (k : Ctx) (f : FmtM)
  | apre (c : CoreId) (k : Ctx) (f : FmtM)
  | aread (c : CoreId) (k : Ctx) (f : FmtM)
  | adrop (c : CoreId) (k : Ctx) (f : FmtM)
  | vbin (c : CoreId) (k : Ctx) (f : FmtM)
  | vfma (c : CoreId) (k : Ctx) (f : FmtM)
  | vun (c : CoreId) (k : Ctx) (f : FmtM)
  | vcvt (c : CoreId) (k : Ctx) (f : FmtM)
  | vscale (c : CoreId) (k : Ctx) (f : FmtM)
  | rstat (c : CoreId) (k : Ctx) (f : FmtM)
  | rsmax (c : CoreId) (k : Ctx) (f : FmtM)
  | rnorm (c : CoreId) (k : Ctx) (f : FmtM)
  | rsmaxb (c : CoreId) (k : Ctx) (f : FmtM)
  | rnormb (c : CoreId) (k : Ctx) (f : FmtM)
  | cpy (c : CoreId) (k : Ctx) (f : FmtM)
  /-- the copy engine of core c reads the descriptor of the oldest CPY not yet read -/
  | descriptorRead (c : CoreId)
  | cmark (c : CoreId) (k : Ctx) (f : FmtM)
  | sig (c : CoreId) (k : Ctx) (f : FmtY)
  /-- `held`: consecutive arithmetic cycles the counter condition held the WAIT back (spec/17 R442) -/
  | wait (c : CoreId) (k : Ctx) (f : FmtY) (held : WaitIn)
  | beat (c : CoreId) (k : Ctx) (f : FmtY)
  | endCtx (c : CoreId) (k : Ctx) (f : FmtY)
  | nop (c : CoreId) (k : Ctx) (f : FmtY)
  -- the beat (spec/02 R27)
  | beatStart
  | strokeIssueClose
  | journalCommit
  | holdSample
  | boundarySnapshot
  | powerStep (m : Measure)
  | muffleClockStop
  | journalSeal
  | holdVerdict
  | copyLagCheck
  | barBoundary
  | rtScrub
  | downbeatEntry
  | traceEpoch
  | slabTempRead (t : Temps)
  -- the sideband (spec/02 R31 to R35, spec/10 R265 to R267)
  | sidebandFrame (p : RPort) (f : SbFrame)
  /-- times in 1/16 reference cycle: the far end's send time, the time it received our last probe, the probe
  number it echoes, and our own clock on arrival -/
  | delayProbe (p : RPort) (sent received : Word) (echo : BitVec 16) (now : Word)
  | alignMessage (p : RPort) (count : DWord) (phase tempo : BitVec 12) (hops : BitVec 5)
  | elect (p : RPort) (lowest : DWord)
  | rootElected
  /-- `links`: the links of the torus with their measured delays, from which the controller computes the worst flood latency
  (R49) -/
  | alignConfirm (links : List TorusLink)
  | clockFinalRelease
  | downbeatMessage (p : RPort) (d : DWord) (digest : BitVec 128)
  | knellMessage (p : RPort) (coord : BitVec 10) (serial : DWord) (cause : BitVec 4)
  | powerSlack (p : RPort) (body : BitVec 320)
  /-- `place`: coordinates and shape, sent after a load -/
  | ident (p : RPort) (serial : DWord) (port : BitVec 3) (place : Option (BitVec 10 × BitVec 10))
  | neighbourSilent (p : RPort)
  /-- relay path 0 at row 0 or 1 at row 319 fails -/
  | relayFail (path : Fin 2)
  -- links and routing (spec/10)
  /-- `raw`: the 1,072 bytes of the frame; codewords that could not be corrected; symbols corrected; what the link
  layer keeps of its own frames: frames sent after the one that this frame's ACK names, and packets whose last flit
  lies in frames up to it -/
  | linkFrame (p : RPort) (raw : List Byte) (badCodewords corrected unacked acked : Nat)
  /-- `unacked`: frames kept and not acknowledged -/
  | portRetrain (p : RPort) (unacked : Nat)
  /-- a flit received by the router of core c from its side 0 N, 1 S, 2 E, 3 W, 4 local: `fails` times in a
  row its CRC failed; `p`: the packet it belongs to, lost if it failed four times -/
  | meshFlit (c : CoreId) (side : Fin 5) (tries : List FlitTry) (p : Packet)
  | torusRoute (d : Die) (from_ : Arrival) (p : Packet)
  | escapeMove (d : Die) (p : Packet)
  -- copies and stacks (spec/08, spec/09)
  | copyRequest (c : CoreId)
  /-- `lineFails`: the cache-part line that the request hits fails its CRC (spec/13 R332) -/
  | baseDieAccept (h : StackId) (r : Request) (lineFails : Bool)
  | regulatorSlot (h : StackId)
  /-- the block at `offset` is read: its first `fails` reads fail their CRC -/
  | hbmRead (h : StackId) (offset : Nat) (fails : Nat)
  /-- the fill of kilobyte `kb` completes; `bad`: blocks 0 to 15 of it that failed all three reads -/
  | lineFill (h : StackId) (kb : Nat) (bad : List (Fin 16))
  /-- `bad`: the block of the request, from 0, whose guard the read finds failing -/
  | readPacket (p : Packet) (bad : Option Nat)
  | writePacket (p : Packet)
  /-- the final write held at the endpoint for the transfer of this tag and slot -/
  | finalWriteApply (at_ : EndPt) (tag : EndPt) (slot : BitVec 5)
  | pealForward (c : CoreId) (p : Packet)
  | pealFinal (c : CoreId) (p : Packet)
  | signalPacket (p : Packet)
  | ack (p : Packet)
  | refuseNotice (p : Packet)
  | refusedResend
  | failNotice (p : Packet)
  | loopPacket (d : Die) (from_ : Arrival) (p : Packet)
  -- faults and replay (spec/13)
  /-- `found`: a guard failure found by the read under way, or none when a roll is already pending -/
  | coreRoll (c : CoreId) (found : Option Detect)
  | copyRoll (c : CoreId) (slot : Fin 16)
  /-- the shadow of core c's record is run at its partner -/
  | shadowRun (c : CoreId) (output : ShadowTry)
  | refereeRun (c : CoreId) (output : ShadowTry)
  | knellEntry (cause : BitVec 4) (at_ : Charged)
  -- Carillon (spec/11)
  /-- `bad`: the staged pieces or the sum fail their guard (spec/13 R332 0x08) -/
  | rankEnter (h : StackId) (op : Fin 64) (block : Nat) (bad : Bool)
  | blockRearm (h : StackId) (op : Fin 64) (block : Nat)
  | carillonData (p : Packet)
  | dualCopy (c : DualIn)
  | dualResult (p : Packet)
  | normPartial (p : Packet)
  | normRecord (p : Packet)
  | sumsqStart (h : StackId) (op : Fin 64)
  | allgatherStart (h : StackId) (op : Fin 64)
  | permuteStart (h : StackId) (op : PermuteIn)
  | passroundStart (h : StackId) (op : Fin 64)
  | optimizeStart (h : StackId) (op : Fin 64)
  -- the power stage (spec/12, spec/18)
  | busLost
  | rideRetain
  | busReturn
  | kettleEmpty
  /-- `v`: bus voltage of the tenth sample, 0.1 V -/
  | supportEntry (v : BitVec 14)
  | supportEnd
  /-- lowest sample in 0.1 V, samples from the first to the last outside the range -/
  | busSag (lowest : Nat) (samples : Nat)
  | busSwell (highest : Nat) (samples : Nat)
  /-- rms of the four bands, 0.01 V -/
  | rippleWindow (b0 b1 b2 b3 : BitVec 16)
  /-- `cycles`: arithmetic cycles of the slab that were stretched -/
  | droopStretch (slab : Fin 16) (cycles : Nat)
  | converterFault
  | hintExpire
  | refclkValid
  | refclkLost
  | powerUp (r : BootRun)
  | softStartEnd
  -- host ports (spec/14)
  | portReset (p : HPort) (e : PortEvent)
  | perstAssert (p : HPort)
  | hostReadTimeout (p : HPort) (k : Ring)
  /-- `entry`: the 64 bytes the device's DMA read returned -/
  | commandFetch (p : HPort) (k : Ring) (entry : Fetched)
  /-- `extents`: the extent list read from host memory; `image`: the bytes the extents hold, in order -/
  | loadImage (p : HPort) (k : Ring) (extents : List (DWord × DWord)) (image : List Byte)
  | imageCheck
  | launch (p : HPort) (k : Ring)
  | halt (p : HPort) (k : Ring)
  | phaseHint (p : HPort) (k : Ring)
  | powerCap (p : HPort) (k : Ring)
  /-- `data`: for DIR 0 the bytes read from host memory; `lost`: for DIR 1 the offset of a block that failed
  all its reads; `pathDown`: a path to the target is DOWN -/
  | copy (p : HPort) (k : Ring) (data : CopyIn) (lost : Option Nat) (pathDown : Bool)
  | snapshot (p : HPort) (k : Ring)
  | wfGraphBuild
  | traceConfigure (p : HPort) (k : Ring)
  | traceArm (p : HPort) (k : Ring)
  | traceForceTrigger (p : HPort) (k : Ring)
  | traceStop (p : HPort) (k : Ring)
  | traceReadOut (p : HPort) (k : Ring)
  | traceFreeze
  | traceCollect (h : StackId)
  | loopback (p : HPort) (k : Ring)
  /-- the outcome of the test in progress: errors seen, HOPS at Reduit depth 5 -/
  | loopbackDone (p : HPort) (k : Ring) (errors : Word) (hops : BitVec 8)
  | drain (p : HPort) (k : Ring)
  | drainQuiet
  | sqTailDoorbell (p : HPort) (k : Ring) (v : Word)
  | cqHeadDoorbell (p : HPort) (k : Ring) (v : Word)
  | sqCfgWrite (p : HPort) (k : Ring) (v : Word)
  | cqCfgWrite (p : HPort) (k : Ring) (v : Word)
  /-- `both`: the other port claims the same semaphore in the same fabric cycle -/
  | semAcquire (p : HPort) (k : Fin 16) (both : Bool)
  | semRelease (p : HPort) (k : SemWrite)
  | beatSnap (p : HPort) (v : Word)
  | cntSnap (p : HPort) (v : Word)
  | attest
  | cert
  | fwStage
  | bitAliasWrite (p : HPort) (offset : Nat) (v : Word)
  /-- a read of BAR0, or of BAR4 if `bar4`, at this offset -/
  | loLatchRead (p : HPort) (how : Access) (offset : Nat)
  | rtVoteRead (p : HPort) (offset : Nat)
  /-- `fails`: blocks of the request (from 0) whose CRC fails all three reads -/
  | bar2Read (p : HPort) (offset : Nat) (len : Nat) (how : Bar2How)
  | bar2Write (p : HPort) (offset : Nat) (bytes : List Byte) (how : Bar2How)
  /-- `aligned`: one aligned 32-bit word with all byte enables (R396) -/
  | registerWrite (p : HPort) (offset : Nat) (v : Word) (how : Access)
  | linkTraining (p : RPort) (serial : DWord) (port : BitVec 3) (half : Bool) (allLanes : Bool)
  | hostLinkUp (p : HPort) (rate : BitVec 2) (width : BitVec 4) (flit : Bool)
  | d3hotExit (p : HPort)
  | loopbackSlave (p : HPort) (enter : Bool)
  | hostReadError (p : HPort) (k : Ring)
  deriving DecidableEq, Repr

end Sys2Proof
end

