-- ==== Sys2Proof/Machine/State.lean ====
section
/-! DEFINITION. The state of one UT1-L8 module as plain data, the reasons a step could stop, and the state
after reset. Sparse parts (cores, stacks, memories, counters) list only what differs from the fresh value, in
rising order of key. -/

namespace Sys2Proof.Machine

/-! ## Containers -/

/-- A map from keys to values: keys strictly rising, no value equal to the fresh one (Machine/Sparse.lean). -/
abbrev Sparse (α : Type) := List (Nat × α)

/-- Bytes of a store by offset; an unlisted byte reads 0. -/
abbrev Mem := List Host.Cell

/-- Four of a kind: the contexts or the AF banks of a core (spec/03 R64, R75). -/
structure Quad (α : Type) where
  q0 : α
  q1 : α
  q2 : α
  q3 : α
  deriving DecidableEq, Repr

/-- An RT register, stored three times (spec/15 R398). -/
structure Triple (w : Nat) where
  c0 : BitVec w
  c1 : BitVec w
  c2 : BitVec w
  deriving DecidableEq, Repr

/-- A triple whose copies agree. -/
def Triple.all {w : Nat} (v : BitVec w) : Triple w := ⟨v, v, v⟩

/-! ## The core -/

/-- The special tag of an AF entry column (spec/06 R142). -/
inductive Tag where
  | none
  | posInf
  | negInf
  | nan
  deriving DecidableEq, Repr

/-- An AF entry column: the integer A and its tag (spec/06 R139). -/
structure AfCol where
  a : BitVec 128 := 0
  tag : Tag := .none
  deriving DecidableEq, Repr

/-- An AF bank (spec/03 R75, spec/06 R139, R148). `opened`: checkpoints the core had taken when the bank was
opened, which decides the restart checkpoint of spec/13 R340. `opens`: openings since the downbeat, a replay counting
its own anew; `uppers`: the openings whose chain overflowed, which every later replay opens in the upper window
(spec/06 R149, R150; notes/assumptions/144). -/
structure Bank where
  isOpen : Bool := false
  owner : BitVec 2 := 0
  age : BitVec 2 := 0
  upper : Bool := false
  rep : Bool := false
  opened : Nat := 0
  opens : Nat := 0
  uppers : List Nat := []
  deriving DecidableEq, Repr

/-- A stationary operand (spec/05 R124 to R126): its format code, its element codes at index
(column·slots + slot)·32 + row, its fine scales at index column·slots + slot. -/
structure Station where
  fmt : BitVec 4
  codes : List (BitVec 8)
  scales : List (BitVec 4)
  deriving DecidableEq, Repr

/-- One group sum s · 2^l with its group tag, weighted by LIMB (spec/05 R130, spec/06 R142). -/
structure GroupSum where
  s : Int
  l : Int
  tag : Tag
  deriving DecidableEq, Repr

/-- The group sums of one weight column on their way to an AF entry (spec/05 R133), and the chain they belong to: the window of
its bank, the number of the opening, and the checkpoints taken before it (spec/06 R140, R149). -/
structure GroupCol where
  ctx : Ctx
  entry : Nat
  sums : List GroupSum
  upper : Bool := false
  opens : Nat := 0
  opened : Nat := 0
  deriving DecidableEq, Repr

/-- One instruction of a chain with its resolved A, B and D addresses (spec/13 R353). -/
structure ChainStep where
  word : DWord
  a : Nat
  b : Nat
  d : Nat
  deriving DecidableEq, Repr

/-- Byte ranges of the LS and entry ranges of the AF and the statistics store that an instruction reads and
writes; `hdr` is the address of a header or descriptor block whose fields its checks judge (spec/03 R480). -/
structure Use where
  lsR : List (Nat × Nat) := []
  lsW : List (Nat × Nat) := []
  afR : List (Nat × Nat) := []
  afW : List (Nat × Nat) := []
  stR : List (Nat × Nat) := []
  stW : List (Nat × Nat) := []
  hdr : Option Nat := none
  deriving DecidableEq, Repr

/-- An instruction of a context as readiness sees it (spec/03 R68, R70): its opcode, the registers it reads, the one it writes
(0: none), what it touches, and the arithmetic cycles after which, at the latest, its unit is free and its results are
usable. -/
structure Work where
  ctx : Ctx
  op : Nat
  reads : List Nat := []
  dst : Nat := 0
  use : Use := {}
  busy : Nat := 0
  lat : Nat := 0
  deriving DecidableEq, Repr

/-- An error counter (spec/17 R435). -/
structure ErrCtr where
  value : BitVec 32 := 0
  sticky : Bool := false
  deriving DecidableEq, Repr

/-- A sync counter (spec/09 R223, spec/17 R443): LAST_SRC as an endpoint, LOCAL. -/
structure SyncCtr where
  value : BitVec 16 := 0
  sat : Bool := false
  zero : Bool := false
  src : Option EndPt := none
  local_ : Bool := false
  /-- its last change was clamped (R225) -/
  clamped : Bool := false
  deriving DecidableEq, Repr

/-- The local SIG that issued last on a core: its counter and the count of clamps as it found them, its increment, and whether
its issue is over (spec/09 R225, R226). -/
structure SigMark where
  ctr : Fin 64
  before : SyncCtr
  clamps : ErrCtr
  inc : Nat
  issued : Bool := false
  deriving DecidableEq, Repr

/-- What the issues of a core tell of readiness, each of which takes an arithmetic cycle of its own (spec/03 R68, R70; spec/09
R226): for each context the cycles until its next instruction can issue after a taken branch; the instructions whose unit may
still be occupied or whose results may still be out, oldest first; issues since a sync counter last changed, up to 3; the local
SIG that issued last, while no sync counter has changed since. -/
structure Pace where
  wait : Quad Nat := ⟨0, 0, 0, 0⟩
  work : List Work := []
  idle : Nat := 3
  sig : Option SigMark := none
  deriving DecidableEq, Repr

/-- A context (spec/03 R64, R88). -/
structure CtxState where
  enabled : Bool := false
  entry : BitVec 10 := 0
  pc : BitVec 10 := 0
  regs : Sparse Word := []
  running : Bool := false
  /-- restored by a roll inside stroke N, which it goes on with from the next work window (spec/13 R341, R346) -/
  resume : Bool := false
  ended : Bool := false
  stopped : Bool := false
  /-- beat in which the context was first held over (spec/13 R346) -/
  heldSince : Option Nat := none
  /-- the generator's state; none while it stands as the last downbeat seeded it (spec/04 R118) -/
  dither : Option DWord := none
  /-- next stroke index N (spec/13 R334) -/
  n : Nat := 0
  /-- the two copies of the stationary operand (spec/05 R132) -/
  stat0 : Option Station := none
  stat1 : Option Station := none
  newest : Bool := false
  passUsed : Bool := false
  /-- CPYs and remote SIGs a replay still suppresses (spec/13 R343) -/
  skipCpy : Nat := 0
  skipSig : Nat := 0
  /-- CMARKs issued, which number the groups of the copy stream (spec/08 R204) -/
  marks : Nat := 0
  /-- the lowest group of a copy that stored-data loss took its slot from: fenced mode holds later groups for good (spec/08
  R204, R208) -/
  lostGroup : Option Nat := none
  /-- the statistics store as stroke N found it (spec/07 R184) -/
  statAtStart : Mem := []
  /-- wait registers: counter, VALUE, beat the wait began (spec/17 R451) -/
  waiting : Option (BitVec 6 × BitVec 16 × Nat) := none
  /-- chain steps of the stroke so far, for shadowing; none once a chain of the stroke was found not
  eligible or was recorded (spec/13 R352) -/
  chain : Option (List ChainStep) := none
  /-- not at its fence when issue closed: an overrun (spec/02 R43, spec/03 R85) -/
  overran : Bool := false
  deriving DecidableEq, Repr

/-- A copy in a descriptor slot (spec/08 R192). -/
structure CopySlot where
  id : Nat
  ctx : Ctx
  desc : BitVec 512
  due : Bool
  idle : Bool
  /-- stroke beats counted when the copy was issued: its due stroke beat is the next one (spec/08 R205) -/
  issuedT : Nat
  group : Nat
  sent : Nat
  /-- requests of it that its source has read -/
  reads : Nat
  aborted : Bool
  /-- a copy roll of this copy is pending (spec/13 R347) -/
  rolling : Bool
  /-- its final write has been applied, as far as this module sees (spec/08 R194) -/
  landed : Bool := false
  /-- the range record of spec/03 R72 is still held -/
  tracked : Bool
  deriving DecidableEq, Repr

/-- A CPY whose descriptor the copy engine has not read yet (spec/08 R186). -/
structure CpyIssue where
  ctx : Ctx
  block : Nat
  due : Bool
  idle : Bool
  pc : BitVec 10
  issuedT : Nat
  group : Nat
  deriving DecidableEq, Repr

/-- A landing entry of an endpoint (spec/09 R217, R218). -/
structure Landing where
  tag : EndPt
  slot : BitVec 5
  applied : Nat
  final : Option Packet
  aborted : Bool
  deriving DecidableEq, Repr

/-- A journalled landing in a core's LS (spec/13 R336). -/
structure LandEntry where
  src : DWord
  dstOff : Nat
  rowBlocks : BitVec 10
  rows : BitVec 10
  srcStride : Word
  dstStride : Word
  issuer : EndPt
  peal : Bool
  beatLo : Word
  deriving DecidableEq, Repr

/-- A beat record of a core (spec/13 R336). -/
structure BeatRec where
  beat : Nat
  t : Nat
  rest : Bool
  isSealed : Bool
  logFull : Bool
  entries : List LandEntry
  deriving DecidableEq, Repr

/-- What a checkpoint keeps of a context (spec/13 R334). -/
structure CtxSave where
  pc : BitVec 10
  regs : Sparse Word
  enabled : Bool
  ended : Bool
  dither : Option DWord
  station : Option Station
  n : Nat
  marks : Nat
  /-- inside stroke N at the edge: held over (R346) -/
  within : Bool := false
  /-- the statistics store as that stroke found it (spec/07 R184) -/
  statAtStart : Mem := []
  deriving DecidableEq, Repr

/-- A checkpoint of the core tier (spec/13 R334). -/
structure Checkpoint where
  seq : Nat
  beat : Nat
  ctxs : Quad CtxSave
  banks : Quad Bank
  cpys : Quad Nat
  sigs : Quad Nat
  tallies : Sparse Int
  landed : List Nat
  /-- the statistics store at the edge, which the entries of a stroke that goes on in its middle return to (spec/07 R184) -/
  stat : Mem
  /-- its context and bank parts were sealed in the window before the edge (R335) -/
  isSealed : Bool
  deriving DecidableEq, Repr

/-- A roll waiting to be carried out at a core: what was found, the place, the context, the beat (spec/13 R339, R362). -/
structure RollCause where
  cls : Nat
  addr : DWord
  ctx : Ctx
  item : Option Nat
  beat : Nat
  deriving DecidableEq, Repr

/-- An entry saved before an RSMAX in MODE 1 wrote it (spec/07 R184): context, stroke, entry, its 8 bytes at the
start of the stroke; checkpoints the core had taken when an RSMAX of the stroke wrote it last. -/
structure EntrySave where
  ctx : Ctx
  n : Nat
  entry : Nat
  bytes : List Byte
  seq : Nat
  deriving DecidableEq, Repr

/-- A shadow record (spec/13 R353) and how far its arbitration has come. -/
structure ShadowRec where
  ctx : Ctx
  n : Nat
  beat : Nat
  dither : DWord
  steps : List ChainStep
  signature : Word
  /-- the partner's signature once its run differed and the referee is due -/
  partner : Option Word
  deriving DecidableEq, Repr

/-- A core (spec/01 R11). -/
structure Core where
  ctxs : Quad CtxState
  /-- the context that issued most recently (spec/03 R69) -/
  last : Option Ctx := none
  /-- what its issues tell of which contexts are ready (spec/03 R69) -/
  pace : Pace := {}
  ls : Mem := []
  lsBad : List Nat := []
  landed : List Nat := []
  /-- AF entry column by key 8·entry + column -/
  af : Sparse AfCol := []
  afBad : List Nat := []
  banks : Quad Bank
  stat : Mem := []
  statBad : List Nat := []
  instr : Sparse DWord := []
  instrBad : List Nat := []
  /-- the program copy of the roll journal (spec/13 R337) -/
  program : Sparse DWord := []
  ctrs : Sparse SyncCtr := []
  slots : List CopySlot := []
  cpys : List CpyIssue := []
  /-- slots that took their turn in the present round of requests (spec/08 R193) -/
  served : List Nat := []
  landing : List Landing := []
  landingPeak : Nat := 0
  arrayQ : List GroupCol := []
  check : Word := 0
  errs : Sparse ErrCtr := []
  arrayBusy : DWord := 0
  vectorBusy : DWord := 0
  rowBusy : DWord := 0
  copyBlocks : DWord := 0
  ckptSeq : Nat := 0
  checkpoints : List Checkpoint := []
  records : Sparse BeatRec := []
  landLog : List LandEntry := []
  logFull : Bool := false
  saves : List EntrySave := []
  roll : Option RollCause := none
  rolling : Bool := false
  /-- further causes found while a roll is due, and the places found so far by the roll under way: class and item
  (spec/13 R342, R351) -/
  rollMore : List RollCause := []
  rollFound : List (Nat × Nat) := []
  /-- the checkpoint that the roll under way restored (spec/13 R351) -/
  rollSeq : Nat := 0
  /-- LS blocks and statistics entries left to the replay to rewrite (spec/13 R342) -/
  unrepaired : List Nat := []
  unrepairedStat : List Nat := []
  /-- places lost and not written since: class and item (spec/13 R342, R350) -/
  lost : List (Nat × Nat) := []
  /-- repair copies under way: slot number and block (spec/13 R342) -/
  repairs : List (Nat × Nat) := []
  shadow : Option ShadowRec := none
  /-- the shadow record that stands in the stack tier (spec/13 R353) -/
  shadowLog : Option ShadowRec := none
  /-- peal routes the router holds (spec/08 R195) -/
  routes : List Nat := []
  deriving DecidableEq, Repr

/-- Four equal parts. -/
def Quad.all {α : Type} (v : α) : Quad α := ⟨v, v, v, v⟩

/-- A core no image has given work and no packet has touched. -/
def Core.fresh : Core := { ctxs := Quad.all {}, banks := Quad.all {} }

/-! ## The stack and its base die -/

/-- Request classes of a stack (spec/08 R200). -/
inductive ReqClass where
  | read
  | write
  | remote
  | host
  | idle
  deriving DecidableEq, Repr

/-- A request holding an entry of the controller (spec/08 R199, R201): the interface slots still due, one for each block
and one for each CRC line fetched for it; the program blocks it names, from `first`. -/
structure ReqEntry where
  cls : ReqClass
  kept : Bool
  req : Request
  blocks : Nat
  first : Nat := 0
  count : Nat := 0
  deriving DecidableEq, Repr

/-- A line of the cache part (spec/08 R203): the kilobyte it holds and its data. -/
structure CacheLine where
  kb : Nat
  data : List Byte
  deriving DecidableEq, Repr

/-- A line fill in progress (spec/09 R234): `dirty` once a write to its kilobyte was applied. -/
structure Fill where
  kb : Nat
  dirty : Bool
  waiting : List Packet
  deriving DecidableEq, Repr

/-- State of a REDUCE block (spec/11 R279). -/
inductive BlockState where
  | armed
  | filling
  | done
  deriving DecidableEq, Repr

/-- A piece staged for a REDUCE block. -/
structure Piece where
  rank : Nat
  index : Nat
  data : List Byte
  deriving DecidableEq, Repr

/-- A REDUCE block (spec/11 R279 to R283). -/
structure RBlock where
  state : BlockState := .armed
  gen : BitVec 16 := 0
  sum : List Word := []
  next : Nat := 0
  pieces : List Piece := []
  since : Nat := 0
  /-- which block of its stack this was to become FILLING (spec/11 R299) -/
  order : Nat := 0
  doneBeat : Nat := 0
  result : List Byte := []
  /-- where the sum, the next rank's area and the staged ranks lie: true is the overflow area -/
  sumSpill : Bool := false
  keptSpill : Bool := false
  staged : List (Nat × Bool) := []
  /-- pieces of the dual result received for the last result (spec/11 R286) -/
  dual : List (Nat × List Byte) := []
  deriving DecidableEq, Repr

/-- Progress of a started operation (spec/11 R273, R276, R287 to R292). -/
structure OpRun where
  gen : BitVec 16 := 0
  running : Bool := false
  /-- a start of the next generation is held (spec/11 R273) -/
  held : Bool := false
  /-- the operation's own step has been carried out -/
  begun : Bool := false
  /-- units received in this generation -/
  got : List Nat := []
  /-- PASSROUND: (slot, step) of every held slot; steps that have landed whole -/
  slots : List (Nat × Nat) := []
  landed : List Nat := []
  /-- PASSROUND: steps whose slot was released (spec/11 R292) -/
  freed : List Nat := []
  /-- PERMUTE: KiB this member sent; the beat in which it had sent them, from which it waits -/
  sent : Nat := 0
  since : Nat := 0
  /-- SUMSQ at the norm owner: (member index, 640-bit sum, NONFINITE) -/
  partials : List (Nat × Nat × Bool) := []
  deriving DecidableEq, Repr

/-- Dual copies a shadow stack stages for the stack before it (spec/11 R286). -/
structure DualStage where
  op : Nat
  gen : BitVec 16
  addr : DWord
  pieces : List Piece
  /-- space held in the staging area, KiB each; true is the overflow area -/
  held : List (Nat × Bool) := []
  deriving DecidableEq, Repr

/-- Carillon of one stack (spec/11 R271). -/
structure Car where
  trigBase : Nat := 0
  loaded : Bool := false
  ops : Sparse (BitVec 512) := []
  runs : Sparse OpRun := []
  blocks : Sparse RBlock := []
  stageUse : Nat := 0
  spillUse : Nat := 0
  duals : List DualStage := []
  /-- blocks that have become FILLING (spec/11 R299) -/
  fills : Nat := 0
  opGenSel : BitVec 6 := 0
  deriving DecidableEq, Repr

/-- The trace buffer and the collector's queue of one stack (spec/17 R444, R445, R449). -/
structure TraceBuf where
  queue : List (BitVec 128) := []
  records : List (BitVec 128) := []
  wrapped : Bool := false
  /-- place of the oldest record in the trace area -/
  head : Nat := 0
  full : Bool := false
  oldestHi : BitVec 32 := 0
  deriving DecidableEq, Repr

/-- Beat records of one beat slot that the cores of a slab with no record of their own still have to write: from the core of
index `next` on, in order of index, but for those listed (spec/13 R336; notes/assumptions/192: DESIGN CHOICE). -/
structure RecordRun where
  slot : Nat
  next : Nat
  skip : List Nat
  deriving DecidableEq, Repr

/-- A stack with its base die. -/
structure Stack where
  hbm : Mem := []
  hbmBad : List Nat := []
  sc : Mem := []
  scBad : List Nat := []
  lines : List CacheLine := []
  fills : List Fill := []
  reqs : List ReqEntry := []
  reqPeak : Nat := 0
  waiting : List Request := []
  /-- beat records of cores with nothing of their own that no entry has taken yet (R336) -/
  unlisted : List RecordRun := []
  /-- the column of the attachment whose turn comes next (R199) -/
  turn : Nat := 0
  /-- the CRC line buffer: the kilobyte of each line held, and its blocks read or written since (spec/01 R15) -/
  crcLines : List (Nat × List Nat) := []
  slot : Nat := 0
  landing : List Landing := []
  landingPeak : Nat := 0
  up : Bool := false
  test : Bool := false
  lost : Bool := false
  temp : BitVec 12 := 0
  loopDepth : BitVec 3 := 0
  loopPass : Bool := false
  loopBusy : Bool := false
  loopTarget : BitVec 3 := 0
  /-- transit rows passed on the request and the reply plane (spec/10 R248): 0 is row 1 -/
  rotReq : Nat := 0
  rotRep : Nat := 0
  car : Car := {}
  trace : TraceBuf := {}
  deriving DecidableEq, Repr

/-! ## Fabric, port dies, Reduit ports -/

/-- A refused packet and the reference cycle at which its source sends it again (spec/10 R240). -/
structure Resend where
  packet : Packet
  due : Nat
  deriving DecidableEq, Repr

/-- A port die (spec/10 R248, R256, R257): packets ejected into the request buffer, packets waiting with no
adaptive credit, packets in transit to the other die. -/
structure PortDie where
  eject : List Packet := []
  /-- packets that wait, each with how it came -/
  blocked : List (Packet × Arrival) := []
  transit : List Packet := []
  rotReq : Nat := 0
  rotRep : Nat := 0
  deriving DecidableEq, Repr

/-- A Reduit port (spec/10 R254, R259 to R262, R270). -/
structure ReduitPort where
  trained : Bool := false
  retraining : Bool := false
  down : Bool := false
  unused : Bool := false
  cableMismatch : Bool := false
  halfRate : Bool := false
  loopback : Bool := false
  delay : BitVec 16 := 0
  farSerial : DWord := 0
  farPort : BitVec 3 := 0
  /-- coordinates and shape that its IDENT message gave -/
  farPlace : Option (BitVec 10 × BitVec 10) := none
  farAligned : Bool := false
  /-- adaptive credits held; flits handed over that still wait for a credit; escape buffers free at the far end -/
  adaptive : Nat := 0
  owed : Nat := 0
  escape : Nat := 0
  loopDepth : BitVec 3 := 0
  loopPass : Bool := false
  loopBusy : Bool := false
  /-- next SEQ expected; last own SEQ acknowledged; a NAK goes out in the next frame -/
  seqNext : BitVec 12 := 0
  ackedSeq : BitVec 12 := 0
  nak : Bool := false
  /-- retrains in a row with no accepted frame between them -/
  retrains : Nat := 0
  /-- failed step 0x20 or 0x21: out of service for the power-up (spec/16 R418) -/
  failed : Bool := false
  /-- sideband fragments of the frame being received -/
  frags : List (List Byte) := []
  /-- torus flits of packets being received, per virtual channel -/
  rxAdaptive : List Byte := []
  rxEscape : List Byte := []
  /-- torus flits of the whole packets received that the router has not taken yet -/
  rx : List (List Byte) := []
  /-- packets handed to the link and packets held for the port -/
  tx : List Packet := []
  /-- number and send time of the last delay probe sent; number and time of the last one received (spec/02 R31) -/
  probe : BitVec 16 := 0
  probesIn : BitVec 16 := 0
  probeSent : Word := 0
  probeRecv : Word := 0
  /-- lowest serial number heard in the election and frames in a row in which this module's own survived -/
  electLow : Option DWord := none
  electRun : Nat := 0
  /-- a mismatching sideband frame came in this beat; one between aligned modules did (spec/02 R33, R34) -/
  mismatch : Bool := false
  strayed : Bool := false
  /-- beat since which every escape buffer at the far end is in use, as the ends of beats found it (spec/17 R452) -/
  dry : Option Nat := none
  /-- the beat in which the sideband was last heard; silent per R35 -/
  heard : Nat := 0
  silent : Bool := false
  /-- downbeat and digest received since the launch (spec/02 R53) -/
  downbeat : Option (DWord × BitVec 128) := none
  deriving DecidableEq, Repr

/-- A sideband message to send on a port, or a hold tag (spec/10 R265, R266). -/
inductive SbOut where
  | message (p : RPort) (type : BitVec 8) (body : BitVec 320)
  | hold (p : RPort) (tag : Nat)
  deriving DecidableEq, Repr

/-! ## The power stage -/

/-- A pending phase hint (spec/12 R317). -/
structure Hint where
  beat : Nat
  power : Nat
  len : Nat
  deriving DecidableEq, Repr

/-- A slack report (spec/12 R326). -/
structure Slack where
  rank : Nat
  bar : BitVec 16
  lcur : Nat
  lneed : Nat
  floor : Nat
  margin : Nat
  pmax : Nat
  plev : List Nat
  deriving DecidableEq, Repr

/-- The Tympan (spec/12 R331). -/
structure Tympan where
  busOk : Bool := false
  busLost : Bool := false
  rideWork : Bool := false
  rideRetain : Bool := false
  /-- a rest beat has passed in retention (spec/12 R307) -/
  rideRest : Bool := false
  reserveOk : Bool := false
  softStart : Bool := false
  ballastOn : Bool := false
  support : Bool := false
  returning : Bool := false
  stage1 : Bool := false
  stage2 : Bool := false
  trip : Bool := false
  capUnmet : Bool := false
  powerHold : Bool := false
  convFault : Bool := false
  slope : BitVec 13 := 0x3E8
  supportCfg : BitVec 2 := 0
  supportV : BitVec 14 := 0x1CE8
  busV : BitVec 14 := 0
  busP : BitVec 32 := 0
  /-- the reports of the last beat (spec/01 R23) -/
  reports : Option Measure := none
  /-- the setpoint B of the beat and of the next one in W, exact (spec/12 R312) -/
  busSet : Rat := 0
  busNext : Rat := 0
  /-- demand D of the last beat, rail W, exact (spec/12 R306) -/
  demand : Rat := 0
  /-- (bar, largest demand of the bar) over the last 1,024 bars (spec/12 R313) -/
  peaks : List (Nat × Rat) := []
  kettleV : BitVec 14 := 0
  kettleE : BitVec 16 := 0
  target : BitVec 16 := 0
  reserveQ : BitVec 16 := 0
  ballastP : BitVec 16 := 0
  /-- (reference cycle, energy in J) sent to the ballast in the last 10 s (spec/12 R314) -/
  ballast : List (Nat × Rat) := []
  ballastJ : Rat := 0
  rideStart : Nat := 0
  hints : List Hint := []
  trim : Sparse (BitVec 3) := []
  slabLevel : BitVec 3 := 0
  slabTemp : Sparse (BitVec 12) := []
  slabP : Sparse (BitVec 16) := []
  stackP : Sparse (BitVec 16) := []
  portWest : BitVec 16 := 0
  portEast : BitVec 16 := 0
  inlet : BitVec 12 := 0
  outlet : BitVec 12 := 0
  ripple : Sparse (BitVec 16) := []
  /-- limits that differ from the reset value 0x64 -/
  rippleLim : Sparse (BitVec 16) := []
  planLevel : BitVec 3 := 0
  planNeed : BitVec 3 := 0
  planChosen : Bool := false
  slacks : List Slack := []
  stageBars : Nat := 0
  /-- cycles stretched in this bar, by slab (spec/12 R324) -/
  stretched : Sparse Nat := []
  /-- REFCLK is valid (spec/18 R470) -/
  refclk : Bool := false
  /-- the slab rails stand at the test voltage (spec/16 R416) -/
  testV : Bool := false
  /-- the Kettle has held 40 J since the bus was applied (spec/12 R303) -/
  charged : Bool := false
  deriving DecidableEq, Repr

/-! ## Host ports -/

/-- A submission ring (spec/14 R372 to R374). `active`: the entry of the command in progress. `cfg` is SQ_CFG. -/
structure SubRing where
  base : DWord := 0
  cfg : BitVec 9 := 0
  head : BitVec 12 := 0
  tail : BitVec 12 := 0
  active : Option (BitVec 512) := none
  /-- completion ring of the command in progress; it passed its checks and runs over more than one step -/
  activeCq : BitVec 3 := 0
  accepted : Bool := false
  /-- a ring of the other port whose command was taken in the same controller cycle and is processed first (spec/14 R389) -/
  behind : Option Ring := none
  deriving DecidableEq, Repr

/-- A completion entry held while its ring is disabled (spec/14 R373). -/
structure HeldEntry where
  sq : Ring
  seq : Word
  status : BitVec 8
  result : BitVec 128
  vector : Option (BitVec 6)
  deriving DecidableEq, Repr

/-- A completion ring (spec/14 R372 to R375). `phase` is the PHASE of the next entry. -/
structure CompRing where
  base : DWord := 0
  cfg : BitVec 9 := 0
  tail : BitVec 12 := 0
  head : BitVec 12 := 0
  phase : Bool := false
  reserved : Nat := 0
  held : List HeldEntry := []
  deriving DecidableEq, Repr

/-- What a host port has put out: DMA writes, MSI-X messages, completions of reads (spec/14). -/
inductive HostOut where
  | write (p : HPort) (addr : DWord) (bytes : List Byte)
  | msix (p : HPort) (vector : BitVec 6)
  | value (p : HPort) (v : Word)
  | data (p : HPort) (bytes : List Byte)
  | poisoned (p : HPort)
  /-- a request completed as an Unsupported Request, which the port reports to the host by an AER message (spec/14 R366) -/
  | unsupported (p : HPort)
  /-- a Malformed TLP, of which nothing is applied; the port reports it by an AER message (spec/14 R366, R369) -/
  | malformed (p : HPort)
  deriving DecidableEq, Repr

/-- A host port (spec/14 R392). -/
structure HostPort where
  sqs : Sparse SubRing := []
  cqs : Sparse CompRing := []
  linkUp : Bool := false
  rate : BitVec 2 := 0
  flit : Bool := false
  width : BitVec 4 := 0
  d3hot : Bool := false
  /-- in service after start-up (spec/16 R418); held in Loopback as slave (spec/14 R394) -/
  enabled : Bool := true
  slave : Bool := false
  bar2Base : BitVec 41 := 0
  debugSlab : BitVec 4 := 0
  loopDepth : BitVec 3 := 0
  loopPass : Bool := false
  loopBusy : Bool := false
  loopOut : Bool := false
  /-- the latched upper half and the offset of the _HI register it answers (spec/15 R400, spec/14 R371) -/
  latch : Option (Nat × Word) := none
  latch4 : Option (Nat × Word) := none
  /-- the bits of MSI-X table entries that differ from the masked entry, as an exclusive-or; pending vectors (spec/14
  R368, R376) -/
  msix : Sparse (BitVec 128) := []
  pendingBits : BitVec 64 := 0
  /-- the ring that the port's last command was taken from (spec/14 R389) -/
  lastRing : Option Ring := none
  deriving DecidableEq, Repr

/-! ## Images, records, trace, faults -/

/-- A core class of an image (spec/16 R428). -/
structure CoreClass where
  cls : BitVec 16
  enable : BitVec 4
  entries : Quad (BitVec 10)
  code : List DWord
  deriving DecidableEq, Repr

/-- What the module keeps of the installed image (spec/16 R427, R431). -/
structure Image where
  digest : BitVec 512
  keyDigest : BitVec 512
  ranks : List (DWord × BitVec 10)
  rank : Nat
  dimX : Nat
  dimY : Nat
  dimZ : Nat
  tempo : BitVec 12
  floor : BitVec 3
  split : BitVec 12
  fenced : Bool
  scCache : BitVec 4
  dseed : DWord
  carSeed : Word
  shadowSeed : Word
  shadowK : BitVec 5
  shadowLs : BitVec 3
  /-- peal routes: axis, line, head, tail; route j at place j − 1 -/
  routes : List (Bool × Nat × Nat × Nat)
  deriving DecidableEq, Repr

/-- A load in progress (spec/16 R429): the loading port and ring, the extents, the staged bytes. -/
structure Load where
  port : HPort
  ring : Ring
  extents : List (DWord × DWord)
  bytes : List Byte
  deriving DecidableEq, Repr

/-- A boot journal entry (spec/16 R419). -/
structure BootEntry where
  step : BitVec 8
  result : BitVec 4
  unit : BitVec 16
  detail : BitVec 32
  time : BitVec 32
  deriving DecidableEq, Repr

/-- A boot journal block (spec/16 R419). -/
structure BootBlock where
  attempt : BitVec 32
  powerup : BitVec 32
  restart : Bool
  slot : Bool
  knellSeen : Bool
  outcome : BitVec 8
  entries : List BootEntry
  /-- its signature verifies (spec/16 R414) -/
  good : Bool := true
  deriving DecidableEq, Repr

/-- The module record (spec/01 R21, spec/16 R413). Slot 1 is named by `true`. The production part is Config's. -/
structure Record where
  /-- firmware of a slot; none: as shipped (Config.shippedFirmware) -/
  slot0 : Option (List Byte) := none
  slot1 : Option (List Byte) := none
  valid0 : Bool := true
  valid1 : Bool := true
  preferred : Bool := false
  knell : Bool := false
  journal : List BootBlock := []
  attempts : Nat := 0
  powerups : Nat := 0
  /-- the signatures of the preferred-slot block and of the knell flag block verify (spec/16 R414) -/
  preferredOk : Bool := true
  knellOk : Bool := true
  /-- an attempt that the module left by going OFF: the step, the second attempt, the slot, the entries (spec/16 R422) -/
  cut : Option (BitVec 8 × Bool × Bool × List BootEntry) := none
  deriving DecidableEq, Repr

/-- An edge of the wait-for graph (spec/17 R452). -/
structure WfEdge where
  kind : BitVec 2
  waiter : EndPt
  ctx : BitVec 2
  index : BitVec 6
  value : BitVec 16
  current : BitVec 16
  target : EndPt
  known : Bool
  since : Word
  block : Word
  deriving DecidableEq, Repr

/-- States of the sync trace (spec/17 R446). -/
inductive TracePhase where
  | idle
  | armed
  | triggered
  | frozen
  deriving DecidableEq, Repr

/-- The trace and wait-for block (spec/15 R409). -/
structure Trace where
  phase : TracePhase := .idle
  mode : Bool := false
  overflow : Bool := false
  post : Word := 0
  trig : BitVec 4 := 0
  slabs : BitVec 16 := 0xFFFF
  /-- settings taken at the last arm -/
  armMode : Bool := false
  armPost : Word := 0
  armTrig : BitVec 4 := 0
  armSlabs : BitVec 16 := 0
  recs : DWord := 0
  /-- the records at the last snapshot, which TRACE_REC shows (spec/15 R397, R409) -/
  snapRecs : DWord := 0
  trigBeat : DWord := 0
  /-- reference cycles of the last trigger, and of a stop that came before any trigger (spec/17 R447) -/
  trigTime : Option Nat := none
  stopTime : Option Nat := none
  /-- beat of the first sweep of the build begun last (spec/17 R451) -/
  sweepBeat : Nat := 0
  building : Bool := false
  valid : Bool := false
  cycle : Bool := false
  wfBeat : DWord := 0
  edges : List WfEdge := []
  /-- wait registers as the last sweep read them, by core key times 4 plus context: counter, VALUE, start beat (spec/17 R451,
  spec/01 R14) -/
  waits : List (Nat × BitVec 6 × BitVec 16 × Nat) := []
  deriving DecidableEq, Repr

/-- A charged event kept for the sliding windows of spec/13 R358: reference cycle, condition, place. -/
structure FaultEvent where
  time : Nat
  kind : Nat
  place : Charged
  deriving DecidableEq, Repr

/-- The faults and journal block (spec/13 R362). -/
structure Faults where
  lastFault : Word := 0
  lastBeat : DWord := 0
  lastAddr : DWord := 0
  sdcLast : Word := 0
  sdcBeat : DWord := 0
  knellCause : Word := 0
  knellBeat : DWord := 0
  history : List FaultEvent := []
  knells : List (BitVec 10 × DWord × BitVec 4) := []
  deriving DecidableEq, Repr

/-- A captured bank: counter words by index, per-core words by key core·64 + word (spec/17 R440). -/
structure Capture where
  bank : Sparse DWord := []
  cores : Sparse Word := []
  beat : DWord := 0
  phase : BitVec 12 := 0
  deriving DecidableEq, Repr

/-- A mailbox operation in progress (spec/15 R406): operation and arguments as they stood. -/
structure MbxRun where
  op : BitVec 8
  a0 : Word
  a1 : Word
  a2 : Word
  a3 : Word
  deriving DecidableEq, Repr

/-- The control page's writable words and the mailbox (spec/15 R404). -/
structure Control where
  scratch : Sparse Word := []
  mbxOp : BitVec 8 := 0
  mbxArgs : Quad Word
  mbxRun : Option MbxRun := none
  mbxPortB : Bool := false
  mbxResult : BitVec 8 := 0
  mbxLen : BitVec 13 := 0
  mbxData : List Byte := []
  summary : BitVec 8 := 0
  bootStep : BitVec 8 := 0
  testsRunning : Bool := false
  testsPassed : Bool := false
  altTaken : Bool := false
  skipped : Bool := false
  /-- the start-up stopped in its second attempt, or found no firmware that boots (spec/16 R421) -/
  stopped : Bool := false
  /-- a start-up that waits for its alignment: what it meets, which attempt, the slot booted, the entries so far -/
  booting : Option (BootRun × Bool × Bool × List BootEntry) := none
  bootTime : BitVec 24 := 0
  runningSlot : Bool := false
  staged : Bool := false
  deriving DecidableEq, Repr

/-- A LOOPBACK in progress (spec/14 R393). -/
structure LoopTest where
  port : HPort
  ring : Ring
  target : BitVec 4
  unit : BitVec 4
  depth : BitVec 3
  /-- pattern seed and length; LOOP packets that came back, how many differed, HOPS of the last, and whether HOPS of every
  one so far was the same (spec/10 R269) -/
  seed : Nat := 0
  len : Nat := 0
  back : Nat := 0
  wrong : Nat := 0
  hops : Nat := 0
  hopsSame : Bool := true
  deriving DecidableEq, Repr

/-- A COPY from the host to another module, in progress (spec/14 R381): its transfers go one after another, each when the
one before it has landed. `under`: bytes of the transfer under way; `failed`: the COPY has ended with a path DOWN or its
port reset. -/
structure HostCopy where
  port : HPort
  ring : Ring
  under : Nat
  moved : Nat
  rest : List (List Packet)
  failed : Bool := false
  deriving DecidableEq, Repr

/-! ## The module -/

/-- The window steps of a beat (spec/02 R27). -/
inductive WinStep where
  | close
  | commit
  | hold
  | snap
  | power
  | clock
  | sealing
  | verdict
  | lag
  | bar
  | epoch
  deriving DecidableEq, Repr

/-- A write of a host port that waits for the other port's write of the same cycle (spec/14 R389): a word of BAR0, or bytes of
one block of a stack's HBM, whose reads fail or not. -/
inductive HeldWrite where
  | word (offset : Nat) (v : Word)
  | block (h : StackId) (a : Nat) (bytes : List Byte) (fails : Bool)
  deriving DecidableEq, Repr

/-- The state of the module. -/
structure State where
  /-- commands waiting, first in first out -/
  pending : List Instr := []
  /-- the rails are up; false is OFF -/
  powered : Bool := false
  /-- reference cycles since power-up -/
  refTime : Nat := 0
  beat : Nat := 0
  phase : Nat := 0
  /-- the present beat is a rest beat; the verdict marked the next one rest; hold bit sent last -/
  rest : Bool := false
  restNext : Bool := false
  holdSent : Bool := false
  windowDone : List WinStep := []
  deviceState : Triple 3
  imageValid : Triple 1
  tempo : Triple 12
  /-- tempo of the beat before the present one -/
  tempoPrev : BitVec 12 := 0x3E8
  tempoMin : BitVec 12 := 0x1F4
  voteSpan : BitVec 12 := 0
  aligned : Bool := false
  root : Bool := false
  electing : Bool := false
  /-- a count has been loaded (spec/02 R31, steps 3 and 4) -/
  counted : Bool := false
  alignLost : Bool := false
  rootHops : BitVec 5 := 0
  /-- beats in a row in which every neighbour's count agreed (spec/02 R31) -/
  agree : Nat := 0
  mismatchLast : Bool := false
  /-- the last 16 beats committed: count, T, rest, sealed (spec/13 R336) -/
  beatLog : List (Nat × Nat × Bool × Bool) := []
  /-- the journal was sealed in the boundary window before this beat (spec/13 R335) -/
  sealedParts : Bool := false
  clocksReleased : Bool := false
  /-- the derived clocks run provisionally, for the field tests (spec/02 R37) -/
  clocksProvisional : Bool := false
  arithStopped : Bool := false
  downbeatLo : Triple 32
  downbeatHi : Triple 32
  armed : Bool := false
  launchCount : Triple 32
  /-- stroke beats from the downbeat through the present beat (spec/13 R344) -/
  t : Nat := 0
  holdSources : BitVec 9 := 0
  holdForce : Bool := false
  lateMargin : BitVec 12 := 0x32
  lateMarginNow : BitVec 12 := 0x32
  fenceMargin : Bool := false
  copyLag : Bool := false
  /-- smallest margin of a fence in this beat, and over the earlier stroke beats since the last slack report -/
  beatMargin : Option Nat := none
  minMargin : Option Nat := none
  /-- hold tags known to this module -/
  holds : List Nat := []
  level : BitVec 3 := 0
  floor : BitVec 3 := 0
  haltCause : Word := 0
  haltBeat : DWord := 0
  /-- reference cycle of the last halt, for causes that arise in one cycle (spec/02 R63) -/
  haltTime : Nat := 0
  snapBeat : DWord := 0
  snapPhase : Word := 0
  snapStroke : DWord := 0
  coord : BitVec 10 := 0
  shape : BitVec 10 := 0
  shapeValid : Bool := false
  relay : BitVec 2 := 0
  /-- DSEED and rank of the last downbeat (spec/04 R118) -/
  ditherSeed : Option (DWord × Nat) := none
  cores : Sparse Core := []
  hbmStacks : Sparse Stack := []
  ports : Sparse ReduitPort := []
  west : PortDie := {}
  east : PortDie := {}
  /-- packets of this module under way in the fabric -/
  inFlight : List Packet := []
  resends : List Resend := []
  /-- mesh links found failed, by the number of the link on its plane (spec/10 R245) -/
  failedLinks : List Nat := []
  /-- transfers of other modules whose abort was found here, until nothing of them is left here: TAG and SLOT (spec/08 R207) -/
  deadCopies : List (EndPt × BitVec 5) := []
  sbOut : List SbOut := []
  /-- the last reference cycle in which messages were formed, and the messages formed before it (spec/10 R266) -/
  sbSince : Nat × Nat := (0, 0)
  tympan : Tympan := {}
  portA : HostPort := {}
  portB : HostPort := {}
  /-- owners of SEM_0 to SEM_15 that differ from three free copies (spec/14 R384) -/
  sems : Sparse (Triple 2) := []
  jobCap : Triple 32
  hostOut : List HostOut := []
  /-- writes of a host port that wait for the other port's write of the same fabric cycle, which is applied first, oldest first
  (spec/14 R389) -/
  heldWrites : List (HPort × HeldWrite) := []
  load : Option Load := none
  /-- the bytes that stand in the part of the roll journal areas where images are staged, stacks 0 to 15 in order (spec/16
  R429) -/
  imageStage : List Byte := []
  image : Option Image := none
  loopTests : List LoopTest := []
  hostCopies : List HostCopy := []
  control : Control
  record : Record := {}
  faults : Faults := {}
  trace : Trace := {}
  counters : Sparse ErrCtr := []
  forever : Sparse DWord := []
  capture : Capture := {}
  boundary : Capture := {}
  deriving DecidableEq, Repr

/-- Reasons the block could stop. The manual gives the module no event after which it has no next state
(spec/13, spec/14): no meaning of this model raises a fault. -/
inductive Fault where
  /-- reserved: raised by no command; safe, since nothing ends in it -/
  | machineStop
  deriving DecidableEq, Repr

/-- Reasons a command has no meaning in the model. -/
inductive Refusal where
  /-- the command of this mnemonic has no meaning yet; raised by an arm of Dispatch alone; safe -/
  | notModelled (mnemonic : String)
  deriving DecidableEq, Repr

/-- The module right after reset: no rail is up, nothing has run (spec/15 R401: registers take their Reset
values at power-up; spec/18 R478: the record as shipped). Values the manual does not give: notes/assumptions
2, 3, 4 and 6. -/
def State.reset : State :=
  { deviceState := Triple.all 1
    imageValid := Triple.all 0
    tempo := Triple.all 0x3E8
    downbeatLo := Triple.all 0xFFFFFFFF
    downbeatHi := Triple.all 0xFFFFFFFF
    launchCount := Triple.all 0
    jobCap := Triple.all 0
    control := { mbxArgs := Quad.all 0 } }

end Sys2Proof.Machine
end

