-- ==== Sys2Proof/Machine/Sparse.lean ====
section
/-! DEFINITION. Reading and writing sparse maps and memories, bit fields, little-endian bytes. -/

namespace Sys2Proof.Machine

/-! ## Sparse maps -/

/-- The value of a key: the listed one, or the fresh value. -/
def Sparse.look {α : Type} (d : α) (m : Sparse α) (k : Nat) : α :=
  match m with
  | [] => d
  | (j, v) :: m => if j = k then v else Sparse.look d m k

/-- Insert an entry before the first greater key. -/
def Sparse.insert {α : Type} (k : Nat) (v : α) : Sparse α → Sparse α
  | [] => [(k, v)]
  | (j, w) :: m => if k < j then (k, v) :: (j, w) :: m else (j, w) :: Sparse.insert k v m

/-- Drop every entry of a key. -/
def Sparse.drop {α : Type} (k : Nat) (m : Sparse α) : Sparse α := m.filter fun p => p.1 != k

/-- Give a key a value; the fresh value is not listed. -/
def Sparse.put {α : Type} [DecidableEq α] (d : α) (m : Sparse α) (k : Nat) (v : α) : Sparse α :=
  if v = d then Sparse.drop k m else Sparse.insert k v (Sparse.drop k m)

/-- Change every listed entry; results equal to the fresh value are dropped. -/
def Sparse.mapAll {α : Type} [DecidableEq α] (d : α) (f : Nat → α → α) (m : Sparse α) : Sparse α :=
  (m.map fun p => (p.1, f p.1 p.2)).filter fun p => decide (p.2 ≠ d)

/-- Keys strictly rising from a bound, no entry equal to the fresh value. -/
def Sparse.wfFrom {α : Type} [DecidableEq α] (d : α) : Nat → Sparse α → Bool
  | _, [] => true
  | b, (k, v) :: m => decide (b ≤ k) && decide (v ≠ d) && Sparse.wfFrom d (k + 1) m

/-- The canonical form. -/
def Sparse.wf {α : Type} [DecidableEq α] (d : α) (m : Sparse α) : Bool := Sparse.wfFrom d 0 m

/-! ## Memories -/

/-- The canonical form of a memory: addresses strictly rising, no zero byte listed. -/
def Memory.wf (m : Mem) : Bool := Sparse.wf (0 : Byte) m

/-- One byte. -/
def Memory.byte (m : Mem) (a : Nat) : Byte := Sparse.look (0 : Byte) m a

/-- One byte written. -/
def Memory.setByte (m : Mem) (a : Nat) (v : Byte) : Mem := Sparse.put (0 : Byte) m a v

/-- n bytes from a. -/
def Memory.read (m : Mem) (a n : Nat) : List Byte := (List.range n).map fun i => Memory.byte m (a + i)

/-- Bytes written from a upward. -/
def Memory.write (m : Mem) (a : Nat) : List Byte → Mem
  | [] => m
  | v :: vs => Memory.write (Memory.setByte m a v) (a + 1) vs

/-! ## Bytes and numbers -/

/-- The number little-endian bytes stand for (spec/00 R3). -/
def leNat : List Byte → Nat
  | [] => 0
  | b :: bs => b.toNat + 256 * leNat bs

/-- n little-endian bytes of a number. -/
def leBytes : (n : Nat) → (v : Nat) → List Byte
  | 0, _ => []
  | n + 1, v => BitVec.ofNat 8 v :: leBytes n (v / 256)

/-- Bits [hi:lo] of a number. -/
def bitsOf (v hi lo : Nat) : Nat := v / 2 ^ lo % 2 ^ (hi + 1 - lo)

/-- One bit of a number. -/
def bitOf (v i : Nat) : Bool := v / 2 ^ i % 2 == 1

/-- A bit as a number. -/
def bit (b : Bool) : Nat := if b then 1 else 0

/-- A memory word of 32 bits. -/
def Memory.word (m : Mem) (a : Nat) : Word := BitVec.ofNat 32 (leNat (Memory.read m a 4))

/-! ## Quads, triples, lists -/

/-- A member of a quad. -/
def Quad.get {α : Type} (q : Quad α) (k : Fin 4) : α :=
  match k with
  | 0 => q.q0
  | 1 => q.q1
  | 2 => q.q2
  | 3 => q.q3

/-- A member of a quad replaced. -/
def Quad.set {α : Type} (q : Quad α) (k : Fin 4) (v : α) : Quad α :=
  match k with
  | 0 => { q with q0 := v }
  | 1 => { q with q1 := v }
  | 2 => { q with q2 := v }
  | 3 => { q with q3 := v }

/-- A function on all four members. -/
def Quad.map {α β : Type} (f : Fin 4 → α → β) (q : Quad α) : Quad β :=
  ⟨f 0 q.q0, f 1 q.q1, f 2 q.q2, f 3 q.q3⟩

/-- The members in order. -/
def Quad.toList {α : Type} (q : Quad α) : List α := [q.q0, q.q1, q.q2, q.q3]

/-- The bitwise majority of the three copies (spec/15 R398). -/
def Triple.vote {w : Nat} (t : Triple w) : BitVec w :=
  (t.c0 &&& t.c1) ||| (t.c0 &&& t.c2) ||| (t.c1 &&& t.c2)

/-- The copies rewritten with the majority. -/
def Triple.scrub {w : Nat} (t : Triple w) : Triple w := Triple.all t.vote

/-- The copies differ in some bit. -/
def Triple.differs {w : Nat} (t : Triple w) : Bool := !(t.c0 == t.c1 && t.c1 == t.c2)

/-- Remove the first member equal to x. -/
def removeOne {α : Type} [DecidableEq α] (x : α) : List α → List α
  | [] => []
  | y :: ys => if y = x then ys else y :: removeOne x ys

/-- Replace the first member equal to x. -/
def replaceOne {α : Type} [DecidableEq α] (x z : α) : List α → List α
  | [] => []
  | y :: ys => if y = x then z :: ys else y :: replaceOne x z ys

/-- Add a member that is not there yet. -/
def addOnce {α : Type} [DecidableEq α] (x : α) (xs : List α) : List α := if x ∈ xs then xs else xs ++ [x]

/-- The last n members. -/
def lastN {α : Type} (n : Nat) (xs : List α) : List α := xs.drop (xs.length - n)

/-! ## CRC-32C -/

/-- One bit of the reflected CRC-32C (spec/10 R261: polynomial 0x1EDC_6F41 in reflected form). -/
def crcStep (c : BitVec 32) : BitVec 32 :=
  if c.getLsbD 0 then (c >>> 1) ^^^ 0x82F63B78#32 else c >>> 1

/-- One byte of the reflected CRC-32C. -/
def crcByte (c : BitVec 32) (b : Byte) : BitVec 32 :=
  crcStep (crcStep (crcStep (crcStep (crcStep (crcStep (crcStep (crcStep (c ^^^ b.zeroExtend 32))))))))

/-- CRC-32C: initial value all ones, final exclusive-or with all ones (spec/10 R261). -/
def crc32c (bs : List Byte) : Word := (bs.foldl crcByte 0xFFFFFFFF#32) ^^^ 0xFFFFFFFF#32

end Sys2Proof.Machine
end

