-- ==== Sys2Proof/Machine/Encoding.lean ====
section
/-! DEFINITION. The 64-bit words of instructions, the codes of endpoints and global addresses
(spec/03 R78 to R82, spec/10 R243, spec/09 R211, R212). -/

namespace Sys2Proof.Machine

open Sys2Proof

/-! ## Instruction words -/

/-- The word of a format S instruction (spec/03, table Format S). -/
def encS (op : BitVec 6) (f : FmtS) : DWord :=
  op ++ f.dst ++ f.srca ++ f.srcb ++ f.immsel ++ f.cond ++ f.rsv ++ f.imm

/-- The word of a format M instruction (spec/03, table Format M). -/
def encM (op : BitVec 6) (f : FmtM) : DWord :=
  op ++ f.dbase ++ f.abase ++ f.bbase ++ f.doff ++ f.aoff ++ f.len ++ f.sub ++ f.fmt ++ f.flags

/-- The word of a format Y instruction (spec/03, table Format Y). -/
def encY (op : BitVec 6) (f : FmtY) : DWord :=
  op ++ f.abase ++ f.ctr ++ f.consume ++ f.remote ++ f.rsv ++ f.value

/-- The opcode of a word. -/
def opcodeOf (w : DWord) : Nat := bitsOf w.toNat 63 58

/-- Opcodes that spec/03 R82 gives a meaning; every other code is reserved. -/
def opcodeDefined (op : Nat) : Bool :=
  decide (op ≤ 0x12) || decide (0x18 ≤ op ∧ op ≤ 0x1B) || decide (0x20 ≤ op ∧ op ≤ 0x24) ||
  decide (0x28 ≤ op ∧ op ≤ 0x2C) || op == 0x30 || op == 0x31 || decide (0x38 ≤ op ∧ op ≤ 0x3C)

/-! ## Endpoints -/

/-- The 31-bit code of an endpoint (spec/10 R243). -/
def EndPt.code (e : EndPt) : BitVec 31 := e.posY ++ e.posX ++ e.type ++ e.module

/-- The endpoint of a 31-bit code. -/
def EndPt.ofCode (v : Nat) : EndPt :=
  ⟨BitVec.ofNat 10 v, BitVec.ofNat 2 (v / 2 ^ 10), BitVec.ofNat 10 (v / 2 ^ 12), BitVec.ofNat 9 (v / 2 ^ 22)⟩

/-- The endpoint of a core of the module at `m`. -/
def EndPt.core (m : BitVec 10) (c : CoreId) : EndPt :=
  ⟨m, 0, BitVec.ofNat 10 c.x.val, BitVec.ofNat 9 c.y.val⟩

/-- The endpoint of a base die. -/
def EndPt.stack (m : BitVec 10) (h : StackId) : EndPt := ⟨m, 1, BitVec.ofNat 10 h.val, 0⟩

/-- The endpoint of a port die: 0 west, 1 east. -/
def EndPt.die (m : BitVec 10) (d : Die) : EndPt :=
  ⟨m, 2, match d with | .west => 0 | .east => 1, 0⟩

/-- A core of the grid (spec/01 R6), when the coordinates are on it. -/
def coreAt (x y : Nat) : Option CoreId :=
  if hx : x < 960 then (if hy : y < 320 then some ⟨⟨x, hx⟩, ⟨y, hy⟩⟩ else none) else none

/-- A stack by number, when there is one. -/
def stackAt (h : Nat) : Option StackId := if hh : h < 16 then some ⟨h, hh⟩ else none

/-- The core an endpoint names. -/
def EndPt.coreOf (e : EndPt) : Option CoreId :=
  if e.type = 0 then coreAt e.posX.toNat e.posY.toNat else none

/-- The stack an endpoint names. -/
def EndPt.stackOf (e : EndPt) : Option StackId := if e.type = 1 then stackAt e.posX.toNat else none

/-- The slab of a core, which is the number of the stack beside it (spec/01 R6, R8). -/
def slabOf (c : CoreId) : Nat := c.y.val / 160 * 8 + c.x.val / 120

/-- The index of a core within its slab (spec/13 R337). -/
def slabIndex (c : CoreId) : Nat := c.y.val % 160 * 120 + c.x.val % 120

/-! ## Global addresses (spec/09 R211, R212) -/

/-- A store a global address can name. -/
inductive Place where
  | ls (c : CoreId) (off : Nat)
  | af (c : CoreId) (off : Nat)
  | stat (c : CoreId) (off : Nat)
  | ctr (c : CoreId) (i : Fin 64)
  | hbm (h : StackId) (off : Nat)
  | sc (h : StackId) (off : Nat)
  deriving DecidableEq, Repr

/-- SPACE of an address. -/
def addrSpace (a : DWord) : Nat := bitsOf a.toNat 63 60

/-- The module an address names, as its 10-bit coordinate. -/
def addrModule (a : DWord) : BitVec 10 := BitVec.ofNat 10 (bitsOf a.toNat 59 50)

/-- The store and offset an address names, with every zero bit 0 and the coordinates on the grid; none
otherwise. Whether the offset lies inside the store is left to the user of the address. -/
def placeOf (a : DWord) : Option Place :=
  let v := a.toNat
  let core := coreAt (bitsOf v 49 40) (bitsOf v 39 31)
  let stack := stackAt (bitsOf v 40 37)
  match addrSpace a with
  | 1 => if bitsOf v 30 17 = 0 then core.map fun c => .ls c (bitsOf v 16 0) else none
  | 2 => if bitsOf v 30 15 = 0 then core.map fun c => .af c (bitsOf v 14 0) else none
  | 3 => if bitsOf v 30 12 = 0 then core.map fun c => .stat c (bitsOf v 11 0) else none
  | 4 => if bitsOf v 49 41 = 0 ∧ bitsOf v 36 28 = 0 then stack.map fun h => .sc h (bitsOf v 27 0) else none
  | 5 => if bitsOf v 49 41 = 0 then stack.map fun h => .hbm h (bitsOf v 36 0) else none
  | 6 =>
    if bitsOf v 30 6 = 0 then
      core.map fun c => .ctr c ⟨bitsOf v 5 0 % 64, Nat.mod_lt _ (by decide)⟩
    else none
  | _ => none

/-- The common part of an address. -/
def addrBase (space : Nat) (m : BitVec 10) : Nat := space * 2 ^ 60 + m.toNat * 2 ^ 50

/-- The address of a byte in a core's store. -/
def coreAddr (space : Nat) (m : BitVec 10) (c : CoreId) (off : Nat) : DWord :=
  BitVec.ofNat 64 (addrBase space m + c.x.val * 2 ^ 40 + c.y.val * 2 ^ 31 + off)

/-- The address of a byte in a stack's store. -/
def stackAddr (space : Nat) (m : BitVec 10) (h : StackId) (off : Nat) : DWord :=
  BitVec.ofNat 64 (addrBase space m + h.val * 2 ^ 37 + off)

/-- The endpoint that holds the store an address names. -/
def addrEnd (a : DWord) : Option EndPt :=
  (placeOf a).map fun p =>
    match p with
    | .ls c _ | .af c _ | .stat c _ | .ctr c _ => EndPt.core (addrModule a) c
    | .hbm h _ | .sc h _ => EndPt.stack (addrModule a) h

end Sys2Proof.Machine
end

