-- ==== Sys2Proof/Machine/Num.lean ====
section
/-! DEFINITION. Number formats, exact values and their one rounding (spec/04, spec/07 R165 to R168). A value is
kept exactly, as a signed dyadic or a positive quotient, and meets a destination grid once. -/

namespace Sys2Proof.Machine

/-! ## Values -/

/-- What a code encodes: NaN, an infinity, or (−1)^neg · m · 2^e; m = 0 is a signed zero. -/
inductive FVal where
  | nan
  | inf (neg : Bool)
  | fin (neg : Bool) (m : Nat) (e : Int)
  deriving DecidableEq, Repr

/-- The exact result of an operation: NaN, an infinity, a signed zero, or (−1)^neg · n / d with n > 0. -/
inductive Exact where
  | nan
  | inf (neg : Bool)
  | zero (neg : Bool)
  | quot (neg : Bool) (n d : Nat)
  deriving DecidableEq, Repr

/-- Rounding mode: nearest-even, or dithered with the generator's value r (spec/04 R116). -/
inductive RMode where
  | nearest
  | dithered (r : Nat)
  deriving DecidableEq, Repr

/-- m · 2^e as a quotient. -/
def dyQuot (m : Nat) (e : Int) : Nat × Nat :=
  if 0 ≤ e then (m * 2 ^ e.toNat, 1) else (m, 2 ^ (-e).toNat)

/-- n / d · 2^s as a quotient. -/
def scaleQuot (n d : Nat) (s : Int) : Nat × Nat :=
  if 0 ≤ s then (n * 2 ^ s.toNat, d) else (n, d * 2 ^ (-s).toNat)

/-- floor(log2(n / d)) for n, d > 0. -/
def floorLog2 (n d : Nat) : Int :=
  let k : Int := (Nat.log2 n : Int) - (Nat.log2 d : Int)
  let q := scaleQuot n d (-k)
  if q.2 ≤ q.1 then k else k - 1

/-- A signed dyadic m · 2^e. -/
structure Dy where
  m : Int
  e : Int
  deriving DecidableEq, Repr

/-- Sum of two dyadics. -/
def Dy.add (x y : Dy) : Dy :=
  let e := min x.e y.e
  ⟨x.m * 2 ^ (x.e - e).toNat + y.m * 2 ^ (y.e - e).toNat, e⟩

/-- Product of two dyadics. -/
def Dy.mul (x y : Dy) : Dy := ⟨x.m * y.m, x.e + y.e⟩

/-- The negated dyadic. -/
def Dy.neg (x : Dy) : Dy := ⟨-x.m, x.e⟩

/-- floor(m · 2^e). -/
def Dy.floor (x : Dy) : Int := if 0 ≤ x.e then x.m * 2 ^ x.e.toNat else x.m.fdiv (2 ^ (-x.e).toNat)

/-- The finite value of a code as a dyadic; specials count as 0. -/
def FVal.dy : FVal → Dy
  | .fin neg m e => ⟨if neg then -(m : Int) else m, e⟩
  | _ => ⟨0, 0⟩

/-- The exact value of a dyadic; a zero takes the sign given. -/
def Dy.exact (x : Dy) (zneg : Bool) : Exact :=
  if x.m = 0 then .zero zneg
  else
    let q := dyQuot x.m.natAbs x.e
    .quot (decide (x.m < 0)) q.1 q.2

/-- The value of a code as an exact result. -/
def FVal.exact : FVal → Exact
  | .nan => .nan
  | .inf n => .inf n
  | .fin neg m e => (Dy.mk (if neg then -(m : Int) else m) e).exact neg

/-! ## Rounding (spec/04 R116) -/

/-- The quotient nn / dd rounded to an integer in a mode. -/
def roundInt (nn dd : Nat) (mode : RMode) : Nat :=
  let q := nn / dd
  let r := nn % dd
  match mode with
  | .nearest => if 2 * r < dd then q else if dd < 2 * r then q + 1 else if q % 2 = 0 then q else q + 1
  | .dithered rr => if rr < r * 65536 / dd then q + 1 else q

/-- n / d rounded to a multiple of 2^u: the multiple. -/
def roundGrid (n d : Nat) (u : Int) (mode : RMode) : Nat :=
  let q := scaleQuot n d (-u)
  roundInt q.1 q.2 mode

/-- n / d rounded to a floating grid with smallest normal exponent emin and mw mantissa bits: k and u of the
rounded magnitude k · 2^u. -/
def roundFloat (emin : Int) (mw : Nat) (n d : Nat) (mode : RMode) : Nat × Int :=
  let u := (if n = 0 then emin else max (floorLog2 n d) emin) - mw
  (roundGrid n d u mode, u)

/-- One Newton step after another toward the integer square root, from above. -/
def isqrtFrom : (fuel : Nat) → (n x : Nat) → Nat
  | 0, _, x => x
  | f + 1, n, x =>
    let y := (x + n / x) / 2
    if y < x then isqrtFrom f n y else x

/-- floor(√n). -/
def isqrt (n : Nat) : Nat :=
  if n = 0 then 0 else isqrtFrom (Nat.log2 n + 8) n (2 ^ (Nat.log2 n / 2 + 1))

/-- √(a / b) rounded to a floating grid with nearest-even. -/
def roundSqrt (emin : Int) (mw : Nat) (a b : Nat) : Nat × Int :=
  if a = 0 then (0, emin - mw)
  else
    let u := max ((floorLog2 a b).fdiv 2) emin - mw
    let q := scaleQuot a b (-2 * u)
    let k := isqrt (q.1 / q.2)
    let mid := (2 * k + 1) * (2 * k + 1) * q.2
    let up := if mid < 4 * q.1 then true else if mid = 4 * q.1 then k % 2 = 1 else false
    (if up then k + 1 else k, u)

/-! ## The wide formats (spec/04 R105) -/

/-- Mantissa bits of FP32 (code 0x6) and BF16 (code 0x5). -/
def wideMw (fmt : BitVec 4) : Nat := if fmt = 5 then 7 else 23

/-- Code of k · 2^u in a format with ew exponent bits, mw mantissa bits and a bias; none beyond the exponent
field. -/
def packFloat (ew mw : Nat) (bias : Int) (top : Nat) (neg : Bool) (k : Nat) (u : Int) : Option Nat :=
  let s := bit neg * 2 ^ (ew + mw)
  if k = 0 then some s
  else
    let k' := if 2 ^ (mw + 1) ≤ k then k / 2 else k
    let u' := if 2 ^ (mw + 1) ≤ k then u + 1 else u
    if k' < 2 ^ mw then some (s + k')
    else
      let e := u' + mw + bias
      if e < top then some (s + e.toNat * 2 ^ mw + (k' - 2 ^ mw)) else none

/-- Canonical NaN of a wide format (spec/04 R106). -/
def wideNan (fmt : BitVec 4) : Nat := if fmt = 5 then 0x7FC0 else 0x7FC00000

/-- Infinity of a wide format. -/
def wideInf (fmt : BitVec 4) (neg : Bool) : Nat :=
  if fmt = 5 then bit neg * 0x8000 + 0x7F80 else bit neg * 0x80000000 + 0x7F800000

/-- Largest finite value of a wide format, by sign. -/
def wideMax (fmt : BitVec 4) (neg : Bool) : Nat :=
  if fmt = 5 then bit neg * 0x8000 + 0x7F7F else bit neg * 0x80000000 + 0x7F7FFFFF

/-- Value of a wide code. -/
def wideVal (fmt : BitVec 4) (code : Nat) : FVal :=
  let mw := wideMw fmt
  let neg := bitOf code (8 + mw)
  let e := bitsOf code (7 + mw) mw
  let m := bitsOf code (mw - 1) 0
  if e = 255 then (if m = 0 then .inf neg else .nan)
  else if e = 0 then .fin neg m (1 - 127 - mw)
  else .fin neg (2 ^ mw + m) ((e : Int) - 127 - mw)

/-- FP32 value of a word. -/
def fp32 (w : Word) : FVal := wideVal 6 w.toNat

/-- k · 2^u packed in a wide format, or the value given for an overflow. -/
def packWide (fmt : BitVec 4) (neg : Bool) (k : Nat) (u : Int) (overs : Nat) : Nat :=
  match packFloat 8 (wideMw fmt) 127 255 neg k u with
  | some c => c
  | none => overs

/-- An exact result rounded once to a wide format with nearest-even; an overflow is an infinity
(spec/04 R107, spec/07 R165). -/
def roundWide (fmt : BitVec 4) : Exact → Nat
  | .nan => wideNan fmt
  | .inf n => wideInf fmt n
  | .zero n => packWide fmt n 0 0 0
  | .quot neg n d =>
    let r := roundFloat (-126) (wideMw fmt) n d .nearest
    packWide fmt neg r.1 r.2 (wideInf fmt neg)

/-- rn(v) of spec/07 R175: rounded once to FP32, as a value. -/
def rn (v : Exact) : FVal := wideVal 6 (roundWide 6 v)

/-! ## Floating operations, exact -/

/-- x + y under IEEE 754 with nearest-even zeros (spec/04 R107). -/
def FVal.add : FVal → FVal → Exact
  | .nan, _ => .nan
  | _, .nan => .nan
  | .inf a, .inf b => if a = b then .inf a else .nan
  | .inf a, .fin _ _ _ => .inf a
  | .fin _ _ _, .inf b => .inf b
  | .fin a m e, .fin b m' e' =>
    (Dy.add (FVal.fin a m e).dy (FVal.fin b m' e').dy).exact (m = 0 && m' = 0 && a && b)

/-- The value with its sign changed. -/
def FVal.neg : FVal → FVal
  | .nan => .nan
  | .inf a => .inf !a
  | .fin a m e => .fin (!a) m e

/-- The value without its sign. -/
def FVal.abs : FVal → FVal
  | .nan => .nan
  | .inf _ => .inf false
  | .fin _ m e => .fin false m e

/-- x − y. -/
def FVal.sub (x y : FVal) : Exact := x.add y.neg

/-- The value is a zero. -/
def FVal.isZero : FVal → Bool
  | .fin _ m _ => m == 0
  | _ => false

/-- The value is a NaN. -/
def FVal.isNan : FVal → Bool
  | .nan => true
  | _ => false

/-- The value is finite. -/
def FVal.isFinite : FVal → Bool
  | .fin _ _ _ => true
  | _ => false

/-- The sign. -/
def FVal.sign : FVal → Bool
  | .nan => false
  | .inf n => n
  | .fin n _ _ => n

/-- x · y. -/
def FVal.mul (x y : FVal) : Exact :=
  match x, y with
  | .nan, _ => .nan
  | _, .nan => .nan
  | .fin a m e, .fin b m' e' =>
    (Dy.mul (FVal.fin a m e).dy (FVal.fin b m' e').dy).exact (a != b)
  | _, _ => if x.isZero || y.isZero then .nan else .inf (x.sign != y.sign)

/-- An exact result as a value; a quotient that is no dyadic is not asked for. -/
def Exact.isNan : Exact → Bool
  | .nan => true
  | _ => false

/-- x · y + z with one rounding to come. -/
def FVal.fma (x y z : FVal) : Exact :=
  match x, y, z with
  | .fin a m e, .fin b m' e', .fin c m'' e'' =>
    (Dy.add (Dy.mul (FVal.fin a m e).dy (FVal.fin b m' e').dy) (FVal.fin c m'' e'').dy).exact
      ((m = 0 || m' = 0) && m'' = 0 && (a != b) && c)
  | _, _, _ =>
    match x.mul y with
    | .nan => .nan
    | .inf s => (FVal.inf s).add z
    | _ => (FVal.fin false 0 0).add z

/-- x / y. -/
def FVal.div (x y : FVal) : Exact :=
  match x, y with
  | .nan, _ => .nan
  | _, .nan => .nan
  | .inf _, .inf _ => .nan
  | .inf a, .fin b _ _ => .inf (a != b)
  | .fin a _ _, .inf b => .zero (a != b)
  | .fin a m e, .fin b m' e' =>
    if m' = 0 then (if m = 0 then .nan else .inf (a != b))
    else if m = 0 then .zero (a != b)
    else
      let q := scaleQuot m m' (e - e')
      .quot (a != b) q.1 q.2

/-- An order on values for maxima: x ≤ y, with −0 below +0; NaN not asked for. -/
def FVal.le (x y : FVal) : Bool :=
  match x, y with
  | .inf a, .inf b => a || !b
  | .inf a, _ => a
  | _, .inf b => !b
  | .fin a m e, .fin b m' e' =>
    let d := Dy.add (FVal.fin b m' e').dy (Dy.neg (FVal.fin a m e).dy)
    if d.m = 0 then (a || !b) else decide (0 < d.m)
  | _, _ => true

/-- Maximum of spec/04 R108. -/
def FVal.max (x y : FVal) : FVal :=
  match x, y with
  | .nan, _ => y
  | _, .nan => x
  | _, _ => if x.le y then y else x

/-- Minimum of spec/04 R108. -/
def FVal.min (x y : FVal) : FVal :=
  match x, y with
  | .nan, _ => y
  | _, .nan => x
  | _, _ => if x.le y then x else y

/-- 1 / x with the edges of spec/07 R166. -/
def FVal.recip (x : FVal) : Exact :=
  match x with
  | .nan => .nan
  | .inf a => .zero a
  | .fin a m _ => if m = 0 then .inf a else (FVal.fin false 1 0).div x

/-- 1 / √x rounded to a wide format, with the edges of spec/07 R166. -/
def rsqrtWide (fmt : BitVec 4) : FVal → Nat
  | .nan => wideNan fmt
  | .inf a => if a then wideNan fmt else packWide fmt false 0 0 0
  | .fin a m e =>
    if m = 0 then wideInf fmt a
    else if a then wideNan fmt
    else
      let q := dyQuot m e
      let r := roundSqrt (-126) (wideMw fmt) q.2 q.1
      packWide fmt false r.1 r.2 (wideInf fmt false)

/-- Product of the square roots of 2 that the bits of a fraction select, between bounds, in units of 2^−p:
`frac` counts down its `bits` bits from the top; (lo, hi) bound 2^(2^−i). -/
def exp2Frac (p frac : Nat) : (bits : Nat) → (lo hi accLo accHi : Nat) → Nat × Nat
  | 0, _, _, accLo, accHi => (accLo, accHi)
  | b + 1, lo, hi, accLo, accHi =>
    let lo' := isqrt (lo * 2 ^ p)
    let hi' := isqrt (hi * 2 ^ p) + 1
    if bitOf frac b then
      exp2Frac p frac b lo' hi' (accLo * lo' / 2 ^ p) (accHi * hi' / 2 ^ p + 1)
    else exp2Frac p frac b lo' hi' accLo accHi

/-- Bounds of 2^(whole + frac / 2^bits) rounded to a wide format, with p bits of working precision. -/
def exp2Try (fmt : BitVec 4) (p : Nat) (whole : Int) (frac bits : Nat) : Nat × Nat :=
  let r := exp2Frac p frac bits (2 * 2 ^ p) (2 * 2 ^ p) (2 ^ p) (2 ^ p)
  let one (v : Nat) : Nat :=
    let q := scaleQuot v (2 ^ p) whole
    roundWide fmt (.quot false q.1 q.2)
  (one r.1, one r.2)

/-- 2^x rounded to a wide format with nearest-even (spec/07 R166). Two bounds of 2^x are rounded; where they
agree the result is the correctly rounded one, and the precision rises until they do. A magnitude below 2^−30
lies inside the half step around 1. -/
def exp2Wide (fmt : BitVec 4) : FVal → Nat
  | .nan => wideNan fmt
  | .inf a => if a then packWide fmt false 0 0 0 else wideInf fmt false
  | .fin neg m e =>
    if m = 0 then roundWide fmt (.quot false 1 1)
    else
      let x : Dy := ⟨if neg then -(m : Int) else m, e⟩
      let q := dyQuot m e
      if q.2 * 200 ≤ q.1 then (if neg then packWide fmt false 0 0 0 else wideInf fmt false)
      else if q.1 * 2 ^ 30 < q.2 then roundWide fmt (.quot false 1 1)
      else
        let whole := x.floor
        let bits := (-e).toNat
        let frac := (Dy.add x ⟨-whole, 0⟩).m.toNat
        if frac = 0 then
          let s := dyQuot 1 whole
          roundWide fmt (.quot false s.1 s.2)
        else
          let a := exp2Try fmt 120 whole frac bits
          if a.1 = a.2 then a.1
          else
            let b := exp2Try fmt 240 whole frac bits
            if b.1 = b.2 then b.1 else (exp2Try fmt 960 whole frac bits).1

/-! ## Element formats (spec/04 R91 to R96) -/

/-- The format codes 0x0 to 0x4 are block-scaled (spec/03 R80). -/
def isBlock (fmt : BitVec 4) : Bool := fmt.toNat ≤ 4

/-- BF16 or FP32. -/
def isWide (fmt : BitVec 4) : Bool := fmt = 5 || fmt = 6

/-- Element width in bits. -/
def elemWidth (fmt : BitVec 4) : Nat :=
  match fmt.toNat with
  | 2 => 6
  | 3 => 4
  | 5 => 16
  | 6 => 32
  | 7 => 32
  | _ => 8

/-- Exponent width, mantissa width and bias of the four floating element formats. -/
def elemShape (fmt : BitVec 4) : Nat × Nat × Int :=
  match fmt.toNat with
  | 0 => (4, 3, 7)
  | 1 => (5, 2, 15)
  | 2 => (3, 2, 3)
  | _ => (2, 1, 1)

/-- MAXF (spec/04 Encoding): 448, 57,344, 28, 6, and 127 for I8. -/
def maxF (fmt : BitVec 4) : Nat :=
  match fmt.toNat with
  | 0 => 448
  | 1 => 57344
  | 2 => 28
  | 3 => 6
  | _ => 127

/-- Value of an element code, without its fine scale. -/
def elemVal (fmt : BitVec 4) (code : Nat) : FVal :=
  if fmt = 4 then
    (if code < 128 then .fin false code 0 else .fin true (256 - code) 0)
  else
    let (ew, mw, bias) := elemShape fmt
    let neg := bitOf code (ew + mw)
    let e := bitsOf code (ew + mw - 1) mw
    let m := bitsOf code (mw - 1) 0
    if fmt = 0 && e = 15 && m = 7 then .nan
    else if fmt = 1 && e = 31 then (if m = 0 then .inf neg else .nan)
    else if e = 0 then .fin neg m (1 - bias - mw)
    else .fin neg (2 ^ mw + m) ((e : Int) - bias - mw)

/-- A fine scale code as its exponent (spec/04 R90). -/
def scaleVal (s : BitVec 4) : Int := s.toInt

/-- An element with its fine scale applied (spec/04 R89, coarse scale left out). -/
def scaledVal (fmt : BitVec 4) (code : Nat) (s : BitVec 4) : FVal :=
  match elemVal fmt code with
  | .fin n m e => .fin n m (e + scaleVal s)
  | v => v

/-- The smallest e from −8 to +7 with a ≤ bound · 2^e for a = n / d, else +7; −8 for a = 0 (spec/04 R110). -/
def chooseScale (bound : Nat) (n d : Nat) : Int :=
  if n = 0 then -8
  else
    let ok (e : Int) : Bool :=
      let q := scaleQuot bound 1 e
      decide (n * q.2 ≤ q.1 * d)
    match (List.range 16).find? fun (i : Nat) => ok ((i : Int) - 8) with
    | some i => (i : Int) - 8
    | none => 7

/-- The largest magnitude among finite exact values, as a quotient. -/
def maxMag : List Exact → Nat × Nat
  | [] => (0, 1)
  | .quot _ n d :: xs =>
    let r := maxMag xs
    if r.1 * d < n * r.2 then (n, d) else r
  | _ :: xs => maxMag xs

/-- A code with what the conversion counters see of it (spec/04 R115). -/
structure Conv where
  code : Nat
  sat : Bool := false
  nan : Bool := false
  deriving DecidableEq, Repr

/-- The largest finite code of an element format, by sign. -/
def elemMax (fmt : BitVec 4) (neg : Bool) : Nat :=
  match fmt.toNat with
  | 0 => bit neg * 0x80 + 0x7E
  | 1 => bit neg * 0x80 + 0x7B
  | 2 => bit neg * 0x20 + 0x1F
  | 3 => bit neg * 0x8 + 0x7
  | _ => if neg then 129 else 127

/-- A signed zero of an element format. -/
def elemZero (fmt : BitVec 4) (neg : Bool) : Nat :=
  match fmt.toNat with
  | 2 => bit neg * 0x20
  | 3 => bit neg * 0x8
  | 4 => 0
  | _ => bit neg * 0x80

/-- An exact value at fine scale e encoded in an element format (spec/04 R111, R112). -/
def encodeElem (fmt : BitVec 4) (e : Int) (mode : RMode) (v : Exact) : Conv :=
  match v with
  | .nan =>
    match fmt.toNat with
    | 0 => ⟨0x7F, false, false⟩
    | 1 => ⟨0x7E, false, false⟩
    | _ => ⟨0, false, true⟩
  | .inf neg => if fmt = 1 then ⟨bit neg * 0x80 + 0x7C, false, false⟩ else ⟨elemMax fmt neg, true, false⟩
  | .zero neg => ⟨elemZero fmt neg, false, false⟩
  | .quot neg n d =>
    let q := scaleQuot n d (-e)
    if fmt = 4 then
      let k := roundInt q.1 q.2 mode
      if 127 < k then ⟨elemMax fmt neg, true, false⟩
      else ⟨if neg && k != 0 then 256 - k else k, false, false⟩
    else
      let (ew, mw, bias) := elemShape fmt
      let r := roundFloat (1 - bias) mw q.1 q.2 mode
      let mag := dyQuot r.1 r.2
      if maxF fmt * mag.2 < mag.1 then ⟨elemMax fmt neg, true, false⟩
      else
        match packFloat ew mw bias (2 ^ ew) neg r.1 r.2 with
        | some c => ⟨c, false, false⟩
        | none => ⟨elemMax fmt neg, true, false⟩

/-- An exact value rounded to BF16 or FP32 by VCVT (spec/04 R114). -/
def convWide (fmt : BitVec 4) (mode : RMode) (v : Exact) : Nat :=
  match v with
  | .quot neg n d =>
    let r := roundFloat (-126) (wideMw fmt) n d mode
    packWide fmt neg r.1 r.2 (if mode = .nearest then wideInf fmt neg else wideMax fmt neg)
  | v => roundWide fmt v

/-- An exact value rounded to I32 by VCVT (spec/04 R114). -/
def convI32 (mode : RMode) (v : Exact) : Conv :=
  match v with
  | .nan => ⟨0, false, true⟩
  | .inf neg => ⟨if neg then 0x80000000 else 0x7FFFFFFF, true, false⟩
  | .zero _ => ⟨0, false, false⟩
  | .quot neg n d =>
    let k := roundInt n d mode
    if neg then
      (if 2 ^ 31 < k then ⟨0x80000000, true, false⟩ else ⟨(2 ^ 32 - k) % 2 ^ 32, false, false⟩)
    else (if 2 ^ 31 ≤ k then ⟨0x7FFFFFFF, true, false⟩ else ⟨k, false, false⟩)

/-- An I32 code as an exact value. -/
def i32Exact (code : Nat) : Exact :=
  (Dy.mk (if code < 2 ^ 31 then (code : Int) else (code : Int) - 2 ^ 32) 0).exact false

/-- Limb split of an exact value at fine scale e (spec/04 R121): hi and lo codes, saturated. An infinity, which only
Carillon's moments can hold, saturates; a NaN gives 0 (notes/assumptions/28). -/
def limbSplit (e : Int) (mode : RMode) (v : Exact) : Nat × Nat × Bool :=
  match v with
  | .quot neg n d =>
    let r := scaleQuot n d (-e)
    let k := roundInt r.1 r.2 mode
    let k' := min k 32639
    let q : Int := if neg then -(k' : Int) else k'
    let lo := (q + 128).emod 256 - 128
    let hi := (q - lo) / 256
    ((hi.emod 256).toNat, (lo.emod 256).toNat, decide (32639 < k))
  | .inf neg => if neg then (0x81, 0x81, true) else (0x7F, 0x7F, true)
  | _ => (0, 0, false)

/-! ## Packing (spec/04 R98, R99) -/

/-- Element i of a packed string of w-bit elements. -/
def packedElem (m : Mem) (base w i : Nat) : Nat :=
  bitsOf (leNat (Memory.read m (base + w * i / 8) 5)) (w * i % 8 + w - 1) (w * i % 8)

/-- The number a list of w-bit codes packs to. -/
def packNat (w : Nat) : List Nat → Nat
  | [] => 0
  | c :: cs => c % 2 ^ w + 2 ^ w * packNat w cs

/-- n rounded up to a multiple of 64. -/
def up64 (n : Nat) : Nat := (n + 63) / 64 * 64

/-- Codes packed to bytes and padded with 0 to the next 64-byte boundary. -/
def packBytes (w : Nat) (cs : List Nat) : List Byte := leBytes (up64 ((w * cs.length + 7) / 8)) (packNat w cs)

/-- Fine scale nibble k of a run. -/
def scaleAt (m : Mem) (base k : Nat) : BitVec 4 :=
  BitVec.ofNat 4 (bitsOf (Memory.byte m (base + k / 2)).toNat (4 * (k % 2) + 3) (4 * (k % 2)))

/-- A fine scale as its nibble. -/
def scaleCode (e : Int) : Nat := (e.emod 16).toNat

/-! ## The dither generator (spec/04 R117) -/

/-- One step of a generator's state. -/
def ditherStep (t : DWord) : DWord :=
  let t := t ^^^ (t <<< 13)
  let t := t ^^^ (t >>> 7)
  t ^^^ (t <<< 17)

/-- The 16-bit output of a state. -/
def ditherOut (t : DWord) : Nat := bitsOf t.toNat 63 48

/-- n steps. -/
def ditherSteps : Nat → DWord → DWord
  | 0, t => t
  | n + 1, t => ditherSteps n (ditherStep t)

/-- The state a downbeat leaves in the generator of a context (spec/04 R118). -/
def ditherSeeded (dseed : DWord) (rank x y k : Nat) : DWord :=
  let v := dseed ^^^ BitVec.ofNat 64 (rank * 2 ^ 52) ^^^ BitVec.ofNat 64 (x * 2 ^ 40)
    ^^^ BitVec.ofNat 64 (y * 2 ^ 24) ^^^ BitVec.ofNat 64 (k * 2 ^ 8)
  ditherSteps 64 (if v = 0 then 1 else v)

end Sys2Proof.Machine
end

