-- ==== Sys2Proof/Machine/Ops.lean ====
section
/-! DEFINITION. The named operations over the state: reaching a unit, counters, registers and stores of a core,
the device state, faults, halts and holds. -/

namespace Sys2Proof.Machine

open Sys2Proof

/-! ## Reaching a unit -/

/-- The key of a core. -/
def coreKey (c : CoreId) : Nat := c.y.val * 960 + c.x.val

/-- The core of a key, when it is one. -/
def coreOfKey (k : Nat) : Option CoreId := coreAt (k % 960) (k / 960)

/-- A core. -/
def State.core (s : State) (c : CoreId) : Core := Sparse.look Core.fresh s.cores (coreKey c)

/-- A core replaced. -/
def State.setCore (s : State) (c : CoreId) (x : Core) : State :=
  { s with cores := Sparse.put Core.fresh s.cores (coreKey c) x }

/-- A core changed. -/
def State.modCore (s : State) (c : CoreId) (f : Core → Core) : State := s.setCore c (f (s.core c))

/-- Every listed core changed; a core not listed is fresh, and f must leave a fresh core fresh. -/
def State.mapCores (s : State) (f : Nat → Core → Core) : State :=
  { s with cores := Sparse.mapAll Core.fresh f s.cores }

/-- A stack. -/
def State.stack (s : State) (h : StackId) : Stack := Sparse.look {} s.hbmStacks h.val

/-- A stack changed. -/
def State.modStack (s : State) (h : StackId) (f : Stack → Stack) : State :=
  { s with hbmStacks := Sparse.put {} s.hbmStacks h.val (f (s.stack h)) }

/-- Every stack changed. -/
def State.mapStacks (s : State) (f : StackId → Stack → Stack) : State :=
  (List.finRange 16).foldl (fun s h => s.modStack h (f h)) s

/-- A Reduit port. -/
def State.port (s : State) (p : RPort) : ReduitPort := Sparse.look {} s.ports p.val

/-- A Reduit port changed. -/
def State.modPort (s : State) (p : RPort) (f : ReduitPort → ReduitPort) : State :=
  { s with ports := Sparse.put {} s.ports p.val (f (s.port p)) }

/-- Every Reduit port changed. -/
def State.mapPorts (s : State) (f : RPort → ReduitPort → ReduitPort) : State :=
  (List.finRange 6).foldl (fun s p => s.modPort p (f p)) s

/-- The six ports. -/
def allPorts : List RPort := List.finRange 6

/-- The sixteen stacks. -/
def allStacks : List StackId := List.finRange 16

/-- The four contexts. -/
def allCtxs : List Ctx := List.finRange 4

/-- A host port. -/
def State.host (s : State) (p : HPort) : HostPort :=
  match p with
  | .a => s.portA
  | .b => s.portB

/-- A host port changed. -/
def State.modHost (s : State) (p : HPort) (f : HostPort → HostPort) : State :=
  match p with
  | .a => { s with portA := f s.portA }
  | .b => { s with portB := f s.portB }

/-- The other host port. -/
def otherPort (p : HPort) : HPort :=
  match p with
  | .a => .b
  | .b => .a

/-- 0 for A, 1 for B. -/
def hostIndex (p : HPort) : Nat :=
  match p with
  | .a => 0
  | .b => 1

/-- A port die. -/
def State.die (s : State) (d : Die) : PortDie :=
  match d with
  | .west => s.west
  | .east => s.east

/-- A port die changed. -/
def State.modDie (s : State) (d : Die) (f : PortDie → PortDie) : State :=
  match d with
  | .west => { s with west := f s.west }
  | .east => { s with east := f s.east }

/-- The other die. -/
def otherDie (d : Die) : Die :=
  match d with
  | .west => .east
  | .east => .west

/-- The die a Reduit port stands on: + ports east, − ports west (spec/01 R18). -/
def dieOf (p : RPort) : Die := if p.val % 2 = 0 then .east else .west

/-- A context. -/
def Core.ctx (x : Core) (k : Ctx) : CtxState := x.ctxs.get k

/-- A context changed. -/
def Core.modCtx (x : Core) (k : Ctx) (f : CtxState → CtxState) : Core :=
  { x with ctxs := x.ctxs.set k (f (x.ctx k)) }

/-- A context of a core changed. -/
def State.modCtx (s : State) (c : CoreId) (k : Ctx) (f : CtxState → CtxState) : State :=
  s.modCore c fun x => x.modCtx k f

/-! ## Counters (spec/17 R435) -/

/-- An error counter after n more events. -/
def ErrCtr.add (e : ErrCtr) (n : Nat) : ErrCtr :=
  if 0xFFFFFFFF ≤ e.value.toNat + n then ⟨0xFFFFFFFF, true⟩ else ⟨e.value + BitVec.ofNat 32 n, e.sticky⟩

/-- n events of the error counter at an index of the bank (spec/17 R437). -/
def State.count (s : State) (i n : Nat) : State :=
  { s with counters := Sparse.put {} s.counters i ((Sparse.look {} s.counters i).add n) }

/-- n events of a forever counter, modulo 2^64 (spec/17 R436). -/
def State.countForever (s : State) (i n : Nat) : State :=
  { s with forever := Sparse.put 0 s.forever i (Sparse.look 0 s.forever i + BitVec.ofNat 64 n) }

/-- n events of error counter j of a core (spec/17 R438). -/
def Core.count (x : Core) (j n : Nat) : Core :=
  { x with errs := Sparse.put {} x.errs j ((Sparse.look {} x.errs j).add n) }

/-- Per-core error counters by the index j of spec/17 R438. -/
def jCvtSat : Nat := 0
def jCvtNan : Nat := 1
def jVecInvalid : Nat := 2
def jVecOverflow : Nat := 3
def jAccRepeat : Nat := 4
def jCopyAbort : Nat := 5
def jLandRetry : Nat := 6
def jSyncClamp : Nat := 7
def jMeshResend : Nat := 8
def jCheckStop : Nat := 9
def jLsGuard : Nat := 10
def jRolls : Nat := 14
def jRollStrokes : Nat := 15
def jRepairCopy : Nat := 16
def jCopyRoll : Nat := 17
def jHoldOver : Nat := 18
def jJournalFull : Nat := 19
def jShadowRun : Nat := 20
def jShadowMismatch : Nat := 21
def jShadowSkip : Nat := 22
def jShadowUnresolved : Nat := 23
def jSdcOdd : Nat := 24
def jDataLost : Nat := 25

/-- n events of counter k of a stack. -/
def State.countStack (s : State) (h : StackId) (k n : Nat) : State := s.count (0x400 + 0x20 * h.val + k) n

/-- n events of counter k of a Reduit port. -/
def State.countPort (s : State) (p : RPort) (k n : Nat) : State := s.count (0x200 + 0x10 * p.val + k) n

/-- n events of counter k of a host port. -/
def State.countHost (s : State) (p : HPort) (k n : Nat) : State := s.count (0x100 + 0x10 * hostIndex p + k) n

/-! ## Device state (spec/15 R404) -/

/-- The voted device state as its code; 0 while the module is OFF. -/
def State.dev (s : State) : Nat := if s.powered then s.deviceState.vote.toNat else 0

/-- The codes of the device states. -/
def devStarting : Nat := 1
def devReady : Nat := 2
def devLoaded : Nat := 3
def devRunning : Nat := 4
def devHalted : Nat := 5
def devKnell : Nat := 6

/-- A launch that is armed lapses: DOWNBEAT returns to all ones (spec/02 R54). -/
def State.disarm (s : State) : State :=
  if s.armed then
    { s with armed := false, downbeatLo := Triple.all 0xFFFFFFFF, downbeatHi := Triple.all 0xFFFFFFFF }
  else s

/-- The device state changed, all three copies at once (spec/15 R398); an armed launch lapses unless the module
stays in LOADED or runs (spec/02 R54); HALT_CAUSE and HALT_BEAT clear on leaving HALTED (spec/02 R63), and with
them what LOST of a stack shows (spec/15 R408). -/
def State.setDev (s : State) (n : Nat) : State :=
  let s := if n = devLoaded || n = devRunning then s else s.disarm
  let s :=
    if s.dev = devHalted && n != devHalted then
      { s with haltCause := 0, haltBeat := 0, hbmStacks := Sparse.mapAll {} (fun _ h => { h with lost := false }) s.hbmStacks }
    else s
  { s with deviceState := Triple.all (BitVec.ofNat 3 n) }

/-- The tempo in force. -/
def State.tempoNow (s : State) : Nat := s.tempo.vote.toNat

/-- First reference cycle of the boundary window (spec/02 R26). -/
def State.windowAt (s : State) : Nat := s.tempoNow - 40

/-- The phase lies in the work window. -/
def State.inWork (s : State) : Bool := decide (s.phase < s.windowAt)

/-- One reference cycle passes with no command; the last cycle of a beat waits for BEAT_START
(notes/assumptions/5). -/
def tick (s : State) : State :=
  if s.powered then
    { s with refTime := s.refTime + 1, phase := if s.phase + 1 < s.tempoNow then s.phase + 1 else s.phase }
  else s

/-- Time moved on to a later phase of the same beat. -/
def State.toPhase (s : State) (p : Nat) : State :=
  if s.phase ≤ p then { s with refTime := s.refTime + (p - s.phase), phase := p } else s

/-- The image floor, rank, and other values the loaded image gives; 0 with no image. -/
def State.rank (s : State) : Nat :=
  match s.image with
  | some i => i.rank
  | none => 0

/-- The endpoint of a core of this module. -/
def State.coreEnd (s : State) (c : CoreId) : EndPt := EndPt.core s.coord c

/-- The endpoint of a base die of this module. -/
def State.stackEnd (s : State) (h : StackId) : EndPt := EndPt.stack s.coord h

/-- A coordinate inside the loaded torus (spec/10 R250). -/
def State.inTorus (s : State) (m : BitVec 10) : Bool :=
  match s.image with
  | none => m == s.coord
  | some i =>
    decide (bitsOf m.toNat 2 0 < i.dimX) && decide (bitsOf m.toNat 5 3 < i.dimY) &&
      decide (bitsOf m.toNat 9 6 < i.dimZ)

/-- A packet sent into the fabric. -/
def State.send (s : State) (p : Packet) : State := { s with inFlight := s.inFlight ++ [p] }

/-- Packets sent in order. -/
def State.sendAll (s : State) (ps : List Packet) : State := { s with inFlight := s.inFlight ++ ps }

/-- The packet as the fabric carries it: that it joins a change of its counter is seen at the counter only, and that it begins a
transfer anew at its destination only. -/
def Packet.plain (p : Packet) : Packet := { p with joined := false, renewed := false }

/-- A packet taken out of the request ejection buffer of a port die. -/
def PortDie.ejected (d : PortDie) (p : Packet) : PortDie := { d with eject := removeOne p d.eject }

/-- A packet leaves the fabric, and the ejection buffer it came through (spec/10 R257). -/
def State.arrive (s : State) (p : Packet) : State :=
  { s with inFlight := removeOne (Packet.plain p) s.inFlight, west := s.west.ejected (Packet.plain p), east := s.east.ejected (Packet.plain p) }

/-- An output to the host appended. -/
def State.emit (s : State) (o : HostOut) : State := { s with hostOut := s.hostOut ++ [o] }

/-- Trained ports in service that an item goes out on: all of them if the module forms it; if it came in on a port, every other port,
across to the other die only while a relay path works (spec/10 R266, R267). -/
def State.relayPorts (s : State) (from_ : Option RPort) : List RPort :=
  allPorts.filter fun p => (s.port p).trained && !(s.port p).loopback &&
    match from_ with
    | none => true
    | some q => p != q && (dieOf p == dieOf q || s.relay != 0)

/-- The place of a message among the messages of one reference cycle: before those of its port that come after it in the
table of spec/10 R266. -/
def insertSb (p : RPort) (type : BitVec 8) (m : SbOut) : List SbOut → List SbOut
  | [] => [m]
  | o :: os =>
    match o with
    | .message q t _ => if q == p && type.ult t then m :: o :: os else o :: insertSb p type m os
    | .hold _ _ => o :: insertSb p type m os

/-- A sideband message pending on a port: those of one reference cycle go out in the order of the table of spec/10 R266. -/
def State.post (s : State) (p : RPort) (type : BitVec 8) (body : BitVec 320) : State :=
  let s := if s.sbSince.1 = s.refTime then s else { s with sbSince := (s.refTime, s.sbOut.length) }
  { s with sbOut := s.sbOut.take s.sbSince.2 ++ insertSb p type (.message p type body) (s.sbOut.drop s.sbSince.2) }

/-- A sideband message sent on those ports. -/
def State.flood (s : State) (type : BitVec 8) (body : BitVec 320) (from_ : Option RPort) : State :=
  (s.relayPorts from_).foldl (fun s p => s.post p type body) s

/-! ## Scalar registers (spec/03 R64) -/

/-- A scalar register; s0 reads 0. -/
def CtxState.reg (t : CtxState) (r : Nat) : Word := if r = 0 then 0 else Sparse.look 0 t.regs r

/-- A scalar register written; a write to s0 is ignored. -/
def CtxState.setReg (t : CtxState) (r : Nat) (v : Word) : CtxState :=
  if r = 0 then t else { t with regs := Sparse.put 0 t.regs r v }

/-! ## Stores of a core -/

/-- Bytes of the LS. -/
def lsSize : Nat := 98304

/-- Blocks a byte range touches. -/
def blocksOf (a n : Nat) : List Nat := if n = 0 then [] else (List.range ((a + n - 1) / 64 + 1 - a / 64)).map (a / 64 + ·)

/-- Blocks a byte range covers whole. -/
def wholeBlocks (a n : Nat) : List Nat := (blocksOf a n).filter fun b => decide (a ≤ b * 64) && decide (b * 64 + 64 ≤ a + n)

/-- Bytes written into the LS. A block written whole has a fresh guard (spec/09 R227); a block written in part
keeps a failing one (notes/assumptions/21). A landing sets the landed bits, an instruction clears them
(spec/13 R334); either ends a block's wait for the replay, and a block that an instruction rewrote is found anew
(spec/13 R342). -/
def Core.lsWrite (x : Core) (landing : Bool) (a : Nat) (bs : List Byte) : Core :=
  let touched := blocksOf a bs.length
  let whole := wholeBlocks a bs.length
  { x with
    ls := Memory.write x.ls a bs
    rollFound := if landing then x.rollFound else x.rollFound.filter fun q => !(q.1 == 1 && whole.contains q.2)
    lsBad := x.lsBad.filter fun b => !(whole.contains b)
    landed :=
      if landing then touched.foldl (fun l b => addOnce b l) x.landed
      else x.landed.filter fun b => !(touched.contains b)
    unrepaired := x.unrepaired.filter fun b => !(whole.contains b)
    lost := x.lost.filter fun q => !(q.1 == 1 && whole.contains q.2) }

/-- An AF entry column (spec/06 R139). -/
def Core.afCol (x : Core) (e c : Nat) : AfCol := Sparse.look {} x.af (8 * e + c)

/-- An AF entry column written. -/
def Core.setAf (x : Core) (e c : Nat) (v : AfCol) : Core := { x with af := Sparse.put {} x.af (8 * e + c) v }

/-- All eight columns of an entry written, with a fresh guard (spec/06 R144). -/
def Core.setEntry (x : Core) (e : Nat) (vs : List AfCol) : Core :=
  let x := (List.range 8).foldl (fun x c => x.setAf e c (vs.getD c {})) x
  { x with afBad := x.afBad.filter (· != e) }

/-- A statistics entry: its two FP32 words (spec/07 R172). -/
def Core.statEntry (x : Core) (i : Nat) : Word × Word := (Memory.word x.stat (8 * i), Memory.word x.stat (8 * i + 4))

/-- A statistics entry written, with a fresh guard. -/
def Core.setStat (x : Core) (i : Nat) (a b : Word) : Core :=
  { x with
    stat := Memory.write x.stat (8 * i) (leBytes 4 a.toNat ++ leBytes 4 b.toNat)
    statBad := x.statBad.filter (· != i)
    rollFound := x.rollFound.filter fun q => !(q.1 == 3 && q.2 == i)
    unrepairedStat := x.unrepairedStat.filter (· != i)
    lost := x.lost.filter fun q => !(q.1 == 3 && q.2 == i) }

/-- Space 0x2 reads of the AF: the integer A of each entry column, 16 bytes little-endian (spec/06 R161). -/
def Core.afBytes (x : Core) (a n : Nat) : List Byte :=
  (List.range n).map fun i =>
    let j := a + i
    BitVec.ofNat 8 ((x.afCol (j / 128) (j % 128 / 16)).a.toNat / 256 ^ (j % 16))

/-! ## Banks (spec/03 R75, R76) -/

/-- Bank of an AF entry. -/
def bankOf (e : Nat) : Fin 4 := Fin.ofNat 4 (e / 64)

/-- Banks a range of entries touches. -/
def banksOf (first n : Nat) : List (Fin 4) :=
  (List.finRange 4).filter fun b => decide (first < 64 * b.val + 64) && decide (64 * b.val < first + n)

/-- The next opening of the bank is one whose chain overflowed (spec/06 R149, R150). -/
def Bank.repeats (b : Bank) : Bool := b.uppers.contains (b.opens + 1)

/-- A bank closed. REPEAT stays, since only the ACLR or APRE that reopens the bank clears it (spec/06 R149); it is set
again ahead of a chain that overflowed before (notes/assumptions/144). The opening stays known, for a sum of its chain that
overflows later. -/
def Bank.close (b : Bank) : Bank :=
  { rep := b.rep || b.repeats, opened := b.opened, opens := b.opens, uppers := b.uppers }

/-- Every bank a range touches closed (spec/03 R76). -/
def Core.closeBanks (x : Core) (first n : Nat) : Core :=
  (banksOf first n).foldl (fun x b => { x with banks := x.banks.set b (x.banks.get b).close }) x

/-- A bank opened by a context: unchanged if that context has it open; otherwise its owner is the context, its age
1, and its window the upper one if REPEAT was set, which the opening clears (spec/03 R76, spec/06 R140, R149). An opening in
the upper window is noted, so that every later replay of it takes that window again (spec/06 R150). -/
def Bank.openBy (b : Bank) (k : Ctx) (seq : Nat) : Bank :=
  if b.isOpen && b.owner.toNat == k.val then b
  else
    { isOpen := true, owner := BitVec.ofNat 2 k.val, age := 1, upper := b.rep, rep := false, opened := seq
      opens := b.opens + 1, uppers := if b.rep then addOnce (b.opens + 1) b.uppers else b.uppers }

/-- Every bank a range touches opened. -/
def Core.openBanks (x : Core) (k : Ctx) (first n : Nat) : Core :=
  (banksOf first n).foldl (fun x b => { x with banks := x.banks.set b ((x.banks.get b).openBy k x.ckptSeq) }) x

/-! ## Sync counters (spec/09 R223 to R225) -/

/-- A sync counter. -/
def Core.syncCtr (x : Core) (i : Fin 64) : SyncCtr := Sparse.look {} x.ctrs i.val

/-- A sync counter replaced. -/
def Core.setSync (x : Core) (i : Fin 64) (v : SyncCtr) : Core :=
  { x with ctrs := Sparse.put {} x.ctrs i.val v, pace := { x.pace with idle := 0, sig := none } }

/-- The counter's value moved by a combined change, clamped (spec/09 R225). -/
def SyncCtr.move (v : SyncCtr) (d : Int) : SyncCtr :=
  let r : Int := (v.value.toNat : Int) + d
  if 65535 < r then { v with value := 0xFFFF, sat := true, clamped := true }
  else if r < 0 then { v with value := 0, zero := true, clamped := true }
  else { v with value := BitVec.ofNat 16 r.toNat, clamped := false }

/-- The change is clamped. -/
def SyncCtr.clamps (v : SyncCtr) (d : Int) : Bool :=
  decide (65535 < (v.value.toNat : Int) + d) || decide ((v.value.toNat : Int) + d < 0)

/-- A change of a counter, SYNC_CLAMP counting a clamp. -/
def Core.moveSync (x : Core) (i : Fin 64) (d : Int) : Core :=
  let v := x.syncCtr i
  let x := x.setSync i (v.move d)
  if v.clamps d then x.count jSyncClamp 1 else x

/-- A further increment of the cycle of the counter's last change: one combined change, counted once if it is clamped
(spec/09 R225). -/
def Core.joinSync (x : Core) (i : Fin 64) (inc : Nat) : Core :=
  let v := x.syncCtr i
  let x := x.setSync i { v.move inc with clamped := v.clamped || v.clamps inc }
  if v.clamps inc && !v.clamped then x.count jSyncClamp 1 else x

/-- An increment by an agent: the change, and LAST_SRC with LOCAL (spec/17 R443). -/
def Core.signal (x : Core) (i : Fin 64) (inc : Nat) (src : EndPt) (isLocal : Bool) : Core :=
  let x := x.moveSync i inc
  x.setSync i { x.syncCtr i with src := some src, local_ := isLocal }

/-- A consuming WAIT that issues in the cycle in which the counter takes the change of the local SIG before it: what that SIG found
(spec/09 R225, R226). -/
def Core.sigJoined (x : Core) (i : Fin 64) (joined : Bool) : Option SigMark :=
  match x.pace.sig with
  | some m => if joined && m.issued && m.ctr = i then some m else none
  | none => none

/-- The value on which a WAIT is judged: that at the start of its cycle (spec/09 R224, R225). -/
def Core.waitValue (x : Core) (i : Fin 64) (joined : Bool) : Nat :=
  match x.sigJoined i joined with
  | some m => m.before.value.toNat
  | none => (x.syncCtr i).value.toNat

/-- The counter as the local SIG of the mark found it, and its clamp not counted; the last source stays. -/
def Core.unsig (x : Core) (m : SigMark) : Core :=
  let v := x.syncCtr m.ctr
  let x := x.setSync m.ctr { m.before with src := v.src, local_ := v.local_ }
  if Sparse.look {} x.errs jSyncClamp = m.clamps.add 1 then { x with errs := Sparse.put {} x.errs jSyncClamp m.clamps } else x

/-- VALUE consumed by a WAIT; with the change of a local SIG in the same cycle it is one combined change. -/
def Core.consume (x : Core) (i : Fin 64) (v : Nat) (joined : Bool) : Core :=
  match x.sigJoined i joined with
  | some m => (x.unsig m).moveSync i ((m.inc : Int) - v)
  | none => x.moveSync i (-(v : Int))

/-! ## Trace records (spec/17 R443 to R446) -/

/-- One trace record. -/
def traceRecord (kind x y ctx ctr value source loc beat phase blocked : Nat) : BitVec 128 :=
  BitVec.ofNat 128 (kind + x * 2 ^ 2 + y * 2 ^ 12 + ctx * 2 ^ 21 + ctr * 2 ^ 23 + value * 2 ^ 32 + source * 2 ^ 48 +
    loc * 2 ^ 79 + beat * 2 ^ 80 + phase * 2 ^ 112 + blocked * 2 ^ 124)

/-- The epoch record of a beat: bits [63:32] of the count in SOURCE and LOCAL. -/
def epochRecord (beat : Nat) : BitVec 128 :=
  traceRecord 1 0 0 0 0 0 (beat / 2 ^ 32 % 2 ^ 31) (beat / 2 ^ 63 % 2) (beat % 2 ^ 32) 0 0

/-- The trigger mark. -/
def triggerMark (beat phase : Nat) : BitVec 128 := traceRecord 2 0 0 0 0 0 0 0 (beat % 2 ^ 32) phase 0

/-- Slabs taken at the last arm. -/
def State.tracedSlabs (s : State) : List StackId := allStacks.filter fun h => s.trace.armSlabs.getLsbD h.val

/-- The trace takes events. -/
def State.traceOn (s : State) : Bool := s.trace.phase == .armed || s.trace.phase == .triggered

/-- An event offered to the collector of a stack: queued, or dropped and counted when its queue of 256 or its
stop-mode buffer is full (spec/17 R444, R445). -/
def State.traceEvent (s : State) (h : StackId) (r : BitVec 128) : State :=
  let b := (s.stack h).trace
  if 256 ≤ b.queue.length || (s.trace.armMode && b.full) then s.countForever 0x82 1
  else s.modStack h fun t => { t with trace := { t.trace with queue := t.trace.queue ++ [r] } }

/-- The trace triggers: the beat recorded, a mark ahead of the queued events of each selected slab, a graph
build begun with its first sweep (spec/17 R446, R451). A trigger in the cycle of a stop is applied as if before it: the buffers
stay frozen (spec/17 R447). -/
def State.traceTrigger (s : State) : State :=
  let m := triggerMark s.beat s.phase
  let s := s.tracedSlabs.foldl
    (fun s h => s.modStack h fun t => { t with trace := { t.trace with queue := m :: t.trace.queue } }) s
  { s with trace := { s.trace with
      phase := if s.trace.phase == .frozen then .frozen else .triggered, trigBeat := BitVec.ofNat 64 s.beat, building := true
      trigTime := some s.refTime, stopTime := none, sweepBeat := s.beat } }

/-- The trace was stopped in this cycle, with no trigger before (spec/17 R447). -/
def State.stoppedNow (s : State) : Bool := s.trace.phase == .frozen && s.trace.stopTime == some s.refTime

/-- The trace has been triggered in this cycle: a further trigger is one with it (spec/17 R447). -/
def State.triggeredNow (s : State) : Bool :=
  (s.trace.phase == .triggered || s.trace.phase == .frozen) && s.trace.trigTime == some s.refTime

/-- A source of TRACE_TRIG arises; it triggers an armed trace that took it (spec/15 R409). -/
def State.traceSource (s : State) (i : Nat) : State :=
  if (s.trace.phase == .armed || s.stoppedNow) && s.trace.armTrig.getLsbD i then s.traceTrigger else s

/-! ## Halts (spec/02 R43, R63) -/

/-- HALT_CAUSE of a cause and place. -/
def haltWord (cause ctx x y : Nat) : Word := BitVec.ofNat 32 (cause + ctx * 2 ^ 4 + x * 2 ^ 6 + y * 2 ^ 16)

/-- A halt. From RUNNING, or LOADED with a launch armed, the module enters HALTED and records cause, place and
beat. A cause of a lower code in the same reference cycle replaces the recorded one. In any other state there is
no job to halt (notes/assumptions/22). -/
def State.halt (s : State) (cause ctx x y : Nat) : State :=
  if s.dev = devRunning || (s.dev = devLoaded && s.armed) then
    let s := s.setDev devHalted
    let s := { s with haltCause := haltWord cause ctx x y, haltBeat := BitVec.ofNat 64 s.beat, haltTime := s.refTime }
    s.traceSource 0
  else if s.dev = devHalted && s.haltTime = s.refTime && decide (cause < bitsOf s.haltCause.toNat 3 0) then
    { s with haltCause := haltWord cause ctx x y }
  else s

/-! ## Faults (spec/13 R332, R350, R358, R362) -/

/-- Reference cycles in an hour. -/
def hour : Nat := 360000000000

/-- An event kept for the sliding windows of spec/13 R358; events older than 24 h are dropped. -/
def State.note (s : State) (kind : Nat) (place : Charged) : State :=
  { s with faults := { s.faults with
      history := (s.faults.history.filter fun e => decide (s.refTime < e.time + 24 * hour)) ++ [⟨s.refTime, kind, place⟩] } }

/-- Kinds of counted events: 1 class 0x01 to 0x04 or 0x0C of a core, 2 class 0x0C, 3 core roll, 4 stored-data
loss of a stack, 5 HBM re-read, 6 dual mismatch, 7 failed mesh link, 8 both relays failed. -/
def kindsOfClass (cls : Nat) : List Nat :=
  if 1 ≤ cls ∧ cls ≤ 4 then [1]
  else if cls = 0x0C then [1, 2]
  else if cls = 6 ∨ cls = 8 then [4]
  else if cls = 9 then [7]
  else if cls = 0x0A then [8]
  else []

/-- LAST_FAULT of a class, place, context and depth. -/
def faultWord (cls : Nat) (place : Charged) (ctx depth : Nat) : Word :=
  let xy : Nat × Nat :=
    match place with
    | .core c => (c.x.val, c.y.val)
    | .stack h => (h.val, 0)
    | .module => (0, 0)
  BitVec.ofNat 32 (cls + xy.1 * 2 ^ 8 + xy.2 * 2 ^ 18 + ctx * 2 ^ 27 + depth * 2 ^ 29)

/-- A fault with a CLASS found in a beat is entered: LAST_FAULT, its beat and address, the windows. -/
def State.faultIn (s : State) (beat cls : Nat) (place : Charged) (ctx depth : Nat) (addr : DWord) : State :=
  let s := { s with faults := { s.faults with
      lastFault := faultWord cls place ctx depth, lastBeat := BitVec.ofNat 64 beat, lastAddr := addr } }
  (kindsOfClass cls).foldl (fun s k => s.note k place) s

/-- A fault found in the present beat; it is a trigger source of the trace (spec/15 R409). -/
def State.fault (s : State) (cls : Nat) (place : Charged) (ctx depth : Nat) (addr : DWord) : State :=
  (s.faultIn s.beat cls place ctx depth addr).traceSource 2

/-- Data of a stack lost: class 0x06 or 0x08 (spec/13 R350). Its LOST bit is set where the loss is the recorded cause of HALTED,
and where it came in the reference cycle of the halt, whatever lower code the halt of that cycle records and whichever came first
(spec/15 R408; notes/assumptions/202: DEDUCED). -/
def State.stackLost (s : State) (cls : Nat) (h : StackId) (addr : DWord) : State :=
  let s := (s.fault cls (.stack h) 0 0 addr).countStack h 3 1
  let s := s.halt 5 0 0 0
  if s.dev = devHalted && (bitsOf s.haltCause.toNat 3 0 == 5 || s.haltTime == s.refTime) then s.modStack h fun t => { t with lost := true } else s

/-- Data of a core lost: class 0x07 (spec/13 R340, R342, R350). -/
def State.coreLost (s : State) (c : CoreId) (k : Ctx) (addr : DWord) : State :=
  let s := s.fault 7 (.core c) k.val 0 addr
  let s := s.modCore c fun x => x.count jDataLost 1
  s.halt 5 0 0 0

/-! ## Check stops and pending rolls -/

/-- A check stop: the context stops, CHECK records the code, the context and the instruction, and the counter
bank counts it (spec/03 R85). A context is check-stopped once, by its first failing instruction (spec/03 R480); of a CPY whose
descriptor is bad and a later instruction that fails in the cycle of its descriptor read, the one whose command comes first
counts as the first (DESIGN CHOICE, notes/assumptions/167). -/
def State.checkStop (s : State) (c : CoreId) (k : Ctx) (code pc : Nat) : State :=
  if ((s.core c).ctx k).stopped then s
  else s.modCore c fun x =>
    let x := x.modCtx k fun t => { t with stopped := true }
    { x with check := BitVec.ofNat 32 (code + k.val * 2 ^ 8 + pc * 2 ^ 10) }.count jCheckStop 1

/-- A roll of the core becomes due: no context of it issues until it is carried out, and results still pending are
discarded (spec/13 R339). -/
def State.pendRoll (s : State) (c : CoreId) (cause : RollCause) : State :=
  s.modCore c fun x => if x.roll.isNone then { x with roll := some cause, arrayQ := [] } else x

/-- Address of the failing item of a class at a core. -/
def guardAddr (m : BitVec 10) (c : CoreId) (cls item : Nat) : DWord :=
  match cls with
  | 1 => coreAddr 1 m c (item * 64)
  | 2 => coreAddr 2 m c (item * 128)
  | 3 => coreAddr 3 m c (item * 8)
  | _ => 0

/-- The counter of a guard class, 1 to 4. -/
def jGuard (cls : Nat) : Nat := jLsGuard + (cls - 1)

/-- A place is one the roll under way has found already (spec/13 R342). -/
def Core.foundAgain (x : Core) (cls item : Nat) : Bool := x.rolling && x.rollFound.contains (cls, item)

/-- A block that fails its guard has its repair copy under way: finding it again is the same fault (spec/13 R342). -/
def Core.mends (x : Core) (cls item : Nat) : Bool := cls == 1 && x.lsBad.contains item && x.repairs.any fun r => r.2 == item

/-- An item of a core kept as failing its guard. -/
def Core.markBad (x : Core) (cls item : Nat) : Core :=
  match cls with
  | 1 => { x with lsBad := addOnce item x.lsBad }
  | 2 => { x with afBad := addOnce item x.afBad }
  | 3 => { x with statBad := addOnce item x.statBad }
  | _ => x

/-- An LS block or statistics entry lost (spec/13 R342, R350): it fails every read until it is written whole. -/
def State.itemLost (s : State) (c : CoreId) (k : Ctx) (cls item : Nat) : State :=
  (s.coreLost c k (guardAddr s.coord c cls item)).modCore c fun x =>
    { x.markBad cls item with lost := addOnce (cls, item) x.lost }

/-- A roll is due for the place already. -/
def Core.rollNames (x : Core) (cls item : Nat) : Bool :=
  (x.roll.toList ++ x.rollMore).any fun o => o.cls == cls && o.item == some item

/-- An LS block or statistics entry found failing again before the replay has rewritten it (spec/13 R342). -/
def Core.losesAgain (x : Core) (cls item : Nat) : Bool :=
  !(x.mends cls item) && ((cls == 1 && (x.foundAgain 1 item || x.unrepaired.contains item)) ||
    (cls == 3 && (x.foundAgain 3 item || x.unrepairedStat.contains item)))

/-- A read finds a failing guard (spec/13 R332): counted, and a core roll becomes due. A location left to the replay and
read again before it was rewritten is lost, and so is an LS block or statistics entry that the roll under way found
already, but for a block whose repair copy is under way, which is one fault; another location found while a roll is due is
a further fault; what is lost stays lost (spec/13 R342, R350, R351). A new fault is a trigger source of the trace here, where it is
found (spec/15 R409); LAST_FAULT takes it at its roll, which gives the depth (spec/13 R362). -/
def State.guardFail (s : State) (c : CoreId) (k : Ctx) (cls item : Nat) : State :=
  let x := s.core c
  let q : RollCause := ⟨cls, guardAddr s.coord c cls item, k, some item, s.beat⟩
  let again := x.foundAgain cls item || x.mends cls item
  if x.lost.contains (cls, item) then s
  else if x.losesAgain cls item then s.itemLost c k cls item
  else
    match x.roll with
    | some _ =>
      if again || x.rollNames cls item then s
      else (s.modCore c fun x => { x with rollMore := x.rollMore ++ [q] }.count (jGuard cls) 1).traceSource 2
    | none => if again then s.pendRoll c q else ((s.modCore c fun x => x.count (jGuard cls) 1).pendRoll c q).traceSource 2

end Sys2Proof.Machine
end

