-- ==== Sys2Proof/Machine/Operands.lean ====
section
/-! DEFINITION. Every operand form: what an instruction names in the LS, the AF and the statistics store, the
sizes of its operands, the copy descriptor, and what range tracking holds back (spec/03 R72, R73, R79, R81). -/

namespace Sys2Proof.Machine

open Sys2Proof

/-! ## Operand values of an instruction -/

/-- First operand of a format S instruction. -/
def opA (t : CtxState) (f : FmtS) : Word := t.reg f.srca.toNat

/-- Second operand B: IMM if IMMSEL is 1, SRCB otherwise (spec/03 R82). -/
def opB (t : CtxState) (f : FmtS) : Word := if f.immsel = 1 then f.imm else t.reg f.srcb.toNat

/-- Byte address of LDW and STW: SRCA + IMM, no wrap (spec/03 R79, R82; notes/assumptions/23). -/
def addrS (t : CtxState) (f : FmtS) : Nat := (t.reg f.srca.toNat).toNat + f.imm.toNat

/-- LS address of the D operand: base + 64 · offset, no wrap (spec/03 R79). -/
def addrD (t : CtxState) (f : FmtM) : Nat := (t.reg f.dbase.toNat).toNat + 64 * f.doff.toNat

/-- LS address of the A operand. -/
def addrA (t : CtxState) (f : FmtM) : Nat := (t.reg f.abase.toNat).toNat + 64 * f.aoff.toNat

/-- Value of the B register. -/
def addrB (t : CtxState) (f : FmtM) : Nat := (t.reg f.bbase.toNat).toNat

/-- Entry index of the D operand in the AF or the statistics store. -/
def indexD (t : CtxState) (f : FmtM) : Nat := (t.reg f.dbase.toNat).toNat + f.doff.toNat

/-- Entry index of the A operand. -/
def indexA (t : CtxState) (f : FmtM) : Nat := (t.reg f.abase.toNat).toNat + f.aoff.toNat

/-- The count LEN stands for, 1 to 256. -/
def countOf (f : FmtM) : Nat := f.len.toNat + 1

/-! ## What an instruction touches -/

/-- An LS operand is aligned and lies inside the LS (spec/03 R85, code 0x02). -/
def lsOk (align : Nat) (r : Nat × Nat) : Bool := r.1 % align == 0 && decide (r.1 + r.2 ≤ lsSize)

/-- Some LS operand fails. -/
def Use.lsFails (u : Use) (align : Nat) : Bool := !((u.lsR ++ u.lsW).all (lsOk align))

/-- Some AF range goes beyond entry 255. -/
def Use.afFails (u : Use) : Bool := (u.afR ++ u.afW).any fun r => decide (256 < r.1 + r.2)

/-- Some statistics range goes beyond entry 511. -/
def Use.statFails (u : Use) : Bool := (u.stR ++ u.stW).any fun r => decide (512 < r.1 + r.2)

/-- A block lies wholly within the LS and is aligned, so that its fields are judged (spec/03 R480). -/
def hdrJudged (a : Nat) : Bool := lsOk 64 (a, 64)

/-- Blocks the ranges touch. -/
def rangeBlocks (rs : List (Nat × Nat)) : List Nat := rs.flatMap fun r => blocksOf r.1 r.2

/-- Entries of ranges. -/
def rangeEntries (rs : List (Nat × Nat)) : List Nat := rs.flatMap fun r => (List.range r.2).map (r.1 + ·)

/-! ## Sizes of operands -/

/-- A size no format gives is judged as one block (notes/assumptions/24). -/
def sized (n : Nat) : Nat := if n = 0 then 64 else n

/-- Bytes of a vector run: BF16 64 per vector, FP32 and I32 128 (spec/07 R163). -/
def vecBytes (fmt : BitVec 4) (n : Nat) : Nat :=
  match fmt.toNat with
  | 5 => 64 * n
  | 6 => 128 * n
  | 7 => 128 * n
  | _ => 0

/-- Bytes of n nibbles, up to the next block. -/
def nibbleRun (n : Nat) : Nat := up64 ((n + 1) / 2)

/-- Bytes of the packed blocks of a run of n blocks, up to the next block (spec/04 R98). -/
def blockRun (fmt : BitVec 4) (n : Nat) : Nat := up64 (4 * elemWidth fmt * n)

/-- Bytes of one side of a VCVT of n vectors (spec/04 R100). -/
def convRun (fmt : BitVec 4) (n : Nat) : Nat :=
  if isBlock fmt then blockRun fmt n + nibbleRun n else vecBytes fmt n

/-- Bytes of the destination of the limb split (spec/04 R122). -/
def limbRun (n : Nat) : Nat := 2 * blockRun 4 n + nibbleRun n

/-- Blocks per weight or stationary column: two for F4 (spec/05 R126, R127). -/
def slotsOf (fmt : BitVec 4) : Nat := if fmt = 3 then 2 else 1

/-- Bytes of an array data run of n columns. -/
def columnRun (fmt : BitVec 4) (n : Nat) : Nat := if isBlock fmt then blockRun fmt (slotsOf fmt * n) else 0

/-- Bytes of the scale run of n columns; of a format that is not allowed, one block (DESIGN CHOICE, notes/assumptions/24). -/
def columnScales (fmt : BitVec 4) (n : Nat) : Nat := if isBlock fmt then nibbleRun (slotsOf fmt * n) else 64

/-- Bytes of the data of a tile of n entries (spec/06 R145), up to the next block. -/
def tileData (fmt : BitVec 4) (n : Nat) : Nat := if isBlock fmt || isWide fmt then up64 (n * elemWidth fmt) else 0

/-- Bytes of a tile with its scale run. -/
def tileBytes (fmt : BitVec 4) (n : Nat) : Nat :=
  if isBlock fmt then tileData fmt n + nibbleRun (8 * (n / 32)) else tileData fmt n

/-- Bytes of an element of a row: 2 for BF16, 4 for FP32 (spec/07 R174). -/
def rowWidth (fmt : BitVec 4) : Nat :=
  match fmt.toNat with
  | 5 => 2
  | 6 => 4
  | _ => 0

/-! ## The copy descriptor (spec/08 R187) -/

/-- A copy descriptor by its fields; ROW_BLOCKS and ROWS as counts. -/
structure Desc where
  src : DWord
  dst : DWord
  rowBlocks : Nat
  rows : Nat
  srcStride : Nat
  dstStride : Nat
  peal : Nat
  cached : Bool
  sigAddr : DWord
  sigVal : Nat
  pealCtr : Nat
  pealSig : Bool
  deriving DecidableEq, Repr

/-- The fields of a descriptor block. -/
def Desc.of (b : BitVec 512) : Desc :=
  let v := b.toNat
  { src := BitVec.ofNat 64 v
    dst := BitVec.ofNat 64 (bitsOf v 127 64)
    rowBlocks := bitsOf v 137 128 + 1
    rows := bitsOf v 153 144 + 1
    srcStride := bitsOf v 191 160
    dstStride := bitsOf v 223 192
    peal := bitsOf v 233 224
    cached := bitOf v 234
    sigAddr := BitVec.ofNat 64 (bitsOf v 319 256)
    sigVal := bitsOf v 327 320
    pealCtr := bitsOf v 333 328
    pealSig := bitOf v 334 }

/-- A reserved bit of a descriptor block is not 0. -/
def descReserved (b : BitVec 512) : Bool :=
  let v := b.toNat
  bitsOf v 143 138 != 0 || bitsOf v 159 154 != 0 || bitsOf v 255 235 != 0 || bitsOf v 511 335 != 0

/-- Bytes of a row. -/
def Desc.rowBytes (d : Desc) : Nat := 64 * d.rowBlocks

/-- Bytes of the copy. -/
def Desc.bytes (d : Desc) : Nat := d.rowBytes * d.rows

/-- Bytes from the first to the last byte of an end with this stride. -/
def Desc.hull (d : Desc) (stride : Nat) : Nat := (d.rows - 1) * stride + d.rowBytes

/-- The stride of an end; 0 matters not when there is one row. -/
def Desc.sStride (d : Desc) : Nat := if d.rows = 1 then 0 else d.srcStride

/-- The destination stride. -/
def Desc.dStride (d : Desc) : Nat := if d.rows = 1 then 0 else d.dstStride

/-- LS offset of a peal's first byte. -/
def Desc.pealOff (d : Desc) : Nat := bitsOf d.dst.toNat 16 0

/-- The 512 bits of an LS block. -/
def Core.block (x : Core) (a : Nat) : BitVec 512 := BitVec.ofNat 512 (leNat (Memory.read x.ls a 64))

/-- A peal route of the loaded image by index, from 1 (spec/08 R195). -/
def State.route (s : State) (j : Nat) : Option (Bool × Nat × Nat × Nat) :=
  match s.image with
  | none => none
  | some i => if j = 0 then none else i.routes[j - 1]?

/-- The cores of a route in order, from the head: axis (true: a column), line, head, tail. -/
def routeCores (r : Bool × Nat × Nat × Nat) : List CoreId :=
  let (col, line, head, tail) := r
  let n := if head ≤ tail then tail - head + 1 else head - tail + 1
  (List.range n).filterMap fun i =>
    let p := if head ≤ tail then head + i else head - i
    if col then coreAt line p else coreAt p line

/-- LS range a copy reads in a core: its source hull, if its source lies there (spec/03 R72). -/
def State.readRange (s : State) (c : CoreId) (d : Desc) : Option (Nat × Nat) :=
  if addrModule d.src = s.coord then
    match placeOf d.src with
    | some (.ls c' off) => if c' = c then some (off, d.hull d.sStride) else none
    | _ => none
  else none

/-- LS range a copy writes in a core: its destination hull, if the copy lands there. -/
def State.writeRange (s : State) (c : CoreId) (d : Desc) : Option (Nat × Nat) :=
  if d.peal ≠ 0 then
    match s.route d.peal with
    | some r => if (routeCores r).contains c then some (d.pealOff, d.hull d.dStride) else none
    | none => none
  else if addrModule d.dst = s.coord then
    match placeOf d.dst with
    | some (.ls c' off) => if c' = c then some (off, d.hull d.dStride) else none
    | _ => none
  else none

/-- A byte range meets the block hull of a tracked range. -/
def meets (r h : Nat × Nat) : Bool :=
  r.2 != 0 && decide (r.1 < (h.1 + h.2 + 63) / 64 * 64) && decide (h.1 / 64 * 64 < r.1 + r.2)

/-- Some range meets a tracked range, when there is one. -/
def meetsAny (rs : List (Nat × Nat)) (h : Option (Nat × Nat)) : Bool :=
  match h with
  | none => false
  | some h => rs.any fun r => meets r h

/-- Range tracking holds an instruction back: it writes inside a range that an outstanding copy of its context
reads, or reads or writes inside a range that one writes (spec/03 R73); or it touches the LS while a CPY of its
context is still to be read, whose range is not known yet (notes/assumptions/25). -/
def State.rangeHeld (s : State) (c : CoreId) (k : Ctx) (u : Use) : Bool :=
  let x := s.core c
  (x.slots.any fun sl => sl.ctx == k && sl.tracked &&
    (let d := Desc.of sl.desc
     meetsAny u.lsW (s.readRange c d) || meetsAny (u.lsR ++ u.lsW) (s.writeRange c d))) ||
  (x.cpys.any fun q => q.ctx == k && !(u.lsR.isEmpty && u.lsW.isEmpty))

/-- An AF entry that the instruction reads or writes awaits a group sum of an earlier APASS of the context
(spec/03 R68, spec/05 R134). -/
def Core.afAwaited (x : Core) (k : Ctx) (u : Use) : Bool :=
  x.arrayQ.any fun g => g.ctx == k && (u.afR ++ u.afW).any fun r => decide (r.1 ≤ g.entry) && decide (g.entry < r.1 + r.2)

/-- The bank of an entry range awaits its window repeat: no AREAD reads it (spec/06 R148). -/
def Core.repeatAwaited (x : Core) (first n : Nat) : Bool :=
  (banksOf first n).any fun b => (x.banks.get b).rep

end Sys2Proof.Machine
end

