-- ==== Sys2Proof/Machine/Flags.lean ====
section
/-! DEFINITION. The checks at issue (spec/03 R85, R480) and the counters of floating results (spec/07 R169). -/

namespace Sys2Proof.Machine

open Sys2Proof

/-! ## Check codes -/

def ckIllegal : Nat := 1
def ckLs : Nat := 2
def ckAf : Nat := 3
def ckStat : Nat := 4
def ckFormat : Nat := 5
def ckArray : Nat := 6
def ckOwner : Nat := 7
def ckAge : Nat := 8
def ckPc : Nat := 9
def ckDesc : Nat := 10
def ckSig : Nat := 11

/-- The first check that fails, in the order of the codes; 0 when all pass. -/
def firstFail (l : List (Nat × Bool)) : Nat :=
  l.foldl (fun m p => if p.2 && (m = 0 || decide (p.1 < m)) then p.1 else m) 0

/-- A "—" D operand is not all 0 (spec/03 R79). -/
def badD (f : FmtM) : Bool := f.dbase != 0 || f.doff != 0

/-- A "—" A operand is not all 0. -/
def badA (f : FmtM) : Bool := f.abase != 0 || f.aoff != 0

/-- A "—" B operand is not 0. -/
def badB (f : FmtM) : Bool := f.bbase != 0

/-- LEN that must be 0 is not. -/
def badLen (f : FmtM) : Bool := f.len != 0

/-- SUB that must be 0 is not. -/
def badSub (f : FmtM) : Bool := f.sub != 0

/-- FMT that must be 0 is not. -/
def badFmt (f : FmtM) : Bool := f.fmt != 0

/-- FLAGS that must be 0 is not. -/
def badFlags (f : FmtM) : Bool := f.flags != 0

/-- Reserved fields of ADD to SRA, MUL, MULH, SLT (spec/03 R479). -/
def badArith (f : FmtS) : Bool :=
  f.cond != 0 || f.rsv != 0 || (f.immsel == 1 && f.srcb != 0) || (f.immsel == 0 && f.imm != 0)

/-- The context owns an open bank. -/
def Core.ownsOpen (x : Core) (k : Ctx) : Bool :=
  x.banks.toList.any fun b => b.isOpen && b.owner.toNat == k.val

/-- Some bank the range touches is another context's open bank (spec/03 R85, code 0x07). -/
def Core.foreignBank (x : Core) (k : Ctx) (first n : Nat) : Bool :=
  (banksOf first n).any fun b => (x.banks.get b).isOpen && (x.banks.get b).owner.toNat != k.val

/-- Some bank the range touches is closed or another context's. -/
def Core.notOwned (x : Core) (k : Ctx) (first n : Nat) : Bool :=
  (banksOf first n).any fun b => !((x.banks.get b).isOpen && (x.banks.get b).owner.toNat == k.val)

/-! ## Counters of floating results (spec/07 R169) -/

/-- What a result does to VEC_INVALID and VEC_OVERFLOW: a NaN result whose operands hold no NaN, an infinite
result whose operands are all finite. -/
def vecFlags (ops : List FVal) (r : FVal) : Nat × Nat :=
  match r with
  | .nan => (if ops.any FVal.isNan then 0 else 1, 0)
  | .inf _ => (0, if ops.all FVal.isFinite then 1 else 0)
  | _ => (0, 0)

/-- Both counters of a core. -/
def Core.countVec (x : Core) (invalid overflow : Nat) : Core :=
  let x := if invalid = 0 then x else x.count jVecInvalid invalid
  if overflow = 0 then x else x.count jVecOverflow overflow

/-- CVT_SAT and CVT_NAN of a core. -/
def Core.countConv (x : Core) (sat nan : Nat) : Core :=
  let x := if sat = 0 then x else x.count jCvtSat sat
  if nan = 0 then x else x.count jCvtNan nan

/-- Exact results as values again: a quotient whose denominator is a power of two. -/
def Exact.toF : Exact → FVal
  | .nan => .nan
  | .inf n => .inf n
  | .zero n => .fin n 0 0
  | .quot neg n d => .fin neg n (-(Nat.log2 d : Int))

end Sys2Proof.Machine
end

