-- ==== Sys2Proof/Machine/Uses.lean ====
section
/-! DEFINITION. What each instruction reads and writes, its header and its descriptor, and the cycles it takes: what range
tracking, the checks and readiness judge (spec/03 R68 to R74, R79; spec/08 R187 to R190; spec/07 R170, R173, R183). -/

namespace Sys2Proof.Machine

open Sys2Proof

/-! ## The fields of a word -/

/-- The fields of a format S word. -/
def fieldsS (w : DWord) : FmtS :=
  let v := w.toNat
  { dst := BitVec.ofNat 5 (bitsOf v 57 53), srca := BitVec.ofNat 5 (bitsOf v 52 48), srcb := BitVec.ofNat 5 (bitsOf v 47 43)
    immsel := BitVec.ofNat 1 (bitsOf v 42 42), cond := BitVec.ofNat 3 (bitsOf v 41 39), rsv := BitVec.ofNat 7 (bitsOf v 38 32)
    imm := BitVec.ofNat 32 (bitsOf v 31 0) }

/-- The fields of a format M word. -/
def fieldsM (w : DWord) : FmtM :=
  let v := w.toNat
  { dbase := BitVec.ofNat 5 (bitsOf v 57 53), abase := BitVec.ofNat 5 (bitsOf v 52 48), bbase := BitVec.ofNat 5 (bitsOf v 47 43)
    doff := BitVec.ofNat 11 (bitsOf v 42 32), aoff := BitVec.ofNat 11 (bitsOf v 31 21), len := BitVec.ofNat 8 (bitsOf v 20 13)
    sub := BitVec.ofNat 5 (bitsOf v 12 8), fmt := BitVec.ofNat 4 (bitsOf v 7 4), flags := BitVec.ofNat 4 (bitsOf v 3 0) }

/-- The fields of a format Y word. -/
def fieldsY (w : DWord) : FmtY :=
  let v := w.toNat
  { abase := BitVec.ofNat 5 (bitsOf v 57 53), ctr := BitVec.ofNat 6 (bitsOf v 52 47), consume := BitVec.ofNat 1 (bitsOf v 46 46)
    remote := BitVec.ofNat 1 (bitsOf v 45 45), rsv := BitVec.ofNat 29 (bitsOf v 44 16), value := BitVec.ofNat 16 (bitsOf v 15 0) }

/-- The word a context fetches. -/
def Core.fetch (x : Core) (k : Ctx) : DWord := Sparse.look 0 x.instr (x.ctx k).pc.toNat

/-- Where a context goes on after an instruction. -/
inductive Next where
  /-- the next instruction -/
  | seq
  /-- an index of the store -/
  | goto (i : Nat)
  /-- nowhere: the context ends -/
  | stay
  deriving DecidableEq, Repr

/-- The next program counter. -/
def Next.pc (n : Next) (pc : Nat) : Nat :=
  match n with
  | .seq => pc + 1
  | .goto i => i
  | .stay => pc

/-! ## Sizes of the stores of a stack -/

/-- Bytes of the program region of a stack (spec/09 R212). -/
def hbmSize : Nat := 0x2000000000

/-- Units of 16 MiB of the cache part; 0 with no image. -/
def State.scUnits (s : State) : Nat :=
  match s.image with
  | some i => i.scCache.toNat
  | none => 0

/-- Bytes of the program part of the stack cache (spec/08 R203). -/
def State.scProgram (s : State) : Nat := 0x0C000000 - s.scUnits * 0x1000000

/-- A byte range lies in the store of a place. -/
def State.inStore (s : State) (p : Place) (n : Nat) : Bool :=
  match p with
  | .ls _ o => decide (o + n ≤ lsSize)
  | .af _ o => decide (o + n ≤ 32768)
  | .stat _ o => decide (o + n ≤ 4096)
  | .hbm _ o => decide (o + n ≤ hbmSize)
  | .sc _ o => decide (o + n ≤ s.scProgram)
  | .ctr _ _ => false

/-- The counter an address names on a module of the torus. -/
def State.ctrTarget (s : State) (addr : DWord) : Option (CoreId × Fin 64) :=
  match placeOf addr with
  | some (.ctr c i) => if s.inTorus (addrModule addr) then some (c, i) else none
  | _ => none

/-! ## DESC_BOUNDS (spec/08 R190) -/

/-- A space allowed at the source; `false`: at the destination (spec/08 R189). -/
def spaceOk (source : Bool) (a : DWord) : Bool :=
  match addrSpace a with
  | 1 => true
  | 2 => source
  | 3 => true
  | 4 => true
  | 5 => true
  | _ => false

/-- An end lies on the torus, in its store with every byte, with an allowed space and an aligned address. -/
def State.endOk (s : State) (source : Bool) (a : DWord) (hull : Nat) : Bool :=
  spaceOk source a && a.toNat % 64 == 0 && s.inTorus (addrModule a) &&
    match placeOf a with
    | some p => s.inStore p hull
    | none => false

/-- The store of a place without its offset, and the offset. -/
def Place.split (p : Place) : Place × Nat :=
  match p with
  | .ls c o => (.ls c 0, o)
  | .af c o => (.af c 0, o)
  | .stat c o => (.stat c 0, o)
  | .hbm h o => (.hbm h 0, o)
  | .sc h o => (.sc h 0, o)
  | .ctr c i => (.ctr c i, 0)

/-- Two byte ranges share a byte. -/
def sharesByte (a n b m : Nat) : Bool := decide (a < b + m) && decide (b < a + n)

/-- Source and destination hulls share a byte of one store; for a peal, in any route core's LS. -/
def State.hullsMeet (s : State) (d : Desc) : Bool :=
  match placeOf d.src with
  | none => false
  | some p =>
    if d.peal ≠ 0 then
      match p, s.route d.peal with
      | .ls c o, some r =>
        addrModule d.src == s.coord && (routeCores r).contains c &&
          sharesByte o (d.hull d.sStride) d.pealOff (d.hull d.dStride)
      | _, _ => false
    else
      match placeOf d.dst with
      | none => false
      | some q =>
        addrModule d.src == addrModule d.dst && decide (p.split.1 = q.split.1) &&
          sharesByte p.split.2 (d.hull d.sStride) q.split.2 (d.hull d.dStride)

/-- A stride fails: no multiple of 64, or smaller than a row. -/
def Desc.strideBad (d : Desc) (stride : Nat) : Bool := stride % 64 != 0 || decide (stride < d.rowBytes)

/-- The DESC_BOUNDS check fails. -/
def State.descBad (s : State) (b : BitVec 512) : Bool :=
  let d := Desc.of b
  descReserved b || decide (1024 < d.rowBlocks * d.rows) ||
    (d.rows != 1 && (d.strideBad d.srcStride || d.strideBad d.dstStride)) ||
    !(s.endOk true d.src (d.hull d.sStride)) || s.hullsMeet d || (d.cached && addrSpace d.src != 5) ||
    if d.peal = 0 then
      !(s.endOk false d.dst (d.hull d.dStride)) || d.pealCtr != 0 || d.pealSig ||
        (d.sigVal != 0 && (s.ctrTarget d.sigAddr).isNone) || (d.sigAddr != 0 && d.sigVal == 0)
    else
      (s.route d.peal).isNone || decide (2 ^ 17 ≤ d.dst.toNat) || d.dst.toNat % 64 != 0 ||
        decide (lsSize < d.pealOff + d.hull d.dStride) || d.sigAddr != 0 ||
        ((d.pealCtr != 0 || d.pealSig) && d.sigVal == 0)

/-- A later copy would write a range that an earlier copy of the context reads or writes, or read one that it writes
(spec/03 R73). -/
def State.copyHeld (s : State) (c : CoreId) (k : Ctx) (d : Desc) : Bool :=
  let r := (s.readRange c d).toList
  let w := (s.writeRange c d).toList
  (s.core c).slots.any fun sl => sl.ctx == k && sl.tracked &&
    (let e := Desc.of sl.desc
     meetsAny w (s.readRange c e) || meetsAny (r ++ w) (s.writeRange c e))

/-! ## The row header (spec/07 R173) -/

/-- A row header by its fields. -/
structure RowHdr where
  w : Nat
  mode : Nat
  eps : Word
  g : Nat
  reserved : Bool
  deriving DecidableEq, Repr

/-- The fields of a header block. -/
def RowHdr.of (b : BitVec 512) : RowHdr :=
  let v := b.toNat
  { w := bitsOf v 15 0
    mode := bitsOf v 17 16
    eps := BitVec.ofNat 32 (bitsOf v 63 32)
    g := bitsOf v 80 64
    reserved := bitsOf v 31 18 != 0 || bitsOf v 511 81 != 0 }

/-! ## Operands of the instructions -/

/-- ALOAD, ALOADT: the data run and the scale run (spec/05 R124). -/
def loadUse (t : CtxState) (f : FmtM) : Use := { lsR := [(addrA t f, sized (columnRun f.fmt 8)), (addrB t f, 64)] }

/-- APASS: the weights, their scales and the entries (spec/05 R123, R127). -/
def passUse (t : CtxState) (f : FmtM) : Use :=
  let n := countOf f
  { lsR := [(addrA t f, sized (columnRun f.fmt n)), (addrB t f, columnScales f.fmt n)], afW := [(indexD t f, n)] }

/-- ACLR: its entries. -/
def aclrUse (t : CtxState) (f : FmtM) : Use := { afW := [(indexD t f, countOf f)] }

/-- ADROP: the entries it drops. -/
def adropUse (t : CtxState) (f : FmtM) : Use := { afR := [(indexA t f, countOf f)] }

/-- APRE: the preload header with the tile behind it, and the entries (spec/06 R145, R146). -/
def apreUse (t : CtxState) (f : FmtM) : Use :=
  let a := addrA t f
  let n := countOf f
  { lsR := [(a, 64 + tileBytes f.fmt n)], afW := [(indexD t f, n)], hdr := some a }

/-- AREAD: the readout descriptor, whose upper half takes the completion record, the tile and the entries (spec/06 R152). -/
def areadUse (t : CtxState) (f : FmtM) : Use :=
  let b := addrB t f
  let n := countOf f
  { lsR := [(b, 64)], lsW := [(addrD t f, sized (tileBytes f.fmt n)), (b, 64)], afR := [(indexA t f, n)], hdr := some b }

/-- A vector instruction on operands of one format: its sources and its destination (spec/07 R163). -/
def vectorUse (srcs : List Nat) (t : CtxState) (f : FmtM) : Use :=
  let size := sized (vecBytes f.fmt (countOf f))
  { lsR := srcs.map fun a => (a, size), lsW := [(addrD t f, size)] }

/-- Source format of a VCVT. -/
def cvtFrom (f : FmtM) : BitVec 4 := BitVec.ofNat 4 (bitsOf f.sub.toNat 3 0)

/-- VCVT: the runs of both formats; the limb split writes two block runs (spec/04 R100, R122). -/
def vcvtUse (t : CtxState) (f : FmtM) : Use :=
  let n := countOf f
  { lsR := [(addrA t f, sized (convRun (cvtFrom f) n))]
    lsW := [(addrD t f, sized (if cvtFrom f = 7 && f.fmt = 4 then limbRun n else convRun f.fmt n))] }

/-- What distinguishes a row instruction. -/
inductive RowOp where
  | stat
  | smax
  | norm
  | smaxb
  | normb
  deriving DecidableEq, Repr

/-- Opcode of a row instruction (spec/03 R82). -/
def RowOp.code : RowOp → BitVec 6
  | .stat => 0x28
  | .smax => 0x29
  | .norm => 0x2A
  | .smaxb => 0x2B
  | .normb => 0x2C

/-- Passes per row (spec/07, table Passes per row). -/
def RowOp.passes (o : RowOp) (mode : Nat) : Nat :=
  match o with
  | .stat => 1
  | .smax => if mode = 1 then 2 else 3
  | .norm => 1
  | .smaxb => 2
  | .normb => 2

/-- The header block of a row instruction by its fields. -/
def Core.rowHdr (x : Core) (t : CtxState) (f : FmtM) : RowHdr := RowHdr.of (x.block (addrA t f))

/-- RSMAX in MODE 1. -/
def Core.rowMergesAt (x : Core) (o : RowOp) (t : CtxState) (f : FmtM) : Bool :=
  o == .smax && hdrJudged (addrA t f) && (x.rowHdr t f).mode == 1

/-- A row instruction: the header with the rows behind it, the gradient, the output and the entries (spec/07 R172 to R174). The
rows of a format that is not allowed are judged as one block (DESIGN CHOICE, notes/assumptions/24). -/
def Core.rowUse (x : Core) (o : RowOp) (t : CtxState) (f : FmtM) : Use :=
  let n := countOf f
  let a := addrA t f
  let judged := hdrJudged a
  let h := x.rowHdr t f
  let rows := if !judged then 0 else if isWide f.fmt then n * h.w * rowWidth f.fmt else 64
  let merge := x.rowMergesAt o t f
  let grad := o == .smaxb || o == .normb
  { lsR := (a, 64 + rows) :: (if grad && judged then [(h.g, rows)] else [])
    lsW := if o == .stat then [] else [(addrB t f, rows + (if merge then up64 (4 * n) else 0))]
    stR := if o == .stat || (o == .smax && !merge) then [] else [(indexD t f, n)]
    stW := if o == .stat || o == .smax then [(indexD t f, n)] else []
    hdr := some a }

/-- Cycles of one row: its passes and 4 to finish (spec/07 R183). -/
def RowOp.span (o : RowOp) (h : RowHdr) : Nat := o.passes h.mode * (h.w / 32) + 4

/-- VUN is one of exp2, reciprocal, reciprocal square root. -/
def vunSlow (sub : Nat) : Bool := decide (2 ≤ sub) && decide (sub ≤ 4)

/-- Cycles per vector and latency of VBIN, VFMA, VUN, VCVT and VSCALE (spec/07, table Vector engine timing). -/
def vecTiming (op sub : Nat) : Nat × Nat :=
  if op = 0x21 then (1, 5)
  else if op = 0x22 && vunSlow sub then (2, 10)
  else if op = 0x23 then (1, 6)
  else (1, 4)

/-- The row instruction of an opcode. -/
def rowOpOf (op : Nat) : Option RowOp :=
  match op with
  | 0x28 => some .stat
  | 0x29 => some .smax
  | 0x2A => some .norm
  | 0x2B => some .smaxb
  | 0x2C => some .normb
  | _ => none

/-! ## An instruction as readiness sees it (spec/03 R68, R70) -/

/-- The unit an instruction occupies: array, accumulator unit, vector engine, row engine; none for the others, which issue in
one cycle. -/
def unitOf (op : Nat) : Option Nat :=
  if !opcodeDefined op then none
  else if 0x10 ≤ op ∧ op < 0x18 then some 0
  else if 0x18 ≤ op ∧ op < 0x20 then some 1
  else if 0x20 ≤ op ∧ op < 0x28 then some 2
  else if 0x28 ≤ op ∧ op < 0x30 then some 3
  else none

/-- A CPY's descriptor block, and the LS ranges of this core that the copy will read and write. -/
def State.cpyUse (s : State) (c : CoreId) (t : CtxState) (f : FmtM) : Use :=
  let a := addrD t f
  let d := Desc.of ((s.core c).block a)
  if hdrJudged a && !(s.descBad ((s.core c).block a)) then
    { lsR := (a, 64) :: (s.readRange c d).toList, lsW := (s.writeRange c d).toList }
  else { lsR := [(a, 64)] }

/-- What the word of a context touches. -/
def State.useOf (s : State) (c : CoreId) (t : CtxState) (w : DWord) : Use :=
  let f := fieldsM w
  match opcodeOf w with
  | 0x0B => { lsR := [(addrS t (fieldsS w), 4)] }
  | 0x0C => { lsW := [(addrS t (fieldsS w), 4)] }
  | 0x10 | 0x11 => loadUse t f
  | 0x12 => passUse t f
  | 0x18 => aclrUse t f
  | 0x19 => apreUse t f
  | 0x1A => areadUse t f
  | 0x1B => adropUse t f
  | 0x20 => vectorUse [addrA t f, addrB t f] t f
  | 0x21 => vectorUse [addrA t f, addrB t f, addrD t f] t f
  | 0x22 | 0x24 => vectorUse [addrA t f] t f
  | 0x23 => vcvtUse t f
  | 0x30 => s.cpyUse c t f
  | op => match rowOpOf op with | some o => (s.core c).rowUse o t f | none => {}

/-- The scalar registers that a word reads. -/
def regsRead (w : DWord) : List Nat :=
  let op := opcodeOf w
  if op < 0x10 then [(fieldsS w).srca.toNat, (fieldsS w).srcb.toNat]
  else if op < 0x38 then [(fieldsM w).dbase.toNat, (fieldsM w).abase.toNat, (fieldsM w).bbase.toNat]
  else if (fieldsY w).remote = 1 then [(fieldsY w).abase.toNat, (fieldsY w).abase.toNat + 1]
  else []

/-- The scalar register that a word writes; 0: none. -/
def regWritten (w : DWord) : Nat :=
  let op := opcodeOf w
  if op < 0x10 && op != 0x0C && op != 0x0E then (fieldsS w).dst.toNat else 0

/-- Cycles that an instruction occupies its unit, and its latency (spec/03 R70, spec/05 R131, R133, spec/06 R159, spec/07 R170,
R183). -/
def Core.timing (x : Core) (t : CtxState) (w : DWord) : Nat × Nat :=
  let f := fieldsM w
  let n := countOf f
  match opcodeOf w with
  | 0x08 | 0x09 => (1, 3)
  | 0x0B => (1, 4)
  | 0x0C => (1, 2)
  | 0x10 | 0x11 => (32, 32)
  | 0x12 => (n, n + 40)
  | 0x18 => (1, 2)
  | 0x19 => (n, n + 6)
  | 0x1A => (n, n + 12)
  | op =>
    if unitOf op = some 2 then
      let r := vecTiming op f.sub.toNat
      (r.1 * n, r.1 * (n - 1) + r.2)
    else
      match rowOpOf op with
      | some o =>
        let m := n * o.span (x.rowHdr t f)
        (m, m + 16)
      | none => (1, 1)

/-- The word of a context as an instruction that issues now. -/
def State.workOf (s : State) (c : CoreId) (k : Ctx) (w : DWord) : Work :=
  let x := s.core c
  let t := x.ctx k
  let m := x.timing t w
  { ctx := k, op := opcodeOf w, reads := regsRead w, dst := regWritten w, use := s.useOf c t w, busy := m.1, lat := m.2 }

/-- Entry ranges share an entry. -/
def entriesMeet (rs qs : List (Nat × Nat)) : Bool :=
  rs.any fun r => qs.any fun q => decide (r.1 < q.1 + q.2) && decide (q.1 < r.1 + r.2)

/-- A block lies in ranges of both lists. -/
def blocksMeet (rs qs : List (Nat × Nat)) : Bool := rs.any fun r => qs.any fun q => q.2 != 0 && meets r q

/-- SIG, BEAT and END: they wait for every result of their context (spec/03 R71, spec/09 R215). -/
def waitsAll (op : Nat) : Bool := op == 0x38 || op == 0x3A || op == 0x3B

/-- The unit that instruction q needs is occupied by p. -/
def Work.unitHolds (p q : Work) : Bool := decide (0 < p.busy) && (unitOf q.op).isSome && unitOf p.op == unitOf q.op

/-- Instruction q awaits a result of the earlier instruction p of its context: a register, an LS block, an AF entry (but an APASS
on what an APASS accumulates, spec/05 R134) or a statistics entry. -/
def Work.resultHolds (p q : Work) : Bool :=
  decide (0 < p.lat) && p.ctx == q.ctx &&
    (waitsAll q.op || (p.dst != 0 && q.reads.contains p.dst) || blocksMeet (q.use.lsR ++ q.use.lsW) p.use.lsW ||
      (!(p.op == 0x12 && q.op == 0x12) && entriesMeet (q.use.afR ++ q.use.afW) p.use.afW) ||
      entriesMeet (q.use.stR ++ q.use.stW) p.use.stW)

/-- Instruction q writes what the earlier instruction p of its context is still reading (spec/05 R135). -/
def Work.readHolds (p q : Work) : Bool :=
  decide (0 < p.busy) && p.ctx == q.ctx &&
    (((unitOf p.op == some 0 || p.op == 0x19) && blocksMeet q.use.lsW p.use.lsR) ||
      (q.op == 0x12 && (p.op == 0x1A || p.op == 0x1B) && entriesMeet q.use.afW p.use.afR))

/-- The earlier instruction p may hold instruction q back. -/
def Work.holds (p q : Work) : Bool := p.unitHolds q || p.resultHolds q || p.readHolds q

/-- What is left of p when q issues, a cycle or more later: what would have held q back is over. -/
def Work.after (p q : Work) : Work :=
  { p with
    busy := if p.holds q then 0 else p.busy - 1
    lat := if p.resultHolds q then 0 else p.lat - 1 }

/-- An instruction issued: a cycle or more has passed for every other. -/
def Pace.issued (p : Pace) (q : Work) (next : Next) : Pace :=
  { wait := (p.wait.map fun _ n => n - 1).set q.ctx (match next with | .goto _ => 1 | _ => 0)
    work := ((p.work.map fun r => Work.after r q) ++ [{ q with busy := q.busy - 1, lat := q.lat - 1 }]).filter fun r =>
      decide (0 < r.busy) || decide (0 < r.lat)
    idle := min 3 (p.idle + 1)
    sig := p.sig.bind fun m => if m.issued then none else some { m with issued := true } }

end Sys2Proof.Machine
end

