-- ==== Sys2Proof/Machine/Issue.lean ====
section
/-! DEFINITION. Issue of one instruction: selection, fetch, checks, guards, effect, advance (spec/03 R67 to
R87). -/

namespace Sys2Proof.Machine

open Sys2Proof

/-- The outcome of every command: the block always has a next state. -/
abbrev Out := Host.Outcome State Fault Refusal

/-! ## Which contexts are ready (spec/03 R68 to R71) -/

/-- Local counter index of a format Y instruction. -/
def ctrOf (f : FmtY) : Fin 64 := ⟨f.ctr.toNat, f.ctr.isLt⟩

/-- The counter condition of a WAIT (spec/09 R224). -/
def Core.waitMet (x : Core) (f : FmtY) : Bool := decide (f.value.toNat ≤ (x.syncCtr (ctrOf f)).value.toNat)

/-- The next instruction of a context is ready whatever time its context's copies take: no instruction issued before holds it back,
by its unit, its results or its reading; range tracking lets it through; no group sum that it needs is still to be added; a WAIT
finds its counter high and unchanged for 3 issues, a CPY finds room and no copy whose range meets its own (spec/03 R68, R71,
R73, spec/05 R134, R135, spec/06 R148, spec/09 R226). -/
def State.unhindered (s : State) (c : CoreId) (k : Ctx) : Bool :=
  let x := s.core c
  let w := x.fetch k
  let f := fieldsM w
  let q := s.workOf c k w
  let a := addrD (x.ctx k) f
  !(x.pace.work.any (·.holds q)) && !(s.rangeHeld c k (if q.op = 0x30 then { lsR := [(a, 64)] } else q.use)) &&
    !(q.op != 0x12 && x.afAwaited k q.use) && !(waitsAll q.op && x.arrayQ.any (·.ctx == k)) &&
    (q.op != 0x39 || (decide (3 ≤ x.pace.idle) && x.waitMet (fieldsY w))) &&
    (q.op != 0x30 || (decide (x.slots.length + x.cpys.length < 16) && !(s.copyHeld c k (Desc.of (x.block a))))) &&
    !(q.op == 0x1A && x.repeatAwaited (indexA (x.ctx k) f) (countOf f))

/-- A context is ready whatever the latencies of copies are: it runs its stroke, no branch delays its next instruction, and
nothing hinders that. -/
def State.surelyReady (s : State) (c : CoreId) (k : Ctx) : Bool :=
  let x := s.core c
  let t := x.ctx k
  t.enabled && t.running && !t.ended && !t.stopped && x.pace.wait.get k == 0 && !(x.instrBad.contains t.pc.toNat) && s.unhindered c k

/-- Place of a context in the rotating order, which begins with the context after the one that issued most recently, or with
context 0 (spec/03 R69). -/
def Core.turnAt (x : Core) (k : Ctx) : Nat := match x.last with | some l => (k.val + 3 - l.val) % 4 | none => k.val

/-- Another context that is surely ready comes earlier in the rotating order: the sequencer issues from it (spec/03 R69;
notes/assumptions/166). -/
def State.preceded (s : State) (c : CoreId) (k : Ctx) : Bool :=
  allCtxs.any fun j => decide ((s.core c).turnAt j < (s.core c).turnAt k) && s.surelyReady c j

/-- A context may issue: its core runs, it is enabled, running a stroke, not ended, not stopped, no roll
of the core is due (spec/03 R68, R85, spec/13 R339), stroke issue is open and the arithmetic clocks run
(spec/02 R27, R56). -/
def State.mayIssue (s : State) (c : CoreId) (k : Ctx) : Bool :=
  let x := s.core c
  let t := x.ctx k
  s.powered && s.inWork && !s.arithStopped && t.enabled && t.running && !t.ended && !t.stopped && x.roll.isNone

/-- A context may be selected: it may issue, and no context that is surely ready comes before it (spec/03 R69). -/
def State.selectable (s : State) (c : CoreId) (k : Ctx) : Bool := s.mayIssue c k && !(s.preceded c k)

/-- A guard that a read of the instruction finds failing: class and item, the LS first, then the AF, then the
statistics store. -/
def Core.badRead (x : Core) (u : Use) : Option (Nat × Nat) :=
  match (rangeBlocks u.lsR).find? (x.lsBad.contains ·) with
  | some b => some (1, b)
  | none =>
    match (rangeEntries u.afR).find? (x.afBad.contains ·) with
    | some e => some (2, e)
    | none =>
      match (rangeEntries u.stR).find? (x.statBad.contains ·) with
      | some e => some (3, e)
      | none => none

/-- The header block of the instruction fails its guard. -/
def Core.badHdr (x : Core) (u : Use) : Option Nat :=
  match u.hdr with
  | some a => if hdrJudged a && x.lsBad.contains (a / 64) then some (a / 64) else none
  | none => none

/-- The context moved on from an instruction, and the rotation with it (spec/03 R69). -/
def State.moveOn (s : State) (c : CoreId) (k : Ctx) (q : Work) (next : Next) (pc : Nat) : State :=
  s.modCore c fun x =>
    { x.modCtx k fun t => { t with pc := BitVec.ofNat 10 (next.pc pc), waiting := none } with
      last := some k, pace := x.pace.issued q next }

/-- The effect of an instruction that the context's next word spells, or what stops it short. `fails` lists the
failing checks, `held` says that some rule of spec/03 R68 holds the instruction back, `act` is its effect on the
state before the program counter moves. A header or descriptor block that fails its guard is found before any check is judged, and
the roll due for it comes before a check code (DESIGN CHOICE, notes/assumptions/188). -/
def issue (s : State) (c : CoreId) (k : Ctx) (word : DWord) (u : Use) (fails : List (Nat × Bool)) (held : Bool)
    (next : Next) (act : State → State) : Out :=
  if !s.selectable c k then .next s
  else
    let x := s.core c
    let pc := (x.ctx k).pc.toNat
    if x.instrBad.contains pc then .next (s.guardFail c k 4 pc)
    else if !opcodeDefined (opcodeOf (x.fetch k)) then .next (s.checkStop c k ckIllegal pc)
    else if x.fetch k ≠ word then .next s
    else if held || s.rangeHeld c k u then .next s
    else
      match x.badHdr u with
      | some b => .next (s.guardFail c k 1 b)
      | none =>
        let code := firstFail (fails ++ [(ckPc, decide (1023 < next.pc pc))])
        if code ≠ 0 then .next (s.checkStop c k code pc)
        else
          match x.badRead u with
          | some (cls, item) => .next (s.guardFail c k cls item)
          | none => .next ((act s).moveOn c k (s.workOf c k word) next pc)

end Sys2Proof.Machine
end

