-- ==== Sys2Proof/Machine/Array.lean ====
section
/-! DEFINITION. The matrix array: stationary loads, passes, the column tree (spec/05), and the chain of a stroke
that shadowing samples (spec/13 R352, R353). -/

namespace Sys2Proof.Machine

open Sys2Proof

/-! ## The chain of a stroke -/

/-- A chain instruction of the stroke kept for shadowing, while the stroke's chain is still sought. -/
def CtxState.noteStep (t : CtxState) (st : ChainStep) : CtxState := { t with chain := t.chain.map (· ++ [st]) }

/-- A chain instruction of a core's context kept. -/
def Core.noteStep (x : Core) (k : Ctx) (word : DWord) (a b d : Nat) : Core :=
  x.modCtx k fun t => t.noteStep ⟨word, a, b, d⟩

/-- Opcode of a step. -/
def ChainStep.op (st : ChainStep) : Nat := opcodeOf st.word

/-- Entries a step names. -/
def ChainStep.count (st : ChainStep) : Nat := bitsOf st.word.toNat 20 13 + 1

/-- An ACLR, APRE or APASS that acts on a bank. -/
def ChainStep.onBank (st : ChainStep) (b : Fin 4) : Bool :=
  (st.op == 0x12 || st.op == 0x18 || st.op == 0x19) && (banksOf st.d st.count).contains b

/-- An ALOAD or ALOADT. -/
def ChainStep.isLoad (st : ChainStep) : Bool := st.op == 0x10 || st.op == 0x11

/-- An ADROP, or an AREAD noted because it closes its banks: the entries stand in the D address. -/
def ChainStep.closes (st : ChainStep) (b : Fin 4) : Bool :=
  (st.op == 0x1A || st.op == 0x1B) && (banksOf st.d st.count).contains b

/-- An ACLR, APRE or APASS that acts on one of n entries from `first`. -/
def ChainStep.onEntries (st : ChainStep) (first n : Nat) : Bool :=
  (st.op == 0x12 || st.op == 0x18 || st.op == 0x19) && decide (st.d < first + n) && decide (first < st.d + st.count)

/-- An ACLR or APRE that acts on every one of n entries from `first`: with it a chain of theirs begins (spec/03 R76). -/
def ChainStep.preloads (st : ChainStep) (first n : Nat) : Bool :=
  (st.op == 0x18 || st.op == 0x19) && decide (st.d ≤ first) && decide (first + n ≤ st.d + st.count)

/-- The steps of the newest chain of n entries from `first` in bank b, and those on no entry of theirs: what acted on them before
the bank was last closed, or before they were last preloaded, belongs to chains that are over. -/
def sinceOpen (b : Fin 4) (first n : Nat) (steps : List ChainStep) : List ChainStep :=
  steps.foldl
    (fun l st =>
      if st.closes b then l.filter fun o => !(o.onBank b)
      else (if st.preloads first n then l.filter (fun o => !(o.onEntries first n)) else l) ++ [st]) []

/-- The steps of the chain of n entries from `first`: its own steps and each load a pass of it uses; none if a pass of the
chain uses an operand that no load of the stroke wrote. `load` is the newest load so far, `used` says it was taken. -/
def chainSteps (first n : Nat) : (steps : List ChainStep) → (load : Option ChainStep) → (used : Bool) → Option (List ChainStep)
  | [], _, _ => some []
  | st :: rest, load, used =>
    if st.isLoad then chainSteps first n rest (some st) false
    else if st.onEntries first n then
      if st.op = 0x12 then
        match load with
        | none => none
        | some ld =>
          (chainSteps first n rest load true).map fun l => if used then st :: l else ld :: st :: l
      else (chainSteps first n rest load used).map fun l => st :: l
    else chainSteps first n rest load used

/-- The eligible chain that an AREAD of n entries from `first` ends, if it is one (spec/13 R352): each of them preloaded in this
stroke, every step of it within one bank. A chain in the upper window is a window repeat and is not sampled (spec/06
R151). -/
def eligibleChain (x : Core) (steps : List ChainStep) (first n : Nat) (aread : ChainStep) : Option (List ChainStep) :=
  match banksOf first n with
  | [b] =>
    let bank := x.banks.get b
    let steps := sinceOpen b first n steps
    let own := steps.filter fun st => st.onEntries first n
    if bank.isOpen && !bank.upper && (List.range n).all (fun i => own.any (·.preloads (first + i) 1)) &&
        own.all (fun st => banksOf st.d st.count == [b]) then
      match chainSteps first n steps none false with
      | none => none
      | some l => if l.length + 1 ≤ 60 then some (l ++ [aread]) else none
    else none
  | _ => none

/-- The shadow record of the core waits for its referee, and the partner's area is held for it (spec/13 R356). -/
def Core.refereeDue (x : Core) : Bool := match x.shadow with | some r => r.partner.isSome | none => false

/-- The hash of spec/13 R352. -/
def shadowHash (c : CoreId) (n : Nat) (k : Ctx) (seed : Word) : Word :=
  (BitVec.ofNat 32 c.x.val * 0x9E3779B1) ^^^ (BitVec.ofNat 32 c.y.val * 0x85EBCA77) ^^^
    (BitVec.ofNat 32 (n * 4 + k.val) * 0xC2B2AE3D) ^^^ seed

/-- The top K bits of the hash are 0. -/
def hashSamples (h : Word) (kBits : Nat) : Bool := h.toNat / 2 ^ (32 - kBits) == 0

/-! ## Stationary loads (spec/05 R124 to R126, R131, R132) -/

/-- Element index in the packed operand of cell (row, column, slot): ALOAD by blocks, ALOADT interleaved. -/
def cellIndex (transpose : Bool) (slots col slot row : Nat) : Nat :=
  if transpose then 8 * (32 * slot + row) + col else 32 * (slots * col + slot) + row

/-- The stationary operand read from a data run and a scale run. -/
def readStation (ls : Mem) (transpose : Bool) (fmt : BitVec 4) (a b : Nat) : Station :=
  let slots := slotsOf fmt
  { fmt
    codes := (List.range (8 * slots * 32)).map fun i =>
      BitVec.ofNat 8 (packedElem ls a (elemWidth fmt) (cellIndex transpose slots (i / 32 / slots) (i / 32 % slots) (i % 32)))
    scales := (List.range (8 * slots)).map fun i => scaleAt ls b i }

/-- The operand of the context's next APASS. -/
def CtxState.station (t : CtxState) : Option Station := if t.newest then t.stat1 else t.stat0

/-- The copy the last APASS did not use is filled. -/
def CtxState.loadStation (t : CtxState) (st : Station) : CtxState :=
  if t.passUsed then { t with stat0 := some st, newest := false } else { t with stat1 := some st, newest := true }

/-- ALOAD and ALOADT. -/
def execLoad (transpose : Bool) (op : BitVec 6) (c : CoreId) (k : Ctx) (f : FmtM) (s : State) : Out :=
  let x := s.core c
  let t := x.ctx k
  let a := addrA t f
  let b := addrB t f
  let u := loadUse t f
  issue s c k (encM op f) u
    [(ckIllegal, badD f || badLen f || badSub f || badFlags f), (ckLs, u.lsFails 64), (ckFormat, !isBlock f.fmt)]
    false .seq fun s =>
    s.modCore c fun x =>
      let x := x.modCtx k fun t => t.loadStation (readStation x.ls transpose f.fmt a b)
      { x.noteStep k (encM op f) a b 0 with arrayBusy := x.arrayBusy + 32 }

/-- ALOAD: tokens along columns. -/
def execAload (c : CoreId) (k : Ctx) (f : FmtM) (s : State) : Out := execLoad false 0x10 c k f s
/-- ALOADT: transposing on load. -/
def execAloadt (c : CoreId) (k : Ctx) (f : FmtM) (s : State) : Out := execLoad true 0x11 c k f s

/-! ## The column tree (spec/05 R129, R130, spec/06 R142) -/

/-- Two tags combined; none is the identity. -/
def Tag.combine (a b : Tag) : Tag :=
  if a = .nan ∨ b = .nan then .nan
  else if a = .none then b
  else if b = .none ∨ a = b then a
  else .nan

/-- The tag of the product of two elements, and its significand and exponent when both are finite. Two infinities give an infinity
with the sign of the product (DESIGN CHOICE, notes/assumptions/171: spec/06 R142 does not name the case). -/
def product (x w : FVal) : Tag × Option (Int × Int) :=
  match x, w with
  | .fin nx mx ex, .fin nw mw ew =>
    let p : Int := (mx * mw : Nat)
    (.none, if p = 0 then none else some (if nx = nw then p else -p, ex + ew))
  | .nan, _ => (.nan, none)
  | _, .nan => (.nan, none)
  | x, w => (if x.isZero || w.isZero then .nan else if x.sign = w.sign then .posInf else .negInf, none)

/-- The group sum of products: aligned to the largest exponent less 3, each floored, added exactly. -/
def columnTree (ps : List (Tag × Option (Int × Int))) : GroupSum :=
  let tag := ps.foldl (fun t p => t.combine p.1) .none
  match ps.filterMap (·.2) with
  | [] => ⟨0, 0, tag⟩
  | t :: ts =>
    let l := (t :: ts).foldl (fun m p => max m p.2) t.2 - 3
    ⟨(t :: ts).foldl (fun acc p => acc + (Dy.mk p.1 (p.2 - l)).floor) 0, l, tag⟩

/-- The products of weight column j and array column c. -/
def columnProducts (st : Station) (ls : Mem) (wfmt : BitVec 4) (a b j c : Nat) : List (Tag × Option (Int × Int)) :=
  let slots := slotsOf wfmt
  (List.range (32 * slots)).map fun i =>
    let row := i % 32
    let slot := i / 32
    let x := scaledVal st.fmt ((st.codes.getD ((c * slots + slot) * 32 + row) 0).toNat) (st.scales.getD (c * slots + slot) 0)
    let w := scaledVal wfmt (packedElem ls a (elemWidth wfmt) (32 * (slots * j + slot) + row)) (scaleAt ls b (slots * j + slot))
    product x w

/-- The eight group sums of weight column j, weighted by 2^(8 · LIMB). -/
def groupCol (st : Station) (ls : Mem) (k : Ctx) (wfmt : BitVec 4) (a b e limb j : Nat) : GroupCol :=
  { ctx := k
    entry := e + j
    sums := (List.range 8).map fun c =>
      let g := columnTree (columnProducts st ls wfmt a b j c)
      { g with l := g.l + 8 * limb } }

/-- Group sums of a chain in a bank, as the pass found it. -/
def GroupCol.ofBank (g : GroupCol) (v : Bank) : GroupCol := { g with upper := v.upper, opens := v.opens, opened := v.opened }

/-- The weight and stationary formats form an allowed pair, with LIMB (spec/05 R128). -/
def pairOk (st : Option Station) (wfmt : BitVec 4) (limb : Nat) : Bool :=
  isBlock wfmt &&
  match st with
  | none => true
  | some st => ((st.fmt == 3) == (wfmt == 3)) && (limb == 0 || (st.fmt == 4 && wfmt == 4))

/-- APASS: the group sums of N weight columns set out for the AF (spec/05 R123, R133). It reads every block of its run in its one
step, as ALOAD, the vector and the row instructions read theirs: of the mixes of old and new blocks that spec/09 R228 allows it
shows the one in which no write falls within the reading (DESIGN CHOICE, notes/assumptions/159). -/
def execApass (c : CoreId) (k : Ctx) (f : FmtM) (s : State) : Out :=
  let x := s.core c
  let t := x.ctx k
  let n := countOf f
  let a := addrA t f
  let b := addrB t f
  let e := indexD t f
  let limb := bitsOf f.sub.toNat 1 0
  let u := passUse t f
  issue s c k (encM 0x12 f) u
    [(ckIllegal, bitsOf f.sub.toNat 4 2 != 0 || limb == 3 || badFlags f), (ckLs, u.lsFails 64), (ckAf, u.afFails),
      (ckFormat, !pairOk t.station f.fmt limb), (ckArray, t.station.isNone), (ckOwner, x.notOwned k e n)]
    false .seq fun s =>
    s.modCore c fun x =>
      match t.station with
      | none => x
      | some st =>
        let x := x.modCtx k fun t => { t with passUsed := t.newest }
        { x.noteStep k (encM 0x12 f) a b e with
          arrayBusy := x.arrayBusy + BitVec.ofNat 64 n
          arrayQ := x.arrayQ ++ (List.range n).map fun j =>
            (groupCol st x.ls k f.fmt a b e limb j).ofBank (x.banks.get (bankOf (e + j))) }

end Sys2Proof.Machine
end

