-- ==== Sys2Proof/Machine/Accum.lean ====
section
/-! DEFINITION. The accumulator: group sums added, chains opened, read out and dropped (spec/06). -/

namespace Sys2Proof.Machine

open Sys2Proof

/-! ## Adding (spec/06 R139, R143, R148) -/

/-- Exponent of A's least significant bit in a window. -/
def windowLsb (upper : Bool) : Int := if upper then -32 else -64

/-- The 128-bit range. -/
def inRange128 (v : Int) : Bool := decide (-(2 : Int) ^ 127 ≤ v) && decide (v < (2 : Int) ^ 127)

/-- One column after a group sum, or none on overflow: an overflow leaves the column unchanged. -/
def AfCol.accumulate (col : AfCol) (upper : Bool) (g : GroupSum) : Option AfCol :=
  let v := (Dy.mk g.s (g.l - windowLsb upper)).floor
  let t := col.a.toInt + v
  if inRange128 t then some { a := BitVec.ofInt 128 t, tag := col.tag.combine g.tag } else none

/-- The columns of an entry after the group sums of a weight column, in the window of their chain; none where the add
overflows. -/
def Core.addCols (x : Core) (g : GroupCol) : List (Option AfCol) :=
  (List.range 8).map fun i => (x.afCol g.entry i).accumulate g.upper (g.sums.getD i ⟨0, 0, .none⟩)

/-- The group sums of a weight column added into their entry: a column whose add overflows is unchanged. -/
def Core.addGroup (x : Core) (g : GroupCol) : Core :=
  x.setEntry g.entry ((List.range 8).map fun i => ((x.addCols g).getD i none).getD (x.afCol g.entry i))

/-- A chain of a context overflowed, which began with this opening of the bank: the bank awaits its window repeat, closed since
or not, the context's stroke ends there, and a core roll becomes due that goes back before the opening (spec/06 R148, R149). -/
def State.windowRepeat (s : State) (c : CoreId) (b : Fin 4) (k : Ctx) (opens opened : Nat) : State :=
  let s := s.modCore c fun x =>
    let v := x.banks.get b
    { x with banks := x.banks.set b { v with rep := true, opened := min v.opened opened, uppers := addOnce opens v.uppers } }
  s.pendRoll c ⟨0, 0, k, none, s.beat⟩

/-- ACCUMULATE: the eight group sums of the oldest weight column under way are added into its entry
(spec/06 R143, spec/05 R134). While the arithmetic clocks stand nothing is added (spec/01 R22). -/
def execAccumulate (c : CoreId) (s : State) : Out :=
  let x := s.core c
  match x.arrayQ with
  | [] => .next s
  | g :: rest =>
    if s.arithStopped then .next s else
    let b := bankOf g.entry
    if x.afBad.contains g.entry then .next (s.guardFail c g.ctx 2 g.entry)
    else
      let s := s.modCore c fun x => { x.addGroup g with arrayQ := rest }
      .next (if (x.addCols g).any Option.isNone then s.windowRepeat c b g.ctx g.opens g.opened else s)

/-! ## Opening and dropping (spec/06 R140, R144) -/

/-- ACLR: A = 0 and no tag in every column of its entries; its banks open. -/
def execAclr (c : CoreId) (k : Ctx) (f : FmtM) (s : State) : Out :=
  let x := s.core c
  let t := x.ctx k
  let e := indexD t f
  let n := countOf f
  let u := aclrUse t f
  issue s c k (encM 0x18 f) u
    [(ckIllegal, badA f || badB f || badSub f || badFmt f || badFlags f), (ckAf, u.afFails), (ckOwner, x.foreignBank k e n)]
    (x.afAwaited k u) .seq fun s =>
    s.modCore c fun x =>
      let x := x.noteStep k (encM 0x18 f) 0 0 e
      (List.range n).foldl (fun x i => x.setEntry (e + i) []) (x.openBanks k e n)

/-- ADROP: its banks close; no entry changes. -/
def execAdrop (c : CoreId) (k : Ctx) (f : FmtM) (s : State) : Out :=
  let x := s.core c
  let t := x.ctx k
  let e := indexA t f
  let n := countOf f
  let u := adropUse t f
  issue s c k (encM 0x1B f) {}
    [(ckIllegal, badD f || badB f || badSub f || badFmt f || badFlags f), (ckAf, u.afFails), (ckOwner, x.foreignBank k e n)]
    (x.afAwaited k u) .seq fun s =>
    s.modCore c fun x => (x.noteStep k (encM 0x1B f) 0 0 e).closeBanks e n

/-! ## Preload (spec/06 R145 to R147) -/

/-- Index of tile element (k, c) of n entries in an order. -/
def tileIndex (order : Bool) (n k c : Nat) : Nat := if order then 8 * k + c else c * n + k

/-- An element of a tile in the LS at a, its fine scale applied. -/
def tileElem (ls : Mem) (fmt : BitVec 4) (order : Bool) (a n k c : Nat) : FVal :=
  let code := packedElem ls a (elemWidth fmt) (tileIndex order n k c)
  if isBlock fmt then scaledVal fmt code (scaleAt ls (a + tileData fmt n) (c * (n / 32) + k / 32))
  else wideVal fmt code

/-- An exact value rounded to a multiple of the window's least significant bit with nearest-even. -/
def roundWindow (upper : Bool) (v : Exact) : Int :=
  match v with
  | .quot neg n d =>
    let q := roundGrid n d (windowLsb upper) .nearest
    if neg then -(q : Int) else q
  | _ => 0

/-- |v| > 2^94. -/
def beyondClamp (v : Exact) : Bool :=
  match v with
  | .quot _ n d => decide (2 ^ 94 * d < n)
  | _ => false

/-- One preloaded column, or none on overflow; whether CVT_SAT and CVT_NAN count it. -/
def preloadCol (upper : Bool) (pf x : FVal) : Option AfCol × Bool × Bool :=
  match x with
  | .nan => (some ⟨0, .nan⟩, false, true)
  | .inf _ =>
    (some ⟨0, if pf.isZero then .nan else if pf.sign = x.sign then .posInf else .negInf⟩, false, false)
  | .fin _ _ _ =>
    let v := pf.mul x
    let sat := beyondClamp v
    let a := roundWindow upper (if sat then .quot (pf.sign != x.sign) (2 ^ 94) 1 else v)
    (if inRange128 a then some ⟨BitVec.ofInt 128 a, .none⟩ else none, sat, false)

/-- The entries of a preload written in order, up to the one that overflows: the core and the bank that awaits a
repeat. The overflowing columns of that entry keep what they held, its other columns are written, and its elements are
counted (DESIGN CHOICE, notes/assumptions/146: spec/06 R148 gives an unchanged column for an accumulate only). -/
def preloadEntries (ls : Mem) (fmt : BitVec 4) (order : Bool) (pf : FVal) (a e n : Nat) :
    (todo : List Nat) → Core → Core × Option (Fin 4)
  | [], x => (x, none)
  | i :: rest, x =>
    let b := bankOf (e + i)
    let cols := (List.range 8).map fun c => preloadCol (x.banks.get b).upper pf (tileElem ls fmt order a n i c)
    let x := x.setEntry (e + i) ((List.range 8).map fun c => ((cols.getD c (none, false, false)).1).getD (x.afCol (e + i) c))
    let x := x.countConv (cols.countP fun p => p.2.1) (cols.countP fun p => p.2.2)
    if cols.any fun p => p.1.isNone then (x, some b) else preloadEntries ls fmt order pf a e n rest x

/-- APRE: its banks open and its entries are overwritten from the tile behind the preload header. -/
def execApre (c : CoreId) (k : Ctx) (f : FmtM) (s : State) : Out :=
  let x := s.core c
  let t := x.ctx k
  let e := indexD t f
  let n := countOf f
  let a := addrA t f
  let h := (x.block a).toNat
  let judged := hdrJudged a
  let pf := fp32 (BitVec.ofNat 32 h)
  let order := bitOf h 32
  let u := apreUse t f
  issue s c k (encM 0x19 f) u
    [(ckIllegal, badB f || badSub f || badFlags f || (judged && bitsOf h 511 33 != 0)), (ckLs, u.lsFails 64),
      (ckAf, u.afFails),
      (ckFormat, decide (6 < f.fmt.toNat) || (isBlock f.fmt && n % 32 != 0) || (judged && !pf.isFinite)),
      (ckOwner, x.foreignBank k e n)]
    (x.afAwaited k u) .seq fun s =>
    let r := preloadEntries x.ls f.fmt order pf (a + 64) e n (List.range n)
      (((s.core c).noteStep k (encM 0x19 f) a 0 e).openBanks k e n)
    let s := s.setCore c r.1
    match r.2 with
    | some b => s.windowRepeat c b k ((s.core c).banks.get b).opens ((s.core c).banks.get b).opened
    | none => s

/-! ## Readout (spec/06 R152 to R158) -/

/-- The generator's state of a context (spec/04 R118). -/
def State.ditherOf (s : State) (c : CoreId) (k : Ctx) : DWord :=
  match ((s.core c).ctx k).dither with
  | some d => d
  | none =>
    match s.ditherSeed with
    | some (seed, rank) => ditherSeeded seed rank c.x.val c.y.val k.val
    | none => 0

/-- The modes of n elements in order, one generator step each when dithered, and the state after them. -/
def roundModes (dithered : Bool) : (n : Nat) → DWord → List RMode × DWord
  | 0, d => ([], d)
  | n + 1, d =>
    if dithered then
      let d' := ditherStep d
      let r := roundModes dithered n d'
      (.dithered (ditherOut d') :: r.1, r.2)
    else
      let r := roundModes dithered n d
      (.nearest :: r.1, r.2)

/-- The generator left after dithered elements. -/
def CtxState.setDither (t : CtxState) (dithered : Bool) (d : DWord) : CtxState :=
  if dithered then { t with dither := some d } else t

/-- The output of one entry column: its exact y, or beyond every range, or a tag. -/
inductive OutVal where
  | val (y : Exact)
  | beyond (neg : Bool)
  | tag (t : Tag)
  deriving DecidableEq, Repr

/-- y = F · S of an entry column (spec/06 R154, R156). A zero product of a nonzero S takes the sign of S
(notes/assumptions/26). -/
def outVal (f : FVal) (upper : Bool) (col : AfCol) : OutVal :=
  match col.tag with
  | .none =>
    let a := col.a.toInt
    if a = 0 then .val (.zero false)
    else
      let neg := decide (a < 0)
      match f with
      | .fin _ _ _ => .val (f.mul (.fin neg a.natAbs (windowLsb upper)))
      | _ => .beyond neg
  | t => .tag t

/-- The fine scale of a block of outputs: from the finite y of the untagged ones; +7 if one is beyond every
range. -/
def outScale (fmt : BitVec 4) (ys : List OutVal) : Int :=
  if ys.any (fun y => match y with | .beyond _ => true | _ => false) then 7
  else
    let m := maxMag (ys.filterMap fun y => match y with | .val v => some v | _ => none)
    chooseScale (maxF fmt) m.1 m.2

/-- One output encoded: code, saturated, NaN read out as 0 (spec/06 R154 to R156). -/
def encodeOut (fmt : BitVec 4) (e : Int) (mode : RMode) (y : OutVal) : Conv :=
  if isBlock fmt then
    match y with
    | .val v => encodeElem fmt e mode v
    | .beyond neg => ⟨elemMax fmt neg, true, false⟩
    | .tag .nan => encodeElem fmt e mode .nan
    | .tag .negInf => encodeElem fmt e mode (.inf true)
    | .tag _ => encodeElem fmt e mode (.inf false)
  else
    match y with
    | .val (.quot neg n d) =>
      let r := roundFloat (-126) (wideMw fmt) n d mode
      match packFloat 8 (wideMw fmt) 127 255 neg r.1 r.2 with
      | some code => ⟨code, false, false⟩
      | none => ⟨wideMax fmt neg, true, false⟩
    | .val v => ⟨roundWide fmt v, false, false⟩
    | .beyond neg => ⟨wideMax fmt neg, true, false⟩
    | .tag .nan => ⟨wideNan fmt, false, false⟩
    | .tag .negInf => ⟨wideInf fmt true, false, false⟩
    | .tag _ => ⟨wideInf fmt false, false, false⟩

/-- What a readout writes: the tile bytes with the scale run, the encoded elements, the generator after it. -/
structure ReadOut where
  bytes : List Byte
  sat : Nat
  nan : Nat
  dither : DWord
  deriving DecidableEq, Repr

/-- The readout of n entries from `first`. -/
def readOut (x : Core) (fmt : BitVec 4) (order dithered : Bool) (f : FVal) (first n : Nat) (d : DWord) : ReadOut :=
  let y (k c : Nat) : OutVal := outVal f (x.banks.get (bankOf (first + k))).upper (x.afCol (first + k) c)
  let groups := n / 32
  let scale (c g : Nat) : Int := outScale fmt ((List.range 32).map fun i => y (32 * g + i) c)
  let scales := if isBlock fmt then (List.range (8 * groups)).map fun i => scale (i / groups) (i % groups) else []
  let modes := roundModes dithered (8 * n) d
  let outs := (List.range (8 * n)).map fun i =>
    encodeOut fmt (scales.getD (i % 8 * groups + i / 8 / 32) 0) (modes.1.getD i .nearest) (y (i / 8) (i % 8))
  let placed :=
    if order then outs else (List.range (8 * n)).map fun i => outs.getD (8 * (i % n) + i / n) ⟨0, false, false⟩
  let data := packBytes (elemWidth fmt) (placed.map (·.code))
  { bytes := if isBlock fmt then data ++ packBytes 4 (scales.map scaleCode) else data
    sat := outs.countP (·.sat)
    nan := outs.countP (·.nan)
    dither := modes.2 }

/-- The factor F of a descriptor: CX · CW / CY rounded once to FP32 (spec/06 R153). -/
def readFactor (h : Nat) : Nat :=
  roundWide 6 (((fp32 (BitVec.ofNat 32 h)).mul (fp32 (BitVec.ofNat 32 (bitsOf h 63 32)))).toF.div
    (fp32 (BitVec.ofNat 32 (bitsOf h 95 64))))

/-- A coarse scale is positive and finite. -/
def coarseOk (v : Nat) : Bool :=
  let x := fp32 (BitVec.ofNat 32 v)
  x.isFinite && !x.isZero && !x.sign

/-- Bits [511:256] of the descriptor block after the readout (spec/06 R152, R157). -/
def completionRecord (x : Core) (first n sat nan factor : Nat) : List Byte :=
  let window := (banksOf first n).foldl (fun w b => w + bit (x.banks.get b).upper * 2 ^ b.val) 0
  leBytes 32 (window + sat * 2 ^ 8 + nan * 2 ^ 20 + factor * 2 ^ 32)

/-- The chain that the AREAD ends is judged and, if sampled, recorded (spec/13 R352, R353). Only the first eligible
chain of a stroke is judged. -/
def State.sampleChain (s : State) (c : CoreId) (k : Ctx) (before : Core) (aread : ChainStep) (d : DWord) (tile : Nat)
    (bytes record : List Byte) : State :=
  let t := before.ctx k
  match t.chain, s.image with
  | some steps, some img =>
    match eligibleChain before steps aread.a aread.count aread with
    | none => s
    | some chain =>
      let s := s.modCtx c k fun t => { t with chain := none }
      if img.shadowK ≠ 0 && hashSamples (shadowHash c t.n k img.shadowSeed) img.shadowK.toNat then
        let cover := if aread.b < tile then record ++ bytes else bytes ++ record
        let r : ShadowRec := ⟨k, t.n, s.beat, d, chain, crc32c cover, none⟩
        s.modCore c fun x => { x with shadow := if x.refereeDue then x.shadow else some r, shadowLog := some r }
      else s
  | _, _ => s

/-- AREAD: n entries read out to the LS with one rounding each, the completion record written, the banks closed if
CLOSE is set. Where the tile covers its own descriptor block, the record is written over it (DESIGN CHOICE,
notes/assumptions/172). -/
def execAread (c : CoreId) (k : Ctx) (f : FmtM) (s : State) : Out :=
  let x := s.core c
  let t := x.ctx k
  let e := indexA t f
  let n := countOf f
  let d := addrD t f
  let b := addrB t f
  let h := (x.block b).toNat
  let judged := hdrJudged b
  let dithered := bitOf f.sub.toNat 0
  let u := areadUse t f
  issue s c k (encM 0x1A f) u
    [(ckIllegal, bitsOf f.sub.toNat 4 1 != 0 || bitsOf f.flags.toNat 3 1 != 0 || (judged && bitsOf h 255 97 != 0)),
      (ckLs, u.lsFails 64), (ckAf, u.afFails),
      (ckFormat, decide (6 < f.fmt.toNat) || (isBlock f.fmt && n % 32 != 0) ||
        (judged && !(coarseOk h && coarseOk (bitsOf h 63 32) && coarseOk (bitsOf h 95 64)))),
      (ckOwner, x.foreignBank k e n)]
    (x.afAwaited k u || x.repeatAwaited e n) .seq fun s =>
    let factor := readFactor h
    let gen := s.ditherOf c k
    let r := readOut x f.fmt (bitOf h 96) dithered (fp32 (BitVec.ofNat 32 factor)) e n gen
    let rec_ := completionRecord x e n r.sat r.nan factor
    let s := s.modCore c fun x =>
      let x := (x.lsWrite false d r.bytes).lsWrite false (b + 32) rec_
      let x := x.countConv r.sat r.nan
      let x := x.modCtx k fun t => t.setDither dithered r.dither
      if bitOf f.flags.toNat 0 then (x.noteStep k (encM 0x1A f) e b e).closeBanks e n else x
    s.sampleChain c k x ⟨encM 0x1A f, e, b, d⟩ gen d r.bytes rec_

end Sys2Proof.Machine
end

