-- ==== Sys2Proof/Config.lean ====
section
/-! DEFINITION. What one module fixes and the manual does not give: per-module data, functions the manual
names but does not define, and the choices it leaves open. What none of them fixes is opaque: no proof can see a value. -/

namespace Sys2Proof.Config

/-! ## The production part (spec/12 R321, spec/16 R412, R413, R433) -/

/-- Serial number of this module (spec/10 R270). -/
opaque serial : DWord

/-- The key pair that the secure element made at production: a name for it, which no register shows (spec/01 R20). -/
opaque identity : Nat

/-- Modulus, 512 bytes, and public exponent, 4 bytes, of a key pair (spec/16 R427). -/
opaque modulusByte : (key index : Nat) → Byte
opaque exponentByte : (key index : Nat) → Byte

/-- The key block of a key pair: modulus, exponent, 508 zero bytes (spec/16 R427). -/
def keyBlockOf (key : Nat) : List Byte :=
  (List.range 512).map (modulusByte key) ++ (List.range 4).map (exponentByte key) ++ List.replicate 508 0

/-- The secure element's public key, as its key block (spec/01 R20, spec/16 R415). -/
def elementKey : List Byte := keyBlockOf identity

/-- What the production test found for a slab and a level: the table holds it within the limits of R321. -/
opaque railTest : (slab level : Nat) → Nat

/-- The voltage table: rail of a slab at a level, in mV, from 550 to 900, not increasing from M0 to M6 (spec/12 R321). -/
def voltage (slab level : Nat) : BitVec 16 :=
  BitVec.ofNat 16 ((List.range (level + 1)).foldl (fun a l => min a (max 550 (railTest slab l))) 900)

/-- The certificate but for what R433 fixes in it: the bytes before the subject's serial number, from there to the public
key, and after the key. -/
opaque certificateHead : List Byte
opaque certificateMiddle : List Byte
opaque certificateTail : List Byte

/-- Whether the certificate writes its hexadecimal digits above 9 as capitals: R433 does not say. -/
opaque hexCapitals : Bool

/-- ASCII code of a hexadecimal digit. -/
def hexDigit (v : Nat) : Byte := BitVec.ofNat 8 (if v < 10 then 48 + v else if hexCapitals then 55 + v else 87 + v)

/-- The subject serialNumber attribute: the serial number as 16 hexadecimal digits. -/
def subjectSerial : List Byte := (List.range 16).map fun i => hexDigit (serial.toNat / 16 ^ (15 - i) % 16)

/-- The identity certificate, DER, at most 8,192 bytes: its subject names the serial number and its public key is that of the
secure element (spec/16 R413, R433). -/
def certificate : List Byte :=
  (certificateHead ++ subjectSerial ++ certificateMiddle ++ (List.range 512).map (modulusByte identity) ++ certificateTail).take 8192

/-- Bytes of the production part that the layout does not list. -/
opaque reservedByte : (offset : Nat) → Byte

/-- A number as n bytes, little-endian. -/
def lowBytes (n v : Nat) : List Byte := (List.range n).map fun i => BitVec.ofNat 8 (v / 256 ^ i)

/-- Unlisted bytes from one offset up to another. -/
def reservedBytes (a z : Nat) : List Byte := (List.range (z - a)).map fun i => reservedByte (a + i)

/-- Bytes 0x0000 to 0x21FF of the production part, as written at production test (spec/16 R413). -/
def productionPart : List Byte :=
  lowBytes 8 serial.toNat ++ lowBytes 2 0x7001 ++ [0xA1] ++ reservedBytes 0x0B 0x10 ++
    ((List.range 16).flatMap fun s => (List.range 7).flatMap fun l => lowBytes 2 (voltage s l).toNat) ++
    reservedBytes 0xF0 0x100 ++ lowBytes 2 certificate.length ++ reservedBytes 0x102 0x200 ++ certificate ++
    reservedBytes (0x200 + certificate.length) 0x2200

/-- A number at an offset of a production part, n bytes little-endian. -/
def partField (part : List Byte) (o n : Nat) : Nat := ((part.drop o).take n).foldr (fun b a => b.toNat + 256 * a) 0

/-- The entry of a slab and a level in a voltage table, in mV (spec/12 R321, spec/16 R413). -/
def partVoltage (part : List Byte) (slab level : Nat) : Nat := partField part (0x10 + 2 * (7 * slab + level)) 2

/-- The certificate of a production part: its length at 0x0100, at most 8,192; its bytes from 0x0200. -/
def partCertificate (part : List Byte) : List Byte := (part.drop 0x200).take (min 8192 (partField part 0x100 2))

/-- The key block of the public key that another certificate certifies. -/
opaque foreignKey : (certificate : List Byte) → List Byte

/-- The key block of the public key that a certificate certifies; that of the module's own is the secure element's (spec/16
R414, R415, R433). -/
def certificateKey (c : List Byte) : List Byte := if c = certificate then elementKey else foreignKey c

/-- The two keys of the boot ROM, as key blocks: the production key and the firmware key (spec/16 R412). -/
opaque productionKey : List Byte
opaque firmwareKey : List Byte

/-- Version of the firmware whose bytes are given: build, minor, major (spec/15 R404 FW_VERSION). -/
opaque firmwareVersion : List Byte → Word

/-- The firmware both slots hold when the module ships (spec/18 R478). -/
opaque shippedFirmware : List Byte

/-- SHA-512 of a byte string, most significant byte first (spec/16 R414 names it; FIPS 180-4 defines it). -/
opaque sha512 : List Byte → BitVec 512

/-- A signature of a key pair over a message, 512 bytes. -/
opaque signUnder : (key : Nat) → (message : List Byte) → BitVec 4096

/-- A signature of the secure element over a message (spec/01 R20, spec/16 R434). -/
def sign (message : List Byte) : BitVec 4096 := signUnder identity message

/-- RSASSA-PSS verification with RSA-4096 and SHA-512: key block, message, signature (spec/16 R414, R427). -/
opaque pssVerifies : (key message signature : List Byte) → Bool

/-- A signature verifies; one of the secure element does under its own key (spec/16 R414). -/
def pssVerify (key message signature : List Byte) : Bool :=
  pssVerifies key message signature || (key == elementKey && signature == (lowBytes 512 (sign message).toNat).reverse)

/-- The message and the signature in a firmware file (spec/16 R413): the manual does not lay the file out. -/
opaque firmwareParts : (signed : List Byte) → List Byte × List Byte

/-- Signed firmware verifies under the Gnoaryel firmware key (spec/16 R412, R423). -/
def firmwareOk (signed : List Byte) : Bool := pssVerify firmwareKey (firmwareParts signed).1 (firmwareParts signed).2

/-- The limits of R321: entries of 550 to 900 mV that do not increase from M0 to M6. -/
def voltagesOk (part : List Byte) : Bool :=
  (List.range 16).all fun s => (List.range 7).all fun l =>
    decide (550 ≤ partVoltage part s l) && decide (partVoltage part s l ≤ 900) &&
      (l == 0 || decide (partVoltage part s l ≤ partVoltage part s (l - 1)))

/-- The check of step 0x04 on the production part as read, its signature included: signature, part code and stepping,
voltage table limits, certificate key (spec/16 R413, R415). -/
def partOk (part : List Byte) : Bool :=
  pssVerify productionKey (part.take 0x2200) ((part.drop 0x2200).take 512) && partField part 8 2 == 0x7001 &&
    partField part 10 1 == 0xA1 && voltagesOk part && certificateKey (partCertificate part) == elementKey

/-- Predicted bus draw at a level, in W: 'the controller's model of the module's measured demand and the
voltage table' (spec/12 R327); the manual gives no formula. Arguments: demand in rail W, level. -/
opaque predictDraw : (demand level : Nat) → BitVec 16

/-- Whether the controller rounds the ramp time of a SLOPE up to the next nanosecond (spec/12 R317 gives a
real square root and no resolution). -/
opaque rampRoundsUp : (slope : Nat) → Bool

/-- Size of a port's BAR2 window, 2^(30 + v) bytes, as the host set it by Resizable BAR (spec/14 R367): configuration
space is no part of the module's state here. -/
opaque bar2Log2 : (port : Nat) → Fin 12

/-- Byte of host memory that a loop-back at host depth 4 reads, by the reference cycle of the test and the address: what the
host's buffer holds is not the module's (spec/14 R394). -/
opaque hostByte : (time address : Nat) → Byte

/-- Byte of a loop-back pattern (spec/14 R379 gives a seed and a length, no function). -/
opaque loopPattern : (seed index : Nat) → Byte

end Sys2Proof.Config
end

