-- ==== Sys2Proof/Machine/Power.lean ====
section
/-! DEFINITION. The Tympan: reserve, bus setpoint, ballast, hints, support, temperature, level decision
(spec/12 R300 to R331). Powers in W and energies in J are exact rationals. -/

namespace Sys2Proof.Machine

open Sys2Proof

/-- A change of the Tympan. -/
def State.modTympan (s : State) (f : Tympan → Tympan) : State := { s with tympan := f s.tympan }

/-! ## Counters of the module (spec/17 R437) -/

def mSlopeExceed : Nat := 5
def mRideEvents : Nat := 6
def mSupportEvents : Nat := 7
def mSlackLate : Nat := 8
def mCapUnmet : Nat := 9
def mHintDrop : Nat := 10
def mThrottleBars : Nat := 11
def mTrip : Nat := 12
def mTrimStep : Nat := 13
def mConverterFault : Nat := 14

/-! ## Time, reserve, peak (spec/12 R306, R309, R313) -/

/-- The beat period in s: a reference cycle is 10 ns. -/
def State.period (s : State) : Rat := (s.tempoNow : Rat) / 100000000

/-- Q(D): the energy the ride-through sequence needs. -/
def reserve (d p : Rat) : Rat := d * (1 / 100 + 3 * p) + 2150 * (100 * p) + 780 * (4 / 100)

/-- E in J. -/
def Tympan.energy (t : Tympan) : Rat := (t.kettleE.toNat : Rat) / 100

/-- The largest of some values, at least a. -/
def maxRat (a : Rat) (l : List Rat) : Rat := l.foldl max a

/-- Peak demand: of the last 1,024 bars, or of the largest pending hint. -/
def Tympan.peak (t : Tympan) : Rat := maxRat (maxRat 0 (t.peaks.map (·.2))) (t.hints.map fun h => (h.power : Rat) * 975 / 1000)

/-- The target of R313. -/
def Tympan.goalE (t : Tympan) (p : Rat) : Rat := min 150 (reserve t.peak p + 2)

/-- Bars whose peak is kept. -/
def peakBars : Nat := 1024

/-- The demand of a beat entered into its bar. -/
def notePeak (peaks : List (Nat × Rat)) (bar : Nat) (d : Rat) : List (Nat × Rat) :=
  let kept := peaks.filter fun p => decide (bar < p.1 + peakBars)
  match kept.find? fun p => p.1 == bar with
  | some p => (kept.filter fun q => q.1 != bar) ++ [(bar, max p.2 d)]
  | none => kept ++ [(bar, d)]

/-! ## Phase hints (spec/12 R317) -/

/-- tr of a slope in W/ms, in ns: √(2 J / (0.4875 · S)), to the nanosecond (Config.rampRoundsUp). -/
def rampNs (slope : Nat) : Nat :=
  isqrt (2 * 10 ^ 18 * 10000 / (4875 * (slope * 1000))) + (if Config.rampRoundsUp slope then 1 else 0)

/-- hint_goal for beat m. -/
def hintGoal (slope : Nat) (p : Rat) (h : Hint) (m : Nat) : Rat :=
  let lead := ((h.beat : Rat) - m) * p + (rampNs slope : Rat) / 1000000000
  h.power - (slope : Rat) * 1000 * max 0 lead

/-! ## The setpoint (spec/12 R312 to R314, R318) -/

/-- B for beat n + 1 before the ballast rule. -/
def Tympan.nextB (t : Tympan) (p : Rat) (next : Nat) : Rat :=
  let slope := t.slope.toNat
  let goal := maxRat (t.demand * 1000 / 975) (t.hints.map fun h => hintGoal slope p h next)
  let target := t.goalE p
  let goal := if t.energy < target then goal + 250 else if target + 5 < t.energy then goal - 250 else goal
  let step := (slope : Rat) * 1000 * p
  let b := min (max goal (t.busSet - step)) (t.busSet + step)
  let b := min b (min 11500 (16 * (t.busV.toNat : Rat) / 10))
  let b := if t.softStart then min b (2 * (t.busV.toNat : Rat) / 10) else if t.charged then b else min b 1500
  if b < 0 ∧ !(t.returning && t.supportCfg.getLsbD 0) then 0 else b

/-- Reference cycles of the 10 s ballast window. -/
def ballastWindow : Nat := 1000000000

/-- Energy the ballast took in the last 10 s. -/
def Tympan.ballastUsed (t : Tympan) (now : Nat) : Rat :=
  (t.ballast.filter fun e => decide (now < e.1 + ballastWindow)).foldl (fun a e => a + e.2) 0

/-- Energy that the ballast can take in the next beat. -/
def Tympan.ballastRoom (t : Tympan) (now : Nat) (p : Rat) : Rat := min (12000 * p) (3000 - t.ballastUsed now)

/-- B lowered until surplus and ballast capacity agree; whether that passes the slope limit. -/
def Tympan.ballastCap (t : Tympan) (now : Nat) (p b : Rat) : Rat × Bool :=
  let room := t.ballastRoom now p
  let surplus := t.energy + (b * 975 / 1000 - t.demand) * p - 150
  if surplus ≤ room then (b, false)
  else
    let b' := max 0 (((room + 150 - t.energy) / p + t.demand) * 1000 / 975)
    (b', decide (b' < t.busSet - (t.slope.toNat : Rat) * 1000 * p))

/-- Output power of some regulators in W, exact (spec/12 R306). -/
def railWatts (l : List RailReport) : Rat := l.foldl (fun (a : Rat) r => a + (r.mA * r.mV : Nat) / 1000000) 0

/-- Power register of some regulators: whole W, the fraction dropped (DESIGN CHOICE, notes/assumptions/154). -/
def railField (l : List RailReport) : BitVec 16 := BitVec.ofNat 16 (railWatts l).floor.toNat

/-- Every regulator report of a beat. -/
def Measure.rails (m : Measure) : List RailReport := m.slabs ++ m.hbmStacks.flatten ++ m.west ++ m.east

/-- Bus power in W: voltage times current, negative while the module returns power (spec/12 R306). -/
def Measure.busWatts (m : Measure) : Rat := (m.busV.toNat : Rat) * m.busI / 10000

/-- The retention part of the reserve: support ends when E reaches it (spec/12 R318). -/
def retention (p : Rat) : Rat := 2150 * (100 * p) + 312 / 10

/-- Support that has drawn the Kettle to the retention part ends (spec/12 R318). -/
def Tympan.supportLeft (t : Tympan) (p : Rat) : Bool := t.support && decide (retention p < t.energy)

/-- The measured values of a beat entered: demand, peak, Kettle, what the ballast took, and whether E is under the reserve, which
is compared exactly; RESERVE shows it with its fraction dropped (DESIGN CHOICE, notes/assumptions/195). -/
def State.measured (s : State) (m : Measure) : State :=
  let t := s.tympan
  let p := s.period
  let d : Rat := railWatts (Measure.rails m) * 100 / 91
  let overs := t.energy + (Measure.busWatts m * 975 / 1000 - d) * p - 150
  let heat := if 0 < overs then overs else 0
  let joules := t.ballastJ + heat
  let whole : Nat := joules.floor.toNat
  let list (l : List (BitVec 16)) : Sparse (BitVec 16) :=
    (l.zipIdx.map fun q => (q.2, q.1)).filter fun q => q.1 < 16 && q.2 != 0
  let s := s.modTympan fun t => { t with
    busV := m.busV, busP := BitVec.ofInt 32 (Measure.busWatts m).floor, reports := some m, kettleV := m.kettleV, kettleE := m.kettleE, charged := t.charged || decide (4000 ≤ m.kettleE.toNat)
    slabP := list (m.slabs.map fun r => railField [r]), stackP := list (m.hbmStacks.map railField)
    portWest := railField m.west, portEast := railField m.east
    demand := d, peaks := notePeak t.peaks (s.beat / 100) d
    busOk := decide (7200 ≤ m.busV.toNat) && decide (m.busV.toNat ≤ 8800)
    returning := decide (Measure.busWatts m < 0)
    ballastOn := decide (0 < heat)
    ballastP := BitVec.ofNat 16 (heat / p).floor.toNat
    ballastJ := joules - (whole : Rat)
    ballast := (t.ballast.filter fun e => decide (s.refTime < e.1 + ballastWindow)) ++ if 0 < heat then [(s.refTime, heat)] else [] }
  let s := s.modTympan fun t => { t with
    reserveOk := decide (reserve d p ≤ t.energy), reserveQ := BitVec.ofNat 16 (reserve d p * 100).floor.toNat
    target := BitVec.ofNat 16 (t.goalE p * 100).floor.toNat, support := t.supportLeft p }
  if whole = 0 then s else s.countForever 0x81 whole

/-- The bus draw while no rail is up: 2.0 A in the soft start, then 1,500 W until the Kettle holds 40 J, the most that spec/12 R303
allows; from then on it stays until the rails are up (DESIGN CHOICE, notes/assumptions/162). -/
def Tympan.startDraw (t : Tympan) : Rat :=
  if t.charged then t.busSet else if t.softStart then 2 * (t.busV.toNat : Rat) / 10 else 1500

/-- The Tympan's step while no rail is up: it samples the bus and the Kettle and sets its draw. -/
def State.chargeStep (s : State) (m : Measure) : State :=
  s.modTympan fun t =>
    let t := { t with
      busV := m.busV, busP := BitVec.ofInt 32 (Measure.busWatts m).floor, kettleV := m.kettleV, kettleE := m.kettleE
      charged := t.charged || decide (4000 ≤ m.kettleE.toNat)
      busOk := decide (7200 ≤ m.busV.toNat) && decide (m.busV.toNat ≤ 8800) }
    { t with busSet := t.startDraw, busNext := t.startDraw }

/-- The setpoint for beat n + 1, in force from its first edge (`Tympan.nextBeat`). While the bus is lost it stays 0; under support it stays where support put it. -/
def State.setpoint (s : State) : State :=
  let t := s.tympan
  if t.busLost || t.support then s
  else
    let p := s.period
    let b := t.nextB p (s.beat + 1)
    let r := t.ballastCap s.refTime p b
    let s := s.modTympan fun t => { t with busNext := r.1 }
    if r.2 then s.count mSlopeExceed 1 else s

/-- A beat begins: the next setpoint comes into force, and a rest beat in retention has passed. -/
def Tympan.nextBeat (t : Tympan) (rested : Bool) : Tympan :=
  { t with busSet := t.busNext, rideRest := t.rideRest || (t.rideRetain && rested) }

/-- The POWER hold source (spec/12 R315). -/
def State.powerHold (s : State) : Bool :=
  let t := s.tympan
  (decide (t.energy < reserve t.demand s.period) && !t.rideWork) || (t.busLost && t.rideRetain) ||
    (t.stage2 && s.beat % 4 == 0) || t.trip || t.convFault

/-! ## Slack reports and the level decision (spec/12 R326 to R328, R330) -/

/-- The arithmetic clock of a level in MHz. -/
def levelMhz (l : Nat) : Nat := 600 - 50 * l

/-- Predicted margin at level l. -/
def predictMargin (work margin lcur l : Nat) : Rat :=
  (work : Rat) - ((work : Rat) - margin) * levelMhz lcur / levelMhz l

/-- The body of a POWER_SLACK message. -/
def Slack.body (v : Slack) : BitVec 320 :=
  BitVec.ofNat 320 (v.rank + v.bar.toNat * 2 ^ 16 + v.lcur * 2 ^ 32 + v.lneed * 2 ^ 36 + v.floor * 2 ^ 40 + v.margin * 2 ^ 48 +
    v.pmax * 2 ^ 64 + ((v.plev.zipIdx.map fun p => p.1 * 2 ^ (80 + 16 * p.2)).foldl (· + ·) 0))

/-- The report a body spells. -/
def Slack.of (b : BitVec 320) : Slack :=
  let v := b.toNat
  { rank := bitsOf v 9 0, bar := BitVec.ofNat 16 (bitsOf v 31 16), lcur := bitsOf v 34 32, lneed := bitsOf v 38 36
    floor := bitsOf v 42 40, margin := bitsOf v 63 48, pmax := bitsOf v 79 64
    plev := (List.range 7).map fun l => bitsOf v (95 + 16 * l) (80 + 16 * l) }

/-- LNEED: the slowest level, not slower than the floor, with a predicted margin of twice LATE_MARGIN; M0 if none. -/
def slowestLevel (work margin lcur floor late : Nat) : Nat :=
  ((List.range (floor + 1)).filter fun l => decide ((2 * late : Rat) ≤ predictMargin work margin lcur l)).getLastD 0

/-- PMAX: the largest bus draw that the Kettle can back at the tempo in force. -/
def planMax (p : Rat) : Nat :=
  let d := (150 - 2150 * (100 * p) - 780 * (4 / 100)) / (1 / 100 + 3 * p)
  (min 11500 (d * 1000 / 975)).floor.toNat

/-- ROLL was active at the last sample. The bar decision at c = 12 takes the sources as sampled at c = 4 of that beat, so that a
roll that becomes pending between the two does not count (DESIGN CHOICE, notes/assumptions/156: spec/02 R57 says 'when ROLL is
active at a module's bar decision'). -/
def State.rollSampled (s : State) : Bool := s.holdSources.getLsbD 0

/-- This module's report for the bar under way. -/
def State.ownSlack (s : State) : Slack :=
  let lcur := if s.rollSampled then 0 else s.level.toNat
  let margin := match s.minMargin with | some m => min m 0xFFFF | none => 0xFFFF
  { rank := s.rank, bar := BitVec.ofNat 16 (s.beat / 100), lcur
    lneed := slowestLevel s.windowAt margin lcur s.floor.toNat s.lateMarginNow.toNat
    floor := s.floor.toNat, margin, pmax := planMax s.period
    plev := (List.range 7).map fun l => (Config.predictDraw s.tympan.demand.floor.toNat l).toNat }

/-- A report was received before, or is of a bar that is over: a later report of its rank is kept, so that it could only be a
second copy that is late (spec/12 R326: 'relayed at most once'). -/
def Tympan.slackOld (t : Tympan) (v : Slack) : Bool :=
  t.slacks.any fun o => o.rank == v.rank && (o.bar == v.bar || o.bar == v.bar + 1)

/-- A report kept; of its rank the one of the bar before stays beside it. -/
def Tympan.keepSlack (t : Tympan) (v : Slack) : Tympan :=
  { t with slacks := (t.slacks.filter fun o => o.rank != v.rank || o.bar + 1 == v.bar) ++ [v] }

/-- POWER_SLACK_SEND: in beat 100 · k + 80 the report goes out on every port, and the margins start again. -/
def State.slackSend (s : State) : State :=
  if s.dev = devRunning ∧ s.beat % 100 = 80 then
    let v := s.ownSlack
    let s := (s.modTympan fun t => t.keepSlack v).modTympan fun t => { t with planNeed := BitVec.ofNat 3 v.lneed }
    { s.flood 5 v.body none with minMargin := none }
  else s

/-- The level of a module raised, kept within its own plan limit (first loop of R328). -/
def startLevel (v : Slack) : Nat :=
  (List.range 8).foldl (fun l _ => if l < v.floor ∧ v.pmax < v.plev.getD l 0 then l + 1 else l) v.lneed

/-- Total predicted draw of a plan. -/
def planDraw (ms : List (Slack × Nat)) : Nat := ms.foldl (fun a m => a + m.1.plev.getD m.2 0) 0

/-- The module to slow next: the largest predicted margin one level slower, lowest rank on a tie. -/
def slowNext (work : Nat) (ms : List (Slack × Nat)) : Option Nat :=
  let best := ms.foldl (fun (b : Option (Rat × Nat)) m =>
    if m.2 < m.1.floor then
      let x := predictMargin work m.1.margin m.1.lcur (m.2 + 1)
      match b with
      | none => some (x, m.1.rank)
      | some (y, r) => if y < x ∨ (x = y ∧ m.1.rank < r) then some (x, m.1.rank) else b
    else b) none
  best.map (·.2)

/-- The cap loop of R328: the levels, and whether the cap is unmet. -/
def capLoop (work cap : Nat) : (fuel : Nat) → List (Slack × Nat) → List (Slack × Nat) × Bool
  | 0, ms => (ms, false)
  | f + 1, ms =>
    if planDraw ms ≤ cap then (ms, false)
    else
      match slowNext work ms with
      | none => (ms, true)
      | some r => capLoop work cap f (ms.map fun m => if m.1.rank = r then (m.1, m.2 + 1) else m)

/-- The decision of R328 from the reports of a bar: the own level and whether the cap is unmet; none when a report is
missing. -/
def decideLevel (work cap ranks own : Nat) (vs : List Slack) : Option (Nat × Bool) :=
  let ms := (List.range ranks).filterMap fun r => vs.find? fun v => v.rank == r
  if ms.length < ranks then none
  else
    let ms := ms.map fun v => (v, startLevel v)
    let r := if cap = 0 then (ms, false) else capLoop work cap (8 * ranks + 1) ms
    (r.1.find? fun m => m.1.rank == own).map fun m => (m.2, r.2)

/-- Some slab is at a temperature or more, in units of 0.125 °C. -/
def Tympan.hot (t : Tympan) (v : Nat) : Bool := t.slabTemp.any fun p => decide (v ≤ p.2.toNat)

/-- Bars with stage 1 in force before stage 2. -/
def stageLimit : Nat := 8

/-- Thermal stages at a bar decision (spec/12 R325): a decision with stage 1 puts it in force for the next bar, so that it has been
in force for 8 bars at the ninth such decision in a row. -/
def State.thermalStage (s : State) : State :=
  let t := s.tympan
  let on := if t.stage1 then t.hot 736 else t.hot 760
  let bars := if on then t.stageBars + 1 else 0
  let s := s.modTympan fun t =>
    { t with stage1 := on, stageBars := bars, stage2 := on && (t.stage2 || (decide (stageLimit < bars) && t.hot 760)) }
  if on then s.count mThrottleBars 1 else s

/-- Modules of the torus. -/
def State.rankCount (s : State) : Nat := match s.image with | some i => i.ranks.length | none => 1

/-- LEVEL_DECISION: in beat 100 · k + 98 the level of bar k + 1 is chosen. A decision that finds ROLL chooses M0, and LEVEL_PLAN [16]
shows 1 for it (DESIGN CHOICE, notes/assumptions/196). -/
def State.levelDecision (s : State) : State :=
  if s.beat % 100 = 98 then
    let s := s.thermalStage
    if s.dev = devRunning then
      let bar : BitVec 16 := BitVec.ofNat 16 (s.beat / 100)
      let vs := s.tympan.slacks.filter fun v => v.bar == bar
      let slow (l : Nat) : Nat := if s.tympan.stage1 then s.floor.toNat else l
      if s.rollSampled then s.modTympan fun t => { t with planLevel := BitVec.ofNat 3 (slow 0), planChosen := true }
      else
        match decideLevel s.windowAt s.jobCap.vote.toNat s.rankCount s.rank vs with
        | none =>
          (s.modTympan fun t =>
            { t with planLevel := BitVec.ofNat 3 (slow s.level.toNat), planChosen := false }).count mSlackLate 1
        | some (l, unmet) =>
          let s := s.modTympan fun t =>
            { t with planLevel := BitVec.ofNat 3 (slow l), planChosen := true, capUnmet := unmet }
          if unmet then s.count mCapUnmet 1 else s
    else s
  else s

/-- The level a bar begins with (spec/02 R56, R57, spec/12 R307, R323, R325). Outside RUNNING the temperature response of R325
comes before the levels of the states, as R323 says: M7 under a trip, M6 in stage 1, in every state (DEDUCED,
notes/assumptions/116). It does so in LOADED too, where R56 allows no M7 (DEDUCED, notes/assumptions/155). Retention sets M6 outside RUNNING, but under a trip,
whose M7 stands (notes/assumptions/116). -/
def State.barLevel (s : State) : Nat :=
  let t := s.tympan
  let d := s.dev
  let base :=
    if d = devRunning then t.planLevel.toNat
    else if t.trip then 7
    else if t.stage1 then 6
    else if d = devStarting || d = devLoaded || s.load.isSome then 0
    else 7
  if t.rideRetain && t.rideRest then (if d = devRunning then min 6 s.floor.toNat else if t.trip then 7 else 6) else base

/-- In the last beat of a bar the slab rails stand at the voltages of a faster level to come, so that they reach them before the
boundary (spec/12 R322; from the start of that beat, and at once where an event of that beat makes the level faster: DESIGN
CHOICE, notes/assumptions/154). -/
def State.raiseRails (s : State) : State :=
  if s.beat % 100 = 99 && !s.tympan.testV then
    s.modTympan fun t => { t with slabLevel := if s.barLevel < t.slabLevel.toNat then BitVec.ofNat 3 s.barLevel else t.slabLevel }
  else s

/-! ## Events of the bus -/

/-- BUS_LOST: ten samples outside the range; the Kettle carries the rail. -/
def execBusLost (s : State) : Host.Outcome State Fault Refusal :=
  if !s.powered || s.tympan.busLost then .next s
  else
    .next ((s.modTympan fun t =>
      { t with busLost := true, busOk := false, rideWork := true, rideRetain := false, rideStart := s.refTime, busSet := 0
               busNext := 0, rideRest := false, support := false }).count mRideEvents 1)

/-- RIDE_RETAIN: 10 ms after the loss the POWER hold becomes active. -/
def execRideRetain (s : State) : Host.Outcome State Fault Refusal :=
  if s.powered && s.tympan.busLost && s.tympan.rideWork then
    .next (s.modTympan fun t => { t with rideWork := false, rideRetain := true, rideRest := false })
  else .next s

/-- The module record as the module goes OFF: an attempt that waits for its alignment was cut short (spec/16 R422). -/
def State.cutRecord (s : State) : Record :=
  match s.control.booting with
  | some (_, second, slot, entries) => { s.record with cut := some (s.control.bootStep, second, slot, entries) }
  | none => s.record

/-- The module goes OFF: every store, counter and register is lost; what it has put out and the module record stay. -/
def State.off (s : State) (refclk : Bool) : State :=
  { State.reset with
    pending := s.pending, record := s.cutRecord, hostOut := s.hostOut, sbOut := s.sbOut
    tympan := { State.reset.tympan with refclk } }

/-- KETTLE_EMPTY: every rail falls (spec/12 R311). -/
def execKettleEmpty (s : State) : Host.Outcome State Fault Refusal :=
  if s.powered then .next (s.off s.tympan.refclk) else .next s

/-- SUPPORT_ENTRY: the Tympan carries the rail and cuts its draw, or returns power (spec/12 R318). -/
def execSupportEntry (v : BitVec 14) (s : State) : Host.Outcome State Fault Refusal :=
  let t := s.tympan
  if s.powered && t.supportCfg.getLsbD 0 && !t.support && !t.busLost && decide (v.toNat < t.supportV.toNat) then
    .next ((s.modTympan fun t =>
      { t with support := true, busSet := if t.supportCfg.getLsbD 1 then -3000 else 0
               busNext := if t.supportCfg.getLsbD 1 then -3000 else 0 }).count mSupportEvents 1)
  else .next s

/-- SUPPORT_END: B ramps back at the slope limit. -/
def execSupportEnd (s : State) : Host.Outcome State Fault Refusal :=
  if s.powered && s.tympan.support then .next (s.modTympan fun t => { t with support := false }) else .next s

/-- Duration class of a number of samples, from 0 for T1. -/
def durationClass (n : Nat) : Nat := if n < 10 then 0 else if n < 100 then 1 else if n < 1000 then 2 else if n < 10000 then 3 else 4

/-- BUS_SAG: an ended sag counted by depth and duration (spec/12 R319). -/
def execBusSag (lowest : Nat) (samples : Nat) (s : State) : Host.Outcome State Fault Refusal :=
  if s.powered && decide (lowest < 7200) && decide (0 < samples) then
    let d := if 6400 ≤ lowest then 0 else if 5600 ≤ lowest then 1 else 2
    .next (s.count (0x10 + 5 * d + durationClass samples) 1)
  else .next s

/-- BUS_SWELL: an ended swell counted by height and duration. -/
def execBusSwell (highest : Nat) (samples : Nat) (s : State) : Host.Outcome State Fault Refusal :=
  if s.powered && decide (8800 < highest) && decide (0 < samples) then
    let d := if highest ≤ 9200 then 0 else if highest ≤ 9600 then 1 else 2
    .next (s.count (0x20 + 5 * d + durationClass samples) 1)
  else .next s

/-- The limit of a ripple band. -/
def Tympan.limit (t : Tympan) (b : Nat) : BitVec 16 := Sparse.look 0x64 t.rippleLim b

/-- RIPPLE_WINDOW: the rms values of a window, and the bands over their limit counted (spec/12 R320). -/
def execRippleWindow (b0 b1 b2 b3 : BitVec 16) (s : State) : Host.Outcome State Fault Refusal :=
  if !s.powered then .next s
  else
    let vs := [b0, b1, b2, b3].zipIdx
    let s := vs.foldl (fun s v => s.modTympan fun t => { t with ripple := Sparse.put 0 t.ripple v.2 v.1 }) s
    .next (vs.foldl (fun s v => if (s.tympan.limit v.2).toNat < v.1.toNat then s.count (0x30 + v.2) 1 else s) s)

/-- DROOP_STRETCH: stretched cycles of a slab counted, in the bank and toward its trim (spec/12 R324). -/
def execDroopStretch (slab : Fin 16) (cycles : Nat) (s : State) : Host.Outcome State Fault Refusal :=
  if !s.powered then .next s
  else
    .next ((s.modTympan fun t =>
      { t with stretched := Sparse.put 0 t.stretched slab.val (Sparse.look 0 t.stretched slab.val + cycles) }).countForever
      (0x1000 + 0x40 * slab.val + 0x3F) cycles)

/-- CONVERTER_FAULT: a standing POWER hold until power-up. -/
def execConverterFault (s : State) : Host.Outcome State Fault Refusal :=
  if !s.powered then .next s
  else .next ((s.modTympan fun t => { t with convFault := true }).count mConverterFault 1)

/-- HINT_EXPIRE: hints are removed at beat HINT_BEAT + HINT_LEN. -/
def execHintExpire (s : State) : Host.Outcome State Fault Refusal :=
  .next (s.modTympan fun t => { t with hints := t.hints.filter fun h => decide (s.beat < h.beat + h.len) })

/-- REFCLK_VALID: the Tympan samples the bus from here on (spec/18 R470). The table has no row for the bus being applied: with no
rail up, its soft start is taken to begin here (spec/12 R303; DESIGN CHOICE, notes/assumptions/164). -/
def execRefclkValid (s : State) : Host.Outcome State Fault Refusal :=
  .next (s.modTympan fun t => { t with refclk := true, softStart := t.softStart || !s.powered && !t.charged })

/-- REFCLK_LOST: the Tympan stops, every rail falls (spec/18 R471). -/
def execRefclkLost (s : State) : Host.Outcome State Fault Refusal :=
  if s.powered then .next (s.off false) else .next (s.modTympan fun t => { t with refclk := false })

/-- SOFT_START_END: after 10 ms the Kettle is charged at up to 1,500 W, until it holds 40 J and the rail comes up (spec/12
R303). -/
def execSoftStartEnd (s : State) : Host.Outcome State Fault Refusal := .next (s.modTympan fun t => { t with softStart := false })

/-- SLAB_TEMP_READ: the temperatures of the beat; a slab at 105 °C or more trips a standing POWER hold, which ends when
every slab is below 95 °C (spec/12 R325). -/
def execSlabTempRead (m : Temps) (s : State) : Host.Outcome State Fault Refusal :=
  if !s.powered then .next s
  else
    let hottest (l : List (BitVec 12)) : BitVec 12 := BitVec.ofNat 12 (l.foldl (fun a v => max a v.toNat) 0)
    let slabs : Sparse (BitVec 12) := ((m.slabs.zipIdx.map fun p => (p.2, hottest p.1)).filter fun p => p.1 < 16 && p.2 != 0)
    let s := s.modTympan fun t => { t with slabTemp := slabs, inlet := m.inlet, outlet := m.outlet }
    let s := (m.hbmStacks.zipIdx.filter fun p => p.2 < 16).foldl
      (fun s p => s.modStack (Fin.ofNat 16 p.2) fun t => { t with temp := p.1 }) s
    let trips := s.tympan.hot 840
    let s' := s.modTympan fun t => { t with trip := trips || (t.trip && t.hot 760) }
    .next (if trips && !s.tympan.trip then s'.count mTrip 1 else s').raiseRails

end Sys2Proof.Machine
end

