-- ==== Sys2Proof/WellFormed.lean ====
section
/-! DEFINITION. Commands whose operands are ones the world can supply: what the types of Syntax do not say. The meanings
take any operand; a claim that needs these says so. -/

namespace Sys2Proof

/-- Kinds with data flits (spec/10 R238). -/
def PKind.hasData (k : PKind) : Bool :=
  match k with
  | .write | .carillon | .loop => true
  | _ => false

/-- An endpoint code of a core on the grid, a base die or a port die (spec/10 R243). -/
def EndPt.wf (e : EndPt) : Bool :=
  match e.type.toNat with
  | 0 => decide (e.posX.toNat < 960) && decide (e.posY.toNat < 320)
  | 1 => decide (e.posX.toNat < 16) && e.posY == 0
  | 2 => decide (e.posX.toNat < 2) && e.posY == 0
  | _ => false

/-- A packet by spec/10 R238, R241, R242: 0 to 16 blocks, as many data bytes as the blocks hold, at most 1,024 packets in a
transfer, endpoints that exist, fields that a kind does not use 0. -/
def Packet.wf (p : Packet) : Bool :=
  decide (p.blocks ≤ 16) && (p.data.length == if p.kind.hasData then 64 * p.blocks else 0) && decide (p.count < 1024) &&
    EndPt.wf p.tag && EndPt.wf p.src && (p.peal || p.route == 0) && (p.kind != .loop || decide (1 ≤ p.blocks ∧ p.blocks ≤ 8))

/-- A request at a base die: a well-formed packet, or a host request of 1 to 16 blocks. -/
def Request.wf (r : Request) : Bool :=
  match r with
  | .packet p => Packet.wf p
  | .host _ o n | .own _ o n | .region _ o n => o % 64 == 0 && decide (1 ≤ n ∧ n ≤ 16)

/-- A tempo: even, 500 to 4,000 reference cycles (spec/02 R25). -/
def tempoWf (t : BitVec 12) : Bool := t.toNat % 2 == 0 && decide (500 ≤ t.toNat) && decide (t.toNat ≤ 4000)

/-- Measured values of sixteen slabs and stacks (spec/12 R306). -/
def Measure.wf (m : Measure) : Bool := m.slabs.length == 16 && m.hbmStacks.length == 16

/-- Eight sensors of sixteen slabs, sixteen stacks (spec/12 R325). -/
def Temps.wf (t : Temps) : Bool := t.slabs.length == 16 && t.slabs.all (·.length == 8) && t.hbmStacks.length == 16

/-- Steps of the power-up sequence (spec/16 R415). -/
def bootSteps : List Nat :=
  [1, 2, 3, 4, 5, 6, 7, 0x10, 0x11, 0x12, 0x13, 0x14, 0x15, 0x16, 0x17, 0x18, 0x20, 0x21, 0x22, 0x23, 0x24, 0x25]

/-- A start-up names steps of the sequence, and an alignment has a tempo. -/
def BootRun.wf (r : BootRun) : Bool :=
  r.fails.all (fun f => bootSteps.contains f.step.toNat) &&
    (match r.interrupted with | some x => bootSteps.contains x.toNat | none => true) &&
    match r.align with
    | some a => (match a.source with | some v => tempoWf v.2.2.2.1 && decide (v.2.2.1.toNat < v.2.2.2.1.toNat) | none => true)
    | none => true

/-- A guard failure names a place of its store (spec/03 R75, R76). -/
def Detect.wf (d : Detect) : Bool :=
  match d with
  | .ls b _ => decide (b < 1536)
  | .af e _ => decide (e < 256)
  | .stat e _ => decide (e < 512)
  | .instr p _ => decide (p < 1024)

/-- Blocks named lie in the request. -/
def blocksWf (fails : List Nat) (n : Nat) : Bool := fails.all fun b => decide (b < (n + 63) / 64 + 1)

/-- A command is well formed. -/
def Instr.wf (i : Instr) : Bool :=
  match i with
  | .powerStep m => Measure.wf m
  | .slabTempRead t => Temps.wf t
  | .sidebandFrame _ f => decide (f.msgType.toNat ≤ 7)
  | .alignMessage _ _ phase tempo _ => tempoWf tempo && decide (phase.toNat < tempo.toNat)
  | .linkFrame _ raw _ _ _ _ => raw.length == 1072
  | .meshFlit _ _ tries p => decide (tries.length ≤ 4) && tries.all (·.flit.length == 32) && Packet.wf p
  | .torusRoute _ _ p | .escapeMove _ p | .loopPacket _ _ p => Packet.wf p
  | .baseDieAccept _ r _ => Request.wf r
  | .hbmRead _ offset fails => offset % 64 == 0 && decide (fails ≤ 3)
  | .readPacket p bad => Packet.wf p && p.kind == .read && (match bad with | some b => decide (b < p.blocks) | none => true)
  | .writePacket p | .pealForward _ p | .pealFinal _ p => Packet.wf p && p.kind == .write
  | .signalPacket p => Packet.wf p && p.kind == .signal
  | .ack p => Packet.wf p && p.kind == .ack
  | .refuseNotice p => Packet.wf p && p.kind == .refuse
  | .failNotice p => Packet.wf p && p.kind == .fail
  | .dualCopy c => Packet.wf c.packet && c.packet.kind == .carillon
  | .carillonData p | .dualResult p | .normPartial p | .normRecord p => Packet.wf p && p.kind == .carillon
  | .coreRoll _ found => (match found with | some d => Detect.wf d | none => true)
  | .knellEntry cause _ => decide (1 ≤ cause.toNat ∧ cause.toNat ≤ 9)
  | .powerUp r => BootRun.wf r
  | .busSag lowest samples => decide (lowest < 7200) && decide (1 ≤ samples)
  | .busSwell highest samples => decide (8800 < highest) && decide (1 ≤ samples)
  | .loadImage _ _ extents image =>
    decide (1 ≤ extents.length ∧ extents.length ≤ 65536) && image.length == extents.foldl (fun a e => a + e.2.toNat) 0
  | .copy _ _ data lost _ =>
    data.bytes.length % 64 == 0 && blocksWf data.same data.bytes.length && (match lost with | some o => o % 64 == 0 | none => true)
  | .bar2Read _ _ len how => decide (1 ≤ len ∧ len ≤ 4096) && blocksWf how.fails len
  | .bar2Write _ _ bytes how =>
    decide (1 ≤ bytes.length ∧ bytes.length ≤ 4096) && blocksWf how.fails bytes.length && blocksWf how.same bytes.length
  | _ => true

end Sys2Proof
end

