-- ==== Sys2Proof/Machine/Mesh.lean ====
section
/-! DEFINITION. Packets on the wire and their way over the mesh: headers (spec/10 R242, R258), the next module (R252, R253),
router positions, paths and failed links (R244 to R246), transit rows (R248). -/

namespace Sys2Proof.Machine

open Sys2Proof

/-! ## The header (spec/10 R238, R242, R258) -/

/-- The code of a packet kind (spec/10 R238). -/
def kindCode (k : PKind) : Nat :=
  match k with
  | .write => 1
  | .read => 2
  | .signal => 3
  | .ack => 4
  | .refuse => 5
  | .fail => 6
  | .carillon => 7
  | .loop => 8

/-- The packet kind of a code; the other codes are reserved and never sent. -/
def kindOf (n : Nat) : Option PKind :=
  [PKind.write, .read, .signal, .ack, .refuse, .fail, .carillon, .loop].find? fun k => kindCode k == n

/-- The packet header of spec/10 R242. -/
def Packet.header (p : Packet) : BitVec 256 :=
  BitVec.ofNat 256 (kindCode p.kind + bit p.final * 2 ^ 4 + bit p.peal * 2 ^ 5 + p.blocks % 32 * 2 ^ 6 +
    (if p.peal then p.route.toNat else 0) * 2 ^ 16 + p.addr.toNat * 2 ^ 32 + p.addr2.toNat * 2 ^ 96 +
    p.sigVal.toNat * 2 ^ 160 + p.count % 1024 * 2 ^ 168 + (EndPt.code p.tag).toNat * 2 ^ 178 + p.slot.toNat * 2 ^ 209 +
    (EndPt.code p.src).toNat * 2 ^ 214)

/-- The torus extension of spec/10 R258. -/
def Packet.extension (p : Packet) : BitVec 256 :=
  BitVec.ofNat 256 (bit p.escape + p.escDim.toNat * 2 + p.hops % 256 * 2 ^ 8 + p.loopPort.toNat * 2 ^ 16 +
    p.loopDepth.toNat * 2 ^ 19)

/-- The torus flits of a packet: its header flit, then one flit for each block (spec/10 R241). -/
def Packet.wire (p : Packet) : List Byte :=
  leBytes 32 (Packet.header p).toNat ++ leBytes 32 (Packet.extension p).toNat ++ (if p.kind.hasData then p.data else [])

/-- The packet that torus flits spell; reserved bits are not looked at, a reserved kind is no packet. -/
def packetOf (bs : List Byte) : Option Packet :=
  let h := leNat (bs.take 32)
  let x := leNat ((bs.drop 32).take 32)
  (kindOf (bitsOf h 3 0)).map fun kind =>
    { kind, final := bitOf h 4, peal := bitOf h 5, blocks := bitsOf h 10 6, route := BitVec.ofNat 10 (bitsOf h 25 16)
      addr := BitVec.ofNat 64 (bitsOf h 95 32), addr2 := BitVec.ofNat 64 (bitsOf h 159 96)
      sigVal := BitVec.ofNat 8 (bitsOf h 167 160), count := bitsOf h 177 168, tag := EndPt.ofCode (bitsOf h 208 178)
      slot := BitVec.ofNat 5 (bitsOf h 213 209), src := EndPt.ofCode (bitsOf h 244 214), data := bs.drop 64
      escape := bitOf x 0, escDim := BitVec.ofNat 2 (bitsOf x 2 1), hops := bitsOf x 15 8
      loopPort := BitVec.ofNat 3 (bitsOf x 18 16), loopDepth := BitVec.ofNat 3 (bitsOf x 21 19) }

/-- The data of the LOOP packets of a test: its pattern, cut into packets of up to 8 blocks (spec/10 R241, R269). -/
def loopData (seed len : Nat) : List (List Byte) :=
  (List.range ((len + 511) / 512)).map fun j =>
    (List.range (min 512 (len - 512 * j))).map fun i => Config.loopPattern seed (512 * j + i)

/-! ## Directions (spec/10 R252, R253) -/

/-- Size of a dimension of the torus. -/
def State.dimSize (s : State) (i : Nat) : Nat :=
  let v := s.shape.toNat
  match i with
  | 0 => bitsOf v 2 0 + 1
  | 1 => bitsOf v 5 3 + 1
  | _ => bitsOf v 9 6 + 1

/-- Coordinate of a module in a dimension. -/
def coordIn (m : BitVec 10) (i : Nat) : Nat :=
  match i with
  | 0 => bitsOf m.toNat 2 0
  | 1 => bitsOf m.toNat 5 3
  | _ => bitsOf m.toNat 9 6

/-- The module a packet is bound for (spec/10 R238). -/
def targetOf (p : Packet) : BitVec 10 :=
  match p.kind with
  | .write | .read | .signal | .carillon | .loop => addrModule p.addr
  | .ack | .fail => p.tag.module
  | .refuse => p.src.module

/-- The offset to a target in a dimension. -/
def State.offset (s : State) (m : BitVec 10) (i : Nat) : Nat :=
  let k := s.dimSize i
  (coordIn m i + k - coordIn s.coord i % k) % k

/-- The + port or the − port of a dimension. -/
def dimPort (i : Nat) (minus : Bool) : RPort := Fin.ofNat 6 (2 * i + bit minus)

/-- Minimal ports to a module in the order X, Y, Z, + before −. -/
def State.minimal (s : State) (m : BitVec 10) : List RPort :=
  (List.range 3).flatMap fun i =>
    let d := s.offset m i
    let k := s.dimSize i
    if d = 0 then []
    else (if 2 * d ≤ k then [dimPort i false] else []) ++ (if k ≤ 2 * d then [dimPort i true] else [])

/-- The port of the escape route: X, then Y, then Z, + if both directions are minimal. -/
def State.escapePort (s : State) (m : BitVec 10) : Option RPort := (s.minimal m).head?

/-- The port die that a source endpoint sends to: of the first dimension that is not complete, east for +, west for −, east
if both are minimal. -/
def State.sourceDie (s : State) (m : BitVec 10) : Option Die := (s.escapePort m).map dieOf

/-- The opposite port on the same ring. -/
def opposite (p : RPort) : RPort := Fin.ofNat 6 (if p.val % 2 = 0 then p.val + 1 else p.val - 1)

/-! ## The ends of a way (spec/10 R246) -/

/-- Where a packet enters or leaves the mesh. -/
inductive MeshEnd where
  | core (c : CoreId)
  | stack (h : StackId)
  | die (d : Die)
  deriving DecidableEq, Repr

/-- An endpoint of this module on its mesh. -/
def State.endOf (s : State) (e : EndPt) : Option MeshEnd :=
  if e.module ≠ s.coord then none
  else if e.type = 0 then (EndPt.coreOf e).map MeshEnd.core
  else if e.type = 1 then (EndPt.stackOf e).map MeshEnd.stack
  else if e.type = 2 then some (.die (if e.posX = 0 then .west else .east))
  else none

/-- The core at a place of a peal's route. -/
def State.routeCore (s : State) (p : Packet) (i : Nat) : Option CoreId :=
  match s.route p.route.toNat with
  | some r => (routeCores r)[i]?
  | none => none

/-- A packet that a peal forwards. -/
def forwarded (p : Packet) : Bool := p.peal && p.kind == .write && decide (0 < p.pos)

/-- Where a packet leaves the mesh. -/
def State.meshTo (s : State) (p : Packet) : Option MeshEnd :=
  if targetOf p ≠ s.coord then (s.sourceDie (targetOf p)).map .die
  else if forwarded p then (s.routeCore p p.pos).map .core
  else
    match p.kind with
    | .write | .read | .signal | .carillon | .loop => (addrEnd p.addr).bind s.endOf
    | .ack | .fail => s.endOf p.tag
    | .refuse => s.endOf p.src

/-- Where a packet entered the mesh: for a peal past its head the core of the route before, else the port die it came through,
the endpoint of ADDR for a REFUSE notice, else its SRC. -/
def State.meshFrom (s : State) (p : Packet) : Option MeshEnd :=
  if forwarded p then (s.routeCore p (p.pos - 1)).map .core
  else
    match p.via with
    | some v => some (.die (if v.1 then .east else .west))
    | none => if p.kind = .refuse then (addrEnd p.addr).bind s.endOf else s.endOf p.src

/-! ## Transit rows (spec/10 R248) -/

/-- The next place in the rotation over the transit rows 1 to 318. -/
def nextRow (n : Nat) : Nat := (n + 1) % 318

/-- A port die sends a packet on a transit row. -/
def PortDie.rotate (d : PortDie) (v : Packet) : PortDie :=
  if v.kind = .read then { d with rotReq := nextRow d.rotReq } else { d with rotRep := nextRow d.rotRep }

/-- A base die sends a packet toward a port die. -/
def Stack.rotate (t : Stack) (v : Packet) : Stack :=
  if v.kind = .read then { t with rotReq := nextRow t.rotReq } else { t with rotRep := nextRow t.rotRep }

/-- The transit row of the next packet of a sender on the packet's plane. -/
def State.rowOf (s : State) (e : MeshEnd) (v : Packet) : Nat :=
  match e with
  | .die d => 1 + if v.kind = .read then (s.die d).rotReq else (s.die d).rotRep
  | .stack h => 1 + if v.kind = .read then (s.stack h).rotReq else (s.stack h).rotRep
  | .core _ => 0

/-- A port die's way to an end is a transit: to a base die or the other port die. -/
def transits (d : Die) (e : Option MeshEnd) : Bool :=
  match e with
  | some (.stack _) => true
  | some (.die x) => x != d
  | _ => false

/-- A port die sends a packet into the mesh: on the next transit row toward a base die or the other port die, which turns its
rotation; on the row of the core otherwise. -/
def State.sendDie (s : State) (d : Die) (v : Packet) : State :=
  let p := { v with via := some (d == .east, s.rowOf (.die d) v) }
  if transits d (s.meshTo v) then (s.modDie d fun x => x.rotate v).send p else s.send p

/-- A port die sends packets in order. -/
def State.sendAllDie (s : State) (d : Die) (ps : List Packet) : State := ps.foldl (fun s p => s.sendDie d p) s

/-- The endpoint of a packet's SRC sends it again. -/
def State.sendAgain (s : State) (p : Packet) : State :=
  match s.endOf p.src with
  | some (.die d) => s.sendDie d p
  | _ => s.send p

/-! ## Paths and failed links (spec/10 R244 to R246) -/

/-- A router position. -/
abbrev Pos := Nat × Nat

/-- A link of the mesh by its router, its side (0 north, toward row 0; 1 south; 2 east; 3 west; 4 local) and its plane (0
request, 1 reply). -/
abbrev MeshLink := Pos × Nat × Nat

/-- One name for the two ends of a link: its west or its north end, where it has one on the grid. Which way north is, and
the numbers of the sides, are given nowhere (DESIGN CHOICE, notes/assumptions/149). -/
def meshLink (x y side plane : Nat) : MeshLink :=
  if side = 3 ∧ 0 < x then ((x - 1, y), 2, plane)
  else if side = 0 ∧ 0 < y then ((x, y - 1), 1, plane)
  else ((x, y), side, plane)

/-- The number of a link on its plane. A link that fails is failed on that plane alone; the other plane goes on using the same side
(DESIGN CHOICE, notes/assumptions/149). -/
def linkNo (l : MeshLink) : Nat := ((l.1.2 * 960 + l.1.1) * 5 + l.2.1) * 2 + l.2.2

/-- Kilobyte index of a packet's ADDR. -/
def kbOf (p : Packet) : Nat := bitsOf p.addr.toNat 36 10

/-- The column by which a packet reaches or leaves a base die: 120·(h mod 8) + k mod 120. -/
def dieColumn (h : StackId) (k : Nat) : Nat := 120 * (h.val % 8) + k % 120

/-- The row a base die attaches to. -/
def dieRow (h : StackId) : Nat := if h.val ≤ 7 then 0 else 319

/-- The router at an end of a way whose other end is `other`, and the side of the link to the endpoint there; `row` is the
transit row (spec/10 R246). -/
def posOf (e other : MeshEnd) (leaves : Bool) (k row : Nat) : Pos × Nat :=
  match e with
  | .core c => ((c.x.val, c.y.val), 4)
  | .stack h =>
    let col :=
      match other, leaves with
      | .core c, true =>
        if 120 * (h.val % 8) ≤ c.x.val ∧ c.x.val ≤ 120 * (h.val % 8) + 119 then c.x.val else dieColumn h c.y.val
      | _, _ => dieColumn h k
    ((col, dieRow h), if h.val ≤ 7 then 0 else 1)
  | .die d =>
    let y := match other with | .core c => c.y.val | _ => row
    match d with
    | .west => ((0, y), 3)
    | .east => ((959, y), 2)

/-- A packet travels on the XY channel, along the row first, when a core or a port die sends it into the mesh; what a base die
sends travels on the YX channel, along the column first. R246 names the SRC; R248 names the sender of a packet that a port die
brings in from another module, and of a notice that a base die forms (DEDUCED, notes/assumptions/179). -/
def State.onXY (s : State) (p : Packet) : Bool :=
  match s.meshFrom p with
  | some (.stack _) => false
  | _ => true

/-- The links of a row between two columns, and of a column between two rows. -/
def rowLinks (y x x' plane : Nat) : List MeshLink :=
  (List.range (max x x' - min x x')).map fun i => meshLink (min x x' + i) y 2 plane
def columnLinks (x y y' plane : Nat) : List MeshLink :=
  (List.range (max y y' - min y y')).map fun i => meshLink x (min y y' + i) 1 plane

/-- The links a packet crosses from one router to another on its channel. -/
def linksBetween (xy : Bool) (a b : Pos) (plane : Nat) : List MeshLink :=
  if xy then rowLinks a.2 a.1 b.1 plane ++ columnLinks b.1 a.2 b.2 plane
  else columnLinks a.1 a.2 b.2 plane ++ rowLinks b.2 a.1 b.1 plane

/-- The plane of a packet: request for a READ, reply for the others (spec/10 R238). -/
def planeOf (p : Packet) : Nat := if p.kind = .read then 0 else 1

/-- The base die that sent a packet toward a port die. -/
def State.fromDie (s : State) (v : Packet) : Option StackId :=
  match v.via, s.meshFrom v, s.meshTo v with
  | none, some (.stack h), some (.die _) => some h
  | _, _, _ => none

/-- A packet with the transit row that its base die sent it on, which turned the rotation. -/
def State.giveRow (s : State) (v : Packet) : State × Packet :=
  match s.fromDie v with
  | some h => if v.row = 0 then (s.modStack h fun t => t.rotate v, { v with row := s.rowOf (.stack h) v }) else (s, v)
  | none => (s, v)

/-- The rotations of the base dies brought up to the packets they have sent toward port dies: each in flight has the row it was
sent on, in the order in which they were sent (spec/10 R248). Nothing reads a row or a rotation but what calls this
before. -/
def State.giveRows (s : State) : State :=
  s.inFlight.foldl
    (fun s v =>
      let r := s.giveRow v
      { r.1 with inFlight := r.1.inFlight ++ [r.2] })
    { s with inFlight := [] }

/-- A packet without its row. -/
def Packet.rowless (p : Packet) : Packet := { p with row := 0 }

/-- A packet in flight is the one named, with its row or without. -/
def Packet.named (p q : Packet) : Bool := q == p || (p.row == 0 && Packet.rowless q == p)

/-- The transit row of a packet: the row its port die gave it, or that its base die sent it on. -/
def State.transitRow (s : State) (p : Packet) : Nat :=
  match p.via with
  | some v => v.2
  | none =>
    if p.row ≠ 0 then p.row
    else match s.giveRows.inFlight.find? (Packet.named p) with | some q => q.row | none => 0

/-- A packet leaves the mesh at a port die. -/
def State.leftMesh (s : State) (p : Packet) : State :=
  let s := s.giveRows
  match s.inFlight.find? (Packet.named p) with
  | some q => { s with inFlight := removeOne q s.inFlight }
  | none => s

/-- The links of a packet's whole way, those to its endpoints included; none where an end is not known. -/
def State.wayOf (s : State) (p : Packet) : List MeshLink :=
  match s.meshFrom p, s.meshTo p with
  | some a, some b =>
    if a = b then []
    else
      let row := s.transitRow p
      let f := posOf a b true (kbOf p) row
      let t := posOf b a false (kbOf p) row
      let plane := planeOf p
      meshLink f.1.1 f.1.2 f.2 plane :: linksBetween (s.onXY p) f.1 t.1 plane ++ [meshLink t.1.1 t.1.2 t.2 plane]
  | _, _ => []

/-- A packet whose way crosses a failed link does not arrive: the link is never used again (spec/10 R245). -/
def State.stranded (s : State) (p : Packet) : Bool := s.failedLinks.any fun l => ((s.wayOf p).map linkNo).contains l

/-- The links of the transit row by which a packet crosses from one port die to the other (spec/10 R248). -/
def crossWay (p : Packet) : List MeshLink :=
  match p.via with
  | some (_, y) => meshLink 0 y 3 (planeOf p) :: rowLinks y 0 959 (planeOf p) ++ [meshLink 959 y 2 (planeOf p)]
  | none => []

/-- A packet that crosses on a row with a failed link does not arrive. -/
def State.strandedCross (s : State) (p : Packet) : Bool := s.failedLinks.any fun l => ((crossWay p).map linkNo).contains l

/-- No link has failed: every packet gets through. -/
theorem State.stranded_none {s : State} (h : s.failedLinks = []) (p : Packet) : s.stranded p = false := by
  simp [State.stranded, h]

/-! ## Flits (spec/10 R245) -/

/-- One bit of a CRC with the polynomial 0x1021. -/
def crc16Bit (crc : BitVec 16) (b : Bool) : BitVec 16 :=
  if crc.msb != b then crc <<< 1 ^^^ 0x1021#16 else crc <<< 1

/-- The 16-bit CRC of a flit: polynomial 0x1021, initial value all ones; bytes in order, each from its most significant bit,
no final exclusive-or (DESIGN CHOICE: the spec gives neither; notes/assumptions/149). -/
def crc16 (bs : List Byte) : BitVec 16 :=
  bs.foldl (fun c (b : Byte) => (List.range 8).foldl (fun c i => crc16Bit c (b.getLsbD (7 - i))) c) 0xFFFF#16

/-- A copy of a flit checks at the receiver. -/
def flitOk (f : FlitTry) : Bool := f.flit.length == 32 && crc16 f.flit == f.crc

/-- How many copies of a flit failed in a row before one checked. -/
def flitFails (fs : List FlitTry) : Nat := (fs.takeWhile fun f => !flitOk f).length

/-! ## Packets of the module -/

/-- Some packet on the module answers: in flight on the mesh, due to be sent again, in a port die's buffers, handed to a link or
received by one. -/
def State.anyPacket (s : State) (f : Packet → Bool) : Bool :=
  s.inFlight.any f || s.resends.any (fun r => f r.packet) ||
    [s.west, s.east].any (fun d => d.eject.any f || d.blocked.any (f ·.1) || d.transit.any f) ||
    allPorts.any fun p => (s.port p).tx.any f || (s.port p).rx.any fun bs => match packetOf bs with | some v => f v | none => false

/-- Some packet that waits at a base die answers: with a request entry, in the attachment, for a line fill. -/
def State.anyWaiting (s : State) (f : Packet → Bool) : Bool :=
  let ofReq (r : Request) : Bool := match r with | .packet p => f p | _ => false
  s.hbmStacks.any fun t => t.2.reqs.any (fun e => ofReq e.req) || t.2.waiting.any ofReq || t.2.fills.any fun l => l.waiting.any f

end Sys2Proof.Machine
end

