-- ==== Sys2Proof/Machine/Sync.lean ====
section
/-! DEFINITION. Signals, waits, fences (spec/03 R82, R84; spec/09 R215, R222 to R226; spec/02 R39, R40). -/

namespace Sys2Proof.Machine

open Sys2Proof

/-! ## Counts since the checkpoints (spec/13 R334) -/

/-- A count of a context in every held checkpoint. -/
def Core.tallyCtx (x : Core) (k : Ctx) (cpy sig : Nat) : Core :=
  { x with checkpoints := x.checkpoints.map fun ck =>
      { ck with cpys := ck.cpys.set k (ck.cpys.get k + cpy), sigs := ck.sigs.set k (ck.sigs.get k + sig) } }

/-- The local tally of a sync counter in every held checkpoint. -/
def Core.tallySync (x : Core) (i : Fin 64) (d : Int) : Core :=
  { x with checkpoints := x.checkpoints.map fun ck =>
      { ck with tallies := Sparse.put 0 ck.tallies i.val (Sparse.look 0 ck.tallies i.val + d) } }

/-! ## SIG -/

/-- The address in the register pair ABASE, ABASE + 1, the low half in ABASE (notes/assumptions/27). -/
def pairAddr (t : CtxState) (f : FmtY) : DWord :=
  (t.reg (f.abase.toNat + 1)) ++ (t.reg f.abase.toNat)

/-- A local increment by the core itself, with its tally. It changes the counter in the next cycle, in which a consuming WAIT may
join it. -/
def State.localSig (s : State) (c : CoreId) (i : Fin 64) (v : Nat) : State :=
  s.modCore c fun x =>
    let y := (x.signal i v (s.coreEnd c) true).tallySync i v
    { y with pace := { y.pace with sig := some ⟨i, x.syncCtr i, Sparse.look {} x.errs jSyncClamp, v, false⟩ } }

/-- A signal for a counter at an address: applied where the counter is this core's own, else a SIGNAL packet
(spec/09 R222). -/
def signalPacketOf (tag src : EndPt) (slot : BitVec 5) (addr : DWord) (v : Nat) : Packet :=
  { kind := .signal, addr, sigVal := BitVec.ofNat 8 v, tag, slot, src }

/-- SIG: increment a local counter, or the remote counter whose address is in the register pair, by VALUE. ABASE of a local SIG,
which uses none, must be 0 (notes/assumptions/184: DEDUCED). -/
def execSig (c : CoreId) (k : Ctx) (f : FmtY) (s : State) : Out :=
  let x := s.core c
  let t := x.ctx k
  let v := f.value.toNat
  let remote := f.remote == 1
  let addr := pairAddr t f
  let target := s.ctrTarget addr
  issue s c k (encY 0x38 f) {}
    [(ckIllegal, v == 0 || decide (255 < v) || f.consume != 0 || f.rsv != 0 || (remote && (f.abase.toNat % 2 == 1 || f.ctr != 0)) ||
        (!remote && f.abase != 0)),
      (ckSig, remote && target.isNone)]
    (x.arrayQ.any (·.ctx == k)) .seq fun s =>
    if !remote then s.localSig c (ctrOf f) v
    else
      match target with
      | none => s
      | some (c', i) =>
        if c' = c && addrModule addr = s.coord then s.localSig c i v
        else
          if 0 < t.skipSig then s.modCtx c k fun t => { t with skipSig := t.skipSig - 1 }
          else (s.modCore c fun x => x.tallyCtx k 0 1).send (signalPacketOf (s.coreEnd c) (s.coreEnd c) 31 addr v)

/-! ## WAIT -/

/-- floor(log2 cycles) − 4, capped at 15 (spec/17 R443). -/
def blockedField (held : Nat) : Nat := min (Nat.log2 held - 4) 15

/-- A wait event: a WAIT held back 16 cycles or more reports to the trace of its slab (spec/17 R442). -/
def State.waitEvent (s : State) (c : CoreId) (k : Ctx) (f : FmtY) (held : Nat) : State :=
  match stackAt (slabOf c) with
  | none => s
  | some h =>
    if decide (16 ≤ held) && s.traceOn && s.trace.armSlabs.getLsbD h.val then
      let ctr := (s.core c).syncCtr (ctrOf f)
      let src := match ctr.src with | some e => (EndPt.code e).toNat | none => 0
      s.traceEvent h (traceRecord 0 c.x.val c.y.val k.val f.ctr.toNat f.value.toNat src (bit ctr.local_)
        (s.beat % 2 ^ 32) s.phase (blockedField held))
    else s

/-- WAIT: issues when the counter holds at least VALUE, subtracting VALUE if CONSUME is 1; while it is held back,
the wait registers show it (spec/17 R451). Where it issues in the cycle of a local SIG's change, it is judged on the value before
that and both are one change (spec/09 R225). -/
def execWait (c : CoreId) (k : Ctx) (f : FmtY) (held : WaitIn) (s : State) : Out :=
  let x := s.core c
  let t := x.ctx k
  let i := ctrOf f
  let v := f.value.toNat
  let met := decide (v ≤ x.waitValue i held.joined)
  if s.mayIssue c k && x.fetch k = encY 0x39 f && !x.instrBad.contains t.pc.toNat && !met then
    .next (if t.waiting.isSome then s
      else s.modCtx c k fun t => { t with waiting := some (f.ctr, f.value, s.beat) })
  else
    issue s c k (encY 0x39 f) {} [(ckIllegal, f.abase != 0 || f.remote != 0 || f.rsv != 0)] (!met) .seq fun s =>
      let s := s.waitEvent c k f held.held
      if f.consume = 1 then
        s.modCore c fun x => (x.consume i v held.joined).tallySync i (-(v : Int))
      else s

/-! ## BEAT, END, NOP -/

/-- Every field below the opcode is 0. -/
def badY (f : FmtY) : Bool :=
  f.abase != 0 || f.ctr != 0 || f.consume != 0 || f.remote != 0 || f.rsv != 0 || f.value != 0

/-- Every enabled context of the core that has not ended is level with T (spec/13 R344). -/
def Core.level (x : Core) (t : Nat) : Bool := allCtxs.all fun k => !(x.ctx k).enabled || (x.ctx k).ended || decide (t ≤ (x.ctx k).n)

/-- A context reaches its fence: its stroke ends and N rises (spec/13 R344); a replay that is level is over. -/
def Core.reachFence (x : Core) (k : Ctx) (t : Nat) : Core :=
  let x := x.modCtx k fun q => { q with running := false, n := q.n + 1, heldSince := none, chain := none }
  if x.rolling && x.level t then { x with rolling := false } else x

/-- BEAT: the stroke fence. FENCE_MARGIN marks a fence reached fewer than LATE_MARGIN reference cycles before the
boundary window (spec/02 R46). -/
def execBeat (c : CoreId) (k : Ctx) (f : FmtY) (s : State) : Out :=
  let x := s.core c
  issue s c k (encY 0x3A f) {} [(ckIllegal, badY f)] (x.arrayQ.any (·.ctx == k)) .seq fun s =>
    let margin := s.windowAt - s.phase
    let s := { s with
      fenceMargin := s.fenceMargin || decide (margin < s.lateMarginNow.toNat)
      beatMargin := if s.rest then s.beatMargin
        else some (match s.beatMargin with | some m => min m margin | none => margin) }
    s.modCore c fun x => x.reachFence k s.t

/-- END: the context ends until the next downbeat (spec/03 R84). It measures no margin for FENCE_MARGIN: an ended context reaches no
fence in the beat of its END (DESIGN CHOICE, notes/assumptions/157: spec/02 R46 does not say whether END counts as reaching it). The program counter stays at the END, so that
an END at index 1,023 passes PC_RANGE (DESIGN CHOICE, notes/assumptions/169: spec/03 R84 names no next instruction). -/
def execEndCtx (c : CoreId) (k : Ctx) (f : FmtY) (s : State) : Out :=
  let x := s.core c
  issue s c k (encY 0x3B f) {} [(ckIllegal, badY f), (ckAge, x.ownsOpen k)] (x.arrayQ.any (·.ctx == k)) .stay fun s =>
    s.modCore c fun x => (x.modCtx k fun t => { t with ended := true }).reachFence k s.t

/-- NOP: no effect. -/
def execNop (c : CoreId) (k : Ctx) (f : FmtY) (s : State) : Out :=
  issue s c k (encY 0x3C f) {} [(ckIllegal, badY f)] false .seq fun s => s

end Sys2Proof.Machine
end

