-- ==== Sys2Proof/Machine/Store.lean ====
section
/-! DEFINITION. The stores of a stack and what reaches them: HBM, the stack cache, the cache part, and reads of any
store by global address (spec/01 R14 to R16, spec/08 R203, spec/09 R227 to R234). -/

namespace Sys2Proof.Machine

open Sys2Proof

/-! ## The stack's stores -/

/-- The line of a kilobyte leaves the cache part, and a fill of it is no longer placed (spec/09 R233, R234). -/
def Stack.invalidate (t : Stack) (kb : Nat) : Stack :=
  { t with
    lines := t.lines.filter fun l => l.kb != kb
    fills := t.fills.map fun f => if f.kb = kb then { f with dirty := true } else f }

/-- Bytes written to HBM: blocks written whole have a fresh CRC, lines of the kilobytes are invalidated. -/
def Stack.hbmPut (t : Stack) (a : Nat) (bs : List Byte) : Stack :=
  let t := (blocksOf a bs.length).foldl (fun t b => t.invalidate (b / 16)) t
  { t with
    hbm := Memory.write t.hbm a bs
    hbmBad := t.hbmBad.filter fun b => !((wholeBlocks a bs.length).contains b) }

/-- Bytes written to the stack cache. -/
def Stack.scPut (t : Stack) (a : Nat) (bs : List Byte) : Stack :=
  { t with
    sc := Memory.write t.sc a bs
    scBad := t.scBad.filter fun b => !((wholeBlocks a bs.length).contains b) }

/-- Ways of a set of the cache part. -/
def cacheWays : Nat := 16

/-- The line of a kilobyte, when the cache part holds it. -/
def Stack.line (t : Stack) (kb : Nat) : Option CacheLine := t.lines.find? fun l => l.kb == kb

/-- A line used: it becomes the newest of its set. -/
def Stack.touch (t : Stack) (l : CacheLine) : Stack := { t with lines := t.lines.filter (· != l) ++ [l] }

/-- A line placed: the least recently used line of a full set gives way (spec/08 R203). -/
def Stack.place (t : Stack) (sets : Nat) (l : CacheLine) : Stack :=
  let same (m : CacheLine) : Bool := m.kb % sets == l.kb % sets
  let lines := t.lines.filter fun m => m.kb != l.kb
  let lines :=
    if cacheWays ≤ (lines.filter same).length then
      match lines.find? same with
      | some old => lines.filter fun m => m.kb != old.kb
      | none => lines
    else lines
  { t with lines := lines ++ [l] }

/-! ## Reads by address -/

/-- An HBM block read three times in vain: two re-reads counted, the block known to fail (spec/13 R332). -/
def State.failHbm (s : State) (h : StackId) (b : Nat) : State :=
  let s := ((s.countStack h 1 2).note 5 (.stack h)).note 5 (.stack h)
  s.modStack h fun t => { t with hbmBad := addOnce b t.hbmBad }

/-- Such a block read by a request is lost (spec/13 R350). -/
def State.loseHbm (s : State) (h : StackId) (b : Nat) : State :=
  (s.failHbm h b).stackLost 6 h (stackAddr 5 s.coord h (64 * b))

/-- The blocks of some ranges of HBM (offset, bytes) that are known to fail every read. -/
def Stack.lostIn (t : Stack) (ranges : List (Nat × Nat)) : List Nat :=
  t.hbmBad.filter fun b => ranges.any fun r => r.2 != 0 && decide (r.1 / 64 ≤ b) && decide (b ≤ (r.1 + r.2 - 1) / 64)

/-- Blocks that Carillon reads in vain: stored-data loss, which ends the job (spec/11 R276, spec/13 R350). -/
def State.loseAll (s : State) (h : StackId) (bs : List Nat) : State := bs.foldl (fun s b => s.loseHbm h b) s

/-- Bytes of a store of this module; a sync counter has none. -/
def State.readPlace (s : State) (p : Place) (n : Nat) : List Byte :=
  match p with
  | .ls c o => Memory.read (s.core c).ls o n
  | .af c o => (s.core c).afBytes o n
  | .stat c o => Memory.read (s.core c).stat o n
  | .hbm h o => Memory.read (s.stack h).hbm o n
  | .sc h o => Memory.read (s.stack h).sc o n
  | .ctr _ _ => []

/-- Bytes at a global address of this module. -/
def State.readAddr (s : State) (a : DWord) (n : Nat) : List Byte :=
  match placeOf a with
  | some p => s.readPlace p n
  | none => []

/-- Bytes of a list in pieces of n. -/
def cut (n : Nat) : (fuel : Nat) → List Byte → List (List Byte)
  | 0, _ => []
  | f + 1, bs => if bs.isEmpty then [] else bs.take n :: cut n f (bs.drop n)

/-- The pieces of a byte string at an address up to each 64-byte boundary. -/
def cutBlocks : (fuel : Nat) → (a : Nat) → List Byte → List (Nat × List Byte)
  | 0, _, _ => []
  | f + 1, a, bs =>
    if bs.isEmpty then []
    else
      let n := 64 - a % 64
      (a, bs.take n) :: cutBlocks f (a + n) (bs.drop n)

end Sys2Proof.Machine
end

