-- ==== Sys2Proof/Machine/Carillon.lean ====
section
/-! DEFINITION. Carillon: operations and triggers, remote accumulate, the dual path, the gradient norm and the
collectives (spec/11 R271 to R292). The optimizer is in Optimizer.lean. -/

namespace Sys2Proof.Machine

open Sys2Proof

/-! ## Operation entries (spec/11 R271) -/

def kindReduce : Nat := 1
def kindSumsq : Nat := 2
def kindAllgather : Nat := 3
def kindPermute : Nat := 4
def kindPassround : Nat := 5
def kindOptimize : Nat := 6

/-- An operation entry by its fields. -/
structure OpEntry where
  kind : Nat
  fmt : BitVec 4
  dualK : Nat
  segLog2 : Nat
  count : Nat
  region : Nat
  region2 : Nat
  doneAddr : DWord
  doneVal : Nat
  mr0 : Nat
  mcount : Nat
  cx0 : Nat
  cy0 : Nat
  cnx : Nat
  cny : Nat
  slots : Nat
  ownerRank : Nat
  ownerStack : Nat
  maxNorm : Word
  unit : Nat
  region3 : Nat
  deriving DecidableEq, Repr

/-- The fields of an entry block. -/
def OpEntry.of (b : BitVec 512) : OpEntry :=
  let v := b.toNat
  { kind := bitsOf v 3 0
    fmt := BitVec.ofNat 4 (bitsOf v 7 4)
    dualK := bitsOf v 11 8
    segLog2 := bitsOf v 19 16
    count := bitsOf v 63 32
    region := bitsOf v 100 64
    region2 := bitsOf v 164 128
    doneAddr := BitVec.ofNat 64 (bitsOf v 255 192)
    doneVal := bitsOf v 263 256
    mr0 := bitsOf v 273 264
    mcount := bitsOf v 284 274
    cx0 := bitsOf v 297 288
    cy0 := bitsOf v 306 298
    cnx := bitsOf v 316 307
    cny := bitsOf v 325 317
    slots := bitsOf v 339 336
    ownerRank := bitsOf v 361 352
    ownerStack := bitsOf v 365 362
    maxNorm := BitVec.ofNat 32 (bitsOf v 415 384)
    unit := bitsOf v 447 416
    region3 := bitsOf v 484 448 }

/-- Operation i of a stack. -/
def Stack.op (t : Stack) (i : Nat) : OpEntry := OpEntry.of (Sparse.look 0 t.car.ops i)

/-- Contributors of a REDUCE. -/
def OpEntry.ranks (e : OpEntry) : Nat := e.mcount * e.cnx * e.cny

/-- Progress of operation i. -/
def Stack.opRun (t : Stack) (i : Nat) : OpRun := Sparse.look {} t.car.runs i

/-- Progress of operation i replaced. -/
def Stack.setRun (t : Stack) (i : Nat) (r : OpRun) : Stack :=
  { t with car := { t.car with runs := Sparse.put {} t.car.runs i r } }

/-- Key of block b of operation i. -/
def blockKey (i b : Nat) : Nat := i * 2 ^ 32 + b

/-- Block b of operation i. -/
def Stack.rblock (t : Stack) (i b : Nat) : RBlock := Sparse.look {} t.car.blocks (blockKey i b)

/-- Block b of operation i replaced. -/
def Stack.setRblock (t : Stack) (i b : Nat) (v : RBlock) : Stack :=
  { t with car := { t.car with blocks := Sparse.put {} t.car.blocks (blockKey i b) v } }

/-- The signal of a completed unit (spec/11 R274). -/
def State.carSignal (s : State) (h : StackId) (e : OpEntry) : State :=
  if e.doneAddr = 0 then s else s.send (signalPacketOf (s.stackEnd h) (s.stackEnd h) 0 e.doneAddr e.doneVal)

/-- Module coordinate of a rank, when the rank table lists it. -/
def State.rankCoord (s : State) (r : Nat) : Option (BitVec 10) :=
  match s.image with
  | some i => i.ranks[r]?.map Prod.snd
  | none => none

/-- Rank of a module coordinate. -/
def State.coordRank (s : State) (m : BitVec 10) : Option Nat :=
  match s.image with
  | some i => i.ranks.findIdx? fun r => r.2 == m
  | none => none

/-! ## Triggers (spec/11 R273, R292) -/

/-- An operation ends; a held start of the next generation begins, but not in KNELL (spec/13 R359). -/
def OpRun.finish (r : OpRun) (knell : Bool) : OpRun :=
  if r.held && !knell then { gen := r.gen + 1, running := true } else { r with running := false, begun := true }

/-- PASSROUND is over: every step has landed and every slot was released (notes/assumptions/29). -/
def OpRun.ringDone (r : OpRun) (e : OpEntry) : Bool :=
  r.begun && decide (e.mcount ≤ r.landed.length + 1) && r.slots.isEmpty

/-- A release record of step k frees its slot. -/
def State.release (s : State) (h : StackId) (i step : Nat) : State :=
  let t := s.stack h
  let r := t.opRun i
  let e := t.op i
  match r.slots.find? fun p => p.2 == step && r.landed.contains step with
  | none => s.countStack h 4 1
  | some p =>
    let r := { r with slots := r.slots.filter (· != p), freed := addOnce step r.freed }
    s.modStack h fun t => t.setRun i (if r.running && r.ringDone e then r.finish (s.dev == devKnell) else r)

/-- A trigger record applied in trigger block i of a stack. -/
def State.trigger (s : State) (h : StackId) (i : Nat) (block : List Byte) : State :=
  let v := leNat block
  let t := s.stack h
  let e := t.op i
  let r := t.opRun i
  let gen : BitVec 16 := BitVec.ofNat 16 (bitsOf v 23 8)
  let action := bitsOf v 27 24
  let bad := s.countStack h 6 1
  if bitsOf v 31 28 != 0 || bitsOf v 511 48 != 0 || bitsOf v 7 0 != i || e.kind = 0 then bad
  else if action = 2 then
    if e.kind ≠ kindPassround || gen != r.gen then bad else s.release h i (bitsOf v 47 32)
  else if action ≠ 1 || e.kind = kindReduce then bad
  else if gen = r.gen + 1 then
    s.modStack h fun t =>
      t.setRun i (if r.running || s.dev == devKnell then { r with held := true } else { gen, running := true })
  else if gen = r.gen then s.countStack h 4 1
  else bad

/-- One block of HBM, or part of one, written by the base die: stored, and acted on where it is a trigger record. -/
def State.hbmBlock (s : State) (h : StackId) (a : Nat) (bs : List Byte) : State :=
  let s := s.modStack h fun t => t.hbmPut a bs
  let car := (s.stack h).car
  if car.loaded && decide (car.trigBase ≤ a) && decide (a < car.trigBase + 4096) then
    s.trigger h ((a - car.trigBase) / 64) (Memory.read (s.stack h).hbm (a / 64 * 64) 64)
  else s

/-- Bytes written to HBM block by block (spec/09 R232). -/
def State.hbmStore (s : State) (h : StackId) (a : Nat) (bs : List Byte) : State :=
  (cutBlocks (bs.length + 1) a bs).foldl (fun s p => s.hbmBlock h p.1 p.2) s

/-! ## Carillon packets (spec/11 R275, R276) -/

/-- The tag block of a CARILLON packet. -/
structure CarTag where
  op : Nat
  gen : BitVec 16
  subop : Nat
  stack : Nat
  sender : Nat
  unit : Nat
  step : Nat
  deriving DecidableEq, Repr

/-- The 64 bytes of a tag block. -/
def CarTag.bytes (g : CarTag) : List Byte :=
  leBytes 64 (g.op + g.gen.toNat * 2 ^ 8 + g.subop * 2 ^ 24 + g.stack * 2 ^ 28 + g.sender * 2 ^ 32 + g.unit * 2 ^ 64 +
    g.step * 2 ^ 96)

/-- The fields of a tag block. -/
def CarTag.of (bs : List Byte) : CarTag :=
  let v := leNat (bs.take 64)
  { op := bitsOf v 5 0
    gen := BitVec.ofNat 16 (bitsOf v 23 8)
    subop := bitsOf v 27 24
    stack := bitsOf v 31 28
    sender := bitsOf v 41 32
    unit := bitsOf v 95 64
    step := bitsOf v 127 96 }

/-- A CARILLON packet of a tag and data blocks. -/
def State.carPacket (s : State) (h : StackId) (g : CarTag) (dst : DWord) (data : List Byte) (origin : DWord) : Packet :=
  { kind := .carillon, blocks := 1 + data.length / 64, addr := dst, tag := s.stackEnd h, src := s.stackEnd h
    data := g.bytes ++ data, origin }

/-- Data blocks of one packet: 15 on one module, 7 across the torus. -/
def State.carCut (s : State) (m : BitVec 10) : Nat := if m = s.coord then 15 else 7

/-- A unit of whole KiB sent as packets, each KiB cut on its own (notes/assumptions/30). `at_`: where a KiB of the
unit is read and where it goes. -/
def State.carUnit (s : State) (h : StackId) (g : CarTag) (m : BitVec 10) (src dst kib : Nat) : List Packet :=
  (List.range kib).flatMap fun u =>
    let data := Memory.read (s.stack h).hbm (src + 1024 * u) 1024
    let n := s.carCut m
    (List.range ((16 + n - 1) / n)).map fun j =>
      let o := 1024 * u + 64 * n * j
      s.carPacket h { g with unit := u } (stackAddr 5 m h (dst + o)) ((data.drop (64 * n * j)).take (64 * n))
        (stackAddr 5 s.coord h (src + o))

/-- A refusal notice: the packet's header with KIND 0x5 and no data (spec/10 R240). -/
def refuseOf (p : Packet) : Packet :=
  { p with
    kind := .refuse, data := [], kept := p.data, was := p.kind, escape := false, escDim := 0, hops := 0, via := none
    joined := false, renewed := false }

/-- How a receiving Carillon judges a packet of an operation (spec/11 R276). -/
inductive Judge where
  | take
  | ahead
  | behind
  | wrong
  deriving DecidableEq, Repr

/-- GEN compared with the operation's generation: ahead by less than half the range, behind otherwise
(notes/assumptions/31). A packet of the present generation is taken once its start record has landed. -/
def judgeGen (own gen : BitVec 16) : Judge :=
  let d := (gen - own).toNat
  if d = 0 then .take else if d < 2 ^ 15 then .ahead else .behind

/-- A packet judged against operation OP of its stack. -/
def Stack.judge (t : Stack) (g : CarTag) (kinds : List Nat) : Judge :=
  let e := t.op g.op
  if !(kinds.contains e.kind) then .wrong else judgeGen (t.opRun g.op).gen g.gen

/-- What every CARILLON packet meets first: its stack and place; refused, dropped and counted, or handed on. -/
def State.carArrive (s : State) (p : Packet) (subop : Nat) (judge : Stack → CarTag → Judge)
    (act : StackId → Nat → CarTag → List Byte → State → State) : Host.Outcome State Fault Refusal :=
  let g := CarTag.of p.data
  match placeOf p.addr with
  | some (.hbm h off) =>
    if !s.powered || p.kind ≠ .carillon || addrModule p.addr ≠ s.coord || g.subop ≠ subop || s.stranded p then .next s
    else
      let s := s.arrive p
      match judge (s.stack h) g with
      | .take => .next (act h off g (p.data.drop 64) s)
      | .ahead => .next (s.send (refuseOf p))
      | .behind => .next (s.countStack h 4 1)
      | .wrong => .next (s.countStack h 5 1)
  | _ => .next s

/-! ## Remote accumulate (spec/11 R277 to R283) -/

/-- The REDUCE operation whose region holds an HBM offset. -/
def Stack.reduceAt (t : Stack) (off : Nat) : Option Nat :=
  if t.car.loaded then
    (List.range 64).find? fun i =>
      let e := t.op i
      e.kind == kindReduce && decide (e.region ≤ off) && decide (off < e.region + 1024 * e.count)
  else none

/-- The rank of a contribution, from its TAG; none if it is not valid (spec/11 R278). -/
def State.contribRank (s : State) (e : OpEntry) (tag : EndPt) : Option Nat :=
  match EndPt.coreOf tag, s.coordRank tag.module with
  | some c, some mr =>
    if e.mr0 ≤ mr ∧ mr < e.mr0 + e.mcount ∧ e.cx0 ≤ c.x.val ∧ c.x.val < e.cx0 + e.cnx ∧ e.cy0 ≤ c.y.val ∧
        c.y.val < e.cy0 + e.cny then
      some ((mr - e.mr0) * e.cnx * e.cny + (c.y.val - e.cy0) * e.cnx + (c.x.val - e.cx0))
    else none
  | _, _ => none

/-- KiB of the staging area and of the overflow area. -/
def stageSize : Nat := 65536
def spillSize : Nat := 4194304

/-- n KiB taken: from the staging area, else from the overflow area; which, or none when both are full. -/
def Car.alloc (r : Car) (n : Nat) : Option (Car × Bool) :=
  if r.stageUse + n ≤ stageSize then some ({ r with stageUse := r.stageUse + n }, false)
  else if r.spillUse + n ≤ spillSize then some ({ r with spillUse := r.spillUse + n }, true)
  else none

/-- n KiB given back. -/
def Car.free (r : Car) (n : Nat) (spill : Bool) : Car :=
  if spill then { r with spillUse := r.spillUse - n } else { r with stageUse := r.stageUse - n }

/-- KiB of a block's sum: 256 FP32 sums, or 512 for BF16. -/
def OpEntry.sumKib (e : OpEntry) : Nat := if e.fmt = 5 then 2 else 1

/-- An ARMED block takes its sum and the next rank's area. -/
def armAlloc (e : OpEntry) (r : Car) (v : RBlock) (beat : Nat) : Option (Car × RBlock) :=
  match r.alloc e.sumKib with
  | none => none
  | some (r, a) =>
    match r.alloc 1 with
    | none => none
    | some (r, b) =>
      some ({ r with fills := r.fills + 1 },
        { v with
          state := .filling, sum := [], next := 0, pieces := [], since := beat, order := r.fills, sumSpill := a, keptSpill := b
          staged := [] })

/-- A rank other than the next takes a KiB for its pieces. -/
def stageAlloc (r : Car) (v : RBlock) (rank : Nat) : Option (Car × RBlock) :=
  if rank = v.next || v.staged.any (·.1 == rank) then some (r, v)
  else
    match r.alloc 1 with
    | none => none
    | some (r, a) => some (r, { v with staged := v.staged ++ [(rank, a)] })

/-- The shadow stack of stack h: the one before it on the reverse ring 0, 8, 9, …, 15, 7, 6, …, 1 (spec/11 R286). -/
def shadowStack (h : StackId) : StackId :=
  if h.val = 8 then 0 else if h.val = 7 then 15 else if h.val ≤ 6 then h + 1 else h - 1

/-- A block is sampled for the dual path (spec/11 R285). -/
def dualSampled (b i : Nat) (g : BitVec 16) (k : Nat) (seed : Word) : Bool :=
  let h : Word := (BitVec.ofNat 32 b * 0x9E3779B1) ^^^ (BitVec.ofNat 32 i * 0x85EBCA77) ^^^ (g.zeroExtend 32 * 0xC2B2AE3D) ^^^ seed
  decide (6 ≤ k) && decide (h.toNat / 2 ^ (32 - k) = 0)

/-- CAR_SEED of the image. -/
def State.carSeed (s : State) : Word :=
  match s.image with
  | some i => i.carSeed
  | none => 0

/-- Pieces of a packet from HBM offset `off`: index in the block and data. -/
def piecesAt (off : Nat) (data : List Byte) : List (Nat × List Byte) :=
  (List.range (data.length / 64)).map fun j => ((off + 64 * j) / 64 % 16, (data.drop (64 * j)).take 64)

/-- Pieces of a contribution that are new in a filling block, and how many repeat. -/
def newPieces (v : RBlock) (rank : Nat) (ps : List (Nat × List Byte)) : List (Nat × List Byte) × Nat :=
  if rank < v.next then ([], ps.length)
  else
    let fresh := ps.filter fun p => !(v.pieces.any fun q => q.rank == rank && q.index == p.1)
    (fresh, ps.length - fresh.length)

/-- A contribution of `ps` pieces to the block at `off` of REDUCE i; none when it is refused. A dual copy carries one piece and
names it by ADDR, the piece's own place in the block's region (spec/11 R286; DESIGN CHOICE, notes/assumptions/194). -/
def State.contribute (s : State) (h : StackId) (i : Nat) (tag : EndPt) (off : Nat) (data : List Byte) : Option State :=
  let t := s.stack h
  let e := t.op i
  let b := (off - e.region) / 1024
  let ps := piecesAt off data
  match s.contribRank e tag with
  | none => some (s.countStack h 5 ps.length)
  | some rank =>
    let v := t.rblock i b
    if v.state = .done then some (s.countStack h 4 ps.length)
    else
      match if v.state = .armed then armAlloc e t.car v s.beat else some (t.car, v) with
      | none => none
      | some (r, v) =>
        let n := newPieces v rank ps
        if n.1.isEmpty then some (s.countStack h 4 n.2)
        else
          match stageAlloc r v rank with
          | none => none
          | some (r, v) =>
            let v := { v with pieces := v.pieces ++ n.1.map fun p => ⟨rank, p.1, p.2⟩ }
            let s := if n.2 = 0 then s else s.countStack h 4 n.2
            let s := s.modStack h fun t => { t with car := r }.setRblock i b v
            if dualSampled b i v.gen e.dualK s.carSeed then
              some (s.sendAll (n.1.map fun p =>
                s.carPacket h ⟨i, v.gen, 2, h.val, s.rank, rank, 0⟩
                  (stackAddr 5 s.coord (shadowStack h) (e.region + 1024 * b + 64 * p.1)) p.2 0))
            else some s

/-- A block's 1 KiB of one rank, in piece order, once all 16 are there. -/
def rankData (ps : List Piece) (rank : Nat) : Option (List Byte) :=
  let own := ps.filter fun p => p.rank == rank
  if own.length = 16 then
    some ((List.range 16).flatMap fun j =>
      match own.find? fun p => p.index == j with
      | some p => p.data
      | none => [])
  else none

/-- Elements of a contribution as FP32 words (BF16 decoded exactly). -/
def contribWords (fmt : BitVec 4) (bs : List Byte) : List Word :=
  if fmt = 5 then (cut 2 513 bs).map fun p => BitVec.ofNat 32 (leNat p * 2 ^ 16)
  else (cut 4 257 bs).map fun p => BitVec.ofNat 32 (leNat p)

/-- FP32 sum with nearest-even. -/
def addWord (a b : Word) : Word := BitVec.ofNat 32 (roundWide 6 ((fp32 a).add (fp32 b)))

/-- A rank's contribution added (spec/11 R281). -/
def addRank (sum c : List Word) : List Word := if sum.isEmpty then c else List.zipWith addWord sum c

/-- The bytes of a result in FMT. -/
def resultBytes (fmt : BitVec 4) (sum : List Word) : List Byte :=
  if fmt = 5 then sum.flatMap fun w => leBytes 2 (roundWide 5 (fp32 w).exact) else sum.flatMap fun w => leBytes 4 w.toNat

/-- Result elements that are a NaN or an infinity in FMT. -/
def nonFinite (fmt : BitVec 4) (sum : List Word) : Nat :=
  sum.countP fun w => if fmt = 5 then !(wideVal 5 (roundWide 5 (fp32 w).exact)).isFinite else !(fp32 w).isFinite

/-- Block b of a REDUCE has been written in generation g. -/
def Stack.written (t : Stack) (i b : Nat) (g : BitVec 16) : Bool :=
  let v := t.rblock i b
  if v.gen = g then decide (v.state = .done) else decide ((v.gen - g).toNat < 2 ^ 15)

/-- Every block of the segment of block b has been written in generation g. -/
def Stack.segmentDone (t : Stack) (e : OpEntry) (i b : Nat) (g : BitVec 16) : Bool :=
  let n := 2 ^ e.segLog2
  let first := b / n * n
  (List.range (min n (e.count - first))).all fun j => t.written i (first + j) g

/-- The last rank has entered: the result is written, the block is DONE, its segment may signal (spec/11 R283). -/
def State.reduceDone (s : State) (h : StackId) (i b : Nat) (v : RBlock) : State :=
  let e := (s.stack h).op i
  let out := resultBytes e.fmt v.sum
  let bad := nonFinite e.fmt v.sum
  let s := s.hbmStore h (e.region + 1024 * b) out
  let s := s.modStack h fun t =>
    { t with car := (t.car.free e.sumKib v.sumSpill).free 1 v.keptSpill }.setRblock i b
      { v with state := .done, doneBeat := s.beat, result := out, sum := [], pieces := [], staged := [], dual := [] }
  let s := if bad = 0 then s else s.countStack h 10 bad
  if (s.stack h).segmentDone e i b v.gen then s.carSignal h e else s

/-- RANK_ENTER: the next rank of a filling block is added once its 16 pieces are there. A guard failure of the
staging area or the sum loses the data (spec/13 R332 0x08). -/
def execRankEnter (h : StackId) (op : Fin 64) (block : Nat) (bad : Bool) (s : State) : Host.Outcome State Fault Refusal :=
  let t := s.stack h
  let e := t.op op.val
  let v := t.rblock op.val block
  if !s.powered || e.kind ≠ kindReduce || v.state ≠ .filling then .next s
  else
    match rankData v.pieces v.next with
    | none => .next s
    | some data =>
      if bad then .next (s.stackLost 8 h (stackAddr 5 s.coord h (e.region + 1024 * block)))
      else
        let sum := addRank v.sum (contribWords e.fmt data)
        let car :=
          match v.staged.find? fun p => p.1 == v.next with
          | some p => t.car.free 1 p.2
          | none => t.car
        let v' := { v with
          sum, next := v.next + 1, pieces := v.pieces.filter (fun p => p.rank != v.next)
          staged := v.staged.filter (fun p => p.1 != v.next) }
        let s := s.modStack h fun t => { t with car }.setRblock op.val block v'
        .next (if v'.next = e.ranks then s.reduceDone h op.val block v' else s)

/-- BLOCK_REARM: a DONE block re-arms 16 beats later with its generation increased (spec/11 R279). -/
def execBlockRearm (h : StackId) (op : Fin 64) (block : Nat) (s : State) : Host.Outcome State Fault Refusal :=
  let v := (s.stack h).rblock op.val block
  if s.powered && v.state == .done && decide (v.doneBeat + 16 ≤ s.beat) then
    .next (s.modStack h fun t => t.setRblock op.val block { v with state := .armed, gen := v.gen + 1, next := 0 })
  else .next s

/-! ## Dual path (spec/11 R286) -/

/-- The stack whose dual copies a shadow stages. -/
def shadowOwner (g : CarTag) : StackId := Fin.ofNat 16 g.stack

/-- A dual result in packets of 8 data blocks, to the owner's block. -/
def State.dualPackets (s : State) (h : StackId) (g : CarTag) (off : Nat) (out : List Byte) : List Packet :=
  (cut 512 3 out).zipIdx.map fun p =>
    s.carPacket h ⟨g.op, g.gen, 3, h.val, s.rank, g.unit, 0⟩ (stackAddr 5 s.coord (shadowOwner g) (off + 512 * p.2)) p.1 0

/-- Space that the shadow's staging takes for a piece: the block's sum with its first piece, and 1 KiB for each rank; none
where both areas are full (spec/11 R281, R282, R286). -/
def dualAlloc (e : OpEntry) (c : Car) (old : Option DualStage) (rank : Nat) : Option (Car × List (Nat × Bool)) :=
  let take (n : Nat) (r : Car × List (Nat × Bool)) : Option (Car × List (Nat × Bool)) :=
    (r.1.alloc n).map fun a => (a.1, r.2 ++ [(n, a.2)])
  match old with
  | some d => if d.pieces.any fun q => q.rank == rank then some (c, d.held) else take 1 (c, d.held)
  | none => (take e.sumKib (c, [])).bind (take 1)

/-- Space given back. -/
def Car.freeAll (c : Car) (held : List (Nat × Bool)) : Car := held.foldl (fun c a => c.free a.1 a.2) c

/-- DUAL_COPY: the shadow stages the pieces, and once every rank is whole it reduces them in rank order and returns the
result. A packet that finds both areas full is refused, as a contribution is (spec/11 R282). A guard that fails where the
reduction reads the staging is a loss of the shadow stack: no result (spec/13 R332 0x08). -/
def execDualCopy (c : DualIn) (s : State) : Host.Outcome State Fault Refusal :=
  s.carArrive c.packet 2 (fun _ g => if ((s.stack (shadowOwner g)).op g.op).kind = kindReduce then .take else .wrong) fun h off g data s =>
    let e := (s.stack (shadowOwner g)).op g.op
    let base := e.region + (off - e.region) / 1024 * 1024
    let car := (s.stack h).car
    let same (d : DualStage) : Bool := d.op == g.op && d.gen == g.gen && d.addr == stackAddr 5 s.coord (shadowOwner g) base
    let stage := car.duals.find? same
    let old := match stage with | some d => d.pieces | none => []
    let fresh := (piecesAt off data).filter fun q => !(old.any fun r => r.rank == g.unit && r.index == q.1)
    if fresh.isEmpty then s.countStack h 4 1
    else
      match dualAlloc e car stage g.unit with
      | none => (s.countStack h 7 1).send (refuseOf c.packet)
      | some (car, held) =>
      let pieces := old ++ fresh.map fun q => ⟨g.unit, q.1, q.2⟩
      let rest := car.duals.filter fun d => !(same d)
      let put (c : Car) (ds : List DualStage) (s : State) : State := s.modStack h fun t => { t with car := { c with duals := ds } }
      if pieces.length = 16 * e.ranks then
        if c.bad then (put (car.freeAll held) rest s).stackLost 8 h (stackAddr 5 s.coord (shadowOwner g) base)
        else
        let sum := (List.range e.ranks).foldl
          (fun a r => match rankData pieces r with | some d => addRank a (contribWords e.fmt d) | none => a) []
        (put (car.freeAll held) rest s).sendAll (s.dualPackets h { g with unit := (base - e.region) / 1024 } base (resultBytes e.fmt sum))
      else put car (rest ++ [⟨g.op, g.gen, stackAddr 5 s.coord (shadowOwner g) base, pieces, held⟩]) s

/-- Where a dual result stands against the owner's block: taken with its generation's result, refused before it. -/
def judgeDual (t : Stack) (off : Nat) (g : CarTag) : Judge :=
  let e := t.op g.op
  if e.kind ≠ kindReduce then .wrong
  else
    let v := t.rblock g.op ((off - e.region) / 1024)
    let last := if v.state = .done then v.gen else v.gen - 1
    match judgeGen last g.gen with
    | .take => if v.dual.any (fun p => p.1 == off / 64 % 16) then .behind else .take
    | j => j

/-- DUAL_RESULT: the owner compares the dual result with its own bit for bit; a mismatch is counted, and kept for the
thresholds of spec/13 R358. -/
def execDualResult (p : Packet) (s : State) : Host.Outcome State Fault Refusal :=
  let off := match placeOf p.addr with | some (.hbm _ o) => o | _ => 0
  s.carArrive p 3 (fun t g => judgeDual t off g) fun h off g data s =>
    let e := (s.stack h).op g.op
    let b := (off - e.region) / 1024
    let v := (s.stack h).rblock g.op b
    let dual := v.dual ++ piecesAt off data
    let s := s.modStack h fun t => t.setRblock g.op b { v with dual }
    let whole := (List.range 16).flatMap fun j => match dual.find? (fun q => q.1 == j) with | some q => q.2 | none => []
    if dual.length = 16 && whole != v.result then (s.countStack h 8 1).note 6 (.stack h) else s

/-! ## Gradient norm (spec/11 R287, R288, R293) -/

/-- A tensor descriptor by its fields (spec/04 R101). -/
structure Tensor where
  coarse : Word
  fmt : BitVec 4
  order : Bool
  limb : Bool
  dimB : Nat
  dimO : Nat
  data : Nat
  scales : Nat
  deriving DecidableEq, Repr

/-- The fields of 32 bytes; data and scales as HBM offsets of their stack. -/
def Tensor.of (bs : List Byte) : Tensor :=
  let v := leNat bs
  { coarse := BitVec.ofNat 32 v
    fmt := BitVec.ofNat 4 (bitsOf v 35 32)
    order := bitOf v 36
    limb := bitOf v 37
    dimB := bitsOf v 95 64
    dimO := bitsOf v 127 96
    data := bitsOf v 164 128
    scales := bitsOf v 228 192 }

/-- Tensor j of the record at an offset (spec/11 R293). -/
def tensorAt (m : Mem) (rec_ j : Nat) : Tensor := Tensor.of (Memory.read m (rec_ + 32 * j) 32)

/-- FREEZE and DECAY of a record. -/
def recordBits (m : Mem) (rec_ : Nat) : Bool × Bool :=
  let v := (Memory.byte m (rec_ + 192)).toNat
  (bitOf v 0, bitOf v 1)

/-- Element number of index (b along the block axis, o along the other) (spec/04 R102; notes/assumptions/32 for the
wide formats). -/
def Tensor.index (t : Tensor) (b o : Nat) : Nat := (b / 32 * t.dimO + o) * 32 + b % 32

/-- Elements of a tensor. -/
def Tensor.size (t : Tensor) : Nat := t.dimB * t.dimO

/-- Element i of a wide tensor. -/
def Tensor.wideAt (t : Tensor) (m : Mem) (i : Nat) : FVal := wideVal t.fmt (packedElem m t.data (elemWidth t.fmt) i)

/-- x² in units of 2^−298. -/
def squareUnits (x : FVal) : Nat :=
  match x with
  | .fin _ m e => (Dy.mk ((m * m : Nat) : Int) (2 * e + 298)).floor.toNat
  | _ => 0

/-- The exact sum of squares of the unfrozen gradients of n records, and the NONFINITE mark. -/
def sumSquares (m : Mem) (list n : Nat) : Nat × Bool :=
  (List.range n).foldl (fun a j =>
    let rec_ := list + 256 * j
    if (recordBits m rec_).1 then a
    else
      let t := tensorAt m rec_ 0
      (List.range t.size).foldl (fun a i =>
        let x := t.wideAt m i
        if x.isFinite then (a.1 + squareUnits x, a.2) else (a.1, true)) a) (0, false)

/-- The operation's own step is due: it runs and has not begun. -/
def Stack.due (t : Stack) (i kind : Nat) : Bool := (t.op i).kind == kind && (t.opRun i).running && !(t.opRun i).begun

/-- Bytes of one limb run of a tensor (spec/04 R102). -/
def Tensor.limbRun (t : Tensor) : Nat := up64 (32 * (t.dimB / 32) * t.dimO)

/-- HBM that a tensor of a record takes: its elements, with those of the low limbs, and its scales. -/
def Tensor.ranges (t : Tensor) : List (Nat × Nat) :=
  let blocks := t.dimB / 32 * t.dimO
  [(t.data, 4 * elemWidth t.fmt * blocks + if t.limb then t.limbRun else 0), (t.scales, if t.scales = 0 then 0 else (blocks + 1) / 2)]

/-- HBM that an operation reads of its records: the records, and the tensors named of those not frozen. -/
def recordRanges (m : Mem) (list n : Nat) (tensors : List Nat) : List (Nat × Nat) :=
  (list, 256 * n) :: (List.range n).flatMap fun j =>
    if (recordBits m (list + 256 * j)).1 then [] else tensors.flatMap fun k => (tensorAt m (list + 256 * j) k).ranges

/-- The operation's own step has been carried out. -/
def State.begin_ (s : State) (h : StackId) (i : Nat) : State :=
  s.modStack h fun t => t.setRun i { t.opRun i with begun := true }

/-- The operation ends and signals. -/
def State.opDone (s : State) (h : StackId) (i : Nat) : State :=
  let e := (s.stack h).op i
  (s.modStack h fun t => t.setRun i ((t.opRun i).finish (s.dev == devKnell))).carSignal h e

/-- SUMSQ_START: the partial is formed and sent to the norm owner. -/
def execSumsqStart (h : StackId) (op : Fin 64) (s : State) : Host.Outcome State Fault Refusal :=
  let t := s.stack h
  let e := t.op op.val
  let lost := t.lostIn (recordRanges t.hbm e.region e.count [0])
  if !s.powered || !t.due op.val kindSumsq then .next s
  else if !lost.isEmpty then .next ((s.begin_ h op.val).loseAll h lost)
  else
    match s.rankCoord e.ownerRank with
    | none => .next s
    | some m =>
      let part := sumSquares t.hbm e.region e.count
      let data := leBytes 80 part.1 ++ leBytes 48 (bit part.2)
      let g : CarTag := ⟨op.val, (t.opRun op.val).gen, 4, h.val, s.rank, 0, 0⟩
      .next ((s.begin_ h op.val).send
        (s.carPacket h g (stackAddr 5 m (Fin.ofNat 16 e.ownerStack) e.region2) data 0))

/-- NORM of an exact sum in units of 2^−298 (spec/11 R288). -/
def normOf (sum : Nat) (nonfinite : Bool) : Nat :=
  if nonfinite then wideNan 6
  else
    let r := roundSqrt (-126) 23 sum (2 ^ 298)
    packWide 6 false r.1 r.2 (wideInf 6 false)

/-- CLIP for a norm and a threshold. -/
def clipOf (norm : Nat) (maxNorm : Word) : Nat :=
  let x := wideVal 6 norm
  match x with
  | .nan => wideNan 6
  | .inf _ => 0
  | _ => if x.le (fp32 maxNorm) then 0x3F800000 else roundWide 6 ((fp32 maxNorm).div x)

/-- The norm record. -/
def normRecord (sum : Nat) (nonfinite : Bool) (maxNorm : Word) (gen : BitVec 16) : List Byte :=
  let norm := normOf sum nonfinite
  leBytes 64 (norm + clipOf norm maxNorm * 2 ^ 32 + bit nonfinite * 2 ^ 64 + gen.toNat * 2 ^ 80)

/-- NORM_PARTIAL: the owner keeps a partial; when all 16 · MCOUNT have arrived it sends the norm record to every stack
of every member. -/
def execNormPartial (p : Packet) (s : State) : Host.Outcome State Fault Refusal :=
  s.carArrive p 4 (fun t g =>
      match t.judge g [kindSumsq] with
      | .take => if (t.opRun g.op).partials.any (fun q => q.1 == 16 * (g.sender - (t.op g.op).mr0) + g.stack) then .behind else .take
      | j => j) fun h _ g data s =>
    let t := s.stack h
    let e := t.op g.op
    let r := t.opRun g.op
    let v := leNat data
    let partials := r.partials ++ [(16 * (g.sender - e.mr0) + g.stack, v % 2 ^ 640, bitOf v 640)]
    let s := s.modStack h fun t => t.setRun g.op { r with partials }
    if partials.length = 16 * e.mcount then
      let sum := partials.foldl (fun a q => a + q.2.1) 0
      let data := normRecord sum (partials.any (·.2.2)) e.maxNorm g.gen
      s.sendAll ((List.range e.mcount).flatMap fun j =>
        match s.rankCoord (e.mr0 + j) with
        | none => []
        | some m => allStacks.map fun d =>
          s.carPacket h ⟨g.op, g.gen, 5, h.val, s.rank, 0, 0⟩ (stackAddr 5 m d e.region2) data 0)
    else s

/-- NORM_RECORD: a member stack writes the record and signals. -/
def execNormRecord (p : Packet) (s : State) : Host.Outcome State Fault Refusal :=
  s.carArrive p 5 (fun t g =>
      match t.judge g [kindSumsq] with
      | .take => if (t.opRun g.op).running then .take else .behind
      | j => j) fun h off g data s => (s.hbmStore h off data).opDone h g.op

/-! ## Collectives (spec/11 R289 to R292) -/

/-- Blocks of 64 bytes from index b recorded as received. -/
def OpRun.take (r : OpRun) (b n : Nat) : OpRun := { r with got := r.got ++ (List.range n).map (b + ·) }

/-- ALLGATHER_START: the local shard goes to every other member and to its own place. -/
def execAllgatherStart (h : StackId) (op : Fin 64) (s : State) : Host.Outcome State Fault Refusal :=
  let t := s.stack h
  let e := t.op op.val
  let r := t.opRun op.val
  let lost := t.lostIn [(e.region, 1024 * e.count)]
  if !s.powered || !t.due op.val kindAllgather then .next s
  else if !lost.isEmpty then .next ((s.begin_ h op.val).loseAll h lost)
  else
    let me := s.rank - e.mr0
    let off := e.region2 + 1024 * e.count * me
    let packets := (List.range e.mcount).flatMap fun j =>
      if j = me then []
      else
        match s.rankCoord (e.mr0 + j) with
        | none => []
        | some m => s.carUnit h ⟨op.val, r.gen, 1, h.val, s.rank, 0, 0⟩ m e.region off e.count
    let s := s.hbmStore h off (Memory.read t.hbm e.region (1024 * e.count))
    let r := { r.take (16 * e.count * me) (16 * e.count) with begun := true }
    let s := (s.modStack h fun t => t.setRun op.val r).sendAll packets
    .next (if r.got.length = 16 * e.count * e.mcount then s.opDone h op.val else s)

/-- A table entry of PERMUTE: destination rank and chunk. -/
def permEntry (m : Mem) (e : OpEntry) (j : Nat) : Nat × Nat :=
  let v := leNat (Memory.read m (e.region3 + 4 * j) 4)
  (bitsOf v 9 0, bitsOf v 31 10)

/-- A CARILLON data packet of this stack's operation and generation is still under way from here, or the notice that refused
one. -/
def State.carUnderWay (s : State) (h : StackId) (i : Nat) (gen : BitVec 16) : Bool :=
  let own (p : Packet) : Bool :=
    p.src == s.stackEnd h && (p.kind == .carillon || p.kind == .refuse) &&
      (let g := CarTag.of (p.data ++ p.kept)
       g.op == i && g.gen == gen && g.subop == 1)
  s.anyPacket own || s.anyWaiting own

/-- Every chunk that a PERMUTE sends stays on this module. -/
def State.permuteHome (s : State) (h : StackId) (i : Nat) : Bool :=
  let t := s.stack h
  let e := t.op i
  (List.range e.count).all fun j => match s.rankCoord (permEntry t.hbm e j).1 with | some m => m == s.coord | none => true

/-- PERMUTE is ready to copy its buffer back: its chunks have landed and those it sent are written: here, as the module sees;
at another module, as `written` says (notes/assumptions/33). -/
def State.permuteReady (s : State) (h : StackId) (i : Nat) (written : Bool) : Bool :=
  let t := s.stack h
  let e := t.op i
  let r := t.opRun i
  r.running && r.begun && r.got.length == 16 * e.unit * e.count && (written || s.permuteHome h i) && !s.carUnderWay h i r.gen

/-- The buffer copied to the region. -/
def State.permuteEnd (s : State) (h : StackId) (i : Nat) : State :=
  let e := (s.stack h).op i
  let n := 1024 * e.unit * e.count
  let lost := (s.stack h).lostIn [(e.region2, n)]
  if !lost.isEmpty then s.loseAll h lost
  else
  (s.hbmStore h e.region (Memory.read (s.stack h).hbm e.region2 n)).opDone h i

/-- PERMUTE_START: every chunk goes to its position in the buffer of its destination; once the buffer is whole and the chunks
are written, the same engine step copies it back. -/
def execPermuteStart (h : StackId) (c : PermuteIn) (s : State) : Host.Outcome State Fault Refusal :=
  let op := c.op
  let t := s.stack h
  let e := t.op op.val
  let r := t.opRun op.val
  let lost := t.lostIn [(e.region, 1024 * e.unit * e.count), (e.region3, 4 * e.count)]
  if !s.powered || e.kind ≠ kindPermute then .next s
  else if t.due op.val kindPermute && !lost.isEmpty then .next ((s.begin_ h op.val).loseAll h lost)
  else if t.due op.val kindPermute then
    let packets := (List.range e.count).flatMap fun j =>
      let d := permEntry t.hbm e j
      match s.rankCoord d.1 with
      | none => []
      | some m => s.carUnit h ⟨op.val, r.gen, 1, h.val, s.rank, 0, 0⟩ m (e.region + 1024 * e.unit * j)
          (e.region2 + 1024 * e.unit * d.2) e.unit
    .next ((s.modStack h fun t => t.setRun op.val { r with begun := true, sent := e.unit * e.count, since := s.beat }).sendAll packets)
  else .next (if s.permuteReady h op.val c.written then s.permuteEnd h op.val else s)

/-- Rank after this module's on the ring of members. -/
def State.ringNext (s : State) (e : OpEntry) : Nat :=
  if s.rank + 1 = e.mr0 + e.mcount then e.mr0 else s.rank + 1

/-- HBM offset of the slot of step k. -/
def OpEntry.slotOff (e : OpEntry) (k : Nat) : Nat := e.region2 + 1024 * e.count * ((k - 1) % e.slots)

/-- PASSROUND_START: the own block goes to the successor as step 1. -/
def execPassroundStart (h : StackId) (op : Fin 64) (s : State) : Host.Outcome State Fault Refusal :=
  let t := s.stack h
  let e := t.op op.val
  let r := t.opRun op.val
  let lost := t.lostIn [(e.region, 1024 * e.count)]
  if !s.powered || !t.due op.val kindPassround then .next s
  else if !lost.isEmpty then .next ((s.begin_ h op.val).loseAll h lost)
  else
    let packets :=
      if e.mcount ≤ 1 then []
      else
        match s.rankCoord (s.ringNext e) with
        | none => []
        | some m => s.carUnit h ⟨op.val, r.gen, 1, h.val, s.rank, 0, 1⟩ m e.region (e.slotOff 1) e.count
    let r := { r with begun := true }
    .next ((s.modStack h fun t => t.setRun op.val (if r.ringDone e then r.finish (s.dev == devKnell) else r)).sendAll packets)

/-- First block index of a data packet within its operation's generation. -/
def OpEntry.dataIndex (e : OpEntry) (off step : Nat) : Nat :=
  if e.kind = kindPassround then 16 * e.count * step + (off - e.slotOff step) / 64 else (off - e.region2) / 64

/-- Step k of a PASSROUND finds its slot free for it: one of the first SLOTS steps, or the step SLOTS before it was released, and
no other step holds the slot (spec/11 R292). -/
def OpRun.slotFor (r : OpRun) (e : OpEntry) (k : Nat) : Bool :=
  (decide (k ≤ e.slots) || r.freed.contains (k - e.slots)) && !(r.slots.any fun p => p.1 == (k - 1) % e.slots && p.2 != k)

/-- A data packet judged: by generation, by its start record, by what has been received, by the slot it needs. -/
def judgeData (off : Nat) (t : Stack) (g : CarTag) : Judge :=
  let e := t.op g.op
  let r := t.opRun g.op
  match t.judge g [kindAllgather, kindPermute, kindPassround] with
  | .take =>
    if !r.running then .behind
    else if r.got.contains (e.dataIndex off g.step) then .behind
    else if e.kind = kindPassround && !(r.slotFor e g.step) then .ahead
    else .take
  | j => j

/-- A step of PASSROUND taken into its slot and forwarded; a step that has landed whole signals. -/
def State.passData (s : State) (h : StackId) (g : CarTag) (off : Nat) (data : List Byte) : State :=
  let t := s.stack h
  let e := t.op g.op
  let r := t.opRun g.op
  let slot := (g.step - 1) % e.slots
  let r := { r.take (e.dataIndex off g.step) (data.length / 64) with slots := addOnce (slot, g.step) r.slots }
  let mine := r.got.filter fun b => b / (16 * e.count) == g.step
  let whole := mine.length == 16 * e.count
  let r := if whole then { r with landed := r.landed ++ [g.step] } else r
  let s := s.modStack h fun t => t.setRun g.op r
  let s :=
    if g.step + 1 < e.mcount then
      match s.rankCoord (s.ringNext e) with
      | none => s
      | some m =>
        let n := 64 * s.carCut m
        let base := off - e.slotOff g.step
        s.sendAll ((cut n 16 data).zipIdx.map fun q =>
          s.carPacket h { g with stack := h.val, sender := s.rank, step := g.step + 1 }
            (stackAddr 5 m h (e.slotOff (g.step + 1) + base + n * q.2)) q.1 (stackAddr 5 s.coord h (off + n * q.2)))
    else s
  if whole then s.carSignal h e else s

/-- CARILLON_DATA: the data of an all-gather, permute or pass-round written as its generation allows. -/
def execCarillonData (p : Packet) (s : State) : Host.Outcome State Fault Refusal :=
  let off := match placeOf p.addr with | some (.hbm _ o) => o | _ => 0
  s.carArrive p 1 (judgeData off) fun h off g data s =>
    let e := (s.stack h).op g.op
    let s := s.hbmStore h off data
    if e.kind = kindPassround then s.passData h g off data
    else
      let s := s.modStack h fun t => t.setRun g.op ((t.opRun g.op).take (e.dataIndex off g.step) (data.length / 64))
      let r := (s.stack h).opRun g.op
      if e.kind = kindAllgather then
        if r.begun && r.got.length == 16 * e.count * e.mcount then s.opDone h g.op else s
      else if s.permuteReady h g.op false then s.permuteEnd h g.op
      else s

end Sys2Proof.Machine
end

