-- ==== Sys2Proof/Machine/Copy.lean ====
section
/-! DEFINITION. The copy engine: CPY, the descriptor checks, CMARK, requests in turn (spec/08 R186 to R206). -/

namespace Sys2Proof.Machine

open Sys2Proof

/-! ## CPY, CMARK -/

/-- CPY: the descriptor block is handed to the copy engine. A replay's first K CPYs are not issued (spec/13 R343). -/
def execCpy (c : CoreId) (k : Ctx) (f : FmtM) (s : State) : Out :=
  let x := s.core c
  let t := x.ctx k
  let a := addrD t f
  let u : Use := { lsR := [(a, 64)] }
  let b := x.block a
  issue s c k (encM 0x30 f) {}
    [(ckIllegal, badA f || badB f || badLen f || badSub f || badFmt f || bitsOf f.flags.toNat 3 2 != 0 || f.flags == 3),
      (ckLs, u.lsFails 64)]
    (decide (16 ≤ x.slots.length + x.cpys.length) || s.rangeHeld c k u ||
      (hdrJudged a && !(s.descBad b) && s.copyHeld c k (Desc.of b))) .seq fun s =>
    if 0 < t.skipCpy then s.modCtx c k fun t => { t with skipCpy := t.skipCpy - 1 }
    else
      s.modCore c fun x =>
        let x := x.tallyCtx k 1 0
        { x with cpys := x.cpys ++
            [⟨k, a, bitOf f.flags.toNat 0, bitOf f.flags.toNat 1, t.pc, s.t, t.marks⟩] }

/-- CMARK: copies of the context issued from here on belong to the next group (spec/08 R204). -/
def execCmark (c : CoreId) (k : Ctx) (f : FmtM) (s : State) : Out :=
  issue s c k (encM 0x31 f) {}
    [(ckIllegal, badD f || badA f || badB f || badLen f || badSub f || badFmt f || badFlags f)] false .seq fun s =>
    s.modCtx c k fun t => { t with marks := t.marks + 1 }

/-- A CPY that comes to nothing is taken out of the counts that a replay suppresses by. -/
def Core.uncountCpy (x : Core) (k : Ctx) : Core :=
  { x with checkpoints := x.checkpoints.map fun ck => { ck with cpys := ck.cpys.set k (ck.cpys.get k - 1) } }

/-- The smallest free slot number. -/
def Core.freeSlot (x : Core) : Nat := ((List.range 16).find? fun i => !(x.slots.any (·.id == i))).getD 16

/-- DESCRIPTOR_READ: the oldest CPY's descriptor is read and checked and takes a slot. -/
def execDescriptorRead (c : CoreId) (s : State) : Out :=
  let x := s.core c
  match x.cpys with
  | [] => .next s
  | q :: rest =>
    if !s.powered || !(decide (x.slots.length < 16)) then .next s
    else
      let s := s.modCore c fun x => { x with cpys := rest }
      if x.lsBad.contains (q.block / 64) then
        .next ((s.modCore c fun x => x.uncountCpy q.ctx).guardFail c q.ctx 1 (q.block / 64))
      else
        let b := x.block q.block
        if s.descBad b then
          .next ((s.modCore c fun x => x.uncountCpy q.ctx).checkStop c q.ctx ckDesc q.pc.toNat)
        else
          .next (s.modCore c fun x => { x with slots := x.slots ++
            [{ id := x.freeSlot, ctx := q.ctx, desc := b, due := q.due, idle := q.idle, issuedT := q.issuedT, group := q.group
               sent := 0, reads := 0, aborted := false, rolling := false, tracked := true }] })

/-! ## Requests (spec/08 R188, R193; spec/10 R241) -/

/-- A request: source address, destination address (of a peal, in the head core's LS), blocks. -/
structure Req where
  src : Nat
  dst : Nat
  blocks : Nat
  deriving DecidableEq, Repr

/-- The requests of n bytes of a row, cut at every 1 KiB boundary of both addresses. -/
def cutRow : (fuel : Nat) → (src dst n : Nat) → List Req
  | 0, _, _, _ => []
  | f + 1, src, dst, n =>
    if n = 0 then []
    else
      let m := min n (min (1024 - src % 1024) (1024 - dst % 1024))
      ⟨src, dst, m / 64⟩ :: cutRow f (src + m) (dst + m) (n - m)

/-- Address of a copy's first destination byte: for a peal, in the LS of the route's head. -/
def State.copyDst (s : State) (d : Desc) : DWord :=
  if d.peal = 0 then d.dst
  else
    match s.route d.peal with
    | some r =>
      match routeCores r with
      | c :: _ => coreAddr 1 s.coord c d.pealOff
      | [] => d.dst
    | none => d.dst

/-- The requests of a copy in address order. -/
def State.requests (s : State) (d : Desc) : List Req :=
  let dst := (s.copyDst d).toNat
  (List.range d.rows).flatMap fun i =>
    cutRow (d.rowBlocks + 1) (d.src.toNat + i * d.sStride) (dst + i * d.dStride) d.rowBytes

/-- Packets of n blocks to an address: one on the same module, cut at 512-byte boundaries otherwise. -/
def packetCount (cross : Bool) (dst blocks : Nat) : Nat := if cross then (dst % 512 + 64 * blocks + 511) / 512 else 1

/-- Source and destination lie on different modules. -/
def crosses (src dst : DWord) : Bool := addrModule src != addrModule dst

/-- Packets of a whole transfer (spec/09 R216). -/
def State.transferCount (s : State) (d : Desc) : Nat :=
  (s.requests d).foldl (fun n r => n + packetCount (crosses d.src (s.copyDst d)) r.dst r.blocks) 0

/-- The READ of request j of a copy. -/
def State.readOf (s : State) (tag : EndPt) (slot : Nat) (desc : BitVec 512) (idle : Bool) (r : Req) (last : Bool) : Packet :=
  let d := Desc.of desc
  { kind := .read, last, peal := d.peal != 0, blocks := r.blocks, route := BitVec.ofNat 10 d.peal
    addr := BitVec.ofNat 64 r.src, addr2 := BitVec.ofNat 64 r.dst, count := s.transferCount d - 1
    tag, slot := BitVec.ofNat 5 slot, src := tag, desc, idle }

/-- Fenced mode holds a copy while one of an earlier group of its context is outstanding, and behind one that stored-data
loss took (spec/08 R204, R208). -/
def State.fenceHeld (s : State) (x : Core) (sl : CopySlot) : Bool :=
  match s.image with
  | some i => i.fenced && (x.slots.any (fun o => o.ctx == sl.ctx && decide (o.group < sl.group)) ||
      match (x.ctx sl.ctx).lostGroup with | some g => decide (g < sl.group) | none => false)
  | none => false

/-- A copy has a request ready. -/
def State.slotReady (s : State) (x : Core) (sl : CopySlot) : Bool :=
  !sl.aborted && decide (sl.sent < (s.requests (Desc.of sl.desc)).length) && !s.fenceHeld x sl

/-- The copy whose turn it is (spec/08 R193, R206), and the slots served in the round before it. -/
def State.turnOf (s : State) (x : Core) : Option (CopySlot × List Nat) :=
  let ready := x.slots.filter fun sl => s.slotReady x sl
  let first := ready.filter fun sl => !sl.idle
  let ready := if first.isEmpty then ready else first
  match ready.find? fun sl => !(x.served.contains sl.id) with
  | some sl => some (sl, x.served)
  | none =>
    match ready with
    | sl :: _ => some (sl, [])
    | [] => none

/-- COPY_REQUEST: one request of the copy whose turn it is goes to its source endpoint. -/
def execCopyRequest (c : CoreId) (s : State) : Out :=
  let x := s.core c
  if !s.powered then .next s
  else
    match s.turnOf x with
    | none => .next s
    | some (sl, served) =>
      let rs := s.requests (Desc.of sl.desc)
      match rs[sl.sent]? with
      | none => .next s
      | some r =>
        let s := s.modCore c fun x =>
          { x with
            slots := x.slots.map fun o => if o.id = sl.id then { o with sent := o.sent + 1 } else o
            served := served ++ [sl.id] }
        .next (s.send (s.readOf (s.coreEnd c) sl.id sl.desc sl.idle r (sl.sent + 1 == rs.length)))

end Sys2Proof.Machine
end

