-- ==== Sys2Proof/Machine/Request.lean ====
section
/-! DEFINITION. Request entries of a base die: classes, the CRC line buffer, the attachment's columns (spec/08 R199, R200;
spec/01 R15 to R17). -/

namespace Sys2Proof.Machine

open Sys2Proof

/-! ## Reads at a source, notices (spec/10 R240, R241, spec/09 R217) -/

/-- An acknowledgement of a transfer (spec/09 R217). -/
def ackOf (p : Packet) (src : EndPt) : Packet := { kind := .ack, tag := p.tag, slot := p.slot, src }

/-- A FAIL notice for a packet: class 0 for a discard, else what its source found. -/
def failOf (p : Packet) (src : EndPt) (cls : Nat) : Packet := { kind := .fail, tag := p.tag, slot := p.slot, src, cls }

/-- The endpoint of a place of this module. -/
def State.placeEnd (s : State) (p : Place) : EndPt :=
  match p with
  | .ls c _ | .af c _ | .stat c _ | .ctr c _ => s.coreEnd c
  | .hbm h _ | .sc h _ => s.stackEnd h

/-- The pieces of a READ's data: offset and length, one packet each (spec/10 R241). -/
def pieceCuts (cross : Bool) (dst : Nat) : (fuel : Nat) → (off n : Nat) → List (Nat × Nat)
  | 0, _, _ => []
  | f + 1, off, n =>
    if n = 0 then []
    else
      let m := if cross then min n (512 - (dst + off) % 512) else n
      (off, m) :: pieceCuts cross dst f (off + m) (n - m)

/-- The WRITE packets that a READ's data leave in; the last is the final write if the READ is the copy's last. -/
def writesOf (p : Packet) (src : EndPt) (data : List Byte) : List Packet :=
  let d := Desc.of p.desc
  let cuts := pieceCuts (crosses p.addr p.addr2) p.addr2.toNat 17 0 data.length
  cuts.zipIdx.map fun c =>
    let last := p.last && c.2 + 1 == cuts.length
    { kind := .write, final := last, peal := p.peal, blocks := c.1.2 / 64, route := p.route
      addr := p.addr2 + BitVec.ofNat 64 c.1.1, addr2 := if last then d.sigAddr else 0
      sigVal := if last then BitVec.ofNat 8 d.sigVal else 0, count := p.count, tag := p.tag, slot := p.slot, src
      data := (data.drop c.1.1).take c.1.2, origin := p.addr + BitVec.ofNat 64 c.1.1, desc := p.desc, idle := p.idle }

/-- A request of a copy was read. The range that the copy reads here stays held until the copy has landed, since a
WRITE of it that is refused reads it again (spec/03 R72, spec/10 R240). -/
def State.noteRead (s : State) (p : Packet) : State :=
  match EndPt.coreOf p.tag with
  | none => s
  | some c =>
    if p.tag.module ≠ s.coord then s
    else
      s.modCore c fun x => { x with slots := x.slots.map fun sl =>
        if sl.id = p.slot.toNat then { sl with reads := sl.reads + 1 } else sl }

/-- A READ served at its source with the data given: its WRITE packets leave. -/
def State.serveRead (s : State) (p : Packet) (pl : Place) (data : List Byte) : State :=
  (s.noteRead p).sendAll (writesOf p (s.placeEnd pl) data)

/-- Offset of a place in its store. -/
def Place.off (p : Place) : Nat := p.split.2

/-- The landing entries of a transfer marked aborted on this module. -/
def State.abortLandings (s : State) (tag : EndPt) (slot : BitVec 5) : State :=
  let mark (l : List Landing) : List Landing :=
    l.map fun e => if e.tag == tag && e.slot == slot then { e with aborted := true } else e
  (s.mapCores fun _ x => { x with landing := mark x.landing }).mapStacks fun _ t => { t with landing := mark t.landing }

/-- A transfer of another module found aborted here, where its notice does not come: its landing entries are marked, and so is
every entry that a later packet of it opens (spec/08 R207, notes/assumptions/121). -/
def State.abortForeign (s : State) (p : Packet) : State :=
  if p.tag.module = s.coord then s
  else { s.abortLandings p.tag p.slot with deadCopies := addOnce (p.tag, p.slot) s.deadCopies }

/-- A FAIL notice for a packet goes out; a transfer that another module issued is marked aborted here at once. -/
def State.sendFail (s : State) (p : Packet) (src : EndPt) (cls : Nat) : State := (s.abortForeign p).send (failOf p src cls)

/-- The data of a request in the line of its kilobyte. -/
def CacheLine.bytes (l : CacheLine) (off n : Nat) : List Byte := (l.data.drop (off % 1024)).take n

/-- A CACHED READ that hits is served from its line at once; it stands in no slot (spec/08 R203). -/
def State.serveLine (s : State) (h : StackId) (l : CacheLine) (p : Packet) (pl : Place) : State :=
  (s.modStack h fun t => { t.touch l with reqPeak := max t.reqPeak (t.reqs.length + 1) }).serveRead p pl (l.bytes pl.off (64 * p.blocks))

/-! ## Request entries (spec/08 R199) -/

/-- Request entries of one class: kept and shared. -/
def Stack.keptUsed (t : Stack) (c : ReqClass) : Nat := t.reqs.countP fun r => r.kept && r.cls == c

/-- Shared entries in use. -/
def Stack.sharedUsed (t : Stack) : Nat := t.reqs.countP fun r => !r.kept

/-- Kept entries of a class. -/
def keptOf (c : ReqClass) : Nat :=
  match c with
  | .host => 16
  | .idle => 0
  | _ => 32

/-- An entry of a class is free: a kept one, else a shared one; a host request takes a shared one only outside RUNNING.
Answers whether it is a kept one. A stack that never came up has none (spec/16 R425). -/
def Stack.entryFor (t : Stack) (running : Bool) (c : ReqClass) : Option Bool :=
  if !t.up then none
  else if t.keptUsed c < keptOf c then some true
  else if t.sharedUsed < 912 && !(c == .host && running) then some false
  else none

/-- The class of a request (spec/08 R200): packets that a port die issued are a host's copy. -/
def State.classOf (s : State) (r : Request) : ReqClass :=
  match r with
  | .host .. => .host
  | .own write _ _ | .region write _ _ => if write then .write else .read
  | .packet p =>
    if p.tag.type = 2 then .host
    else if p.idle then .idle
    else if p.tag.module ≠ s.coord then .remote
    else if p.kind = .read then .read
    else .write

/-- Blocks of the HBM interface a request takes; none for the stack cache. -/
def reqBlocks (r : Request) : Nat :=
  match r with
  | .host _ _ n | .own _ _ n | .region _ _ n => n
  | .packet p => if addrSpace p.addr = 5 then (if p.kind = .carillon then p.blocks - 1 else p.blocks) else 0

/-- The program blocks a request names: the first and their number. -/
def reqSpan (r : Request) : Nat × Nat :=
  match r with
  | .host _ o n | .own _ o n => (o / 64, n)
  | .region .. => (0, 0)
  | .packet p => if addrSpace p.addr = 5 then (bitsOf p.addr.toNat 36 6, reqBlocks r) else (0, 0)

/-- The column of the attachment a request comes by, 0 to 119 (spec/10 R246). -/
def reqColumn (r : Request) : Nat :=
  match r with
  | .host _ o _ | .own _ o _ | .region _ o _ => o / 1024 % 120
  | .packet p => bitsOf p.addr.toNat 36 10 % 120

/-- A request of the request plane. -/
def isReadRequest (r : Request) : Bool :=
  match r with
  | .packet p => p.kind == .read
  | .host write _ _ | .own write _ _ | .region write _ _ => !write

/-- A request that holds an entry already, with the slots still due. -/
def Stack.entryOf (t : Stack) (r : Request) : Option ReqEntry := t.reqs.find? fun e => decide (e.req = r)

/-! ## The CRC line buffer (spec/01 R15, spec/08 R201) -/

/-- Kilobytes that n blocks from a block touch. -/
def lineSpan (first n : Nat) : List Nat := if n = 0 then [] else (List.range ((first + n - 1) / 16 + 1 - first / 16)).map (first / 16 + ·)

/-- CRC lines that a span needs and the buffer does not hold. -/
def Stack.linesDue (t : Stack) (span : Nat × Nat) : List Nat :=
  (lineSpan span.1 span.2).filter fun kb => !(t.crcLines.any fun l => l.1 == kb)

/-- The blocks of a span were read or written: a line all of whose 16 blocks were is given up. -/
def Stack.lineUse (t : Stack) (span : Nat × Nat) : Stack :=
  let here (kb b : Nat) : Bool := b / 16 == kb
  let blocks := (List.range span.2).map (span.1 + ·)
  let used := t.crcLines.map fun l => (l.1, (blocks.filter (here l.1)).foldl (fun d b => addOnce b d) l.2)
  { t with crcLines := used.filter fun l => decide (l.2.length < 16) }

/-- A request takes an entry, for `blocks` blocks from the interface out of a span of program blocks; each CRC line that is
not held is fetched for it and takes a slot of its own. -/
def Stack.takeEntry (t : Stack) (cls : ReqClass) (kept : Bool) (r : Request) (blocks : Nat) (span : Nat × Nat) : Stack :=
  let due := t.linesDue span
  let reqs := t.reqs ++ [⟨cls, kept, r, blocks + due.length, span.1, span.2⟩]
  { t with reqs, reqPeak := max t.reqPeak reqs.length, crcLines := t.crcLines ++ due.map fun kb => (kb, []) }

/-- Where a request stands: its stack, and the HBM kilobyte of a CACHED read of HBM. -/
def State.requestPlace (s : State) (r : Request) : Option (Place × Option Nat) :=
  match r with
  | .packet p =>
    if addrModule p.addr ≠ s.coord then none
    else
      match placeOf p.addr with
      | some (.hbm h o) =>
        some (.hbm h o, if p.kind = .read ∧ (Desc.of p.desc).cached ∧ s.scUnits ≠ 0 then some (o / 1024) else none)
      | some (.sc h o) => some (.sc h o, none)
      | _ => none
  | _ => none

/-- A fill of a kilobyte that a request may join (spec/09 R234). -/
def Stack.openFill (t : Stack) (kb : Nat) : Bool := t.fills.any fun f => f.kb == kb && !f.dirty

/-- A packet joins the fill of its kilobyte, or begins one. -/
def Stack.joinFill (t : Stack) (kb : Nat) (p : Packet) : Stack :=
  if t.openFill kb then
    { t with fills := t.fills.map fun f => if f.kb = kb ∧ !f.dirty then { f with waiting := f.waiting ++ [p] } else f }
  else { t with fills := t.fills ++ [⟨kb, false, [p]⟩] }

/-- A CACHED request that misses takes an entry: it joins a fill of its kilobyte, or begins one of 16 blocks. -/
def Stack.missEntry (t : Stack) (cls : ReqClass) (kept : Bool) (p : Packet) (kb : Nat) : Stack :=
  (if t.openFill kb then t.takeEntry cls kept (.packet p) 0 (0, 0) else t.takeEntry cls kept (.packet p) 16 (16 * kb, 16)).joinFill kb p

/-- A waiting request takes an entry; a CACHED one that misses joins or begins a fill (spec/08 R203). -/
def Stack.letOne (t : Stack) (kb : Option Nat) (cls : ReqClass) (kept : Bool) (r : Request) : Stack :=
  match r, kb with
  | .packet p, some kb => t.missEntry cls kept p kb
  | _, _ => t.takeEntry cls kept r (reqBlocks r) (reqSpan r)

/-- The line that a request hits. -/
def Stack.hit (t : Stack) (at_ : Option (Place × Option Nat)) : Option (Place × CacheLine) :=
  at_.bind fun v => v.2.bind fun kb => (t.line kb).map fun l => (v.1, l)

/-! ## The attachment (spec/08 R199) -/

/-- A request stands first in its column: a READ behind no other READ of the column, anything else at once. -/
def firstInColumn (before : List Request) (r : Request) : Bool :=
  !(isReadRequest r && before.any fun q => isReadRequest q && reqColumn q == reqColumn r)

/-- Requests of the attachment that may be taken, in order of waiting. -/
def columnHeads : (before todo : List Request) → List Request
  | _, [] => []
  | before, r :: rest => (if firstInColumn before r then [r] else []) ++ columnHeads (before ++ [r]) rest

/-- The waiting request whose turn it is: that of the next column in turn that finds an entry of its class, and whether it is
a kept one. -/
def State.nextIn (s : State) (h : StackId) : Option (Request × Bool) :=
  let t := s.stack h
  let heads := (columnHeads [] t.waiting).mergeSort fun a b =>
    decide ((reqColumn a + 120 - t.turn) % 120 ≤ (reqColumn b + 120 - t.turn) % 120)
  heads.findSome? fun r => (t.entryFor (s.dev = devRunning) (s.classOf r)).map fun kept => (r, kept)

/-- A request of the attachment gets its entry: a CACHED one that hits is served from its line at once. -/
def State.letReq (s : State) (h : StackId) (r : Request) (kept : Bool) : State :=
  let s := s.modStack h fun t => { t with waiting := removeOne r t.waiting, turn := (reqColumn r + 1) % 120 }
  match r, (s.stack h).hit (s.requestPlace r) with
  | .packet p, some (pl, l) => s.serveLine h l p pl
  | _, _ => s.modStack h fun t => t.letOne ((s.requestPlace r).bind Prod.snd) (s.classOf r) kept r

/-- Requests waiting in the attachment take entries, its columns in turn, as long as one finds an entry; at most `fuel`. -/
def State.letIn (s : State) (h : StackId) : (fuel : Nat) → State
  | 0 => s
  | f + 1 =>
    match s.nextIn h with
    | none => s
    | some (r, kept) => State.letIn (s.letReq h r kept) h f

/-! ## Beat records of cores with nothing of their own (spec/13 R336, R337) -/

/-- A mebibyte. -/
def mib : Nat := 1048576

/-- Beat slots. -/
def beatSlots : Nat := 16

/-- Cores of a slab. -/
def slabCores : Nat := 19200

/-- Offset of the beat record of core i in a beat slot. -/
def recordAt (slot i : Nat) : Nat := slot * (75 * mib) + i * 4096

/-- The request that writes the header of a core's record. -/
def headerWrite (slot i : Nat) : Request := .region true (recordAt slot i) 1

/-- Indices of a slab from i on but for those listed; at most `fuel` are looked at. -/
def slabRest (skip : List Nat) : (fuel i : Nat) → List Nat
  | 0, _ => []
  | f + 1, i =>
    if slabCores ≤ i then [] else if skip.contains i then slabRest skip f (i + 1) else i :: slabRest skip f (i + 1)

/-- The next n cores of a run, by index. -/
def RecordRun.first (r : RecordRun) (n : Nat) : List Nat := (slabRest r.skip (n + r.skip.length) r.next).take n

/-- A run once the cores given have their entries. -/
def RecordRun.past (r : RecordRun) (is : List Nat) : RecordRun := { r with next := (is.getLast?.map (· + 1)).getD r.next }

/-- The first n records of the runs, and the runs that are left. -/
def takeRecords : (n : Nat) → List RecordRun → List Request × List RecordRun
  | _, [] => ([], [])
  | n, r :: rest =>
    let is := r.first n
    let left := r.past is
    let more := takeRecords (n - is.length) rest
    (is.map (headerWrite r.slot) ++ more.1, (if (left.first 1).isEmpty then [] else [left]) ++ more.2)

/-- Kept entries of the write class, and entries of it in all, that are free. -/
def Stack.keptFree (t : Stack) : Nat := keptOf .write - t.keptUsed .write
def Stack.writeFree (t : Stack) : Nat := t.keptFree + (912 - t.sharedUsed)

/-- Records of cores with nothing of their own take the entries of the write class that no waiting request can take, the kept
ones first. -/
def Stack.letRecords (t : Stack) : Stack :=
  let got := takeRecords t.writeFree t.unlisted
  let reqs := t.reqs ++ got.1.zipIdx.map fun r => ⟨.write, decide (r.2 < t.keptFree), r.1, 1, 0, 0⟩
  { t with reqs, reqPeak := max t.reqPeak reqs.length, unlisted := got.2 }

/-- The same, of a stack of the state. -/
def State.letRecords (s : State) (h : StackId) : State := s.modStack h Stack.letRecords

/-- A request is done: its entry is free, and a waiting request may take it. -/
def State.freeEntry (s : State) (h : StackId) (r : Request) : State :=
  let s := s.modStack h fun t =>
    match t.entryOf r with
    | some e => { t with reqs := removeOne e t.reqs }
    | none => t
  (s.letIn h (s.stack h).waiting.length).letRecords h

/-- A request of no packet reaches its base die: it takes an entry of its class, or waits in the attachment. A stack that never
came up is asked for nothing (spec/16 R425). -/
def State.offer (s : State) (h : StackId) (r : Request) : State :=
  let t := s.stack h
  if !t.up then s
  else
    match if firstInColumn t.waiting r then t.entryFor (s.dev = devRunning) (s.classOf r) else none with
    | none => s.modStack h fun t => { t with waiting := t.waiting ++ [r] }
    | some kept => s.modStack h fun t => t.takeEntry (s.classOf r) kept r (reqBlocks r) (reqSpan r)

end Sys2Proof.Machine
end

