-- ==== Sys2Proof/Machine/Region.lean ====
section
/-! DEFINITION. The module region of a stack, space 0xF: what stands at each of its offsets (spec/01 R13, R14; spec/13
R336, R337, R353; spec/17 R444). The region is kept as the records that the journal, the trace and Carillon hold; this
file lays them out. Inside the overflow area and the firmware areas of stacks 1 to 15 the layout is the model's (DESIGN CHOICE,
notes/assumptions/148). -/

namespace Sys2Proof.Machine

open Sys2Proof

/-! ## The roll journal area (spec/13 R337) -/

/-- Offset of the entry saves of core i in a stroke slot. -/
def savesAt (slot i : Nat) : Nat := 0x4B000000 + (slot * 19200 + i) * 4096

/-- Offset of the program copy of core i. -/
def programAt (i : Nat) : Nat := 0x59100000 + i * 8192

/-- Offset of the shadow record of core i. -/
def shadowAt (i : Nat) : Nat := 0x62700000 + i * 1024

/-- The 32 bytes of a landing entry (spec/13 R336). -/
def LandEntry.toBytes (e : LandEntry) : List Byte :=
  leBytes 32 (e.src.toNat + e.dstOff % 2 ^ 17 * 2 ^ 64 + e.rowBlocks.toNat * 2 ^ 96 + e.rows.toNat * 2 ^ 106 +
    e.srcStride.toNat * 2 ^ 128 + e.dstStride.toNat * 2 ^ 160 + (EndPt.code e.issuer).toNat * 2 ^ 192 + bit e.peal * 2 ^ 223 +
    e.beatLo.toNat * 2 ^ 224)

/-- The 64-byte header of a beat record. -/
def BeatRec.header (r : BeatRec) : List Byte :=
  leBytes 64 (r.beat % 2 ^ 64 + r.t % 2 ^ 64 * 2 ^ 64 + bit r.rest * 2 ^ 128 + bit r.isSealed * 2 ^ 129 + bit r.logFull * 2 ^ 130 +
    r.entries.length * 2 ^ 131)

/-- The bytes of a beat record: its header and its landing entries. -/
def BeatRec.toBytes (r : BeatRec) : List Byte := r.header ++ r.entries.flatMap LandEntry.toBytes

/-- Blocks of a beat record that are written. -/
def BeatRec.blocks (r : BeatRec) : Nat := (64 + 32 * r.entries.length + 63) / 64

/-- The beat record of a core in a slot: its own, or that of a core that nothing landed in, whose header the beat alone
gives. -/
def State.recordIn (s : State) (x : Core) (slot : Nat) : Option BeatRec :=
  match x.records.find? fun p => p.1 == slot with
  | some p => some p.2
  | none => (s.beatLog.find? fun b => b.1 % beatSlots == slot).map fun b => ⟨b.1, b.2.1, b.2.2.1, b.2.2.2, false, []⟩

/-- The bytes of a shadow record: core, context, N, dither state and signature in the header; an instruction and its A, B
and D addresses in each entry. The order within the header and the places of the addresses are the model's (DESIGN CHOICE,
notes/assumptions/148). -/
def ShadowRec.toBytes (c : CoreId) (r : ShadowRec) : List Byte :=
  leBytes 64 (c.x.val + c.y.val * 2 ^ 10 + r.ctx.val * 2 ^ 19 + r.n % 2 ^ 64 * 2 ^ 64 + r.dither.toNat * 2 ^ 128 +
      r.signature.toNat * 2 ^ 192) ++
    r.steps.flatMap fun st =>
      leBytes 16 (st.word.toNat + st.a % 2 ^ 17 * 2 ^ 64 + st.b % 2 ^ 17 * 2 ^ 81 + st.d % 2 ^ 17 * 2 ^ 98)

/-- The newest save of an entry in a stroke slot. -/
def Core.saveAt (x : Core) (slot e : Nat) : Option EntrySave :=
  (x.saves.filter fun v => v.n % 3 == slot && v.entry == e).foldl
    (fun a v => match a with | some w => if w.n ≤ v.n then some v else a | none => some v) none

/-- The entry saves of a core in a stroke slot: entry e at 8 · e, of the newest stroke that saved it (notes/assumptions/148). -/
def Core.savesIn (x : Core) (slot : Nat) : List Byte :=
  (List.range 512).flatMap fun e => match x.saveAt slot e with | some v => v.bytes | none => List.replicate 8 0

/-- The program copy of a core. -/
def Core.programBytes (x : Core) : List Byte := (List.range 1024).flatMap fun i => leBytes 8 (Sparse.look 0 x.program i).toNat

/-- The core of slab h with an index (spec/13 R337). -/
def coreOfSlab (h : StackId) (i : Nat) : Option CoreId := coreAt (h.val % 8 * 120 + i % 120) (h.val / 8 * 160 + i / 120)

/-- A byte of a list at an offset; 0 past its end. -/
def byteIn (bs : List Byte) (i : Nat) : Byte := bs.getD i 0

/-- Where an image is staged: the part of the area that has no other use, and its size (spec/16 R429). -/
def imageStageArea : Nat := 0x639C0000
def imageStageSize : Nat := 0x80000000 - imageStageArea

/-- One byte of the roll journal area of stack h. -/
def State.journalByte (s : State) (h : StackId) (o : Nat) : Byte :=
  let at_ (i : Nat) (f : CoreId → List Byte) (b : Nat) : Byte := match coreOfSlab h i with | some c => byteIn (f c) b | none => 0
  if o < 0x4B000000 then
    let slot := o / (75 * mib)
    let r := o % (75 * mib)
    at_ (r / 4096) (fun c => match s.recordIn (s.core c) slot with | some v => v.toBytes | none => []) (r % 4096)
  else if o < 0x59100000 then
    let r := (o - 0x4B000000) / 4096
    at_ (r % 19200) (fun c => (s.core c).savesIn (r / 19200)) ((o - 0x4B000000) % 4096)
  else if o < 0x62700000 then at_ ((o - 0x59100000) / 8192) (fun c => (s.core c).programBytes) ((o - 0x59100000) % 8192)
  else if o < imageStageArea then
    at_ ((o - 0x62700000) / 1024) (fun c => match (s.core c).shadowLog with | some r => r.toBytes c | none => []) ((o - 0x62700000) % 1024)
  else byteIn s.imageStage (h.val * imageStageSize + (o - imageStageArea))

/-! ## The other areas (spec/01 R14) -/

/-- Offset of the trace area in the module region (spec/01 R14). -/
def traceArea : Nat := 0x180000000

/-- Records of a stack's buffer. -/
def traceMax : Nat := 67108864

/-- One byte of the trace area: record j at 16 · j, from the ring's head on and round again (notes/assumptions/148: DESIGN CHOICE). -/
def TraceBuf.byteAt (b : TraceBuf) (o : Nat) : Byte :=
  let j := (o / 16 + traceMax - b.head) % traceMax
  match b.records[j]? with
  | some r => byteIn (leBytes 16 r.toNat) (o % 16)
  | none => 0

/-- The firmware that runs, of which the firmware area of stack 0 holds the working copy. -/
def State.runningFirmware (s : State) : List Byte :=
  ((if s.control.runningSlot then s.record.slot1 else s.record.slot0).getD Config.shippedFirmware)

/-- The first byte of each area. -/
def overflowArea : Nat := 0x80000000
def firmwareArea : Nat := 0x1C0000000
def regionSize : Nat := 0x200000000

/-- The pieces of a rank in order, 1 KiB; 0 where a piece has not come. -/
def rankArea (ps : List Piece) (rank : Nat) : List Byte :=
  (List.range 16).flatMap fun j =>
    match ps.find? fun p => p.rank == rank && p.index == j with
    | some p => p.data
    | none => List.replicate 64 0

/-- A sum of n KiB. -/
def sumArea (n : Nat) (sum : List Word) : List Byte :=
  let bs := sum.flatMap fun w => leBytes 4 w.toNat
  bs ++ List.replicate (1024 * n - bs.length) 0

/-- What a REDUCE block keeps in the overflow area: its sum, the area of its next rank, its staged ranks (spec/11 R281, R282). -/
def RBlock.spilled (v : RBlock) (e : OpEntry) : List Byte :=
  if v.state = .filling then
    (if v.sumSpill then sumArea e.sumKib v.sum else []) ++ (if v.keptSpill then rankArea v.pieces v.next else []) ++
      (v.staged.filter (·.2)).flatMap fun p => rankArea v.pieces p.1
  else []

/-- What the staging of dual copies keeps there: the sum that is not formed yet, then its ranks as they came (spec/11 R286). -/
def DualStage.spilled (d : DualStage) : List Byte :=
  let ranks := (d.pieces.map (·.rank)).eraseDups
  d.held.zipIdx.flatMap fun p =>
    if p.1.2 then (if p.2 = 0 then sumArea p.1.1 [] else rankArea d.pieces (ranks.getD (p.2 - 1) 0)) else []

/-- The bytes of a stack's overflow area, packed in the order of its blocks and of its dual copies. -/
def Stack.overflow (t : Stack) : List Byte :=
  (t.car.blocks.flatMap fun b => b.2.spilled (t.op (b.1 / 2 ^ 32))) ++ t.car.duals.flatMap DualStage.spilled

/-- The key of core i of slab h, in slab-local order. -/
def slabKey (h i : Nat) : Nat := (160 * (h / 8) + i / 120) * 960 + 120 * (h % 8) + i % 120

/-- A byte of the per-core words of a capture: 192 bytes for each core of the slab, as in a snapshot (spec/17 R441). -/
def Capture.byteOf (v : Capture) (h o : Nat) : Byte :=
  byteIn (leBytes 4 (Sparse.look 0 v.cores (slabKey h (o / 192) * 64 + 16 + o % 192 / 4)).toNat) (o % 4)

/-- A byte of the wait-register dump: 16 bytes for each context of each core: WAITING, counter, VALUE, start beat. -/
def Trace.waitByte (t : Trace) (h o : Nat) : Byte :=
  match t.waits.find? fun w => w.1 == 4 * slabKey h (o / 64) + o % 64 / 16 with
  | some w => byteIn (leBytes 16 (1 + w.2.1.toNat * 2 + w.2.2.1.toNat * 2 ^ 16 + w.2.2.2 * 2 ^ 64)) (o % 16)
  | none => 0

/-- Bytes that the per-core words of a slab take. -/
def slabWords : Nat := 19200 * 192

/-- A byte of the firmware area of stacks 1 to 15: the last snapshot's words, those of the last boundary snapshot, the wait
registers as the last sweep read them (spec/01 R14). -/
def State.dumpByte (s : State) (h o : Nat) : Byte :=
  if o < slabWords then s.capture.byteOf h o
  else if 0x10000000 ≤ o ∧ o < 0x10000000 + slabWords then s.boundary.byteOf h (o - 0x10000000)
  else if 0x20000000 ≤ o ∧ o < 0x20000000 + 19200 * 64 then s.trace.waitByte h (o - 0x20000000)
  else 0

/-- One byte of the module region of stack h (spec/01 R14); in the firmware area of stack 0 the working copy begins at the first byte
and 0 follows it (notes/assumptions/148: DESIGN CHOICE). -/
def State.regionByte (s : State) (h : StackId) (o : Nat) : Option Byte :=
  if o < overflowArea then some (s.journalByte h o)
  else if o < traceArea then some (byteIn (s.stack h).overflow (o - overflowArea))
  else if o < firmwareArea then some ((s.stack h).trace.byteAt (o - traceArea))
  else if o < regionSize then
    some (if h.val = 0 then byteIn s.runningFirmware (o - firmwareArea) else s.dumpByte h.val (o - firmwareArea))
  else none

/-! ## Writing the journal (spec/13 R336, spec/08 R200) -/

/-- The requests that commit what a core journalled in a beat: its record, the entry saves of the strokes, its shadow record. -/
def Core.journalRequests (x : Core) (i beat : Nat) : List Request :=
  ((x.records.find? fun p => p.2.beat == beat).toList.map fun p => .region true (recordAt (beat % beatSlots) i) p.2.blocks) ++
  ((x.saves.map fun v => v.n % 3).eraseDups.map fun slot => .region true (savesAt slot i) 64) ++
  (match x.shadowLog with
    | some r => if r.beat = beat then [.region true (shadowAt i) ((64 + 16 * r.steps.length + 63) / 64)] else []
    | none => [])

/-- The journal writes of the listed cores reach the base dies beside their slabs. -/
def State.ownWrites (s : State) : State :=
  s.cores.foldl (fun s p =>
    match coreOfKey p.1 with
    | none => s
    | some c =>
      match stackAt (slabOf c) with
      | none => s
      | some h => (p.2.journalRequests (slabIndex c) s.beat).foldl (fun s r => s.offer h r) s) s

/-- The cores of a slab that have a record of their own in hand, by index. -/
def State.listedIn (s : State) (h : StackId) : List Nat :=
  s.cores.filterMap fun p => (coreOfKey p.1).bind fun c => if slabOf c = h.val then some (slabIndex c) else none

/-- The journal writes of a beat: those of the listed cores, and the record of every other core of the slab of each stack
that is up (spec/13 R336; notes/assumptions/192: DESIGN CHOICE of their order). -/
def State.journalWrites (s : State) : State :=
  allStacks.foldl (fun u h =>
    if (s.stack h).up then
      (u.modStack h fun t => { t with unlisted := t.unlisted ++ [⟨s.beat % beatSlots, 0, s.listedIn h⟩] }).letRecords h
    else u) s.ownWrites

end Sys2Proof.Machine
end

