-- ==== Sys2Proof/Machine/Optimizer.lean ====
section
/-! DEFINITION. Carillon's optimizer (spec/11 R293 to R297). -/

namespace Sys2Proof.Machine

open Sys2Proof

/-- The nine values of a step record and the offset of the norm record (spec/11 R294). -/
structure OptStep where
  lr : FVal
  b1 : FVal
  c1 : FVal
  b2 : FVal
  c2 : FVal
  bc1 : FVal
  bc2 : FVal
  eps : FVal
  wd : FVal
  normRec : Nat
  deriving DecidableEq, Repr

/-- The fields of a step record. -/
def OptStep.of (m : Mem) (a : Nat) : OptStep :=
  let f (j : Nat) : FVal := fp32 (Memory.word m (a + 4 * j))
  { lr := f 0, b1 := f 1, c1 := f 2, b2 := f 3, c2 := f 4, bc1 := f 5, bc2 := f 6, eps := f 7, wd := f 8
    normRec := bitsOf (leNat (Memory.read m a 64)) 324 288 }

/-- Exact product of two values. -/
def timesX (x y : FVal) : FVal := (x.mul y).toF

/-- Exact sum of two values. -/
def plusX (x y : FVal) : FVal := (x.add y).toF

/-- 2^k as a value. -/
def pow2 (k : Int) : FVal := .fin false 1 k

/-- Element i of a limb pair, decoded exactly: COARSE · 2^e · (256 · hi + lo). -/
def Tensor.limbAt (t : Tensor) (m : Mem) (i : Nat) : FVal :=
  let hi := (Memory.byte m (t.data + i)).toInt
  let lo := (Memory.byte m (t.data + t.limbRun + i)).toInt
  let q := 256 * hi + lo
  timesX (fp32 t.coarse) (.fin (decide (q < 0)) q.natAbs (scaleVal (scaleAt m t.scales (i / 32))))

/-- The six tensors and flags of a record. -/
structure OptRecord where
  at_ : Nat
  grad : Tensor
  master : Tensor
  mom1 : Tensor
  mom2 : Tensor
  workK : Tensor
  workN : Tensor
  decay : Bool
  deriving DecidableEq, Repr

/-- The record at an offset. -/
def OptRecord.of (m : Mem) (a : Nat) : OptRecord :=
  { at_ := a, grad := tensorAt m a 0, master := tensorAt m a 1, mom1 := tensorAt m a 2, mom2 := tensorAt m a 3
    workK := tensorAt m a 4, workN := tensorAt m a 5, decay := (recordBits m a).2 }

/-- New m, v and w of element i in ORDER 0 (spec/11 R295). -/
def optElem (m : Mem) (p : OptStep) (clip : FVal) (r : OptRecord) (i : Nat) : FVal × FVal × FVal :=
  let g := rn ((r.grad.wideAt m i).mul clip)
  let m1 := rn ((timesX p.b1 (r.mom1.limbAt m i)).add (timesX p.c1 g))
  let v := rn ((timesX p.b2 (r.mom2.limbAt m i)).add (timesX (timesX p.c2 g) g))
  let mh := rn (m1.mul p.bc1)
  let vh := rn (v.mul p.bc2)
  let q := wideVal 6 (rsqrtWide 6 (rn (vh.add p.eps)))
  let u := rn (mh.mul q)
  let w0 := r.master.wideAt m i
  let step := if r.decay then plusX u (timesX p.wd w0) else u
  (m1, v, rn (w0.sub (timesX p.lr step)))

/-- The smallest k with a ≤ 2^k · 2^7 · 32,639 for the largest finite magnitude a = n / d, clamped; none for a = 0. -/
def coarseExp (n d : Nat) : Option Int :=
  if n = 0 then none
  else
    let c := 128 * 32639
    let k := floorLog2 n (d * c)
    let q := scaleQuot c 1 k
    let k := if n * q.2 ≤ q.1 * d then k else k + 1
    some (max (-126) (min 127 k))

/-- COARSE after the step: the word and its value. -/
def newCoarse (old : Word) (xs : List FVal) : Word :=
  let a := maxMag (xs.map FVal.exact)
  match coarseExp a.1 a.2 with
  | none => old
  | some k => BitVec.ofNat 32 ((k + 127).toNat * 2 ^ 23)

/-- The values of a list cut into blocks of 32. -/
def blocks32 (xs : List FVal) : List (List FVal) :=
  (List.range (xs.length / 32)).map fun j => (xs.drop (32 * j)).take 32

/-- A run of blocks as limb pairs: hi codes, lo codes, scales, saturated elements. -/
def limbBlocks (coarse : FVal) (xs : List FVal) : List Nat × List Nat × List Nat × Nat :=
  let out := (blocks32 xs).map fun b =>
    let ys := b.map fun x => x.div coarse
    let a := maxMag ys
    let e := chooseScale 32639 a.1 a.2
    (ys.map fun y => limbSplit e .nearest y, scaleCode e)
  let qs := out.flatMap (·.1)
  (qs.map (·.1), qs.map (·.2.1), out.map (·.2), qs.countP (·.2.2))

/-- A run of blocks in an element format: codes, scales, saturated elements. -/
def elemBlocks (fmt : BitVec 4) (coarse : FVal) (xs : List FVal) : List Nat × List Nat × Nat :=
  let out := (blocks32 xs).map fun b =>
    let ys := b.map fun x => x.div coarse
    let a := maxMag ys
    let e := chooseScale (maxF fmt) a.1 a.2
    (ys.map fun y => encodeElem fmt e .nearest y, scaleCode e)
  let qs := out.flatMap (·.1)
  (qs.map (·.code), out.map (·.2), qs.countP (·.sat))

/-- What sweep 2 writes for a record: writes by offset, saturated elements, non-finite results (spec/11 R296). -/
structure OptWrites where
  writes : List (Nat × List Byte)
  sat : Nat
  bad : Nat
  deriving DecidableEq, Repr

/-- Both sweeps over one record. -/
def optRecord (m : Mem) (p : OptStep) (clip : FVal) (r : OptRecord) : OptWrites :=
  let n := r.master.size
  let es := (List.range n).map (optElem m p clip r)
  let ms := es.map (·.1)
  let vs := es.map (·.2.1)
  let ws := es.map (·.2.2)
  let c1 := newCoarse r.mom1.coarse ms
  let c2 := newCoarse r.mom2.coarse vs
  let m1 := limbBlocks (fp32 c1) ms
  let m2 := limbBlocks (fp32 c2) vs
  let k := elemBlocks r.workK.fmt (fp32 r.workK.coarse) ws
  -- element (b along N, o along K) of WORKN is element (b' along K, o' along N) of ORDER 0
  let wn := (List.range n).map fun i =>
    let b := i / 32 / r.workN.dimO * 32 + i % 32
    let o := i / 32 % r.workN.dimO
    ws.getD (r.master.index o b) .nan
  let q := elemBlocks r.workN.fmt (fp32 r.workN.coarse) wn
  { writes :=
      [(r.master.data, packBytes 32 (ws.map fun w => roundWide 6 w.exact)),
        (r.mom1.data, packBytes 8 m1.1), (r.mom1.data + r.mom1.limbRun, packBytes 8 m1.2.1), (r.mom1.scales, packBytes 4 m1.2.2.1),
        (r.mom2.data, packBytes 8 m2.1), (r.mom2.data + r.mom2.limbRun, packBytes 8 m2.2.1), (r.mom2.scales, packBytes 4 m2.2.2.1),
        (r.at_ + 64, leBytes 4 c1.toNat), (r.at_ + 96, leBytes 4 c2.toNat),
        (r.workK.data, packBytes (elemWidth r.workK.fmt) k.1), (r.workK.scales, packBytes 4 k.2.1),
        (r.workN.data, packBytes (elemWidth r.workN.fmt) q.1), (r.workN.scales, packBytes 4 q.2.1)]
    sat := m1.2.2.2 + m2.2.2.2 + k.2.2 + q.2.2
    bad := (ms ++ vs ++ ws).countP fun x => !x.isFinite }

/-- One unfrozen record updated in the stack. -/
def State.optimizeRecord (s : State) (h : StackId) (p : OptStep) (clip : FVal) (a : Nat) : State :=
  let m := (s.stack h).hbm
  if (recordBits m a).1 then s
  else
    let o := optRecord m p clip (OptRecord.of m a)
    let s := o.writes.foldl (fun s w => s.hbmStore h w.1 w.2) s
    let s := if o.sat = 0 then s else s.countStack h 9 o.sat
    if o.bad = 0 then s else s.countStack h 10 o.bad

/-- OPTIMIZE_START: a skipped step when the norm is marked NONFINITE, else two sweeps over every unfrozen record. A block that
fails every read ends the job where the step reads it: the step and norm records first, then the list with GRAD, MASTER,
MOM1 and MOM2 of the unfrozen records; WORKK and WORKN are only written (spec/11 R295). -/
def execOptimizeStart (h : StackId) (op : Fin 64) (s : State) : Host.Outcome State Fault Refusal :=
  let t := s.stack h
  let e := t.op op.val
  let p := OptStep.of t.hbm e.region2
  let step := t.lostIn [(e.region2, 64)]
  let heads := if step.isEmpty then t.lostIn [(p.normRec, 64)] else step
  let lost := t.lostIn (recordRanges t.hbm e.region e.count (List.range 4))
  if !s.powered || !t.due op.val kindOptimize then .next s
  else if !heads.isEmpty then .next ((s.begin_ h op.val).loseAll h heads)
  else
    let rec_ := leNat (Memory.read t.hbm p.normRec 64)
    if bitOf rec_ 64 then .next ((s.countStack h 11 1).opDone h op.val)
    else if !lost.isEmpty then .next ((s.begin_ h op.val).loseAll h lost)
    else
      let clip := fp32 (BitVec.ofNat 32 (bitsOf rec_ 63 32))
      .next (((List.range e.count).foldl (fun s j => s.optimizeRecord h p clip (e.region + 256 * j)) s).opDone h op.val)

end Sys2Proof.Machine
end

