-- ==== Sys2Proof/Machine/Landing.lean ====
section
/-! DEFINITION. Transfers between endpoints: reads at the source, landings, peals, signals and notices
(spec/09 R216 to R222, spec/10 R238 to R241, spec/08 R196, R197, R207), and block repair (spec/13 R342). -/

namespace Sys2Proof.Machine

open Sys2Proof

/-! ## Block repair (spec/13 R342) -/

/-- A landing entry covers a block. -/
def LandEntry.covers (e : LandEntry) (b : Nat) : Bool :=
  (List.range (e.rows.toNat + 1)).any fun i =>
    let a := e.dstOff + (if e.rows = 0 then 0 else i * e.dstStride.toNat)
    decide (a ≤ 64 * b) && decide (64 * b < a + 64 * (e.rowBlocks.toNat + 1))

/-- The newest covering entry of a log, when there is one. -/
def newestIn (es : List LandEntry) (b : Nat) : Option LandEntry := es.reverse.find? fun e => e.covers b

/-- The beat records of the core, newest first, the open one included. -/
def Core.recordsNewest (x : Core) : List (Bool × List LandEntry) :=
  let rs := x.records.map Prod.snd
  let sorted := rs.mergeSort fun a b => decide (b.beat ≤ a.beat)
  (x.logFull, x.landLog) :: sorted.map fun r => (r.logFull, r.entries)

/-- The newest landing that covers a block; none if it may be missing: no entry covers it, or LOG_FULL is set in its
record or a later one. -/
def findLanding (b : Nat) : List (Bool × List LandEntry) → Option LandEntry
  | [] => none
  | (full, es) :: rest => if full then none else (newestIn es b).orElse fun _ => findLanding b rest

/-- The descriptor of a repair copy: the whole landing entry, into this core's LS, with no signal. -/
def LandEntry.repairDesc (e : LandEntry) (m : BitVec 10) (c : CoreId) : BitVec 512 :=
  BitVec.ofNat 512 (e.src.toNat + (coreAddr 1 m c e.dstOff).toNat * 2 ^ 64 + e.rowBlocks.toNat * 2 ^ 128 +
    e.rows.toNat * 2 ^ 144 + e.srcStride.toNat * 2 ^ 160 + e.dstStride.toNat * 2 ^ 192)

/-- A slot number of a repair copy: 16 to 30, not in use (notes/assumptions/34). -/
def State.repairSlot (s : State) (c : CoreId) : Nat :=
  let tag := s.coreEnd c
  let used (i : Nat) : Bool :=
    (s.core c).repairs.any (·.1 == i) || s.inFlight.any (fun p => p.tag == tag && p.slot.toNat == i) || (s.core c).landing.any fun l => l.tag == tag && l.slot.toNat == i
  (((List.range 15).map (16 + ·)).find? fun i => !(used i)).getD 16

/-- The repair copy of a landing entry for block b is sent, request by request, and counted. -/
def State.repairCopy (s : State) (c : CoreId) (e : LandEntry) (b : Nat) : State :=
  let desc := e.repairDesc s.coord c
  let rs := s.requests (Desc.of desc)
  let slot := s.repairSlot c
  (s.sendAll (rs.zipIdx.map fun r => s.readOf (s.coreEnd c) slot desc false r.1 (r.2 + 1 == rs.length))).modCore c
    fun x => Core.count { x with repairs := (slot, b) :: x.repairs } jRepairCopy 1

/-- A failing LS block repaired: by a repair copy if a landing wrote it, else left to the replay; lost when it was
already left to the replay, or its newest landing may be missing. One whose repair copy is under way gets no second. -/
def State.repairBlock (s : State) (c : CoreId) (k : Ctx) (b : Nat) : State :=
  let x := s.core c
  if x.mends 1 b then s
  else if x.landed.contains b then
    match findLanding b x.recordsNewest with
    | some e => (s.modCore c fun x => x.markBad 1 b).repairCopy c e b
    | none => s.itemLost c k 1 b
  else if x.unrepaired.contains b then s.itemLost c k 1 b
  else s.modCore c fun x => { x.markBad 1 b with unrepaired := addOnce b x.unrepaired }

/-! ## Reads at the source -/

/-- Blocks of a READ from its place, by block index in the store. -/
def readBlocks (off n : Nat) : List Nat := blocksOf off (64 * n)

/-- A failing guard that a copy found in a core's store: LS and statistics blocks are repaired or left to a core roll
of the core; a block that is lost, that a roll is due for, or whose repair copy is under way was one fault already (spec/13
R332, R342, R347, R350). CONTEXT of LAST_FAULT is then 0 (DESIGN CHOICE, notes/assumptions/198). -/
def State.copyGuard (s : State) (c : CoreId) (cls item : Nat) : State :=
  let x := s.core c
  if x.lost.contains (cls, item) || x.mends cls item then s
  else if cls = 1 && x.landed.contains item && !(x.foundAgain 1 item) && !(x.rollNames 1 item) then
    let s := (s.modCore c fun x => x.count jLsGuard 1).fault 1 (.core c) 0 0 (guardAddr s.coord c 1 item)
    s.repairBlock c 0 item
  else (s.modCore c fun x => x.markBad cls item).guardFail c 0 cls item

/-- The class and item of the first failing block of a READ: `bad` is found by this read, others stand. -/
def State.readFails (s : State) (p : Place) (n : Nat) (bad : Option Nat) : Option (Nat × Nat) :=
  let pick (off : Nat) (standing : List Nat) : Option Nat :=
    let bs := readBlocks off n
    match bad.bind fun j => bs[j]? with
    | some b => some b
    | none => bs.find? (standing.contains ·)
  match p with
  | .ls c o => (pick o (s.core c).lsBad).map fun b => (1, b)
  | .af c o => (pick o ((s.core c).afBad.flatMap fun e => [2 * e, 2 * e + 1])).map fun b => (2, b / 2)
  | .stat c o =>
    match bad.bind fun j => (readBlocks o n)[j]? with
    | some b => some (3, 8 * b)
    | none => ((s.core c).statBad.find? fun i => (readBlocks o n).contains (i / 8)).map fun i => (3, i)
  | .hbm h o => (pick o (s.stack h).hbmBad).map fun b => (6, b)
  | .sc h o => (pick o (s.stack h).scBad).map fun b => (8, b)
  | .ctr _ _ => none

/-- Stored data of a stack found lost at a block (spec/13 R332, R350). -/
def State.loseBlock (s : State) (p : Place) (cls b : Nat) : State :=
  match p with
  | .hbm h _ => s.loseHbm h b
  | .sc h _ =>
    (s.modStack h fun t => { t with scBad := addOnce b t.scBad }).stackLost cls h (stackAddr 4 s.coord h (64 * b))
  | _ => s

/-- What a failing source block does. -/
def State.sourceFault (s : State) (pl : Place) (cls item : Nat) : State :=
  match pl with
  | .ls c _ | .af c _ | .stat c _ => s.copyGuard c cls item
  | _ => s.loseBlock pl cls item

/-- The class that the FAIL notice of a failing source names: 0x07 if the item of the core is lost (spec/13 R342, R350),
so that the copy is not rolled. -/
def State.failClass (s : State) (pl : Place) (cls item : Nat) : Nat :=
  match pl with
  | .ls c _ | .af c _ | .stat c _ => if (s.core c).lost.contains (cls, item) then 7 else cls
  | _ => cls

/-- A READ read at its source: served, or its copy aborted by a FAIL notice. Its blocks are read in one step, so that no write
falls between them (DESIGN CHOICE, notes/assumptions/159). -/
def State.doRead (s : State) (p : Packet) (pl : Place) (bad : Option Nat) : State :=
  match s.readFails pl p.blocks bad with
  | some (cls, item) =>
    let s' := s.sourceFault pl cls item
    s'.sendFail p (s.placeEnd pl) (s'.failClass pl cls item)
  | none => s.serveRead p pl (s.readPlace pl (64 * p.blocks))

/-- A packet at a stack may be carried out: it is not waiting for an entry, for a fill or for interface slots. A packet that was
never offered to BASE_DIE_ACCEPT is taken as served (notes/assumptions/35). -/
def State.served (s : State) (pl : Place) (p : Packet) : Bool :=
  match pl with
  | .hbm h _ | .sc h _ =>
    let t := s.stack h
    let p := Packet.plain p
    !(t.waiting.contains (.packet p)) && !(t.fills.any fun f => f.waiting.contains p) &&
      match t.entryOf (.packet p) with
      | some e => e.blocks == 0
      | none => true
  | _ => true

/-- The entry of a packet at a place given back. -/
def State.released (s : State) (pl : Place) (p : Packet) : State :=
  match pl with
  | .hbm h _ | .sc h _ => s.freeEntry h (.packet (Packet.plain p))
  | _ => s

/-- A packet that still has to cross a failed link to a core; a base die has taken its own already (spec/10 R245). -/
def State.cutOff (s : State) (pl : Place) (p : Packet) : Bool :=
  match pl with
  | .hbm _ _ | .sc _ _ => false
  | _ => s.stranded p

/-- READ_PACKET: the source endpoint reads the data and sends WRITE packets to the destination. -/
def execReadPacket (p : Packet) (bad : Option Nat) (s : State) : Out :=
  match placeOf p.addr with
  | none => .next s
  | some pl =>
    if !s.powered || p.kind ≠ .read || addrModule p.addr ≠ s.coord || !(s.inStore pl (64 * p.blocks)) || !(s.served pl p) ||
        s.cutOff pl p then .next s
    else .next (((s.arrive p).released pl p).doRead p pl bad)

/-! ## Landing tables (spec/09 R218) -/

/-- Landing entries of an endpoint. -/
def landingMax (p : Place) : Nat :=
  match p with
  | .hbm _ _ | .sc _ _ => 256
  | _ => 32

/-- The landing table of a place's endpoint. -/
def State.landings (s : State) (p : Place) : List Landing :=
  match p with
  | .ls c _ | .af c _ | .stat c _ | .ctr c _ => (s.core c).landing
  | .hbm h _ | .sc h _ => (s.stack h).landing

/-- The landing table replaced; the peak follows. -/
def State.setLandings (s : State) (p : Place) (l : List Landing) : State :=
  match p with
  | .ls c _ | .af c _ | .stat c _ | .ctr c _ =>
    s.modCore c fun x => { x with landing := l, landingPeak := max x.landingPeak l.length }
  | .hbm h _ | .sc h _ => s.modStack h fun t => { t with landing := l, landingPeak := max t.landingPeak l.length }

/-- LAND_RETRY of an endpoint. -/
def State.countRetry (s : State) (p : Place) : State :=
  match p with
  | .ls c _ | .af c _ | .stat c _ | .ctr c _ => s.modCore c fun x => x.count jLandRetry 1
  | .hbm h _ | .sc h _ => s.countStack h 0 1

/-- The entry of a transfer. -/
def entryIn (l : List Landing) (tag : EndPt) (slot : BitVec 5) : Option Landing :=
  l.find? fun e => e.tag == tag && e.slot == slot

/-- The entry of a transfer replaced. -/
def putEntry (l : List Landing) (e : Landing) : List Landing :=
  l.map fun o => if o.tag == e.tag && o.slot == e.slot then e else o

/-- Bytes landed in a core's LS by the fabric. -/
def Core.land (x : Core) (off : Nat) (data : List Byte) : Core :=
  { x.lsWrite true off data with copyBlocks := x.copyBlocks + BitVec.ofNat 64 (data.length / 64) }

/-- Bytes written to the statistics store by the fabric. -/
def Core.landStat (x : Core) (off : Nat) (data : List Byte) : Core :=
  let inside (i : Nat) : Bool := decide (off ≤ 8 * i) && decide (8 * i + 8 ≤ off + data.length)
  { x with
    stat := Memory.write x.stat off data
    statBad := x.statBad.filter fun i => !(inside i)
    unrepairedStat := x.unrepairedStat.filter fun i => !(inside i)
    lost := x.lost.filter fun q => !(q.1 == 3 && inside q.2) }

/-- A packet's data applied at its place; none where a contribution is refused for want of space (spec/11 R282). -/
def State.applyData (s : State) (pl : Place) (tag : EndPt) (data : List Byte) : Option State :=
  match pl with
  | .ls c o => some (s.modCore c fun x => x.land o data)
  | .stat c o => some (s.modCore c fun x => x.landStat o data)
  | .hbm h o =>
    match (s.stack h).reduceAt o with
    | some i => s.contribute h i tag o data
    | none => some (s.hbmStore h o data)
  | .sc h o => some (s.modStack h fun t => t.scPut o data)
  | _ => some s

/-- CAR_REFUSE of a stack. -/
def State.countCarRefuse (s : State) (pl : Place) : State :=
  match pl with
  | .hbm h _ => s.countStack h 7 1
  | _ => s

/-- A peal packet passed on to the next core of its route, when there is one (spec/08 R196). -/
def State.passOn (s : State) (p : Packet) : State :=
  match s.routeCore p (p.pos + 1) with
  | some _ => s.send { Packet.plain p with pos := p.pos + 1, via := none }
  | none => s

/-- A WRITE begins a transfer of another module anew: every request of the aborted one has left the fabric (spec/09 R219,
notes/assumptions/121). -/
def State.begins (s : State) (p : Packet) : Bool := p.renewed && p.tag.module != s.coord

/-- The landing entries of a place that a WRITE meets: that of an aborted transfer which it replaces is freed. -/
def State.entriesFor (s : State) (pl : Place) (p : Packet) : List Landing :=
  (s.landings pl).filter fun e => !(s.begins p && e.tag == p.tag && e.slot == p.slot)

/-- A new entry for the transfer of a WRITE; aborted if the transfer was found aborted here. -/
def State.newEntry (s : State) (p : Packet) : Landing :=
  ⟨p.tag, p.slot, 0, none, s.deadCopies.contains (p.tag, p.slot) && !(s.begins p)⟩

/-- A WRITE met by its destination endpoint: refused, held as the final write, or applied and counted. -/
def State.land (s : State) (p : Packet) (pl : Place) : State :=
  let l := s.entriesFor pl p
  let found := entryIn l p.tag p.slot
  if found.isNone && decide (landingMax pl ≤ l.length) then (s.countRetry pl).send (refuseOf p)
  else
    let e := found.getD (s.newEntry p)
    let put (e : Landing) (s : State) : State := s.setLandings pl (if found.isNone then l ++ [e] else putEntry l e)
    if p.final then put { e with final := some p } s
    else
      match s.applyData pl p.tag p.data with
      | none => (s.countCarRefuse pl).send (refuseOf p)
      | some s =>
        let s := put { e with applied := e.applied + 1 } s
        if p.peal then s.passOn p else s

/-- WRITE_PACKET: a WRITE at its destination, for a peal at the head of its route. -/
def execWritePacket (p : Packet) (s : State) : Out :=
  match placeOf p.addr with
  | none => .next s
  | some pl =>
    if !s.powered || p.kind ≠ .write || addrModule p.addr ≠ s.coord || !(s.inStore pl p.data.length) || p.pos ≠ 0 ||
        !(s.served pl p) || s.cutOff pl p then .next s
    else .next (((s.arrive p).released pl p).land p pl)

/-! ## Signals at a counter (spec/09 R225) -/

/-- A signal applied to a counter of a core; `same`: in the arithmetic cycle of the counter's last change, with which it
is one combined change (spec/09 R225). -/
def Core.signalIn (x : Core) (i : Fin 64) (inc : Nat) (src : EndPt) (same : Bool) : Core :=
  if same then
    let x := x.joinSync i inc
    x.setSync i { x.syncCtr i with src := some src, local_ := false }
  else x.signal i inc src false

/-! ## The final write -/

/-- The landing journalled for the beat record of a core (spec/13 R336). -/
def Core.logLanding (x : Core) (p : Packet) (off : Nat) (beat : Nat) : Core :=
  let d := Desc.of p.desc
  let e : LandEntry :=
    { src := d.src, dstOff := off, rowBlocks := BitVec.ofNat 10 (d.rowBlocks - 1), rows := BitVec.ofNat 10 (d.rows - 1)
      srcStride := BitVec.ofNat 32 d.srcStride, dstStride := BitVec.ofNat 32 d.dstStride, issuer := p.tag, peal := p.peal
      beatLo := BitVec.ofNat 32 beat }
  if x.landLog.length < 126 then { x with landLog := x.landLog ++ [e] }
  else if x.logFull then x
  else Core.count { x with logFull := true } jJournalFull 1

/-- LS offset of a transfer's first byte at a core. -/
def landOff (p : Packet) : Nat :=
  let d := Desc.of p.desc
  if p.peal then d.pealOff else match placeOf d.dst with | some q => q.off | none => 0

/-- The final write applied: its data, the landing entry, the journal. -/
def State.applyFinal (s : State) (p : Packet) (pl : Place) : Option State :=
  match s.applyData pl p.tag p.data with
  | none => none
  | some s =>
    match pl with
    | .ls c _ => some (s.modCore c fun x => x.logLanding p (landOff p) s.beat)
    | _ => some s

/-- The attached signal of an ordinary transfer, sent by the endpoint it landed at (spec/09 R220). -/
def State.attachedSignal (s : State) (p : Packet) (pl : Place) : State :=
  if p.sigVal = 0 then s
  else
    let at_ := s.placeEnd pl
    match placeOf p.addr2 with
    | some (.ctr c i) =>
      if addrModule p.addr2 = s.coord && s.coreEnd c = at_ then s.modCore c fun x => x.signalIn i p.sigVal.toNat p.tag p.joined
      else s.send (signalPacketOf p.tag at_ p.slot p.addr2 p.sigVal.toNat)
    | _ => s

/-- The peal signal at a core of the route (spec/08 R197). -/
def Core.pealSignal (x : Core) (p : Packet) : Core :=
  let d := Desc.of p.desc
  if d.pealSig then x.signalIn (Fin.ofNat 64 d.pealCtr) d.sigVal p.tag p.joined else x

/-- The range record of an own copy that landed here is dropped (spec/03 R72). -/
def State.dropRange (s : State) (p : Packet) (pl : Place) : State :=
  match pl with
  | .ls c _ =>
    if s.coreEnd c = p.tag then
      s.modCore c fun x => { x with slots := x.slots.map fun sl => if sl.id = p.slot.toNat then { sl with tracked := false } else sl }
    else s
  | _ => s

/-- An own copy has landed: its final write is applied, for a peal at the tail (spec/08 R194, R197). It accesses no LS any more,
so that its range record is dropped; until then a packet of it that is refused reads the source again (spec/03 R72, spec/10
R240; DEDUCED, notes/assumptions/180). -/
def State.noteLanded (s : State) (p : Packet) : State :=
  match EndPt.coreOf p.tag with
  | none => s
  | some c =>
    if p.tag.module ≠ s.coord then s
    else
      s.modCore c fun x => { x with slots := x.slots.map fun sl => 
        if sl.id = p.slot.toNat then { sl with landed := true, tracked := false } else sl }

/-- A peal's final write at a core: applied, signalled, and passed on; the tail acknowledges. -/
def State.pealEnd (s : State) (p : Packet) (c : CoreId) (off : Nat) : State :=
  let s := s.modCore c fun x => ((x.land off p.data).logLanding p (landOff p) s.beat).pealSignal p
  let s := s.dropRange p (.ls c off)
  match s.routeCore p (p.pos + 1) with
  | some _ => s.passOn p
  | none => (s.noteLanded p).send (ackOf p (s.coreEnd c))

/-- A place standing for the endpoint named, for its landing table. -/
def endPlace (e : EndPt) : Option Place :=
  match EndPt.coreOf e with
  | some c => some (.ls c 0)
  | none => (EndPt.stackOf e).map fun h => .hbm h 0

/-- FINAL_WRITE_APPLY: once every other packet is applied, the final write is applied, the signal delivered, the
acknowledgement sent and the landing entry freed (spec/09 R217). -/
def execFinalWriteApply (at_ : EndPt) (tag : EndPt) (slot : BitVec 5) (s : State) : Out :=
  match endPlace at_ with
  | none => .next s
  | some tp =>
    if !s.powered || at_.module ≠ s.coord then .next s
    else
      match entryIn (s.landings tp) tag slot with
      | none => .next s
      | some e =>
        match e.final with
        | none => .next s
        | some p =>
          match placeOf p.addr with
          | none => .next s
          | some pl =>
            if e.aborted || e.applied ≠ p.count then .next s
            else
              let free (s : State) : State := s.setLandings tp ((s.landings tp).filter (· != e))
              if p.peal then
                match pl with
                | .ls c o => .next ((free s).pealEnd p c o)
                | _ => .next s
              else
                match s.applyFinal p pl with
                | none =>
                  .next (((s.setLandings tp (putEntry (s.landings tp) { e with final := none })).countCarRefuse pl).send (refuseOf p))
                | some s => .next (free ((((s.attachedSignal p pl).dropRange p pl).noteLanded p).send (ackOf p at_)))

/-! ## Peals along their route (spec/08 R196, R197; spec/09 R219) -/

/-- A packet is the first in flight of those it must not overtake; `same` picks them. -/
def State.inOrder (s : State) (p : Packet) (same : Packet → Bool) : Bool :=
  match s.inFlight.find? same with
  | some q => decide (q = Packet.plain p)
  | none => true

/-- A peal packet past the head is the next of its copy at its core: the cores of a route receive the packets in the
order in which they left the head (spec/08 R196). -/
def State.pealTurn (s : State) (p : Packet) : Bool :=
  p.pos == 0 || s.inOrder p fun q => q.kind == .write && q.peal && q.tag == p.tag && q.slot == p.slot && q.pos == p.pos

/-- The copy of a packet was aborted by its issuing core on this module (spec/08 R207). -/
def State.copyDead (s : State) (p : Packet) : Bool :=
  match EndPt.coreOf p.tag with
  | some c => p.tag.module == s.coord && (s.core c).slots.any fun sl => sl.id == p.slot.toNat && sl.aborted
  | none => false

/-- A peal packet stands at core c: c is the core of its route it has come to. -/
def State.pealAt (s : State) (c : CoreId) (p : Packet) : Option Nat :=
  if s.powered && p.kind == .write && p.peal && s.routeCore p p.pos == some c && s.pealTurn p && !s.stranded p then
    match placeOf p.addr with
    | some (.ls _ o) => if decide (o + p.data.length ≤ lsSize) then some o else none
    | _ => none
  else none

/-- PEAL_FORWARD: a peal packet is written to this core's LS and forwarded; at the head it is a landing as well. A packet
of an aborted peal goes no further (spec/08 R208). -/
def execPealForward (c : CoreId) (p : Packet) (s : State) : Out :=
  match s.pealAt c p with
  | none => .next s
  | some o =>
    if p.final then .next s
    else if p.pos = 0 then .next ((s.arrive p).land p (.ls c o))
    else if s.copyDead p then .next (s.arrive p)
    else .next (((s.arrive p).modCore c fun x => x.land o p.data).passOn p)

/-- PEAL_FINAL: the final write at a core of the route after the head, applied on arrival; at the head it is held. -/
def execPealFinal (c : CoreId) (p : Packet) (s : State) : Out :=
  match s.pealAt c p with
  | none => .next s
  | some o =>
    if !p.final then .next s
    else if p.pos = 0 then .next ((s.arrive p).land p (.ls c o))
    else if s.copyDead p then .next (s.arrive p)
    else .next ((s.arrive p).pealEnd p c o)

/-! ## Signals and notices -/

/-- A signal is the next of its issuer for its counter: SIGs of a core that name one counter are applied in their order
(spec/09 R215). -/
def State.signalTurn (s : State) (p : Packet) : Bool :=
  p.slot.toNat != 31 || s.inOrder p fun q => q.kind == .signal && q.tag == p.tag && q.slot == p.slot && q.addr == p.addr

/-- SIGNAL_PACKET: a signal from the fabric changes its counter. -/
def execSignalPacket (p : Packet) (s : State) : Out :=
  match placeOf p.addr with
  | some (.ctr c i) =>
    if !s.powered || p.kind ≠ .signal || addrModule p.addr ≠ s.coord || !(s.signalTurn p) || s.stranded p then .next s
    else .next ((s.arrive p).modCore c fun x => x.signalIn i p.sigVal.toNat p.tag p.joined)
  | _ => .next s

/-- Reference cycles that 64 fabric cycles take, counted in whole cycles. -/
def resendDelay : Nat := 6

/-- REFUSE_NOTICE: the refused packet is due 64 fabric cycles later (spec/10 R240). -/
def execRefuseNotice (p : Packet) (s : State) : Out :=
  if !s.powered || p.kind ≠ .refuse || p.src.module ≠ s.coord || s.stranded p then .next s
  else
    let s := s.arrive p
    .next { s with resends := s.resends ++ [⟨{ p with kind := p.was, data := p.kept, kept := [], was := .refuse, via := none, escape := false, escDim := 0, hops := 0, joined := false, renewed := false }, s.refTime + resendDelay⟩] }

/-- The packet with its data read again from its source store. -/
def State.reread (s : State) (p : Packet) : Packet :=
  if p.origin = 0 then p
  else
    match p.kind with
    | .write => { p with data := s.readAddr p.origin p.data.length }
    | .carillon => { p with data := p.data.take 64 ++ s.readAddr p.origin (p.data.length - 64) }
    | _ => p

/-- Blocks that a resent packet reads again from its source store. -/
def rereadBlocks (p : Packet) : Nat := match p.kind with | .write => p.data.length / 64 | .carillon => p.data.length / 64 - 1 | _ => 0

/-- The source of a resent packet and the first of its blocks there that fails every read, by class and item. -/
def State.rereadFails (s : State) (p : Packet) : Option (Place × Nat × Nat) :=
  match if p.origin = 0 then none else placeOf p.origin with
  | some pl => (s.readFails pl (rereadBlocks p) none).map fun q => (pl, q)
  | none => none

/-- Blocks of a stack's program HBM that a resent packet reads and that fail every read. -/
def State.rereadLost (s : State) (p : Packet) (pl : Place) : List Nat :=
  match pl with
  | .hbm h o => (s.stack h).lostIn [(o, 64 * rereadBlocks p)]
  | _ => []

/-- A resent packet whose source fails: its source is lost or repaired, and a copy that it belongs to is aborted (spec/08 R207,
spec/11 R276, spec/13 R350). -/
def State.rereadAbort (s : State) (p : Packet) (pl : Place) (cls item : Nat) : State :=
  let s' := match pl with | .hbm h _ => s.loseAll h (s.rereadLost p pl) | _ => s.sourceFault pl cls item
  if (EndPt.coreOf p.tag).isSome then s'.sendFail p (s.placeEnd pl) (s'.failClass pl cls item) else s'

/-- REFUSED_RESEND: the first refused packet that is due is read and sent again; one whose source fails its reads is not sent. -/
def execRefusedResend (s : State) : Out :=
  match s.resends.find? fun r => decide (r.due ≤ s.refTime) with
  | none => .next s
  | some r =>
    if !s.powered then .next s
    else
      let s' := { s with resends := removeOne r s.resends }
      match s.rereadFails r.packet with
      | some (pl, cls, item) => .next (s'.rereadAbort r.packet pl cls item)
      | none => .next (s'.sendAgain (s.reread r.packet))

/-- A copy aborted: it sends nothing more and its final write is never applied; `rolls`: a copy roll is pending
(spec/08 R207, spec/13 R347). -/
def State.copyAbort (s : State) (c : CoreId) (slot : BitVec 5) (rolls : Bool) : State :=
  let s := s.modCore c fun x =>
    let abort (sl : CopySlot) : CopySlot :=
      if sl.id = slot.toNat then { sl with aborted := true, rolling := rolls } else sl
    Core.count { x with slots := x.slots.map abort } jCopyAbort 1
  s.abortLandings (s.coreEnd c) slot

/-- LINK_LOST: a notice for a SIG, Carillon or controller packet (spec/10 R264). -/
def State.linkLost (s : State) (tag : EndPt) : State :=
  let place : Charged :=
    match EndPt.coreOf tag, EndPt.stackOf tag with
    | some c, _ => .core c
    | none, some h => .stack h
    | _, _ => .module
  (s.count 4 1).fault 0x0B place 0 0 0

/-! ## Copy rolls (spec/13 R347) -/

/-- No packet of a copy is left on the module. -/
def State.drained (s : State) (tag : EndPt) (slot : BitVec 5) : Bool :=
  let own (p : Packet) : Bool := p.tag == tag && p.slot == slot
  !(s.anyPacket own) && !(s.anyWaiting own)

/-- Aborted entries of transfers that other modules issued are freed once nothing of the transfer is left here
(spec/08 R207, notes/assumptions/121). -/
def State.freeForeign (s : State) : State :=
  let keep (l : List Landing) : List Landing :=
    l.filter fun e => !(e.aborted && e.tag.module != s.coord && s.drained e.tag e.slot)
  let s' := (s.mapCores fun _ x => { x with landing := keep x.landing }).mapStacks fun _ t => { t with landing := keep t.landing }
  { s' with deadCopies := s.deadCopies.filter fun q => !(s.drained q.1 q.2) }

/-- The landing entries of a copy freed on this module. -/
def State.freeLandings (s : State) (tag : EndPt) (slot : BitVec 5) : State :=
  let keep (l : List Landing) : List Landing := l.filter fun e => !(e.tag == tag && e.slot == slot)
  (s.mapCores fun _ x => { x with landing := keep x.landing }).mapStacks fun _ t => { t with landing := keep t.landing }

/-- The source of a copy is whole again, as far as this module knows. -/
def State.sourceWhole (s : State) (d : Desc) : Bool :=
  if addrModule d.src ≠ s.coord then true
  else
    match placeOf d.src with
    | some (.ls c o) => !((blocksOf o (d.hull d.sStride)).any ((s.core c).lsBad.contains ·))
    | some (.stat c o) => !((s.core c).statBad.any fun i => (blocksOf o (d.hull d.sStride)).contains (i / 8))
    | some (.af c o) => !((s.core c).afBad.any fun e => (blocksOf o (d.hull d.sStride)).any (· / 2 == e))
    | _ => true

/-- The group of a copy lost for good, the lowest kept: in fenced mode what a later CMARK set apart stays held (spec/08 R204,
R208). -/
def CtxState.loseGroup (t : CtxState) (g : Nat) : CtxState :=
  { t with lostGroup := some (match t.lostGroup with | some o => min o g | none => g) }

/-- COPY_ROLL: an aborted copy whose packets have drained is issued again from its first byte once its source is whole;
one aborted by stored-data loss gives up its slot. -/
def execCopyRoll (c : CoreId) (slot : Fin 16) (s : State) : Out :=
  let x := s.core c
  match x.slots.find? fun sl => sl.id == slot.val with
  | none => .next s
  | some sl =>
    let tag := s.coreEnd c
    let n := BitVec.ofNat 5 slot.val
    if !s.powered || !sl.aborted || !(s.drained tag n) then .next s
    else if !sl.rolling then
      .next ((s.freeLandings tag n).modCore c fun x =>
        { x.modCtx sl.ctx (fun t => t.loseGroup sl.group) with
          slots := x.slots.filter (·.id != slot.val), served := x.served.filter (· != slot.val) })
    else if !(s.sourceWhole (Desc.of sl.desc)) then .next s
    else
      .next ((s.freeLandings tag n).modCore c fun x =>
        let again (o : CopySlot) : CopySlot :=
          if o.id = slot.val then { o with sent := 0, reads := 0, aborted := false, landed := false, tracked := true } else o
        Core.count { x with slots := x.slots.map again } jCopyRoll 1)

end Sys2Proof.Machine
end

