-- ==== Sys2Proof/Machine/Roll.lean ====
section
/-! DEFINITION. Checkpoints and the core roll (spec/13 R334, R339 to R343, R351). -/

namespace Sys2Proof.Machine

open Sys2Proof

/-! ## Checkpoints (spec/13 R334) -/

/-- What a checkpoint keeps of a context. -/
def CtxState.save (t : CtxState) : CtxSave :=
  { pc := t.pc, regs := t.regs, enabled := t.enabled, ended := t.ended, dither := t.dither, station := t.station, n := t.n
    marks := t.marks, within := t.running || t.resume, statAtStart := t.statAtStart }

/-- The checkpoint taken of a core. Its counts start at 0, plus what a replay still suppresses, which stands as issued
(notes/assumptions/36). -/
def Core.checkpoint (x : Core) (seq beat : Nat) (isSealed : Bool) : Checkpoint :=
  { seq, beat
    ctxs := x.ctxs.map fun _ t => t.save
    banks := x.banks
    cpys := x.ctxs.map fun _ t => t.skipCpy
    sigs := x.ctxs.map fun _ t => t.skipSig
    tallies := []
    landed := x.landed
    stat := x.stat
    isSealed }

/-- A checkpoint taken: the three newest are held, and that of a roll under way with them (spec/13 R351). -/
def Core.takeCheckpoint (x : Core) (beat : Nat) (isSealed : Bool) : Core :=
  let seq := x.ckptSeq + 1
  let all := x.checkpoints ++ [x.checkpoint seq beat isSealed]
  let newest := lastN 3 all
  let rolled := all.filter fun o => x.rolling && o.seq == x.rollSeq && !(newest.any fun v => v.seq == o.seq)
  { x with ckptSeq := seq, checkpoints := rolled ++ newest }

/-! ## The restart checkpoint (spec/13 R340) -/

/-- Checkpoints a roll may restore: the three newest, and that of the roll under way. -/
def Core.held (x : Core) : List Checkpoint := if x.rolling then x.checkpoints else lastN 3 x.checkpoints

/-- Checkpoints taken no later than the opening of every bank that is open or REPEAT, oldest first (notes/assumptions/120);
one whose parts were not sealed is never used (spec/13 R335). -/
def Core.restarts (x : Core) : List Checkpoint :=
  x.held.filter fun ck => ck.isSealed && x.banks.toList.all fun b => !(b.isOpen || b.rep) || decide (ck.seq ≤ b.opened)

/-- The restart checkpoint, and its depth from the newest; an overflow during a replay restarts from the checkpoint of the
roll under way (spec/13 R351). -/
def Core.restart (x : Core) : Option (Checkpoint × Nat) :=
  let again := x.rolling && match x.roll with | some q => q.cls == 0 | none => false
  let ck := if again then x.held.find? fun o => o.seq == x.rollSeq else x.restarts.getLast?
  ck.map fun ck => (ck, min 2 (x.held.countP fun o => decide (ck.seq < o.seq)))

/-! ## The steps of a roll (spec/13 R341) -/

/-- A tally of the checkpoint taken back: every counter less its tally, clamped. -/
def Core.untally (x : Core) (ck : Checkpoint) : Core :=
  ck.tallies.foldl (fun x p => x.moveSync (Fin.ofNat 64 p.1) (-p.2)) x

/-- A context restored, its suppressed CPYs and SIGs armed. One that was inside its stroke at the edge goes on with that
stroke from the next work window, and starts none (spec/13 R341, R344, R346). -/
def CtxState.restore (t : CtxState) (v : CtxSave) (cpys sigs : Nat) : CtxState :=
  { t with
    pc := v.pc, regs := v.regs, enabled := v.enabled, ended := v.ended, dither := v.dither
    stat0 := v.station, stat1 := none, newest := false, passUsed := false
    n := v.n, marks := v.marks, running := false, resume := v.within, statAtStart := v.statAtStart, stopped := false, overran := false, heldSince := none, waiting := none, chain := none
    skipCpy := cpys, skipSig := sigs }

/-- One bank from a checkpoint. A bank whose next chain is one that overflowed is REPEAT, in this run or an earlier one, and keeps
its opening, which the next restart looks at (spec/06 R149, spec/13 R340); where other chains of the bank come before it in
the replay, REPEAT stands again once they are closed, so that they take the normal window whatever else the restart went
back for, and no chain is repeated more than once (spec/06 R150; notes/assumptions/144). -/
def restoreBank (v old : Bank) (seq : Nat) : Bank :=
  let again := !old.isOpen && v.uppers.contains (old.opens + 1)
  { old with
    rep := again
    opened := if again then (if v.rep then v.opened else seq) else old.opened
    uppers := v.uppers }

/-- Banks from the checkpoint of this number. -/
def restoreBanks (now ck : Quad Bank) (seq : Nat) : Quad Bank := now.map fun b v => restoreBank v (ck.get b) seq

/-- An entry save belongs to a stroke that a replay from a checkpoint runs, and its RSMAX runs again. -/
def EntrySave.replayed (v : EntrySave) (ck : Checkpoint) : Bool :=
  decide ((ck.ctxs.get v.ctx).n ≤ v.n) && decide (ck.seq ≤ v.seq)

/-- The save belongs to the stroke that its context was held over in when the checkpoint was taken. -/
def EntrySave.cutBy (v : EntrySave) (ck : Checkpoint) : Bool := (ck.ctxs.get v.ctx).within && (ck.ctxs.get v.ctx).n == v.n

/-- The entry as the replay finds it: the save, or what the checkpoint shows where the stroke goes on in its middle, as the edge
of the checkpoint found it (notes/assumptions/177: DEDUCED). -/
def EntrySave.backTo (v : EntrySave) (ck : Checkpoint) : List Byte :=
  if v.cutBy ck then Memory.read ck.stat (8 * v.entry) 8 else v.bytes

/-- Entry saves of what is replayed written back, the oldest last, so that each block is merged once; they are dropped,
but for those of a stroke that goes on in its middle, which an older checkpoint may need (spec/07 R184). -/
def Core.restoreSaves (x : Core) (ck : Checkpoint) : Core :=
  let x' := (x.saves.filter (·.replayed ck)).reverse.foldl
    (fun x v =>
      let bs := v.backTo ck
      x.setStat v.entry (BitVec.ofNat 32 (leNat (bs.take 4))) (BitVec.ofNat 32 (leNat (bs.drop 4)))) x
  { x' with saves := (x.saves.filter fun v => !(v.replayed ck) || v.cutBy ck).map fun v =>
      if v.replayed ck then { v with seq := ck.seq - 1 } else v }

/-- Later checkpoints are dropped; older ones give back the tallies that were taken back, and the restart's is 0. -/
def rebase (cks : List Checkpoint) (ck : Checkpoint) : List Checkpoint :=
  (cks.filter fun o => decide (o.seq ≤ ck.seq)).map fun o =>
    { o with tallies := ck.tallies.foldl (fun m p => Sparse.put 0 m p.1 (Sparse.look 0 m p.1 - p.2)) o.tallies }

/-- Steps 2 to 5 of a roll. -/
def Core.restoreFrom (x : Core) (ck : Checkpoint) (qs : List RollCause) : Core :=
  let x := if qs.any fun q => q.cls == 4 then { x with instr := x.program, instrBad := [] } else x
  let x := x.untally ck
  let x := x.restoreSaves ck
  let found := (qs.filter fun q => q.cls != 0).filterMap fun q => q.item.map fun i => (q.cls, i)
  { x with
    ctxs := x.ctxs.map fun k t => t.restore (ck.ctxs.get k) (ck.cpys.get k) (ck.sigs.get k)
    banks := restoreBanks x.banks ck.banks ck.seq
    checkpoints := rebase x.checkpoints ck
    pace := { idle := 0 }
    arrayQ := []
    roll := none
    rollMore := []
    rollFound := (if x.rolling then x.rollFound else []) ++ found
    rolling := true
    rollSeq := ck.seq }

/-- Step 1: the failing item of the cause is repaired or left to the replay. -/
def State.rollRepair (s : State) (c : CoreId) (q : RollCause) : State :=
  match q.cls, q.item with
  | 1, some b => s.repairBlock c q.ctx b
  | 3, some i => s.modCore c fun x => { x with statBad := addOnce i x.statBad, unrepairedStat := addOnce i x.unrepairedStat }
  | _, _ => s

/-- A cause is the repeated detection of a place that the roll under way found already: one fault with it (spec/13
R342). -/
def Core.causeAgain (x : Core) (q : RollCause) : Bool := match q.item with | some i => x.foundAgain q.cls i | none => false

/-- A cause is a block whose repair copy is under way: its fault was counted when that began (spec/13 R342). -/
def Core.causeMends (x : Core) (q : RollCause) : Bool := match q.item with | some i => x.mends q.cls i | none => false

/-- What is counted of a roll: ROLLS; a window repeat is no fault (spec/06 R151, spec/13 R358), a repeated detection no
new one. -/
def State.rollCounted (s : State) (c : CoreId) (q : RollCause) (depth : Nat) : State :=
  if (s.core c).causeAgain q then s
  else
    let s := s.modCore c fun x => x.count jRolls 1
    if q.cls = 0 then s.modCore c fun x => x.count jAccRepeat 1
    else (if (s.core c).causeMends q then s else s.faultIn q.beat q.cls (.core c) q.ctx.val depth q.addr).note 3 (.core c)

/-- The further causes of a roll: each a fault of its own, repaired as the first is (spec/13 R351). -/
def State.rollFurther (s : State) (c : CoreId) (depth : Nat) (qs : List RollCause) : State :=
  qs.foldl (fun s q => (s.faultIn q.beat q.cls (.core c) q.ctx.val depth q.addr).rollRepair c q) s

/-- The faults of a roll that cannot be carried out: each of class 0x01 to 0x04 that was found is one all the same (spec/13 R332,
R358). -/
def State.lostFaults (s : State) (c : CoreId) (qs : List RollCause) : State :=
  let x := s.core c
  (qs.filter fun q => q.cls != 0 && !(x.causeAgain q) && !(x.causeMends q)).foldl
    (fun s q => s.faultIn q.beat q.cls (.core c) q.ctx.val 0 q.addr) s

/-- A roll that cannot be carried out ends the core's strokes; the job is lost. -/
def State.rollLost (s : State) (c : CoreId) (q : RollCause) : State :=
  ((s.lostFaults c (q :: (s.core c).rollMore)).coreLost c q.ctx q.addr).modCore c fun x =>
    { x with roll := none, rollMore := [], ctxs := x.ctxs.map fun _ t => { t with running := false, resume := false } }

/-- A pending roll carried out. -/
def State.doRoll (s : State) (c : CoreId) : State :=
  let x := s.core c
  match x.roll with
  | none => s
  | some q =>
    match x.restart with
    | none => s.rollLost c q
    | some (ck, depth) =>
      let s := ((s.rollCounted c q depth).rollRepair c q).rollFurther c depth x.rollMore
      s.modCore c fun x => x.restoreFrom ck (q :: x.rollMore)

/-- What the read under way found: the place fails its guard, and a roll becomes due. -/
def State.detect (s : State) (c : CoreId) (d : Detect) : State :=
  match d with
  | .ls b k => if b < 1536 then s.guardFail c k 1 b else s
  | .af e k => if e < 256 then s.guardFail c k 2 e else s
  | .stat e k => if e < 512 then s.guardFail c k 3 e else s
  | .instr p k => if p < 1024 then s.guardFail c k 4 p else s

/-- CORE_ROLL: the core restores its restart checkpoint, repairs what failed, corrects its counters and arms replay. -/
def execCoreRoll (c : CoreId) (found : Option Detect) (s : State) : Out :=
  if !s.powered then .next s
  else
    let s := match found with | some d => s.detect c d | none => s
    .next (s.doRoll c)

end Sys2Proof.Machine
end

