-- ==== Sys2Proof/Machine/Status.lean ====
section
/-! DEFINITION. Captures of the counters and the status words formed from other state (spec/17 R437 to R440,
spec/13 R362, spec/15 R405). -/

namespace Sys2Proof.Machine

open Sys2Proof

/-! ## Captures (spec/17 R440) -/

/-- A bank entry of an error counter: the value, STICKY in bit 63. -/
def ErrCtr.entry (e : ErrCtr) : DWord := BitVec.ofNat 64 (e.value.toNat + bit e.sticky * 2 ^ 63)

/-- Per-core error counters. -/
def coreErrs : Nat := 26

/-- CORE_STICKY. -/
def Core.sticky (x : Core) : Word :=
  BitVec.ofNat 32 ((List.range coreErrs).foldl (fun a j => a + bit (Sparse.look {} x.errs j).sticky * 2 ^ j) 0)

/-- Half a forever counter. -/
def half (v : DWord) (hi : Nat) : Word := BitVec.ofNat 32 (v.toNat / 2 ^ (32 * hi))

/-- Counter word w of a core's page, w = 16 to 63 for the offsets 0x40 to 0xFC (spec/17 R438). -/
def Core.counterWord (x : Core) (w : Nat) : Word :=
  if 16 ≤ w ∧ w < 16 + coreErrs then (Sparse.look {} x.errs (w - 16)).value
  else if w = 42 then x.sticky
  else if w = 48 ∨ w = 49 then half x.arrayBusy (w - 48)
  else if w = 50 ∨ w = 51 then half x.vectorBusy (w - 50)
  else if w = 52 ∨ w = 53 then half x.rowBusy (w - 52)
  else if w = 54 ∨ w = 55 then half x.copyBlocks (w - 54)
  else 0

/-- The slab of a core key. -/
def slabOfKey (k : Nat) : Nat := k / 960 / 160 * 8 + k % 960 / 120

/-- The sum of error counter j over a slab, capped, with its STICKY (spec/17 R439). -/
def State.slabErr (s : State) (h j : Nat) : ErrCtr :=
  let xs := (s.cores.filter fun p => slabOfKey p.1 == h).map fun p => Sparse.look {} p.2.errs j
  let sum := xs.foldl (fun a e => a + e.value.toNat) 0
  { value := BitVec.ofNat 32 (min sum 0xFFFFFFFF), sticky := xs.any (·.sticky) || decide (0xFFFFFFFF ≤ sum) }

/-- Forever counter j of a core, j = 32 to 35. -/
def Core.forever (x : Core) (j : Nat) : DWord :=
  match j with
  | 32 => x.arrayBusy
  | 33 => x.vectorBusy
  | 34 => x.rowBusy
  | _ => x.copyBlocks

/-- Bits [79:16] of the sum of forever counter j over a slab. -/
def State.slabForever (s : State) (h j : Nat) : DWord :=
  BitVec.ofNat 64 (((s.cores.filter fun p => slabOfKey p.1 == h).foldl (fun a p => a + (p.2.forever j).toNat) 0) / 2 ^ 16)

/-- The slab sums as bank entries. -/
def State.slabBank (s : State) (h : Nat) : List (Nat × DWord) :=
  ((List.range coreErrs).map fun j => (0x1000 + 0x40 * h + j, (s.slabErr h j).entry)) ++
    ((List.range 4).map fun j => (0x1000 + 0x40 * h + 32 + j, s.slabForever h (32 + j)))

/-- The counter words of every core that are not 0. -/
def State.coreWords (s : State) : Sparse Word :=
  s.cores.flatMap fun p =>
    (((List.range 48).map fun w => (p.1 * 64 + 16 + w, p.2.counterWord (16 + w))).filter fun q => q.2 != 0)

/-- A capture of every counter on this edge. -/
def State.takeCapture (s : State) : Capture :=
  let err := s.counters.map fun p => (p.1, p.2.entry)
  let slab := (List.range 16).flatMap s.slabBank
  { bank := (err ++ s.forever ++ slab).foldl (fun m p => Sparse.put 0 m p.1 p.2) []
    cores := s.coreWords
    beat := BitVec.ofNat 64 s.beat
    phase := BitVec.ofNat 12 s.phase }

/-! ## Conditions -/

/-- Some context of some core is in this condition. -/
def State.anyCtx (s : State) (f : CtxState → Bool) : Bool := s.cores.any fun p => p.2.ctxs.toList.any f

/-- Cores with a roll pending or a replay not yet level (spec/13 R362). -/
def State.coresRolling (s : State) : Nat := s.cores.countP fun p => p.2.roll.isSome || p.2.rolling

/-- Copy rolls pending: until the copy lands (spec/13 R347, spec/08 R194). -/
def State.copyRolls (s : State) : Nat := s.cores.foldl (fun a p => a + p.2.slots.countP fun sl => sl.rolling && !sl.landed) 0

/-- A context is held over. -/
def CtxState.heldOver (t : CtxState) : Bool := t.running && t.heldSince.isSome

/-- A beat record more than 4 beats old is not sealed. -/
def State.journalBehind (s : State) : Bool :=
  s.cores.any fun p => p.2.records.any fun r => !r.2.isSealed && decide (r.2.beat + 4 < s.beat)

/-- FAULT_STATUS (spec/13 R362). -/
def State.faultStatus (s : State) : Word :=
  BitVec.ofNat 32 (bit (decide (0 < s.coresRolling) || decide (0 < s.copyRolls)) + 2 * bit (s.anyCtx CtxState.heldOver) +
    4 * bit (s.dev == devHalted && bitsOf s.haltCause.toNat 3 0 == 5) + 8 * bit (s.dev == devKnell) +
    16 * bit s.journalBehind + 32 * bit (s.cores.any fun p => p.2.shadow.isSome))

/-- NEIGHBOUR_SILENT. -/
def State.silent (s : State) : Bool := allPorts.any fun p => (s.port p).silent

/-- A Reduit port is DOWN or shows CABLE_MISMATCH. -/
def State.linkBad (s : State) : Bool := allPorts.any fun p => (s.port p).down || (s.port p).cableMismatch

/-- STATUS_SUMMARY from its sources (spec/15 R405). -/
def State.summary (s : State) : BitVec 8 :=
  let t := s.tympan
  BitVec.ofNat 8 (bit (s.faultStatus != 0) + 2 * bit (s.dev == devHalted) + 4 * bit (s.dev == devKnell) +
    8 * bit (!t.busOk || t.powerHold || t.trip || t.convFault) + 16 * bit s.linkBad +
    32 * bit ((!s.aligned && s.dev != devStarting) || s.alignLost || s.silent) + 64 * bit s.holdSent +
    128 * bit (s.trace.phase == .frozen))

end Sys2Proof.Machine
end

