-- ==== Sys2Proof/Machine/Beat.lean ====
section
/-! DEFINITION. The beat: its start, the steps of the boundary window, bars and the downbeat (spec/02 R25 to R57,
spec/13 R334 to R346, spec/08 R205). -/

namespace Sys2Proof.Machine

open Sys2Proof

/-! ## Window steps (spec/02 R27) -/

/-- A step of the boundary window at its cycle c: carried out once in a beat, if its cycle has not passed
(notes/assumptions/5). -/
def State.inWindow (s : State) (c : Nat) (w : WinStep) (act : State → State) : Out :=
  if !s.powered || s.windowDone.contains w || decide (s.windowAt + c < s.phase) then .next s
  else .next (act { s.toPhase (s.windowAt + c) with windowDone := w :: s.windowDone })

/-- A step at the start of a beat, carried out once. -/
def State.atStart (s : State) (w : WinStep) (act : State → State) : Out :=
  if !s.powered || s.windowDone.contains w || s.phase != 0 then .next s
  else .next (act { s with windowDone := w :: s.windowDone })

/-! ## Strokes start (spec/13 R334, R344; spec/03 R69, R77) -/

/-- A context starts stroke N at an edge: level with no hold-over, not ended, not stopped. -/
def CtxState.starts (t : CtxState) (strokes : Nat) : Bool :=
  t.enabled && !t.ended && !t.stopped && !t.running && !t.resume && decide (t.n < strokes)

/-- A bank of the context would reach age 4. -/
def Core.tooOld (x : Core) (k : Ctx) : Bool :=
  x.banks.toList.any fun b => b.isOpen && b.owner.toNat == k.val && b.age == 3

/-- One context starts its stroke: the ages of its open banks rise, or it is check-stopped with CHAIN_AGE. -/
def Core.startCtx (x : Core) (k : Ctx) : Core :=
  let pc := (x.ctx k).pc.toNat
  let x' := x.modCtx k fun t => { t with running := true, chain := some [], statAtStart := x.stat }
  if x.tooOld k then
    let x' := x'.modCtx k fun t => { t with stopped := true }
    Core.count { x' with check := BitVec.ofNat 32 (ckAge + k.val * 2 ^ 8 + pc * 2 ^ 10) } jCheckStop 1
  else
    { x' with banks := x'.banks.map fun _ b =>
        if b.isOpen && b.owner.toNat == k.val then { b with age := b.age + 1 } else b }

/-- A context that a roll restored inside its stroke goes on with it: no stroke starts (spec/13 R344, R346). -/
def CtxState.goOn (t : CtxState) : CtxState := if t.resume then { t with running := true, resume := false } else t

/-- Every context that a roll restored inside its stroke goes on. -/
def Core.resumeCtxs (x : Core) : Core := { x with ctxs := x.ctxs.map fun _ t => t.goOn }

/-- The first edge of a work window at a core. A core whose roll is not carried out yet starts nothing. Strokes
replayed or caught up are those started in a rest beat or behind T − 1: counted once for the core (spec/13 R361).
Contexts start in rising order, so that CHECK keeps the highest of several that fail CHAIN_AGE at one edge (DESIGN
CHOICE, notes/assumptions/145: spec/03 R88 says no more than 'last check stop'). -/
def Core.startEdge (x : Core) (rest isSealed : Bool) (strokes beat : Nat) : Core :=
  let ks := allCtxs.filter fun k => (x.ctx k).starts strokes
  if x.roll.isSome then x
  else if ks.isEmpty then x.resumeCtxs
  else
    let x := x.takeCheckpoint beat isSealed
    let x := if rest || ks.any fun k => decide ((x.ctx k).n + 1 < strokes) then x.count jRollStrokes 1 else x
    ks.foldl Core.startCtx x.resumeCtxs

/-- The first edge of a work window in RUNNING (spec/13 R344). -/
def State.startStrokes (s : State) : State :=
  if s.dev = devRunning then
    s.mapCores fun _ x => Core.startEdge (if s.rest then x else { x with last := none }) s.rest s.sealedParts s.t s.beat
  else s

/-! ## BEAT_START -/

/-- No record. -/
def noRecord : BeatRec := ⟨0, 0, false, false, false, []⟩

/-- The landing log of the beat that ends goes into its record (spec/13 R336). -/
def Core.closeLog (x : Core) (beat : Nat) : Core :=
  { x with
    records := Sparse.mapAll noRecord
      (fun _ r => if r.beat = beat then { r with logFull := x.logFull, entries := x.landLog } else r) x.records
    landLog := [], logFull := false }

/-- The context's next instruction is a WAIT whose condition is not met. -/
def Core.atWait (x : Core) (k : Ctx) : Bool :=
  let w := x.fetch k
  !(x.ctx k).stopped && opcodeOf w == 0x39 && !x.instrBad.contains (x.ctx k).pc.toNat && !x.waitMet (fieldsY w)

/-- The wait registers of a context as a beat finds them: a wait that stands keeps the beat it began in. A context that overran at
its WAIT is still held back by its counter (spec/17 R451). -/
def Core.waitFrom (x : Core) (beat : Nat) (k : Ctx) : CtxState :=
  let t := x.ctx k
  let f := fieldsY (x.fetch k)
  { t with waiting := if (t.running || t.overran) && x.atWait k then some (f.ctr, f.value, match t.waiting with | some w => w.2.2 | none => beat) else none }

/-- The waits that stand at the end of a beat. -/
def Core.markWaits (x : Core) (beat : Nat) : Core := allCtxs.foldl (fun x k => x.modCtx k fun _ => x.waitFrom beat k) x

/-- The far end's escape buffers are all in use at the end of a beat: since which one (spec/17 R452). -/
def ReduitPort.markDry (q : ReduitPort) (beat : Nat) : ReduitPort :=
  { q with dry := if q.trained && q.escape == 0 then some (q.dry.getD beat) else none }

/-- The beat counter advances; the flags of one beat start again. -/
def State.newBeat (s : State) : State :=
  let rest := s.restNext && s.windowDone.contains .verdict
  let s := s.mapCores fun _ x => (x.closeLog s.beat).markWaits s.beat
  let mismatch := allPorts.any fun p => (s.port p).mismatch
  let strayed := allPorts.any fun p => (s.port p).strayed
  let s := s.mapPorts fun _ q => ReduitPort.markDry { q with mismatch := false, strayed := false } s.beat
  let s := s.modTympan fun t => t.nextBeat s.rest
  let s := { s with
    refTime := s.refTime + (s.tempoNow - s.phase), beat := s.beat + 1, phase := 0, windowDone := [], rest, tempoPrev := s.tempo.vote
    t := if s.dev = devRunning && !rest then s.t + 1 else s.t
    copyLag := s.copyLag && s.windowDone.contains .lag
    fenceMargin := false, lateMarginNow := s.lateMargin
    minMargin := match s.beatMargin, s.minMargin with
      | some a, some b => some (min a b)
      | some a, none => some a
      | none, m => m
    beatMargin := none
    agree := if mismatch then 0 else s.agree + 1
    mismatchLast := strayed
    sealedParts := s.windowDone.contains .sealing }
  (if rest then s.countForever 0x80 1 else s).raiseRails

/-- BEAT_START: the first edge of a beat. -/
def execBeatStart (s : State) : Out := if !s.powered then .next s else .next s.newBeat.freeForeign.startStrokes

/-! ## STROKE_ISSUE_CLOSE (spec/02 R43, spec/13 R346) -/

/-- A context is not at its fence: it runs a stroke, or it is check-stopped (spec/03 R85), and has not been found an
overrun yet. -/
def CtxState.unfenced (t : CtxState) : Bool := (t.running && !t.ended || t.stopped) && !t.overran

/-- Contexts that are not at their fences when issue closes, at a core with no roll due. -/
def Core.openCtxs (x : Core) : List Ctx := if x.roll.isSome then [] else allCtxs.filter fun k => (x.ctx k).unfenced

/-- A context is held over in a beat: at its WAIT, and not since five beats. -/
def Core.isHeld (x : Core) (beat : Nat) (k : Ctx) : Bool :=
  x.atWait k && match (x.ctx k).heldSince with | some m => decide (beat < m + 5) | none => true

/-- Issue closes at a core. -/
def Core.closeIssue (x : Core) (beat : Nat) : Core :=
  let held := x.openCtxs.filter (x.isHeld beat)
  let overs := x.openCtxs.filter fun k => !(x.isHeld beat k)
  let x := held.foldl (fun x k => x.modCtx k fun t => { t with heldSince := some (t.heldSince.getD beat) }) x
  let x := overs.foldl (fun x k => x.modCtx k fun t => { t with running := false, heldSince := none, overran := true }) x
  if held.isEmpty then x else x.count jHoldOver 1

/-- Overruns of the module: core key and context, in the order of R43. -/
def State.overruns (s : State) : List (Nat × Ctx) :=
  s.cores.flatMap fun p => (p.2.openCtxs.filter fun k => !(p.2.isHeld s.beat k)).map fun k => (p.1, k)

/-- Every context not at its fence is an overrun, but for those held over. -/
def State.closeIssue (s : State) : State :=
  let overs := s.overruns
  let held := s.cores.any fun p => p.2.openCtxs.any (p.2.isHeld s.beat)
  let s := s.mapCores fun _ x => x.closeIssue s.beat
  let s := if held then s.traceSource 1 else s
  match overs with
  | [] => s
  | (c, k) :: _ => (s.count 1 overs.length).halt 2 k.val (c % 960) (c / 960)

/-- STROKE_ISSUE_CLOSE, at c = 0. -/
def execStrokeIssueClose (s : State) : Out := s.inWindow 0 .close State.closeIssue

/-! ## The journal (spec/13 R335 to R337) -/

/-- The beat record of a core. -/
def Core.commit (x : Core) (s : State) : Core :=
  let r : BeatRec := { beat := s.beat, t := s.t, rest := s.rest, isSealed := false, logFull := x.logFull, entries := x.landLog }
  { x with records := Sparse.put noRecord x.records (s.beat % 16) r }

/-- The beat kept for the records of cores that nothing landed in. -/
def State.logBeat (s : State) : State := { s with beatLog := lastN 16 (s.beatLog ++ [(s.beat, s.t, s.rest, false)]) }

/-- JOURNAL_COMMIT, from c = 0: every core's beat record, and the requests of the write class that carry the journal to its
stack (spec/13 R336, R337). -/
def execJournalCommit (s : State) : Out :=
  s.inWindow 0 .commit fun s => (s.mapCores fun _ x => x.commit s).logBeat.journalWrites

/-- The record of a beat sealed. -/
def Core.sealBeat (x : Core) (beat : Nat) : Core :=
  { x with records := Sparse.mapAll noRecord (fun _ r => if r.beat = beat then { r with isSealed := true } else r) x.records }

/-- The same of the beat kept for the other cores. -/
def State.sealLog (s : State) : State :=
  { s with beatLog := s.beatLog.map fun b => if b.1 = s.beat then (b.1, b.2.1, b.2.2.1, true) else b }

/-- JOURNAL_SEAL, at c = 24. -/
def execJournalSeal (s : State) : Out := s.inWindow 24 .sealing fun s => (s.mapCores fun _ x => x.sealBeat s.beat).sealLog

/-! ## Holds (spec/02 R46, R53; spec/13 R345) -/

/-- The ROLL hold source: a copy roll pending, or a context that would still lag after beat m + 2. -/
def State.rollHold (s : State) : Bool :=
  let u := if s.holdSent then 0 else 1
  decide (0 < s.copyRolls) || s.anyCtx fun t => t.enabled && !t.ended && decide (t.n + 2 < s.t + u + 1)

/-- The hold sources of HOLD_SOURCES, bits [8:0]. -/
def State.sampleHolds (s : State) : BitVec 9 :=
  BitVec.ofNat 9 (bit s.rollHold + 2 * bit s.copyLag + 4 * bit s.fenceMargin + 8 * bit s.powerHold + 16 * bit s.holdForce +
    32 * bit (s.dev == devHalted) + 64 * bit (s.dev == devKnell) + 128 * bit s.silent + 256 * bit s.alignLost)

/-- The voted downbeat. -/
def State.downbeat (s : State) : Nat := s.downbeatLo.vote.toNat + 2 ^ 32 * s.downbeatHi.vote.toNat

/-- Byte i of a SHA-512 digest. -/
def digestByte (d : BitVec 512) (i : Nat) : Byte := BitVec.ofNat 8 (d.toNat / 256 ^ (63 - i))

/-- The first 16 bytes of a digest, as a little-endian number. -/
def digest16 (d : BitVec 512) : BitVec 128 := BitVec.ofNat 128 (leNat ((List.range 16).map (digestByte d)))

/-- The digest of the image; 0 with none. -/
def State.ownDigest (s : State) : BitVec 128 := match s.image with | some i => digest16 i.digest | none => 0

/-- The ports used by the torus. -/
def State.usedPorts (s : State) : List RPort := allPorts.filter fun p => !(s.port p).unused

/-- In the boundary windows of beats d and d + 1 the downbeat and the digest go out on every used port, the digest behind the
downbeat in the body (DESIGN CHOICE, notes/assumptions/37). -/
def State.sendDownbeat (s : State) : State :=
  if (s.dev = devRunning || s.dev = devHalted) && (s.beat == s.downbeat || s.beat == s.downbeat + 1) then
    let body : BitVec 320 := BitVec.ofNat 320 (s.downbeat + s.ownDigest.toNat * 2 ^ 64)
    (s.usedPorts.filter fun p => !(s.port p).loopback).foldl (fun s p => s.post p 3 body) s
  else s

/-- A hold tag known and sent on. -/
def State.sendHold (s : State) (tag : Nat) (from_ : Option RPort) : State :=
  { s with holds := addOnce tag s.holds, sbOut := s.sbOut ++ (s.relayPorts from_).map fun p => .hold p tag }

/-- The hold bit of the beat; a tag that was relayed already is not sent a second time (spec/02 R47). -/
def State.holdBit (s : State) : State :=
  let v := s.sampleHolds
  let s := (s.modTympan fun t => { t with powerHold := s.powerHold }).sendDownbeat
  let s := { s with holdSources := v, holdSent := v != 0 }
  if v = 0 || s.holds.contains s.beat then s else s.sendHold s.beat none

/-- HOLD_SAMPLE, at c = 4. -/
def execHoldSample (s : State) : Out := s.inWindow 4 .hold State.holdBit

/-- Beats for which hold tags are kept. -/
def holdsKept : Nat := 8

/-- In beat d + 1 every used port must have brought the same downbeat and digest (R53). -/
def State.downbeatCheck (s : State) : State :=
  if (s.dev = devRunning || s.dev = devHalted && s.haltTime = s.refTime) && s.beat == s.downbeat + 1 then
    let own := (BitVec.ofNat 64 s.downbeat, s.ownDigest)
    if s.usedPorts.all fun p => (s.port p).downbeat == some own then s else s.halt 4 0 0 0
  else s

/-- HOLD_VERDICT, at c = 36: any hold tagged n − 1 makes beat n + 1 a rest beat. -/
def execHoldVerdict (s : State) : Out :=
  s.inWindow 36 .verdict fun s =>
    let rest := decide (0 < s.beat) && s.holds.contains (s.beat - 1)
    State.downbeatCheck { s with restNext := rest, holds := s.holds.filter fun n => decide (s.beat ≤ n + holdsKept) }

/-! ## Snapshot, power, copy lag -/

/-- BOUNDARY_SNAPSHOT, at c = 8. -/
def execBoundarySnapshot (s : State) : Out :=
  s.inWindow 8 .snap fun s => { s with boundary := s.takeCapture, control := { s.control with summary := s.summary } }

/-- POWER_STEP, at c = 12; while no rail is up, the Tympan's own step from the time its clock is valid. -/
def execPowerStep (m : Measure) (s : State) : Out :=
  if !s.powered && s.tympan.refclk then .next (s.chargeStep m) else s.inWindow 12 .power fun s => (s.measured m).setpoint.slackSend.levelDecision

/-- MUFFLE_CLOCK_STOP, at c = 16 of the last beat of a bar. -/
def execMuffleClockStop (s : State) : Out :=
  s.inWindow 16 .clock fun s => if (s.beat + 1) % 100 = 0 then { s with arithStopped := true } else s

/-- An outstanding copy that has not landed is DUE in the next stroke beat (spec/08 R205). -/
def Core.lags (x : Core) (strokes : Nat) : Bool :=
  x.slots.any (fun sl => sl.due && !sl.landed && sl.issuedT == strokes) || x.cpys.any fun y => y.due && y.issuedT == strokes

/-- COPY_LAG_CHECK, at the last cycle of the beat. -/
def execCopyLagCheck (s : State) : Out :=
  s.inWindow 39 .lag fun s => { s with copyLag := !s.restNext && s.cores.any fun p => p.2.lags s.t }

/-! ## Bars (spec/02 R56, spec/12 R322 to R324) -/

/-- Cycles stretched in a bar beyond which a trim rises. -/
def stretchLimit : Nat := 5000

/-- Trims rise where a slab stretched too often; each step counted. -/
def State.trimSlabs (s : State) : State :=
  let up := s.tympan.stretched.filter fun p => decide (stretchLimit < p.2) && decide ((Sparse.look 0 s.tympan.trim p.1).toNat < 5)
  let s := s.modTympan fun t => { t with
    trim := up.foldl (fun m p => Sparse.put 0 m p.1 (Sparse.look 0 m p.1 + 1)) t.trim, stretched := [] }
  if up.isEmpty then s else s.count mTrimStep up.length

/-- The level of the new bar. -/
def State.newBar (s : State) : State :=
  let s := s.countForever (0x88 + s.level.toNat) 1
  let l := s.barLevel
  let s := { s with level := BitVec.ofNat 3 l, arithStopped := l == 7 }
  (s.modTympan fun t => { t with slabLevel := if t.testV then t.slabLevel else BitVec.ofNat 3 (min l 6) }).trimSlabs

/-- BAR_BOUNDARY. -/
def execBarBoundary (s : State) : Out := s.atStart .bar fun s => if s.beat % 100 = 0 then s.newBar else s

/-! ## RT registers (spec/15 R398) -/

/-- Registers among the RT registers whose copies differ. -/
def State.rtDiffer (s : State) : Nat :=
  bit s.deviceState.differs + bit s.imageValid.differs + bit s.tempo.differs + bit s.downbeatLo.differs +
    bit s.downbeatHi.differs + bit s.launchCount.differs + bit s.jobCap.differs + s.sems.countP fun p => p.2.differs

/-- RT_SCRUB: every RT register voted and repaired, one repair counted for each. -/
def execRtScrub (s : State) : Out :=
  if !s.powered then .next s
  else
    let n := s.rtDiffer
    let s := { s with
      deviceState := s.deviceState.scrub, imageValid := s.imageValid.scrub, tempo := s.tempo.scrub
      downbeatLo := s.downbeatLo.scrub, downbeatHi := s.downbeatHi.scrub, launchCount := s.launchCount.scrub
      jobCap := s.jobCap.scrub, sems := Sparse.mapAll (Triple.all 0) (fun _ t => t.scrub) s.sems }
    .next (if n = 0 then s else s.count 0 n)

/-! ## The downbeat (spec/02 R52) -/

/-- A context at the downbeat. -/
def CtxState.atDownbeat (t : CtxState) : CtxState := { enabled := t.enabled, entry := t.entry, pc := t.entry }

/-- A core at the downbeat: registers, AF, statistics, sync counters, banks and dither start again (spec/03 R65, R75;
spec/06 R140; spec/07 R172; spec/09 R223; spec/04 R118). -/
def Core.atDownbeat (x : Core) : Core :=
  { x with
    ctxs := x.ctxs.map fun _ t => t.atDownbeat
    last := none, pace := {}, af := [], afBad := [], banks := Quad.all {}, stat := [], statBad := [], ctrs := [], arrayQ := []
    checkpoints := [], saves := [], roll := none, rolling := false, rollMore := [], rollFound := [], rollSeq := 0
    unrepairedStat := [], lost := x.lost.filter fun q => q.1 == 1 }

/-- The level from the downbeat to the first bar boundary: M0, apart from the levels that retention and the thermal response
have set, which go no slower than the image floor (spec/12 R323, spec/02 R57; DEDUCED, notes/assumptions/187). -/
def State.downbeatLevel (s : State) : Nat :=
  if s.tympan.stage1 || (s.tympan.rideRetain && s.tympan.rideRest) then min s.level.toNat s.floor.toNat else 0

/-- The module enters RUNNING. -/
def State.enterRunning (s : State) : State :=
  match s.image with
  | none => s
  | some i =>
    let s := s.setDev devRunning
    let s := { s with
      armed := false, tempo := Triple.all i.tempo, launchCount := Triple.all (s.launchCount.vote + 1)
      level := BitVec.ofNat 3 s.downbeatLevel, arithStopped := false, t := if s.rest then 0 else 1, ditherSeed := some (i.dseed, i.rank)
      beatMargin := none, minMargin := none, fenceMargin := false }
    let s := s.modTympan fun t => { t with planLevel := if t.stage1 then i.floor else 0, slabLevel := s.level }
    let s := s.mapPorts fun _ q => { q with downbeat := none }
    (s.mapCores fun _ x => x.atDownbeat).startStrokes

/-- DOWNBEAT_ENTRY: at the first edge of beat d. -/
def execDownbeatEntry (s : State) : Out :=
  if s.powered && s.dev == devLoaded && s.armed && s.phase == 0 && s.beat == s.downbeat then .next s.enterRunning else .next s

/-! ## Trace epochs (spec/17 R448) -/

/-- Epoch records of every traced slab. -/
def State.epochs (s : State) : State := s.tracedSlabs.foldl (fun s h => s.traceEvent h (epochRecord s.beat)) s

/-- TRACE_EPOCH: at each beat whose bits [31:0] are 0. -/
def execTraceEpoch (s : State) : Out :=
  s.atStart .epoch fun s => if s.beat % 2 ^ 32 = 0 && s.traceOn then s.epochs else s

end Sys2Proof.Machine
end

