-- ==== Sys2Proof/Machine/Knell.lean ====
section
/-! DEFINITION. The knell: thresholds, entry, notices (spec/13 R358, R359; spec/10 R266, R267). -/

namespace Sys2Proof.Machine

open Sys2Proof

/-- Events of a kind within a window. -/
def State.recent (s : State) (kind window : Nat) : List FaultEvent :=
  s.faults.history.filter fun e => e.kind == kind && decide (s.refTime < e.time + window)

/-- Those charged to a place. -/
def State.recentAt (s : State) (kind window : Nat) (p : Charged) : Nat := (s.recent kind window).countP fun e => e.place == p

/-- The place names a core. -/
def chargedCore (p : Charged) : Bool := match p with | .core _ => true | _ => false

/-- The place names a stack. -/
def chargedStack (p : Charged) : Bool := match p with | .stack _ => true | _ => false

/-- A limit of R358 is reached at a place. -/
def State.limitReached (s : State) (cause : Nat) (p : Charged) : Bool :=
  let day := 24 * hour
  match cause with
  | 1 => chargedCore p && decide (2 ≤ s.recentAt 1 day p)
  | 2 => decide (3 ≤ (s.recent 2 day).length)
  | 3 => decide (1000 ≤ (s.recent 3 hour).length)
  | 4 => chargedStack p && (decide (2 ≤ s.recentAt 4 day p) || decide (1000000 ≤ s.recentAt 5 hour p))
  | 5 => chargedStack p && decide (2 ≤ s.recentAt 6 day p)
  | 6 => decide (1 ≤ (s.faults.history.countP fun e => e.kind == 7))
  | 7 => decide (1 ≤ (s.faults.history.countP fun e => e.kind == 8))
  | _ => false

/-- KNELL_CAUSE of a cause and place. -/
def knellWord (cause : Nat) (p : Charged) : Word :=
  match p with
  | .core c => BitVec.ofNat 32 (cause + c.x.val * 2 ^ 4 + c.y.val * 2 ^ 14)
  | .stack h => BitVec.ofNat 32 (cause + h.val * 2 ^ 23)
  | .module => BitVec.ofNat 32 cause

/-- The body of a KNELL message: coordinates, serial number, cause (notes/assumptions/37). -/
def knellBody (coord : BitVec 10) (serial : DWord) (cause : Nat) : BitVec 320 :=
  BitVec.ofNat 320 (coord.toNat + serial.toNat * 2 ^ 16 + cause * 2 ^ 80)

/-- The module enters the knell: no stroke starts, the permanent hold stands, the notice goes out, the flag is written,
the state is KNELL (spec/13 R359). -/
def State.enterKnell (s : State) (cause : Nat) (p : Charged) : State :=
  let s := s.setDev devKnell
  let s := { s with
    faults := { s.faults with knellCause := knellWord cause p, knellBeat := BitVec.ofNat 64 s.beat }
    record := { s.record with knell := true, knellOk := true } }
  s.flood 4 (knellBody s.coord Config.serial cause) none

/-- KNELL_ENTRY: a count has reached its limit. -/
def execKnellEntry (cause : BitVec 4) (at_ : Charged) (s : State) : Host.Outcome State Fault Refusal :=
  if s.powered && s.dev != devKnell && s.dev != devStarting && s.limitReached cause.toNat at_ then
    .next (s.enterKnell cause.toNat at_)
  else .next s

/-- KNELL_MESSAGE: recorded for the wait-for graph and relayed once on every other port (spec/13 R359); a port out of service for a
test takes none (spec/10 R269). -/
def execKnellMessage (p : RPort) (coord : BitVec 10) (serial : DWord) (cause : BitVec 4) (s : State) :
    Host.Outcome State Fault Refusal :=
  if !s.powered || (s.port p).loopback || s.faults.knells.contains (coord, serial, cause) || serial == Config.serial then .next s
  else
    .next (State.flood { s with faults := { s.faults with knells := s.faults.knells ++ [(coord, serial, cause)] } } 4
      (knellBody coord serial cause.toNat) (some p))

/-- RELAY_FAIL: a relay path of the sideband stops; with both failed the module has a fault of class 0x0A
(spec/10 R267, spec/13 R332). -/
def execRelayFail (path : Fin 2) (s : State) : Host.Outcome State Fault Refusal :=
  if !s.powered || !s.relay.getLsbD path.val then .next s
  else
    let s := { s with relay := s.relay &&& (if path = 0 then 2 else 1) }
    .next (if s.relay = 0 then s.fault 0x0A .module 0 0 0 else s)

end Sys2Proof.Machine
end

