-- ==== Sys2Proof/Machine/Align.lean ====
section
/-! DEFINITION. Alignment and the sideband (spec/02 R31 to R35, R47, R50, R53; spec/10 R251, R265, R266; spec/12
R326). -/

namespace Sys2Proof.Machine

open Sys2Proof

/-! ## SIDEBAND_FRAME (spec/02 R34, R47, R50) -/

/-- Whole reference cycles of a delay in 1/16 cycles, rounded. -/
def wholeCycles (d : BitVec 16) : Nat := (d.toNat + 8) / 16

/-- The own count and phase some cycles ago, less than a beat. -/
def State.ago (s : State) (n : Nat) : Nat × Nat :=
  if n ≤ s.phase then (s.beat, s.phase - n) else (s.beat - 1, s.phase + s.tempoPrev.toNat - n)

/-- A frame's stamp agrees with the own counters and the delay, to within one reference cycle (notes/assumptions/38). -/
def State.stampAgrees (s : State) (delay : BitVec 16) (f : SbFrame) : Bool :=
  let q := wholeCycles delay
  [q - 1, q, q + 1].any fun n =>
    let v := s.ago n
    v.1 % 256 == f.beatLo.toNat && v.2 == f.phase.toNat

/-- The sender's beat, the one nearest the own whose low 8 bits the frame gives. -/
def State.senderBeat (s : State) (lo : BitVec 8) : Nat :=
  let base := s.beat + 128
  base - (base + 256 - lo.toNat) % 256

/-- A tag reaches the module after its verdict (spec/02 R47). -/
def State.isLate (s : State) (tag : Nat) : Bool :=
  decide (tag + 1 < s.beat) ||
    (tag + 1 == s.beat && (s.windowDone.contains .verdict || decide (s.windowAt + 36 < s.phase)))

/-- A hold received: relayed once; late, it is counted and halts a job that runs or is armed. -/
def State.takeHold (s : State) (p : RPort) (tag : Nat) : State :=
  if s.holds.contains tag then s
  else
    let late := s.isLate tag
    let s := s.sendHold tag (some p)
    if late then (s.count 2 1).halt 3 0 0 0 else s

/-- The hold tags of a frame. -/
def State.tagsOf (s : State) (f : SbFrame) : List Nat :=
  let b := s.senderBeat f.beatLo
  (List.range 4).filterMap fun k => if f.holdNew.getLsbD k && decide (k ≤ b) then some (b - k) else none

/-- A mismatch found on a port: counted once a beat. Between two aligned modules it may cost the alignment, in two beats in a
row: a module that powers up beside an aligned torus does not disturb it (R33; notes/assumptions/38). -/
def State.mismatchAt (s : State) (p : RPort) (f : SbFrame) : State :=
  let s := if (s.port p).mismatch then s else (s.modPort p fun q => { q with mismatch := true }).count 3 1
  if s.aligned && f.aligned then
    let s := s.modPort p fun q => { q with strayed := true }
    if s.mismatchLast then { s with alignLost := true } else s
  else s

/-- The stamp of a frame judged, once the delay of the port is measured. -/
def State.judgeStamp (s : State) (p : RPort) (f : SbFrame) : State :=
  if (s.port p).delay != 0 && !s.stampAgrees (s.port p).delay f then s.mismatchAt p f else s

/-- The body of an ALIGN message: count, phase, tempo on this edge, one after another from bit 0 (DESIGN CHOICE,
notes/assumptions/37). -/
def State.alignBody (s : State) : BitVec 320 :=
  BitVec.ofNat 320 (s.beat % 2 ^ 64 + s.phase * 2 ^ 64 + s.tempoNow * 2 ^ 76)

/-- A module that has its count, the root from its election on, is the source of an unaligned neighbour (spec/02 R31,
step 4). -/
def State.serveAlign (s : State) (p : RPort) (f : SbFrame) : State :=
  if (s.counted || s.aligned) && !f.aligned then s.post p 2 s.alignBody else s

/-- The 64 bytes of a sideband frame (spec/10 R265). -/
def sbBytes (f : SbFrame) : List Byte :=
  leBytes 64 (f.beatLo.toNat + f.phase.toNat * 2 ^ 8 + bit f.aligned * 2 ^ 20 + f.holdNew.toNat * 2 ^ 24 +
    f.msgType.toNat * 2 ^ 64 + f.body.toNat * 2 ^ 72)

/-- The fields of a sideband frame; reserved bits are not looked at. -/
def sbFrameOf (bs : List Byte) : SbFrame :=
  let v := leNat (bs.take 64)
  { beatLo := BitVec.ofNat 8 (bitsOf v 7 0), phase := BitVec.ofNat 12 (bitsOf v 19 8), aligned := bitOf v 20
    holdNew := BitVec.ofNat 4 (bitsOf v 27 24), msgType := BitVec.ofNat 8 (bitsOf v 71 64)
    body := BitVec.ofNat 320 (bitsOf v 391 72) }

/-- The frame is the one whose four fragments the port's accepted link frames brought (spec/10 R261, R265). -/
def ReduitPort.brought (q : ReduitPort) (f : SbFrame) : Bool := q.frags.length == 4 && sbFrameOf q.frags.flatten == f

/-- SIDEBAND_FRAME: the fields of a frame that the port received. Hold tags are taken in while this module is ALIGNED, whether
or not the sender says that it is (DEDUCED, notes/assumptions/42). -/
def execSidebandFrame (p : RPort) (f : SbFrame) (s : State) : Out :=
  let q := s.port p
  if !s.powered || !q.trained || q.loopback || !(q.brought f) then .next s
  else
    let s := s.modPort p fun q => { q with
      frags := [], heard := s.beat, farAligned := f.aligned, silent := q.silent && !(f.aligned && s.stampAgrees q.delay f) }
    let s := (s.judgeStamp p f).serveAlign p f
    let s := if 7 < f.msgType.toNat then s.countPort p 5 1 else s
    .next (if s.aligned then (s.tagsOf f).foldl (fun s tag => s.takeHold p tag) s else s)

/-- NEIGHBOUR_SILENT: nothing heard for more than 2 beats, counted in whole beats: the own count is more than 2 beyond that of
the last frame (DESIGN CHOICE, notes/assumptions/181). -/
def execNeighbourSilent (p : RPort) (s : State) : Out :=
  let q := s.port p
  if s.powered && (q.trained || q.down) && !q.unused && decide (q.heard + 2 < s.beat) then
    .next (s.modPort p fun q => { q with silent := true })
  else .next s

/-! ## Alignment (spec/02 R31) -/

/-- The body of a DELAY_PROBE: its fields one after another from bit 0 (DESIGN CHOICE, notes/assumptions/37). -/
def probeBody (sent received : Word) (echo : BitVec 16) : BitVec 320 :=
  BitVec.ofNat 320 (sent.toNat + received.toNat * 2 ^ 32 + echo.toNat * 2 ^ 64)

/-- DELAY_PROBE: half the round trip of the last own probe is the delay; the probe is answered by the next one
(notes/assumptions/39). -/
def execDelayProbe (p : RPort) (sent received : Word) (echo : BitVec 16) (now : Word) (s : State) : Out :=
  let q := s.port p
  if !s.powered || !q.trained || q.loopback then .next s
  else
    let trip := (now - q.probeSent) - (sent - received)
    let measured := q.probe != 0 && echo == q.probe
    let s := s.modPort p fun q => { q with
      delay := if measured then BitVec.ofNat 16 (trip.toNat / 2) else q.delay
      probesIn := q.probesIn + 1, probeRecv := now, probe := q.probe + 1, probeSent := now }
    .next (s.post p 1 (probeBody now now (s.port p).probesIn))

/-- A count loaded: beat and phase, and with it the port records that name beats. -/
def State.loadCount (s : State) (beat phase : Nat) : State :=
  let s := { s with beat, phase, counted := true, electing := false, agree := 0, windowDone := [], mismatchLast := false }
  s.mapPorts fun _ q => { q with heard := beat, mismatch := false, strayed := false }

/-- A neighbour's count taken: its phase with the delay added, its tempo, one hop farther than it. -/
def State.takeCount (s : State) (delay : BitVec 16) (count : DWord) (phase tempo : BitVec 12) (hops : BitVec 5) : State :=
  let at_ := phase.toNat + wholeCycles delay
  let t := tempo.toNat
  { s.loadCount (count.toNat + at_ / t) (at_ % t) with tempo := Triple.all tempo, tempoPrev := tempo, rootHops := hops + 1, root := false }

/-- The module runs its alignment: the start-up waits at step 0x22 (spec/02 R31 'Alignment runs during start-up'; spec/16
R415, R421, R425). -/
def State.aligning (s : State) : Bool := s.powered && s.control.booting.isSome && !s.aligned

/-- ALIGN_MESSAGE: an unaligned module takes the first aligned neighbour's count, with the delay added, and its tempo. -/
def execAlignMessage (p : RPort) (count : DWord) (phase tempo : BitVec 12) (hops : BitVec 5) (s : State) : Out :=
  let q := s.port p
  if !s.aligning || s.counted || !q.trained || q.loopback || q.delay = 0 || tempo = 0 then .next s
  else .next (s.takeCount q.delay count phase tempo hops)

/-- The lowest serial number seen in the election. -/
def State.lowestSeen (s : State) : DWord :=
  allPorts.foldl (fun a p => match (s.port p).electLow with | some v => if v.toNat < a.toNat then v else a | none => a) Config.serial

/-- ELECT: the lowest number a neighbour has seen; the election goes on with the lowest of both. -/
def execElect (p : RPort) (lowest : DWord) (s : State) : Out :=
  let q := s.port p
  if !s.aligning || s.counted || !q.trained || q.loopback then .next s
  else
    let before := s.lowestSeen
    let s := s.modPort p fun q => { q with
      electLow := some (match q.electLow with | some v => if v.toNat < lowest.toNat then v else lowest | none => lowest)
      electRun := if lowest = Config.serial then q.electRun + 1 else 0 }
    let s := { s with electing := true }
    let low := s.lowestSeen
    .next (if low = before then s.post p 6 (low.zeroExtend 320) else s.flood 6 (low.zeroExtend 320) none)

/-- Frames in a row in which the own serial number must survive on every link. -/
def electFrames : Nat := 64

/-- ROOT_ELECTED: the own number survived 64 frames on every trained link; with no link a module elects itself. -/
def execRootElected (s : State) : Out :=
  let links := allPorts.filter fun p => (s.port p).trained
  if s.aligning && !s.counted && links.all (fun p => decide (electFrames ≤ (s.port p).electRun) && !(s.port p).farAligned) then
    .next { s.loadCount 0 0 with root := true, rootHops := 0 }
  else .next s

/-- Beats in a row in which the counts must agree. -/
def agreeBeats : Nat := 16

/-- TEMPO_MIN of a flood latency (spec/02 R49). -/
def tempoMinOf (span : Nat) : Nat :=
  let m := max 500 (span - 12)
  m + m % 2

/-- Reference cycles of a relay between the port dies, at most (spec/10 R267). -/
def relayCycles : Nat := 8

/-- Reference cycles that a hold waits for fragment 0 of the next frame, and for the merge into the outgoing frame (spec/10 R268). -/
def mergeCycles : Nat := 3

/-- Reference cycles of one hop over a link of a measured delay: the wait for the next frame, the frame, its NAK and the frame
re-sent, each of which takes the delay, the relay between the port dies and the merge (spec/02 R49, spec/10 R268: 32 for the
delay of 7 of a cable of 5 m; DEDUCED, notes/assumptions/150). -/
def hopCycles (delay : BitVec 16) : Nat := 3 * wholeCycles delay + relayCycles + mergeCycles

/-- Latency from a source to a module, where one is known. -/
def latencyTo (d : List (Nat × Nat)) (m : Nat) : Option Nat := (d.find? fun e => e.1 == m).map (·.2)

/-- A flood passes from one end of a link to the other. -/
def floodHop (d : List (Nat × Nat)) (a b cycles : Nat) : List (Nat × Nat) :=
  match latencyTo d a with
  | none => d
  | some v =>
    match latencyTo d b with
    | some w => if v + cycles < w then d.map fun e => if e.1 = b then (b, v + cycles) else e else d
    | none => d ++ [(b, v + cycles)]

/-- A flood passes once over every link, both ways. -/
def floodRound (links : List TorusLink) (d : List (Nat × Nat)) : List (Nat × Nat) :=
  links.foldl (fun d l => floodHop (floodHop d l.a l.b (hopCycles l.delay)) l.b l.a (hopCycles l.delay)) d

/-- Latencies of a flood after some rounds. -/
def floodRounds (links : List TorusLink) : (rounds : Nat) → List (Nat × Nat) → List (Nat × Nat)
  | 0, d => d
  | n + 1, d => floodRounds links n (floodRound links d)

/-- The modules that links name. -/
def modulesOf (links : List TorusLink) : List Nat := (links.flatMap fun l => [l.a, l.b]).foldl (fun a m => addOnce m a) []

/-- The largest flood latency from any module to any other over the links of a torus (spec/02 R49). -/
def floodSpan (links : List TorusLink) : Nat :=
  let ms := modulesOf links
  ms.foldl (fun a m => (floodRounds links ms.length [(m, 0)]).foldl (fun a e => max a e.2) a) 0

/-- The links of this module with the delays it measured, itself module 0. -/
def State.ownLinks (s : State) : List TorusLink :=
  (allPorts.filter fun p => (s.port p).trained).map fun p => ⟨0, p.val + 1, (s.port p).delay⟩

/-- The largest latency of an own hop: the part of the torus's delays that this module measures. -/
def State.ownSpan (s : State) : Nat := s.ownLinks.foldl (fun a l => max a (hopCycles l.delay)) 0

/-- ALIGNED set, with VOTE_SPAN and TEMPO_MIN: the largest flood latency over the links of the torus with their measured delays,
and no less than that of an own link (spec/02 R49, notes/assumptions/150); a latency beyond the field of 12 bits stands there
as 4,095 (DESIGN CHOICE, notes/assumptions/182). -/
def State.setAligned (s : State) (links : List TorusLink) : State :=
  let span := min 4095 (max (floodSpan links) s.ownSpan)
  { s with aligned := true, alignLost := false, voteSpan := BitVec.ofNat 12 span, tempoMin := BitVec.ofNat 12 (tempoMinOf span) }

/-! ## Messages about the job and the torus -/

/-- DOWNBEAT_MESSAGE: what a neighbour named; a differing message stands (spec/02 R53). -/
def execDownbeatMessage (p : RPort) (d : DWord) (digest : BitVec 128) (s : State) : Out :=
  if !s.powered || (s.port p).loopback then .next s
  else
    let own := (BitVec.ofNat 64 s.downbeat, s.ownDigest)
    .next (s.modPort p fun q => { q with
      downbeat := match q.downbeat with
        | none => some (d, digest)
        | some v => if v = own then some (d, digest) else some v })

/-- POWER_SLACK: a report of another module is kept and relayed once (spec/12 R326). -/
def execPowerSlack (p : RPort) (body : BitVec 320) (s : State) : Out :=
  let v := Slack.of body
  if !s.powered || (s.port p).loopback || (s.image.isSome && v.rank == s.rank) || s.tympan.slackOld v then .next s
  else .next ((s.modTympan fun t => t.keepSlack v).flood 5 body (some p))

/-- IDENT: the neighbour at the far end. -/
def execIdent (p : RPort) (serial : DWord) (port : BitVec 3) (place : Option (BitVec 10 × BitVec 10)) (s : State) : Out :=
  if !s.powered || (s.port p).loopback then .next s
  else .next (s.modPort p fun q => { q with farSerial := serial, farPort := port, farPlace := place })

end Sys2Proof.Machine
end

