-- ==== Sys2Proof/Machine/Link.lean ====
section
/-! DEFINITION. Reduit links and mesh links: frames, retraining, DOWN, flits (spec/10 R245, R259 to R264). -/

namespace Sys2Proof.Machine

open Sys2Proof

/-- Counters of a Reduit port (spec/17 R437). -/
def pFrameResend : Nat := 0
def pRsCorrected : Nat := 1
def pRsUncorrectable : Nat := 2
def pRetrain : Nat := 3
def pLinkDrop : Nat := 4

/-! ## LINK_FRAME (spec/10 R260, R261) -/

/-- The fields of a frame's header, and its CRC. -/
def frameSeq (raw : List Byte) : Nat := bitsOf (leNat (raw.take 24)) 11 0
def frameAck (raw : List Byte) : Nat := bitsOf (leNat (raw.take 24)) 23 12
def frameNak (raw : List Byte) : Bool := bitOf (leNat (raw.take 24)) 24
def frameSlot (raw : List Byte) (i : Nat) : Nat := bitsOf (leNat (raw.take 24)) (2 * i + 33) (2 * i + 32)
def frameAdaptive (raw : List Byte) : Nat := bitsOf (leNat (raw.take 24)) 70 64
def frameEscape (raw : List Byte) : Nat := bitsOf (leNat (raw.take 24)) 73 71
def frameFrag (raw : List Byte) : Nat := bitsOf (leNat (raw.take 24)) 75 74

/-- The CRC of a frame checks: CRC-32C over bytes 0 to 1,067. -/
def frameCrc (raw : List Byte) : Bool := decide (raw.length = 1072) && leNat (raw.drop 1068) == (crc32c (raw.take 1068)).toNat

/-- The flits of one channel in a frame, in slot order. -/
def frameFlits (raw : List Byte) (channel : Nat) : List Byte :=
  ((List.range 16).filter fun i => frameSlot raw i == channel).flatMap fun i => (raw.drop (40 + 64 * i)).take 64

/-- Torus flits of the packet whose header these bytes begin with (spec/10 R238, R241). -/
def flitsOf (bs : List Byte) : Nat :=
  let h := leNat (bs.take 2)
  let kind := bitsOf h 3 0
  1 + if kind = 1 ∨ kind = 7 ∨ kind = 8 then bitsOf h 10 6 else 0

/-- The whole packets at the front of a receive buffer, by their flits, and the packet under way. -/
def takeWhole : (fuel : Nat) → List Byte → List (List Byte) × List Byte
  | 0, bs => ([], bs)
  | f + 1, bs =>
    if bs.isEmpty || bs.length < 64 * flitsOf bs then ([], bs)
    else
      let r := takeWhole f (bs.drop (64 * flitsOf bs))
      (bs.take (64 * flitsOf bs) :: r.1, r.2)

/-- Adaptive credits returned: they first let waiting flits go. -/
def ReduitPort.credit (q : ReduitPort) (adaptive escape : Nat) : ReduitPort :=
  let paid := min q.owed adaptive
  { q with
    owed := q.owed - paid, adaptive := min 64 (q.adaptive + (adaptive - paid)), escape := min 4 (q.escape + escape)
    dry := if escape = 0 then q.dry else none }

/-- A sideband fragment joins the frame it belongs to. -/
def joinFrag (frags : List (List Byte)) (i : Nat) (frag : List Byte) : List (List Byte) :=
  if i = 0 then [frag] else if i = frags.length then frags ++ [frag] else []

/-- An accepted frame: sequence, acknowledgement, credits, fragment, flits. It ends a retrain (DESIGN CHOICE: spec/10 R262 gives
only its longest duration; notes/assumptions/153). -/
def ReduitPort.accept (q : ReduitPort) (raw : List Byte) (acked : Nat) : ReduitPort :=
  let a := takeWhole 16 (q.rxAdaptive ++ frameFlits raw 1)
  let e := takeWhole 16 (q.rxEscape ++ frameFlits raw 2)
  let whole := (a.1 ++ e.1).filter fun bs => (packetOf bs).isSome
  { q.credit (frameAdaptive raw) (frameEscape raw) with
    seqNext := q.seqNext + 1, ackedSeq := BitVec.ofNat 12 (frameAck raw), nak := false, retraining := false, retrains := 0
    frags := joinFrag q.frags (frameFrag raw) ((raw.drop 24).take 16)
    rxAdaptive := a.2, rxEscape := e.2, rx := q.rx ++ whole
    tx := q.tx.drop acked }

/-- Frames a sender keeps. -/
def framesKept : Nat := 256

/-- LINK_FRAME: accepted if its CRC checks, no codeword is bad and its SEQ is the next; else discarded, with a NAK in the
next own frame. A port under test at depths 1 to 3 is out of service (spec/10 R269). -/
def execLinkFrame (p : RPort) (raw : List Byte) (badCodewords corrected unacked acked : Nat) (s : State) : Out :=
  let q := s.port p
  if !s.powered || !q.trained || q.loopback then .next s
  else
    let s := (s.countPort p pRsCorrected corrected).countPort p pRsUncorrectable badCodewords
    if !frameCrc raw || badCodewords != 0 || frameSeq raw != q.seqNext.toNat then
      .next (s.modPort p fun q => { q with nak := true })
    else
      let s := s.modPort p fun q => q.accept raw acked
      .next (if frameNak raw then s.countPort p pFrameResend (min unacked framesKept) else s)

/-! ## PORT_RETRAIN, DOWN (spec/10 R262, R264) -/

/-- A packet held at a port die is discarded: counted once in LINK_DROP of a port, and a FAIL notice goes to its issuer;
a FAIL notice itself is only counted. -/
def State.discard (s : State) (p : RPort) (d : Die) (v : Packet) : State :=
  let s := s.countPort p pLinkDrop 1
  if v.kind = .fail then s
  else
    (s.abortForeign v).sendDie d (failOf v (EndPt.die s.coord d) 0)

/-- A port becomes DOWN: every packet held for it is discarded. Whole packets that it received before are routed on; a packet of
which flits are missing is not. BUFFER_STATE then shows no credit and no free buffer (DESIGN CHOICE: spec/10 R270 does not say;
notes/assumptions/153). -/
def State.portDown (s : State) (p : RPort) : State :=
  let held := (s.port p).tx
  let s := s.modPort p fun q => { q with
    trained := false, retraining := false, down := true, delay := 0, tx := [], adaptive := 0, owed := 0, escape := 0
    rxAdaptive := [], rxEscape := [], frags := [] }
  held.foldl (fun s v => s.discard p (dieOf p) v) s

/-- Retrains in a row after which a port is DOWN. -/
def maxRetrains : Nat := 3

/-- PORT_RETRAIN: counted, the kept frames are sent again; the third in a row with no accepted frame makes it DOWN. TRAINED
stays 1 while the port retrains (DESIGN CHOICE: spec/10 R270 does not say; notes/assumptions/153). -/
def execPortRetrain (p : RPort) (unacked : Nat) (s : State) : Out :=
  let q := s.port p
  if !s.powered || !q.trained then .next s
  else
    let s := s.countPort p pRetrain 1
    if maxRetrains ≤ q.retrains + 1 then .next (s.portDown p)
    else
      .next ((s.modPort p fun q => { q with retraining := true, retrains := q.retrains + 1 }).countPort p pFrameResend
        (min unacked framesKept))

/-- A trained port: full credits, a new sequence from 0 (DESIGN CHOICE: spec/10 R261 names no first SEQ;
notes/assumptions/153), a far end to be measured. -/
def ReduitPort.train (q : ReduitPort) (serial : DWord) (port : BitVec 3) (half_ : Bool) (beat : Nat) : ReduitPort :=
  { q with
    trained := true, retraining := false, down := false, halfRate := half_, farSerial := serial, farPort := port
    farPlace := none, farAligned := false, delay := 0, adaptive := 64, owed := 0, escape := 4, dry := none, seqNext := 0, ackedSeq := 0
    nak := false, retrains := 0, frags := [], rxAdaptive := [], rxEscape := [], tx := [], probe := 0, probesIn := 0
    electLow := none, electRun := 0, heard := beat }

/-- The start-up has reached the ports, and the die rails are up (spec/16 R415, R421, R425). -/
def State.portsReached (s : State) : Bool := !s.control.stopped && decide (0x20 ≤ s.control.bootStep.toNat)

/-- LINK_TRAINING: a port of a running module trains with its far end; a lane that does not train makes it DOWN
(spec/10 R259, R262). A port that failed its field test stays out of service (spec/16 R418), and no port trains in a module
whose start-up ended before step 0x20 (spec/16 R421, R425). -/
def execLinkTraining (p : RPort) (serial : DWord) (port : BitVec 3) (half_ : Bool) (allLanes : Bool) (s : State) : Out :=
  if !s.powered || (s.port p).trained || (s.port p).failed || !s.portsReached then .next s
  else if allLanes then .next (s.modPort p fun q => q.train serial port half_ s.beat)
  else .next (s.portDown p)

/-! ## MESH_FLIT (spec/10 R245) -/

/-- Failures in a row that make a mesh link a failed link. -/
def maxFlitFails : Nat := 4

/-- A packet that was crossing to a die is gone. -/
def PortDie.crossed (d : PortDie) (p : Packet) : PortDie := { d with transit := removeOne p d.transit }

/-- A packet is lost on a failed mesh link: its copy is aborted with a fault of class 0x05, or its issuer has a fault of
class 0x0B (spec/08 R207, spec/10 R264). -/
def State.meshLost (s : State) (c : CoreId) (p : Packet) : State :=
  let s := s.arrive p
  let s := { s with west := s.west.crossed p, east := s.east.crossed p }
  if p.tag.module ≠ s.coord then s.sendFail p (s.coreEnd c) 0
  else
    match EndPt.coreOf p.tag with
    | none => s.linkLost p.tag
    | some d =>
      match (s.core d).slots.find? fun sl => sl.id == p.slot.toNat with
      | none => if p.slot = 31 then s.linkLost p.tag else s
      | some sl => if sl.aborted then s else (s.copyAbort d p.slot true).fault 5 (.core d) sl.ctx.val 0 0

/-- MESH_FLIT: a flit of the packet on the link at one side of a router, on the packet's plane, with the copies of it that
came, on the packet's channel, each checked by its CRC. Each re-send counted; the fourth failure in a row makes the link failed, a fault of class
0x09. -/
def execMeshFlit (c : CoreId) (side : Fin 5) (tries : List FlitTry) (p : Packet) (s : State) : Out :=
  let link := linkNo (meshLink c.x.val c.y.val side.val (planeOf p))
  let fails := flitFails tries
  if !s.powered || s.failedLinks.contains link || fails = 0 || tries.any (fun t => t.yx == s.onXY p) then .next s
  else
    let s := s.modCore c fun x => x.count jMeshResend (min fails (maxFlitFails - 1))
    if fails < maxFlitFails then .next s
    else
      let s := { s with failedLinks := s.failedLinks ++ [link] }
      .next ((s.meshLost c p).fault 9 (.core c) 0 0 0)

end Sys2Proof.Machine
end

