-- ==== Sys2Proof/Machine/Torus.lean ====
section
/-! DEFINITION. The torus routers of the port dies (spec/10 R248, R252 to R258, R264, R269). -/

namespace Sys2Proof.Machine

open Sys2Proof

/-! ## Leaving -/

/-- Torus flits of a packet. -/
def Packet.flits (v : Packet) : Nat := 1 + match v.kind with | .write | .carillon | .loop => v.blocks | _ => 0

/-- A port can take a packet now. -/
def ReduitPort.sends (q : ReduitPort) : Bool := q.trained && !q.retraining && !q.down && !q.loopback

/-- A packet leaves by a port on the adaptive channel: credits per flit. -/
def State.leaveAdaptive (s : State) (q : RPort) (v : Packet) : State :=
  let n := Packet.flits v
  s.modPort q fun r => { r with
    adaptive := r.adaptive - n, owed := r.owed + (n - r.adaptive), tx := r.tx ++ [{ v with hops := v.hops + 1, via := none }] }

/-- A packet leaves by a port on the escape channel; its buffer is reserved already. -/
def State.leaveEscape (s : State) (q : RPort) (v : Packet) : State :=
  s.modPort q fun r => { r with
    tx := r.tx ++ [{ v with hops := v.hops + 1, via := none, escape := true, escDim := BitVec.ofNat 2 (q.val / 2) }] }

/-- An escape buffer of the next module reserved. -/
def State.reserve (s : State) (q : RPort) : State := s.modPort q fun r => { r with escape := r.escape - 1 }

/-- A packet crosses to the other die, on the next transit row. -/
def State.cross (s : State) (d : Die) (v : Packet) : State :=
  let v' := { v with via := some (d == .east, s.rowOf (.die d) v) }
  (s.modDie d fun x => x.rotate v).modDie (otherDie d) fun x => { x with transit := x.transit ++ [v'] }

/-- A packet waits at a die, with how it came. -/
def State.block (s : State) (d : Die) (from_ : Arrival) (v : Packet) : State :=
  s.modDie d fun x => { x with blocked := addOnce (v, from_) x.blocked }

/-- The member with the most adaptive credits, the first on a tie (spec/10 R254). -/
def State.mostCredit (s : State) (ps : List RPort) : Option RPort :=
  ps.foldl (fun b p => match b with
    | none => some p
    | some o => if (s.port o).adaptive < (s.port p).adaptive then some p else some o) none

/-- The ports of a list with credit for a header flit. -/
def State.withCredit (s : State) (ps : List RPort) : List RPort :=
  ps.filter fun p => (s.port p).sends && decide (0 < (s.port p).adaptive)

/-- A packet on the adaptive channel at a die (spec/10 R253, R254, R264). -/
def State.routeAdaptive (s : State) (d : Die) (from_ : Arrival) (v : Packet) : State :=
  let mins := s.minimal (targetOf v)
  let up := mins.filter fun p => !(s.port p).down
  let own := up.filter fun p => dieOf p == d
  match mins.head?, up, own with
  | none, _, _ => s
  | some first, [], _ => s.discard first d v
  | some _, _ :: _, [] => s.cross d v
  | some _, _ :: _, _ :: _ =>
    match s.mostCredit (s.withCredit own) with
    | some q => s.leaveAdaptive q v
    | none => s.block d from_ v

/-- The packet has left the adaptive channel and stands before the escape channel, in no ring yet: it is marked by a number that
is no dimension's (spec/10 R256). -/
def escapeBound (v : Packet) : Bool := v.escape && v.escDim == 3

/-- The packet goes on along the ring it came by. -/
def goesOn (from_ : Arrival) (v : Packet) (q : RPort) : Bool :=
  match from_ with
  | .port r => v.escape && !(escapeBound v) && r == opposite q
  | _ => false

/-- A packet takes the escape channel at a die, under the bubble rule (spec/10 R254, R255). -/
def State.takeEscape (s : State) (d : Die) (from_ : Arrival) (q : RPort) (v : Packet) : State :=
  let r := s.port q
  if r.down then s.discard q d v
  else if r.sends && decide ((if goesOn from_ v q then 1 else 2) ≤ r.escape) then
    let s := s.reserve q
    if dieOf q = d then s.leaveEscape q v else s.cross d { v with escape := true, escDim := BitVec.ofNat 2 (q.val / 2) }
  else s.block d from_ v

/-- A packet on the escape channel at a die. A packet that crossed has its buffer already. -/
def State.routeEscape (s : State) (d : Die) (from_ : Arrival) (v : Packet) : State :=
  match s.escapePort (targetOf v) with
  | none => s
  | some q =>
    if from_ = .transit && !(escapeBound v) then (if (s.port q).down then s.discard q d v else s.leaveEscape q v)
    else s.takeEscape d from_ q v

/-! ## Ejection (spec/10 R257) -/

/-- Packets a request ejection buffer holds. -/
def ejectMax : Nat := 64

/-- A packet whose dimensions are all complete enters the mesh, a READ through the ejection buffer. -/
def State.eject (s : State) (d : Die) (v : Packet) : State :=
  let v := { v with escape := false, escDim := 0, via := some (d == .east, s.rowOf (.die d) v) }
  if v.kind ≠ .read then s.sendDie d v
  else if ejectMax ≤ (s.die d).eject.length then
    (s.count (0x140 + 0x10 * (match d with | .west => 0 | .east => 1)) 1).sendDie d (refuseOf v)
  else s.modDie d fun x => { (if transits d (s.meshTo v) then x.rotate v else x) with eject := x.eject ++ [v] }

/-- A packet is taken from where it stands: the die where it waits, or else the mesh, the transit rows or what its port
received. -/
def State.taken (s : State) (d : Die) (from_ : Arrival) (v : Packet) : State :=
  if (s.die d).blocked.contains (v, from_) then s.modDie d fun x => { x with blocked := removeOne (v, from_) x.blocked }
  else
  match from_ with
  | .mesh => s.leftMesh v
  | .transit => s.modDie d fun x => { x with transit := removeOne v x.transit }
  | .port r => s.modPort r fun q => { q with rx := removeOne (Packet.wire v) q.rx }

/-- A packet as a port die handles it: one that left the mesh has no row there any more. -/
def Packet.atPort (from_ : Arrival) (p : Packet) : Packet := match from_ with | .mesh => Packet.rowless p | _ => p

/-- The packet is at the port die where it is said to be: sent there by its source endpoint (R253), over no failed mesh
link; come over from the other die; received by a port of the die (R260), or waiting here since. -/
def State.atDie (s : State) (d : Die) (from_ : Arrival) (p : Packet) : Bool :=
  (s.die d).blocked.contains (p, from_) ||
    match from_ with
    | .mesh => s.sourceDie (targetOf p) == some d && !s.stranded p
    | .transit => (s.die d).transit.contains p && !s.strandedCross p
    | .port r => dieOf r == d && (s.port r).rx.contains (Packet.wire p)

/-- SIGs of one core that name one counter leave the module in their order: none overtakes an earlier one that waits at a port
die, and none in flight or received by a port leaves before one that stands before it there (spec/09 R215). -/
def State.sigTurn (s : State) (from_ : Arrival) (p : Packet) : Bool :=
  let same (q : Packet) : Bool := q.kind == .signal && q.slot.toNat == 31 && q.tag == p.tag && q.addr == p.addr
  let waits (d : PortDie) : Bool := d.blocked.any (fun b => same b.1) || d.transit.any same
  !same p || [s.west, s.east].any (fun d => d.blocked.contains (p, from_) || d.transit.contains p) || !([s.west, s.east].any waits) &&
    match from_ with
    | .mesh => s.inOrder p same
    | .transit => true
    | .port r => ((s.port r).rx.find? fun bs => match packetOf bs with | some q => same q | none => false).all (· == Packet.wire p)

/-- A packet that crossed with its escape buffer reserved waits while its port retrains (spec/10 R263). -/
def State.portWaits (s : State) (from_ : Arrival) (q : Option RPort) : Bool :=
  match q with
  | some q => from_ == .transit && !(s.port q).down && !(s.port q).sends
  | none => false

/-- TORUS_ROUTE: a packet at a port die is ejected, leaves by a minimal port, crosses to the other die, waits, or is
discarded. -/
def execTorusRoute (d : Die) (from_ : Arrival) (p : Packet) (s : State) : Out :=
  if !s.powered || p.kind = .loop || !s.atDie d from_ p || !s.sigTurn from_ p then .next s
  else if p.escape && !(escapeBound p) && s.portWaits from_ (s.escapePort (targetOf p)) then .next s
  else
    let own := (s.minimal (targetOf p)).isEmpty
    let s := s.taken d from_ p
    let p := Packet.atPort from_ p
    .next (if own then s.eject d p else if p.escape then s.routeEscape d from_ p else s.routeAdaptive d from_ p)

/-- ESCAPE_MOVE: a packet that waited 64 fabric cycles with no adaptive credit at any minimal port of its die has left the adaptive
channel, and moves to the escape channel, or stays until the bubble rule allows, when TORUS_ROUTE moves it. One whose escape port is DOWN stays on the adaptive channel (DESIGN
CHOICE: spec/10 R256 does not say that it moves and is then discarded; notes/assumptions/153). -/
def execEscapeMove (d : Die) (p : Packet) (s : State) : Out :=
  let own := (s.minimal (targetOf p)).filter fun q => dieOf q == d && !(s.port q).down
  if !s.powered || p.escape || own.isEmpty || own.any (fun q => decide (0 < (s.port q).adaptive)) then .next s
  else
    match (s.die d).blocked.find? (fun b => b.1 == p), s.escapePort (targetOf p) with
    | some b, some q =>
      if (s.port q).down then .next s
      else .next ((s.modDie d fun x => { x with blocked := removeOne b x.blocked }).takeEscape d b.2 q { p with escape := true, escDim := 3 })
    | _, _ => .next s

/-! ## LOOP packets (spec/10 R269) -/

/-- The port a LOOP packet leaves by. -/
def loopPortOf (v : Packet) : Option RPort := if h : v.loopPort.toNat < 6 then some ⟨v.loopPort.toNat, h⟩ else none

/-- The packet has come back to the module that sent it: at depth 4 over two links; at depth 5 by the opposite port, at
the source of a test in progress. -/
def State.loopHome (s : State) (from_ : Arrival) (v : Packet) (q : RPort) : Bool :=
  match from_ with
  | .port r =>
    if v.loopDepth = 4 then v.hops == 2 && r == q
    else v.src.module == s.coord && r == opposite q && s.loopTests.any fun t => t.target == 1 && t.unit.toNat == q.val
  | _ => false

/-- The port a LOOP packet goes out by here: back by the same link at depth 4, on along the ring at depth 5. -/
def loopOut (from_ : Arrival) (v : Packet) (q : RPort) : RPort :=
  match from_ with
  | .port r => if v.loopDepth = 4 then r else q
  | _ => q

/-- A LOOP packet came back: its data are compared with the next packet of the pattern, its HOPS kept. -/
def LoopTest.returned (t : LoopTest) (v : Packet) : LoopTest :=
  let same := (loopData t.seed t.len)[t.back]? == some v.data
  { t with back := t.back + 1, wrong := t.wrong + bit (!same), hops := v.hops
           hopsSame := t.hopsSame && (t.back == 0 || t.hops == v.hops) }

/-- The test that a returned LOOP packet belongs to takes it. -/
def State.loopBack (s : State) (v : Packet) (q : RPort) : State :=
  { s with loopTests := s.loopTests.map fun t =>
      if t.target == 1 && t.unit.toNat == q.val && t.depth == v.loopDepth then t.returned v else t }

/-- The packet is at the port die where it is said to be; a LOOP packet of this module begins at the die of its port. -/
def State.loopAt (s : State) (d : Die) (from_ : Arrival) (v : Packet) (q : RPort) : Bool :=
  match from_ with
  | .mesh => dieOf q == d
  | _ => s.atDie d from_ v

/-- LOOP_PACKET: turned back by the neighbour, passed round the ring, or home. A packet that is turned back enters the ring the
other way: it takes two free buffers (DESIGN CHOICE: spec/10 R255 does not name the turn-back; notes/assumptions/153). -/
def execLoopPacket (d : Die) (from_ : Arrival) (p : Packet) (s : State) : Out :=
  if !s.powered || p.kind ≠ .loop then .next s
  else
    match loopPortOf p with
    | none => .next s
    | some q =>
      if !s.loopAt d from_ p q || s.portWaits from_ (some (loopOut from_ p q)) then .next s
      else
      let s := s.taken d from_ p
      if s.loopHome from_ p q then .next (s.loopBack p q)
      else
        let out := loopOut from_ p q
        .next (if from_ = .transit then (if (s.port out).down then s.discard out d p else s.leaveEscape out p)
          else s.takeEscape d from_ out p)

end Sys2Proof.Machine
end

