-- ==== Sys2Proof/Machine/Host.lean ====
section
/-! DEFINITION. The host ports: semaphores, rings, completions, MSI-X, links and resets (spec/14 R363 to R389). -/

namespace Sys2Proof.Machine

open Sys2Proof

/-! ## Semaphores (spec/14 R384 to R388) -/

/-- The stored owner of a semaphore. -/
def State.sem (s : State) (k : Nat) : Triple 2 := Sparse.look (Triple.all 0) s.sems k

/-- A semaphore stored. -/
def State.setSem (s : State) (k : Nat) (v : Triple 2) : State := { s with sems := Sparse.put (Triple.all 0) s.sems k v }

/-- The owner's code of a port. -/
def ownerCode (p : HPort) : BitVec 2 :=
  match p with
  | .a => 1
  | .b => 2

/-- A port holds a semaphore, by the voted owner. -/
def State.owns (s : State) (p : HPort) (k : Nat) : Bool := (s.sem k).vote == ownerCode p

/-- The owner voted on an access; a repair counted (spec/15 R398). -/
def State.voteSem (s : State) (k : Nat) : State :=
  if (s.sem k).differs then (s.setSem k (s.sem k).scrub).count 0 1 else s

/-- Resource groups by their semaphores (spec/14 R386). -/
def gImage : Nat := 0
def gRun : Nat := 1
def gPower : Nat := 2
def gTrace : Nat := 3
def gTest : Nat := 4
def gSnapshot : Nat := 5
def gDrain : Nat := 6
def gControl : Nat := 7

/-- The port that wins a claim in this beat (spec/14 R388). -/
def State.flam (s : State) : HPort := if s.beat % 2 = 0 then .a else .b

/-- A write ignored for its semaphore or its port. -/
def State.notOwner (s : State) (p : HPort) : State := s.countHost p 3 1

/-- A claim of a semaphore: the value read, and the owner. In a cycle in which both ports claim it, only the winner can
take a free one. -/
def State.acquire (s : State) (p : HPort) (k : Nat) (both : Bool) : Word × State :=
  let s := s.voteSem k
  if s.owns p k then (1, s)
  else if (s.sem k).vote = 0 && (!both || s.flam == p) then (1, s.setSem k (Triple.all (ownerCode p)))
  else (0, s)

/-- A write to a semaphore: its holder frees it; the other port's is counted. -/
def State.releaseSem (s : State) (p : HPort) (k : Nat) : State :=
  let s := s.voteSem k
  if s.owns p k then s.setSem k (Triple.all 0)
  else if (s.sem k).vote = 0 then s
  else s.notOwner p

/-! ## Requests of a port (spec/14 R364, R366, R481; spec/16 R417, R421) -/

/-- A request reaches the module: its rails are up and the port's link is in L0. -/
def State.reached (s : State) (p : HPort) : Bool := s.powered && (s.host p).linkUp && (s.host p).enabled && !(s.host p).slave

/-- No firmware booted: BAR0 answers no register. -/
def State.noFirmware (s : State) : Bool := s.control.stopped && s.control.bootStep == 3

/-- The latch of a port discarded by an access (spec/15 R400). -/
def State.unlatch (s : State) (p : HPort) : State := s.modHost p fun h => { h with latch := none, latch4 := none }

/-- An access of BAR0: nothing when it does not reach the module, an Unsupported Request in D3hot, else what follows. -/
def State.onBar0 (s : State) (p : HPort) (act : State → State) : Host.Outcome State Fault Refusal :=
  if !s.reached p then .next s
  else if (s.host p).d3hot || s.noFirmware then .next (s.emit (.unsupported p))
  else .next (act (s.unlatch p))

/-- The same for a register outside the control page, which ignores writes in STARTING. -/
def State.onRegister (s : State) (p : HPort) (act : State → State) : Host.Outcome State Fault Refusal :=
  s.onBar0 p fun s => if s.dev = devStarting then s else act s

/-! ## The PCI Express function (spec/14 R363) -/

/-- What the configuration space of a port shows of the function: class code, Device Serial Number, and the largest payload and
read request it supports, in bytes. -/
structure PciFunction where
  classCode : BitVec 24
  deviceSerial : DWord
  maxPayload : Nat
  maxRead : Nat
  deriving DecidableEq, Repr

/-- The one function of each port, a processing accelerator. -/
def pciFunction : PciFunction := { classCode := 0x120000, deviceSerial := Config.serial, maxPayload := 512, maxRead := 4096 }

/-! ## Rings (spec/14 R372 to R376) -/

/-- Rings. -/
def allRings : List Ring := List.finRange 8

/-- A submission ring of a port. -/
def HostPort.sq (h : HostPort) (k : Nat) : SubRing := Sparse.look {} h.sqs k

/-- A submission ring changed. -/
def HostPort.modSq (h : HostPort) (k : Nat) (f : SubRing → SubRing) : HostPort :=
  { h with sqs := Sparse.put {} h.sqs k (f (h.sq k)) }

/-- A completion ring of a port. -/
def HostPort.cq (h : HostPort) (k : Nat) : CompRing := Sparse.look {} h.cqs k

/-- A completion ring changed. -/
def HostPort.modCq (h : HostPort) (k : Nat) (f : CompRing → CompRing) : HostPort :=
  { h with cqs := Sparse.put {} h.cqs k (f (h.cq k)) }

/-- Fields of SQ_CFG and CQ_CFG. -/
def cfgLog2 (c : BitVec 9) : Nat := bitsOf c.toNat 3 0
def cfgCq (c : BitVec 9) : Nat := bitsOf c.toNat 6 4
def cfgEnable (c : BitVec 9) : Bool := c.getLsbD 8

/-- Entries of a ring. -/
def ringSize (c : BitVec 9) : Nat := 2 ^ cfgLog2 c

/-- Entries of a completion ring that are filled. -/
def CompRing.filled (q : CompRing) : Nat := (q.tail.toNat + ringSize q.cfg - q.head.toNat) % ringSize q.cfg

/-- An entry is neither filled nor reserved; the ring is full one entry short of its size. -/
def CompRing.hasFree (q : CompRing) : Bool := decide (q.filled + q.reserved + 1 < ringSize q.cfg)

/-- MSI-X vector control: bit 0 of the fourth word masks (PCI Express; notes/assumptions/18). -/
def maskedEntry : BitVec 128 := BitVec.ofNat 128 (2 ^ 96)

/-- An MSI-X table entry. -/
def HostPort.msixEntry (h : HostPort) (v : Nat) : BitVec 128 := Sparse.look 0 h.msix v ^^^ maskedEntry

/-- A vector sent, or left pending while it is masked (spec/14 R376). -/
def State.sendVector (s : State) (p : HPort) (v : BitVec 6) : State :=
  if ((s.host p).msixEntry v.toNat).getLsbD 96 then
    s.modHost p fun h => { h with pendingBits := h.pendingBits ||| BitVec.ofNat 64 (2 ^ v.toNat) }
  else s.emit (.msix p v)

/-- The 32 bytes of a completion entry. -/
def completionBytes (e : HeldEntry) (phase : Bool) (sqHead : BitVec 12) : List Byte :=
  leBytes 32 (e.seq.toNat + e.status.toNat * 2 ^ 32 + e.sq.val * 2 ^ 40 + bit phase * 2 ^ 48 + sqHead.toNat * 2 ^ 64 +
    e.result.toNat * 2 ^ 128)

/-- A completion entry written at the ring's tail, followed by its MSI-X message (spec/14 R375, R376). -/
def State.writeEntry (s : State) (p : HPort) (k : Nat) (e : HeldEntry) : State :=
  let q := (s.host p).cq k
  let n := ringSize q.cfg
  let s := s.emit (.write p (q.base + BitVec.ofNat 64 (32 * q.tail.toNat)) (completionBytes e q.phase ((s.host p).sq e.sq.val).head))
  let s := s.modHost p fun h => h.modCq k fun q => { q with
    tail := BitVec.ofNat 12 ((q.tail.toNat + 1) % n), phase := if q.tail.toNat + 1 = n then !q.phase else q.phase
    reserved := q.reserved - 1 }
  match e.vector with
  | some v => s.sendVector p v
  | none => s

/-- Fields of a submission entry. -/
def entryOpcode (e : BitVec 512) : Nat := bitsOf e.toNat 7 0
def entryIrq (e : BitVec 512) : Bool := e.getLsbD 8
def entryVector (e : BitVec 512) : BitVec 6 := BitVec.ofNat 6 (bitsOf e.toNat 14 9)
def entrySeq (e : BitVec 512) : Word := BitVec.ofNat 32 (bitsOf e.toNat 63 32)

/-- Commands of a port that were to come after the command of the other port's ring k may be processed. -/
def HostPort.freeBehind (h : HostPort) (k : Ring) : HostPort :=
  { h with sqs := Sparse.mapAll {} (fun _ q => if q.behind = some k then { q with behind := none } else q) h.sqs }

/-- The command of a ring was processed first: what came after it in the same cycle follows. -/
def State.passTurn (s : State) (p : HPort) (k : Ring) : State := s.modHost (otherPort p) fun h => h.freeBehind k

/-- The command in progress of a ring ends: its completion entry is written, or held while its completion ring is
disabled (spec/14 R373). -/
def State.complete (s : State) (p : HPort) (k : Ring) (status : Nat) (result : Nat) : State :=
  let q := (s.host p).sq k.val
  match q.active with
  | none => s
  | some e =>
    let cq := q.activeCq.toNat
    let v : HeldEntry :=
      { sq := k, seq := entrySeq e, status := BitVec.ofNat 8 status, result := BitVec.ofNat 128 result
        vector := if entryIrq e then some (entryVector e) else none }
    let s := (s.modHost p fun h => h.modSq k.val fun q => { q with active := none, activeCq := 0, accepted := false, behind := none }).passTurn p k
    if cfgEnable ((s.host p).cq cq).cfg then s.writeEntry p cq v
    else s.modHost p fun h => h.modCq cq fun q => { q with held := q.held ++ [v] }

/-- Completion status codes. -/
def stDone : Nat := 0
def stState : Nat := 1
def stOwner : Nat := 2
def stInvalid : Nat := 3
def stHostRead : Nat := 4
def stImage : Nat := 5
def stCopy : Nat := 6
def stTest : Nat := 7

/-- A command refused: counted by its reason, with no other effect (spec/14 R377). -/
def State.refuse (s : State) (p : HPort) (k : Ring) (status : Nat) : State :=
  let c := if status = stInvalid then 0 else if status = stOwner then 1 else 2
  (s.countHost p c 1).complete p k status 0

/-- The checks of a command in their order: invalid, not owner, state (spec/14 R377). -/
def State.checked (s : State) (p : HPort) (k : Ring) (invalid : Bool) (group : Option Nat) (stateOk : Bool)
    (act : State → State) : State :=
  if invalid then s.refuse p k stInvalid
  else if (match group with | some g => !s.owns p g | none => false) then s.refuse p k stOwner
  else if !stateOk then s.refuse p k stState
  else act s

/-- The command in progress of a ring, if it is of this opcode, not under way already, and not to come after one of the other
port that was taken in the same controller cycle (spec/14 R389). -/
def State.command (s : State) (p : HPort) (k : Ring) (op : Nat) : Option (BitVec 512) :=
  let q := (s.host p).sq k.val
  match q.active with
  | some e => if s.powered && entryOpcode e == op && !q.accepted && q.behind.isNone then some e else none
  | none => none

/-- The command of a ring accepted: it runs over more than one step. -/
def State.accept (s : State) (p : HPort) (k : Ring) : State :=
  (s.modHost p fun h => h.modSq k.val fun q => { q with accepted := true }).passTurn p k

/-- Reserved header bits of an entry are not all 0, or parameter bits outside those named are not. -/
def badEntry (e : BitVec 512) (params : List (Nat × Nat)) : Bool :=
  let v := e.toNat
  let named := params.foldl (fun a r => a + bitsOf v r.1 r.2 * 2 ^ r.2) 0
  bitsOf v 31 15 != 0 || v / 2 ^ 64 * 2 ^ 64 != named

/-- Opcodes the device knows (spec/14 R378). -/
def knownCommand (e : BitVec 512) : Bool :=
  let op := entryOpcode e
  decide (1 ≤ op ∧ op ≤ 10) && (op != 8 || decide (1 ≤ bitsOf e.toNat 71 64 ∧ bitsOf e.toNat 71 64 ≤ 5))

/-- The ring can fetch its next entry (spec/14 R373, R374). -/
def HostPort.fetches (h : HostPort) (k : Ring) : Bool :=
  let q := h.sq k.val
  let c := h.cq (cfgCq q.cfg)
  cfgEnable q.cfg && q.tail != q.head && q.active.isNone && cfgEnable c.cfg && c.hasFree &&
    !(h.cqs.any fun r => r.2.held.any fun e => e.sq == k)

/-- The ring of a port's last command, while that command is not processed yet. -/
def State.underWay (s : State) (p : HPort) : Option Ring :=
  (s.host p).lastRing.filter fun k => ((s.host p).sq k.val).active.isSome && !((s.host p).sq k.val).accepted

/-- COMMAND_FETCH: the entry at SQ_HEAD fetched, a completion entry reserved, SQ_HEAD advanced. An unknown opcode is
refused at once. Of two commands taken in one controller cycle that of the port that would win a claim is processed first: it
never comes second, and the other waits until it was processed (spec/14 R389; notes/assumptions/168). -/
def execCommandFetch (p : HPort) (k : Ring) (e : Fetched) (s : State) : Host.Outcome State Fault Refusal :=
  let h := s.host p
  let entry := e.bits
  if !s.reached p || h.d3hot || s.dev = devStarting || !h.fetches k || (e.same && s.flam == p) then .next s
  else
    let q := h.sq k.val
    let behind := if e.same then s.underWay (otherPort p) else none
    let s := s.modHost p fun h => { (h.modSq k.val fun q => { q with
        head := BitVec.ofNat 12 ((q.head.toNat + 1) % ringSize q.cfg), active := some entry
        activeCq := BitVec.ofNat 3 (cfgCq q.cfg), accepted := false, behind }).modCq (cfgCq q.cfg) fun c =>
          { c with reserved := c.reserved + 1 } with lastRing := some k }
    .next (if knownCommand entry then s else s.refuse p k stInvalid)

/-! ## Doorbells and configuration (spec/14 R373 to R375) -/

/-- A doorbell of a submission ring. -/
def SubRing.ring (q : SubRing) (v : Word) : SubRing :=
  let i := bitsOf v.toNat 11 0
  if i < ringSize q.cfg then { q with tail := BitVec.ofNat 12 i } else q

/-- A doorbell of a completion ring. -/
def CompRing.ring (q : CompRing) (v : Word) : CompRing :=
  let i := bitsOf v.toNat 11 0
  if i < ringSize q.cfg then { q with head := BitVec.ofNat 12 i } else q

/-- SQ_TAIL_DOORBELL. -/
def execSqTailDoorbell (p : HPort) (k : Ring) (v : Word) (s : State) : Host.Outcome State Fault Refusal :=
  s.onRegister p fun s => s.modHost p fun h => h.modSq k.val fun q => q.ring v

/-- CQ_HEAD_DOORBELL. -/
def execCqHeadDoorbell (p : HPort) (k : Ring) (v : Word) (s : State) : Host.Outcome State Fault Refusal :=
  s.onRegister p fun s => s.modHost p fun h => h.modCq k.val fun q => q.ring v

/-- LOG2 of a written configuration is allowed. -/
def log2Ok (v : Word) : Bool := decide (4 ≤ bitsOf v.toNat 3 0) && decide (bitsOf v.toNat 3 0 ≤ 12)

/-- The configuration after a write: LOG2 and the fields of `keep` stand while ENABLE is 1. -/
def cfgWritten (old : BitVec 9) (v : Word) (fields : Nat) : BitVec 9 :=
  if cfgEnable old then (old &&& 0x7F) ||| BitVec.ofNat 9 (bitsOf v.toNat 8 8 * 2 ^ 8)
  else BitVec.ofNat 9 (v.toNat % 2 ^ fields + bitsOf v.toNat 8 8 * 2 ^ 8)

/-- A write of SQ_CFG. -/
def SubRing.configure (q : SubRing) (v : Word) : SubRing :=
  if !log2Ok v then q
  else
    let cfg := cfgWritten q.cfg v 7
    if cfgEnable cfg && !cfgEnable q.cfg then { q with cfg, head := 0, tail := 0 } else { q with cfg }

/-- A write of CQ_CFG. -/
def CompRing.configure (q : CompRing) (v : Word) : CompRing :=
  if !log2Ok v then q
  else
    let cfg := cfgWritten q.cfg v 4
    if cfgEnable cfg && !cfgEnable q.cfg then { q with cfg, head := 0, tail := 0, phase := true } else { q with cfg }

/-- The held entries of a ring written, first ended first, once it is enabled. -/
def State.flushHeld (s : State) (p : HPort) (k : Nat) : State :=
  let q := (s.host p).cq k
  if cfgEnable q.cfg then
    let s := s.modHost p fun h => h.modCq k fun q => { q with held := [] }
    q.held.foldl (fun s e => s.writeEntry p k e) s
  else s

/-- SQ_CFG_WRITE. -/
def execSqCfgWrite (p : HPort) (k : Ring) (v : Word) (s : State) : Host.Outcome State Fault Refusal :=
  s.onRegister p fun s => s.modHost p fun h => h.modSq k.val fun q => q.configure v

/-- CQ_CFG_WRITE. -/
def execCqCfgWrite (p : HPort) (k : Ring) (v : Word) (s : State) : Host.Outcome State Fault Refusal :=
  s.onRegister p fun s => (s.modHost p fun h => h.modCq k.val fun q => q.configure v).flushHeld p k.val

/-! ## Tests (spec/14 R393, R394) -/

/-- The pattern of a test. -/
def loopBytes (seed n : Nat) : List Byte := (List.range n).map (Config.loopPattern seed)

/-- The unit of a test goes out of service, or comes back with the result of the test. -/
def State.testUnit (s : State) (t : LoopTest) (busy pass : Bool) : State :=
  let d := t.depth
  match t.target.toNat with
  | 0 =>
    let p : HPort := if t.unit = 0 then .a else .b
    s.modHost p fun h => { h with
      loopDepth := d, loopPass := pass, loopBusy := busy, loopOut := busy && decide (d.toNat ≤ 2) }
  | 1 =>
    if h : t.unit.toNat < 6 then
      s.modPort ⟨t.unit.toNat, h⟩ fun q => { q with
        loopDepth := d, loopPass := pass, loopBusy := busy, loopback := busy && decide (d.toNat ≤ 3) }
    else s
  | 2 | 3 =>
    s.modStack ⟨t.unit.toNat, t.unit.isLt⟩ fun h => { h with
      loopDepth := d, loopPass := pass, loopBusy := busy, loopTarget := BitVec.ofNat 3 t.target.toNat, test := busy }
  | _ => s

/-- A test ends. -/
def State.endTest (s : State) (t : LoopTest) (pass : Bool) : State :=
  ({ s with loopTests := s.loopTests.filter (· != t) }).testUnit t false pass

/-! ## Resets and links (spec/14 R383, spec/18 R464) -/

/-- The port releases its semaphores, its queue block clears, its commands end with no completion. -/
def State.clearPort (s : State) (p : HPort) : State :=
  let s := { s with sems := Sparse.mapAll (Triple.all 0) (fun _ t => if t.vote = ownerCode p then Triple.all 0 else t) s.sems }
  let s := s.modHost p fun h => { h with sqs := [], cqs := [], lastRing := none }
  let s := allRings.foldl (fun s k => s.passTurn p k) s
  let s := match s.load with
    | some l => if l.port = p then { s with load := none } else s
    | none => s
  let stop (c : HostCopy) : HostCopy := if c.port = p then { c with failed := true, rest := [] } else c
  let s := { s with hostCopies := s.hostCopies.map stop }
  (s.loopTests.filter fun t => t.port == p).foldl (fun s t => s.endTest t false) s

/-- The port's page registers, MSI-X table and latch reset (spec/15 R401). -/
def HostPort.resetPage (h : HostPort) : HostPort :=
  { h with bar2Base := 0, debugSlab := 0, msix := [], pendingBits := 0, latch := none, latch4 := none }

/-- The link leaves L0; RATE, FLIT and WIDTH then show nothing in use (spec/14 R392, notes/assumptions/152). -/
def HostPort.linkDown (h : HostPort) : HostPort := { h with linkUp := false, rate := 0, flit := false, width := 0 }

/-- The loss of a port's link, with its effects on the port (R383). -/
def State.loseLink (s : State) (p : HPort) : State :=
  if (s.host p).linkUp then (s.clearPort p).modHost p HostPort.linkDown else s

/-- PORT_RESET. -/
def execPortReset (p : HPort) (e : PortEvent) (s : State) : Host.Outcome State Fault Refusal :=
  if !s.powered then .next s
  else
    let s := s.clearPort p
    match e with
    | .linkLoss => .next (s.modHost p HostPort.linkDown)
    | .d3hot => .next (s.modHost p fun h => { h.resetPage with d3hot := true })
    | .hotReset => .next (s.modHost p fun h => { h.resetPage with d3hot := false })
    | .flr => .next (s.modHost p fun h => { h.resetPage with d3hot := false })

/-- PERST_ASSERT: a conventional reset of the port, which takes its link down. -/
def execPerstAssert (p : HPort) (s : State) : Host.Outcome State Fault Refusal :=
  if !s.powered then .next s
  else .next ((s.clearPort p).modHost p fun h => { h.resetPage.linkDown with d3hot := false, slave := false })

/-- HOST_LINK_UP: the link reaches L0 at a rate, width and encoding the port has (spec/14 R363, R481). -/
def execHostLinkUp (p : HPort) (rate : BitVec 2) (width : BitVec 4) (flit : Bool) (s : State) : Host.Outcome State Fault Refusal :=
  let h := s.host p
  if s.powered && h.enabled && !h.loopOut && rate != 3 && (width == 4 || width == 8) && (flit || rate == 0) then
    .next (s.modHost p fun h => { h with linkUp := true, rate, width, flit, slave := false })
  else .next s

/-- D3HOT_EXIT: the function is back in D0. -/
def execD3hotExit (p : HPort) (s : State) : Host.Outcome State Fault Refusal :=
  if s.powered && (s.host p).d3hot then .next (s.modHost p fun h => { h with d3hot := false }) else .next s

/-- LOOPBACK_SLAVE: a host directs the port into Loopback, or lets it out; in Loopback the link is not in L0, and it
trains again afterwards. -/
def execLoopbackSlave (p : HPort) (enter : Bool) (s : State) : Host.Outcome State Fault Refusal :=
  let h := s.host p
  if !s.powered || !h.enabled then .next s
  else if enter then .next ((s.loseLink p).modHost p fun h => { h with slave := true })
  else .next (s.modHost p fun h => { h with slave := false })

/-! ## Claims (spec/14 R385, R388) -/

/-- SEM_ACQUIRE: a read of SEM_k. -/
def execSemAcquire (p : HPort) (k : Fin 16) (both : Bool) (s : State) : Host.Outcome State Fault Refusal :=
  s.onBar0 p fun s =>
    if s.dev = devStarting then s.emit (.value p 0)
    else
      let r := s.acquire p k.val both
      r.2.emit (.value p r.1)

end Sys2Proof.Machine
end

