-- ==== Sys2Proof/Machine/Registers.lean ====
section
/-! DEFINITION. The register maps: what a read of BAR0 or BAR4 shows (spec/15 R395 to R411 and the blocks' own maps). -/

namespace Sys2Proof.Machine

open Sys2Proof

/-- A word of bit fields. -/
def word (v : Nat) : Word := BitVec.ofNat 32 v

/-- The half of a 64-bit value that stands at a _LO (0) or _HI (1) offset. -/
def halfAt (v : Nat) (hi : Nat) : Word := word (v / 2 ^ (32 * hi))

/-! ## Control page (spec/15 R404) -/

/-- Firmware bytes of a slot. -/
def Record.slot (r : Record) (i : Bool) : List Byte := (if i then r.slot1 else r.slot0).getD Config.shippedFirmware

/-- Firmware of a slot verifies. -/
def Record.valid (r : Record) (i : Bool) : Bool := if i then r.valid1 else r.valid0

/-- The slot that the preferred-slot block names: slot 0 where its signature fails (spec/16 R414). -/
def Record.named (r : Record) : Bool := r.preferredOk && r.preferred

/-- The knell flag: set where its block's signature fails (spec/16 R414). -/
def Record.knellSet (r : Record) : Bool := r.knell || !r.knellOk

/-- FW_SLOT. -/
def State.fwSlot (s : State) : Word :=
  word (bit s.control.runningSlot + 2 * bit s.record.valid0 + 4 * bit s.record.valid1 + 8 * bit s.control.staged)

/-- BOOT_STATUS. -/
def State.bootStatus (s : State) : Word :=
  let c := s.control
  word (c.bootStep.toNat + bit c.testsRunning * 2 ^ 8 + bit c.testsPassed * 2 ^ 9 + bit c.altTaken * 2 ^ 10 +
    bit c.skipped * 2 ^ 11 + bit s.record.knellSet * 2 ^ 12)

/-- MBX_STATUS. -/
def State.mbxStatus (s : State) : Word :=
  word (bit s.control.mbxRun.isSome + 2 * bit s.control.mbxPortB + s.control.mbxResult.toNat * 2 ^ 8)

/-- Bytes 4k to 4k + 3 of the image digest; 0 while no checked image is loaded. -/
def State.digestWord (s : State) (k : Nat) : Word :=
  if s.imageValid.vote = 1 then
    match s.image with
    | some i => word (leNat ((List.range 4).map fun j => digestByte i.digest (4 * k + j)))
    | none => 0
  else 0

/-- A control-page register. -/
def State.controlReg (s : State) (o : Nat) : Option Word :=
  let c := s.control
  match o with
  | 0x00 => some 0x01A17001
  | 0x04 => some (halfAt Config.serial.toNat 0)
  | 0x08 => some (halfAt Config.serial.toNat 1)
  | 0x0C => some (Config.firmwareVersion (s.record.slot c.runningSlot))
  | 0x10 => some s.fwSlot
  | 0x14 => some (word s.deviceState.vote.toNat)
  | 0x18 => some (word s.imageValid.vote.toNat)
  | 0x1C => some (word c.summary.toNat)
  | 0x20 | 0x24 | 0x28 | 0x2C => some (s.digestWord ((o - 0x20) / 4))
  | 0x30 => some s.bootStatus
  | 0x34 => some (word c.bootTime.toNat)
  | 0x80 => some (word c.mbxOp.toNat)
  | 0x84 | 0x88 | 0x8C | 0x90 => some (c.mbxArgs.get (Fin.ofNat 4 ((o - 0x84) / 4)))
  | 0x94 => some 0
  | 0x98 => some s.mbxStatus
  | 0x9C => some (word c.mbxLen.toNat)
  | _ =>
    if 0x40 ≤ o ∧ o < 0x60 then some (Sparse.look 0 c.scratch ((o - 0x40) / 4))
    else if 0x1000 ≤ o ∧ o < 0x2000 then some (word (leNat ((c.mbxData.drop (o - 0x1000)).take 4)))
    else none

/-! ## Clapper, rings (spec/14 R384, R372) -/

/-- A Clapper register, as far as it is not SEM_k. -/
def State.clapperReg (s : State) (p : HPort) (o : Nat) : Option Word :=
  if o < 0x40 then some 0
  else if o = 0x40 then some (word ((List.range 16).foldl (fun a k => a + (s.sem k).vote.toNat * 2 ^ (2 * k)) 0))
  else if o = 0x44 then some (word ((List.range 16).foldl (fun a k => a + bit (s.owns p k) * 2 ^ k) 0))
  else none

/-- A queue register of a port. -/
def HostPort.queueReg (h : HostPort) (o : Nat) : Option Word :=
  let k := o % 0x200 / 0x40
  let r := o % 0x40
  if o < 0x200 then
    let q := h.sq k
    match r with
    | 0 => some (halfAt q.base.toNat 0)
    | 4 => some (halfAt q.base.toNat 1)
    | 8 => some (word q.cfg.toNat)
    | 0xC => some (word q.head.toNat)
    | 0x10 => some (word q.tail.toNat)
    | _ => none
  else if o < 0x400 then
    let q := h.cq k
    match r with
    | 0 => some (halfAt q.base.toNat 0)
    | 4 => some (halfAt q.base.toNat 1)
    | 8 => some (word q.cfg.toNat)
    | 0xC => some (word q.tail.toNat)
    | 0x10 => some (word q.head.toNat)
    | _ => none
  else none

/-! ## Beat and launch (spec/02 R62) -/

/-- ALIGN_STATUS. -/
def State.alignStatus (s : State) : Word :=
  word (bit s.aligned + 2 * bit s.root + 4 * bit s.electing + 8 * bit s.alignLost + 16 * bit s.silent +
    s.rootHops.toNat * 2 ^ 8)

/-- HOLD_SOURCES. -/
def State.holdWord (s : State) : Word :=
  word (s.holdSources.toNat + bit s.holdSent * 2 ^ 16 + bit s.restNext * 2 ^ 17)

/-- A register of the beat and launch block. -/
def State.beatReg (s : State) (o : Nat) : Option Word :=
  match o with
  | 0x00 => some 0
  | 0x04 | 0x08 => some (halfAt s.snapBeat.toNat ((o - 4) / 4))
  | 0x0C => some s.snapPhase
  | 0x10 | 0x14 => some (halfAt s.snapStroke.toNat ((o - 0x10) / 4))
  | 0x18 => some (word s.tempoNow)
  | 0x1C => some (word s.tempoMin.toNat)
  | 0x20 => some (word s.voteSpan.toNat)
  | 0x24 => some s.alignStatus
  | 0x28 => some s.downbeatLo.vote
  | 0x2C => some s.downbeatHi.vote
  | 0x30 => some s.launchCount.vote
  | 0x34 => some s.holdWord
  | 0x38 => some (word (bit s.holdForce))
  | 0x3C => some (word s.lateMargin.toNat)
  | 0x40 => some (word (s.level.toNat + s.floor.toNat * 2 ^ 4))
  | 0x44 => some s.haltCause
  | 0x48 | 0x4C => some (halfAt s.haltBeat.toNat ((o - 0x48) / 4))
  | _ => none

/-! ## Tympan (spec/12 R331) -/

/-- TYMPAN_STATUS. -/
def Tympan.status (t : Tympan) : Word :=
  word (bit t.busOk + 2 * bit t.busLost + 4 * bit t.rideWork + 8 * bit t.rideRetain + 16 * bit t.reserveOk +
    32 * bit t.softStart + 64 * bit t.ballastOn + 128 * bit t.support + 256 * bit t.returning +
    512 * bit (t.stage1 || t.stage2) + 2 ^ 10 * bit t.trip + 2 ^ 11 * bit t.capUnmet + 2 ^ 12 * bit t.powerHold +
    2 ^ 13 * bit t.convFault)

/-- SLAB_V of a slab: the entry in use with the trim, the trim, its level, shown as 6 in retention (spec/12 R322,
R331); in the field tests, and in a knell that ended them before step 0x24, 25 mV above the M0 entry, at most 900 mV (spec/16
R416; that the knell leaves the rails there is DESIGN CHOICE, notes/assumptions/165). -/
def State.slabV (s : State) (i : Nat) : Word :=
  if !s.powered then 0
  else
    let t := s.tympan
    let trim := (Sparse.look 0 t.trim i).toNat
    let level := if t.rideRetain then 6 else t.slabLevel.toNat
    let entry := (Config.voltage i (if t.testV then 0 else t.slabLevel.toNat)).toNat
    let mv := if t.testV then min (entry + 25) 900 else entry + 5 * trim
    word (mv % 2 ^ 10 + trim * 2 ^ 12 + level * 2 ^ 16)

/-- µs since the bus was lost. -/
def State.rideTime (s : State) : Nat := if s.tympan.busLost then min ((s.refTime - s.tympan.rideStart) / 100) 65535 else 0

/-- A Tympan register. -/
def State.tympanReg (s : State) (o : Nat) : Option Word :=
  let t := s.tympan
  let i := o % 0x40 / 4
  match o with
  | 0x00 => some t.status
  | 0x04 => some (word t.slope.toNat)
  | 0x08 => some s.jobCap.vote
  | 0x0C => some (word t.supportCfg.toNat)
  | 0x10 => some (word t.supportV.toNat)
  | 0x14 => some (word t.busV.toNat)
  | 0x18 => some t.busP
  | 0x1C => some (BitVec.ofInt 32 t.busSet.floor)
  | 0x20 => some (word t.demand.floor.toNat)
  | 0x24 => some (word t.peak.floor.toNat)
  | 0x28 => some (word t.kettleV.toNat)
  | 0x2C => some (word t.kettleE.toNat)
  | 0x30 => some (word (t.reserveQ.toNat + t.target.toNat * 2 ^ 16))
  | 0x34 => some (word t.ballastP.toNat)
  | 0x38 => some (word s.rideTime)
  | 0x3C => some (word t.hints.length)
  | 0x140 => some (word (t.portWest.toNat + t.portEast.toNat * 2 ^ 16))
  | 0x144 => some (word (t.inlet.toNat + t.outlet.toNat * 2 ^ 16))
  | 0x150 | 0x154 | 0x158 | 0x15C => some (word (Sparse.look 0 t.ripple ((o - 0x150) / 4)).toNat)
  | 0x160 | 0x164 | 0x168 | 0x16C => some (word (t.limit ((o - 0x160) / 4)).toNat)
  | 0x170 => some (word (t.planLevel.toNat + t.planNeed.toNat * 2 ^ 4 + s.floor.toNat * 2 ^ 8 + bit t.planChosen * 2 ^ 16))
  | _ =>
    if 0x40 ≤ o ∧ o < 0x80 then some (s.slabV i)
    else if 0x80 ≤ o ∧ o < 0xC0 then some (word (Sparse.look 0 t.slabTemp i).toNat)
    else if 0xC0 ≤ o ∧ o < 0x100 then some (word (Sparse.look 0 t.slabP i).toNat)
    else if 0x100 ≤ o ∧ o < 0x140 then some (word (Sparse.look 0 t.stackP i).toNat)
    else none

/-! ## Host-port page, MSI-X (spec/14 R368, R392) -/

/-- A register of a port's page. -/
def State.pageReg (s : State) (p : HPort) (o : Nat) : Option Word :=
  let h := s.host p
  match o with
  | 0x00 => some (word (hostIndex p + 2 * bit h.linkUp + h.rate.toNat * 2 ^ 2 + bit h.flit * 2 ^ 4 + h.width.toNat * 2 ^ 5 +
      bit h.d3hot * 2 ^ 9))
  | 0x04 => some (halfAt h.bar2Base.toNat 0)
  | 0x08 => some (halfAt h.bar2Base.toNat 1)
  | 0x0C => some (word h.debugSlab.toNat)
  | 0x10 => some (word ((List.range 8).foldl (fun a k => a + bit (h.sq k).active.isSome * 2 ^ k) 0))
  | 0x14 => some (word (h.loopDepth.toNat + 8 * bit h.loopPass + 16 * bit h.loopBusy + 32 * bit h.loopOut))
  | _ => none

/-- A word of the MSI-X table or the pending-bit array. -/
def HostPort.msixReg (h : HostPort) (o : Nat) : Option Word :=
  if 0x8000 ≤ o ∧ o < 0x8400 then some (word ((h.msixEntry ((o - 0x8000) / 16)).toNat / 2 ^ (8 * (o % 16))))
  else if o = 0x9000 ∨ o = 0x9004 then some (halfAt h.pendingBits.toNat ((o - 0x9000) / 4))
  else none

/-! ## Reduit ports (spec/10 R270) -/

/-- PORT_STATUS of a Reduit port. -/
def ReduitPort.status (q : ReduitPort) : Word :=
  word (bit q.trained + 2 * bit q.retraining + 4 * bit q.down + 8 * bit q.unused + 16 * bit q.cableMismatch +
    32 * bit q.halfRate + 64 * bit q.loopback)

/-- A register of a Reduit port's page. -/
def ReduitPort.pageReg (q : ReduitPort) (o : Nat) : Option Word :=
  match o with
  | 0x00 => some q.status
  | 0x04 => some (word (if q.unused || q.down then 0 else q.delay.toNat))
  | 0x08 | 0x0C => some (halfAt q.farSerial.toNat ((o - 8) / 4))
  | 0x10 => some (word q.farPort.toNat)
  | 0x14 => some (word (q.adaptive + q.escape * 2 ^ 8))
  | 0x18 => some (word (q.loopDepth.toNat + 8 * bit q.loopPass + 16 * bit q.loopBusy))
  | _ => none

/-- A Reduit register. -/
def State.reduitReg (s : State) (o : Nat) : Option Word :=
  if o < 0x1000 then
    match o with
    | 0x00 => some (word s.coord.toNat)
    | 0x04 => some (word (s.shape.toNat + bit s.shapeValid * 2 ^ 31))
    | 0x08 | 0x0C => some (halfAt Config.serial.toNat ((o - 8) / 4))
    | 0x10 => some (word s.relay.toNat)
    | _ => none
  else if h : o / 0x1000 - 1 < 6 then (s.port ⟨o / 0x1000 - 1, h⟩).pageReg (o % 0x1000)
  else none

/-! ## Stacks, Carillon (spec/08 R209, spec/15 R408, spec/11 R299) -/

/-- BW_SPLIT of the loaded image, or its reset value. -/
def State.bwSplit (s : State) : Word :=
  match s.image with
  | some i => word (i.split.toNat + bit i.fenced * 2 ^ 16 + i.scCache.toNat * 2 ^ 20)
  | none => 0x448

/-- A register of a stack's page. -/
def State.stackReg (s : State) (h : StackId) (o : Nat) : Option Word :=
  let t := s.stack h
  match o with
  | 0x00 => some (word (bit (t.up && !t.test) + 2 * bit t.test + 4 * bit t.lost))
  | 0x04 => some (word t.temp.toNat)
  | 0x08 => some (word (t.loopDepth.toNat + 8 * bit t.loopPass + 16 * bit t.loopBusy + t.loopTarget.toNat * 2 ^ 5))
  | 0x100 => some s.bwSplit
  | 0x104 => some (word (t.reqs.length + t.reqPeak * 2 ^ 16))
  | 0x108 => some (word (t.keptUsed .host))
  | 0x10C => some (word (t.landing.length + t.landingPeak * 2 ^ 16))
  | _ => none

/-- The FILLING blocks of a stack: key and block. -/
def Car.filling (c : Car) : List (Nat × RBlock) := c.blocks.filter fun p => p.2.state == .filling

/-- The oldest of some blocks: the first to become FILLING. -/
def oldestBlock (l : List (Nat × RBlock)) : Option (Nat × RBlock) :=
  l.foldl (fun b p => match b with
    | none => some p
    | some q => if p.2.order < q.2.order then some p else some q) none

/-- Operation i runs or has FILLING blocks. -/
def Car.isRunning (c : Car) (i : Nat) : Bool :=
  (Sparse.look {} c.runs i).running || c.filling.any fun p => p.1 / 2 ^ 32 == i

/-- OP_RUNNING. -/
def Car.runningBits (c : Car) : Nat := (List.range 64).foldl (fun a i => a + bit (c.isRunning i) * 2 ^ i) 0

/-- OP_GEN: of a REDUCE, the generation of its oldest FILLING block. -/
def Stack.opGen (t : Stack) : Word :=
  let i := t.car.opGenSel.toNat
  if (t.op i).kind = kindReduce then
    match oldestBlock (t.car.filling.filter fun p => p.1 / 2 ^ 32 == i) with
    | some p => word (p.2.gen.toNat + 2 ^ 16)
    | none => 0
  else word (t.opRun i).gen.toNat

/-- A Carillon register of a stack. -/
def Stack.carReg (t : Stack) (o : Nat) : Option Word :=
  match o with
  | 0x00 => some (word t.car.stageUse)
  | 0x04 => some (word t.car.spillUse)
  | 0x08 | 0x0C => some (halfAt t.car.runningBits ((o - 8) / 4))
  | 0x10 => some (match oldestBlock t.car.filling with
      | some p => word (p.1 / 2 ^ 32 % 64 + p.2.next % 2 ^ 16 * 2 ^ 8)
      | none => 0)
  | 0x14 => some (match oldestBlock t.car.filling with
      | some p => word (p.1 % 2 ^ 32)
      | none => 0)
  | 0x18 => some (word t.car.opGenSel.toNat)
  | 0x1C => some t.opGen
  | _ => none

/-- A Carillon register. -/
def State.carReg (s : State) (o : Nat) : Option Word :=
  if o = 0 then some (match s.image with | some i => i.carSeed | none => 0)
  else if o = 4 then some 0x10
  else if 0x100 ≤ o ∧ o < 0x1100 then
    match stackAt (o / 0x100 - 1) with
    | some h => (s.stack h).carReg (o % 0x100)
    | none => none
  else none

/-! ## Faults and journal (spec/13 R362) -/

/-- The largest lag of a context behind the torus, up to 3. -/
def State.largestLag (s : State) : Nat :=
  min 3 (s.cores.foldl (fun a p => p.2.ctxs.toList.foldl (fun a t =>
    if t.enabled && !t.ended then max a (s.t - (t.n + 1)) else a) a) 0)

/-- A register of the faults and journal block. -/
def State.faultReg (s : State) (o : Nat) : Option Word :=
  let f := s.faults
  match o with
  | 0x00 => some s.faultStatus
  | 0x04 => some f.lastFault
  | 0x08 | 0x0C => some (halfAt f.lastBeat.toNat ((o - 8) / 4))
  | 0x10 | 0x14 => some (halfAt f.lastAddr.toNat ((o - 0x10) / 4))
  | 0x18 => some (word (min 255 s.coresRolling + min 255 s.copyRolls * 2 ^ 8 + s.largestLag * 2 ^ 16))
  | 0x1C => some f.sdcLast
  | 0x20 | 0x24 => some (halfAt f.sdcBeat.toNat ((o - 0x20) / 4))
  | 0x28 => some (match s.image with | some i => word (i.shadowK.toNat + i.shadowLs.toNat * 2 ^ 8) | none => 0)
  | 0x2C => some f.knellCause
  | 0x30 | 0x34 => some (halfAt f.knellBeat.toNat ((o - 0x30) / 4))
  | _ => none

/-! ## Trace (spec/15 R409) -/

/-- The code of a trace state. -/
def traceCode : TracePhase → Nat
  | .idle => 0
  | .armed => 1
  | .triggered => 2
  | .frozen => 3

/-- A register of the trace and wait-for block. -/
def State.traceReg (s : State) (o : Nat) : Option Word :=
  let t := s.trace
  match o with
  | 0x00 => some (word (traceCode t.phase + 4 * bit t.mode + 8 * bit t.overflow))
  | 0x04 => some t.post
  | 0x08 => some (word t.trig.toNat)
  | 0x0C => some (word t.slabs.toNat)
  | 0x10 | 0x14 => some (halfAt t.snapRecs.toNat ((o - 0x10) / 4))
  | 0x18 | 0x1C => some (halfAt t.trigBeat.toNat ((o - 0x18) / 4))
  | 0x100 => some (word (bit t.building + 2 * bit t.valid + 4 * bit t.cycle))
  | 0x104 | 0x108 => some (halfAt t.wfBeat.toNat ((o - 0x104) / 4))
  | _ => none

/-! ## Counter bank (spec/15 R410, spec/17 R437) -/

/-- An index of the bank that a counter stands at. -/
def counterAt (i : Nat) : Bool :=
  decide (i ≤ 14) || decide (0x10 ≤ i ∧ i ≤ 0x1E) || decide (0x20 ≤ i ∧ i ≤ 0x2E) || decide (0x30 ≤ i ∧ i ≤ 0x33) ||
    decide (0x80 ≤ i ∧ i ≤ 0x82) || decide (0x88 ≤ i ∧ i ≤ 0x8F) || decide (0x100 ≤ i ∧ i < 0x120 ∧ i % 16 < 4) ||
    i == 0x140 || i == 0x150 || decide (0x200 ≤ i ∧ i < 0x260 ∧ i % 16 < 6) || decide (0x400 ≤ i ∧ i < 0x600 ∧ i % 32 < 12) ||
    decide (0x1000 ≤ i ∧ i < 0x1400 ∧ (i % 64 < 26 ∨ (32 ≤ i % 64 ∧ i % 64 < 36) ∨ i % 64 = 63))

/-- A register of the counter bank. -/
def State.bankReg (s : State) (o : Nat) : Option Word :=
  match o with
  | 0x0 => some 0
  | 0x4 | 0x8 => some (halfAt s.capture.beat.toNat ((o - 4) / 4))
  | 0xC => some (word s.capture.phase.toNat)
  | _ =>
    if 0x1000 ≤ o ∧ o < 0x81000 ∧ counterAt ((o - 0x1000) / 8) then
      some (halfAt (Sparse.look 0 s.capture.bank ((o - 0x1000) / 8)).toNat (o % 8 / 4))
    else none

/-! ## BAR0 (spec/15 R395, R407) -/

/-- A register outside the bit window; none at a reserved location. -/
def State.blockReg (s : State) (p : HPort) (off : Nat) : Option Word :=
  let o := off % 0x10000
  match off / 0x10000 with
  | 0x0 => s.controlReg o
  | 0x1 => s.clapperReg p o
  | 0x2 => (s.host p).queueReg o
  | 0x3 => s.beatReg o
  | 0x4 => s.tympanReg o
  | 0x5 =>
    if o < 0x1000 then s.pageReg p o
    else if o < 0x2000 then s.pageReg (otherPort p) (o - 0x1000)
    else (s.host p).msixReg o
  | 0x6 => s.reduitReg o
  | 0x7 => match stackAt (o / 0x1000) with | some h => s.stackReg h (o % 0x1000) | none => none
  | 0x8 => s.carReg o
  | 0x9 => s.faultReg o
  | 0xA => s.traceReg o
  | _ => if 0x100000 ≤ off ∧ off < 0x2000000 then s.bankReg (off - 0x100000) else none

/-- The control-page word and the bit of a bit-window offset. -/
def bitWordOf (off : Nat) : Nat × Nat := (4 * ((off - 0x2000000) / 128), (off - 0x2000000) % 128 / 4)

/-- The offset lies in the bit window of the control page. -/
def inBitWindow (off : Nat) : Bool := decide (0x2000000 ≤ off) && decide (off < 0x2200000)

/-- A word of BAR0 as it stands; none at a reserved location. -/
def State.reg (s : State) (p : HPort) (off : Nat) : Option Word :=
  if off % 4 ≠ 0 then none
  else if inBitWindow off then
    (s.controlReg (bitWordOf off).1).map fun v => word (bit (v.getLsbD (bitWordOf off).2))
  else s.blockReg p off

/-- The registers at their Reset values (spec/16 R417). -/
def State.resetReg (p : HPort) (off : Nat) : Option Word := State.reset.reg p off

/-! ## BAR4 (spec/03 R88, spec/06 R162, spec/09 R237, spec/17 R438, R451, spec/14 R371) -/

/-- A context's state as CTX_STATE shows it. One that is check-stopped or an overrun is not at its fence (spec/03 R85,
spec/02 R43) and shows its stroke as running; an enabled one before its first stroke shows 0b10 (DESIGN CHOICE,
notes/assumptions/145: spec/03 R88 gives it no code). -/
def CtxState.code (t : CtxState) : Nat :=
  if !t.enabled then 0 else if t.running || t.resume || t.stopped || t.overran then 1 else if t.ended then 3 else 2

/-- A sum over the contexts. -/
def Core.sumCtx (x : Core) (f : Nat → CtxState → Nat) : Nat := allCtxs.foldl (fun a k => a + f k.val (x.ctx k)) 0

/-- CTX_STATE. -/
def Core.ctxWord (x : Core) : Word :=
  word (x.sumCtx (fun k t => t.code * 2 ^ (2 * k)) + x.sumCtx fun k t => bit t.stopped * 2 ^ (8 + k))

/-- A sum over the banks. -/
def Core.sumBank (x : Core) (f : Nat → Bank → Nat) : Nat := (x.banks.toList.zipIdx.map fun p => f p.2 p.1).foldl (· + ·) 0

/-- BANK_STATE and ACC_STATE. -/
def Core.bankWord (x : Core) : Word :=
  word (x.sumBank fun b v => (bit v.isOpen + v.owner.toNat * 2 + v.age.toNat * 8) * 2 ^ (8 * b))
def Core.accWord (x : Core) : Word :=
  word (x.sumBank fun b v => bit v.upper * 2 ^ b + bit v.rep * 2 ^ (4 + b))

/-- Flags of counters 32·h to 32·h + 31. -/
def Core.ctrFlags (x : Core) (h : Nat) (f : SyncCtr → Bool) : Word :=
  word ((List.range 32).foldl (fun a k => a + bit (f (Sparse.look {} x.ctrs (32 * h + k))) * 2 ^ k) 0)

/-- A context is held back at a WAIT by its counter: the counter, the VALUE and the beat its wait began, which is the present one
where no earlier beat has found it waiting (spec/17 R451). -/
def Core.waitOf (x : Core) (k : Ctx) (beat : Nat) : Option (BitVec 6 × BitVec 16 × Nat) := (x.waitFrom beat k).waiting

/-- WAIT_STATE. -/
def Core.waitWord (x : Core) (beat : Nat) : Word :=
  word (allCtxs.foldl (fun a k =>
    a + match x.waitOf k beat with
      | some w => (2 ^ 6 + w.1.toNat) * 2 ^ (8 * k.val)
      | none => 0) 0)

/-- WAIT_LONGEST: the longest wait in beats, and its context, the lowest on a tie. -/
def Core.longestWord (x : Core) (beat : Nat) : Word :=
  let best := allCtxs.foldl (fun (b : Option (Nat × Nat)) k =>
    match x.waitOf k beat with
    | none => b
    | some w =>
      let n := beat - w.2.2
      match b with
      | some v => if v.1 < n then some (n, k.val) else b
      | none => some (n, k.val)) none
  match best with
  | some v => word (min v.1 65535 + v.2 * 2 ^ 16)
  | none => 0

/-- A word of a core's page. -/
def Core.pageReg (x : Core) (beat : Nat) (w : Nat) : Option Word :=
  match w with
  | 0x00 => some x.ctxWord
  | 0x04 => some x.check
  | 0x08 | 0x0C | 0x10 | 0x14 => some (word (x.ctx (Fin.ofNat 4 ((w - 8) / 4))).pc.toNat)
  | 0x18 => some x.bankWord
  | 0x1C => some (word x.slots.length)
  | 0x20 => some x.accWord
  | 0x24 | 0x28 => some (x.ctrFlags ((w - 0x24) / 4) (·.sat))
  | 0x2C | 0x30 => some (x.ctrFlags ((w - 0x2C) / 4) (·.zero))
  | 0x34 => some (word (x.landing.length + x.landingPeak * 2 ^ 8))
  | 0x38 => some (x.waitWord beat)
  | 0x3C => some (x.longestWord beat)
  | _ =>
    if w % 4 ≠ 0 then none
    else if (0x40 ≤ w ∧ w < 0xA8) ∨ w = 0xA8 ∨ (0xC0 ≤ w ∧ w < 0xE0) then some (x.counterWord (w / 4))
    else if 0x100 ≤ w ∧ w < 0x200 then some (word (Sparse.look {} x.ctrs ((w - 0x100) / 4)).value.toNat)
    else none

/-- A word of BAR4. -/
def State.debugReg (s : State) (p : HPort) (off : Nat) : Option Word :=
  let h := (s.host p).debugSlab.toNat
  let i := off / 0x200
  if 19200 ≤ i then none
  else
    match coreAt (120 * (h % 8) + i % 120) (160 * (h / 8) + i / 120) with
    | some c => (s.core c).pageReg s.beat (off % 0x200)
    | none => none

/-! ## Pairs and RT registers (spec/15 R398, R400) -/

/-- BAR0 offsets of _LO registers that are not SC. -/
def isLo (off : Nat) : Bool :=
  [0x4, 0x30028, 0x30048, 0x50004, 0x51004, 0x60008, 0x90008, 0x90010, 0x90020, 0x90030, 0xA0018, 0xA0104].contains off ||
    (decide (0x20000 ≤ off ∧ off < 0x20400) && off % 0x40 == 0) ||
    (decide (0x61000 ≤ off ∧ off < 0x67000) && off % 0x1000 == 8) ||
    (decide (0x80100 ≤ off ∧ off < 0x81100) && off % 0x100 == 8)

/-- BAR4 page offsets of _LO words. -/
def isLo4 (off : Nat) : Bool := [0x24, 0x2C, 0xC0, 0xC8, 0xD0, 0xD8].contains (off % 0x200)

/-- The RT registers of BAR0, but for SEM_k. -/
def isRt (off : Nat) : Bool := [0x14, 0x18, 0x30018, 0x30028, 0x3002C, 0x30030, 0x40008].contains off

/-- A read of an RT register repairs copies that differ, counting one repair. -/
def State.voteReg (s : State) (off : Nat) : State :=
  let fix (differs : Bool) (t : State) : State := if differs then t.count 0 1 else s
  match off with
  | 0x14 => fix s.deviceState.differs { s with deviceState := s.deviceState.scrub }
  | 0x18 => fix s.imageValid.differs { s with imageValid := s.imageValid.scrub }
  | 0x30018 => fix s.tempo.differs { s with tempo := s.tempo.scrub }
  | 0x30028 => fix s.downbeatLo.differs { s with downbeatLo := s.downbeatLo.scrub }
  | 0x3002C => fix s.downbeatHi.differs { s with downbeatHi := s.downbeatHi.scrub }
  | 0x30030 => fix s.launchCount.differs { s with launchCount := s.launchCount.scrub }
  | 0x40008 => fix s.jobCap.differs { s with jobCap := s.jobCap.scrub }
  | 0x10040 | 0x10044 => (List.range 16).foldl (fun s k => s.voteSem k) s
  | _ => s

/-- The register a read acts on: a bit-window word reads its control-page word. -/
def actualOff (off : Nat) : Nat := if inBitWindow off then (bitWordOf off).1 else off

end Sys2Proof.Machine
end

