-- ==== Sys2Proof/Machine/Mailbox.lean ====
section
/-! DEFINITION. The controller mailbox: ATTEST, CERT, FW_STAGE (spec/15 R406, spec/16 R413, R419, R423, R433, R434). -/

namespace Sys2Proof.Machine

open Sys2Proof

/-! ## Starting an operation (spec/15 R406) -/

/-- Mailbox operations. -/
def mbxAttest : Nat := 1
def mbxCert : Nat := 2
def mbxStage : Nat := 3

/-- Stack and HBM offset that FW_STAGE's arguments name. -/
def MbxRun.stack (r : MbxRun) : StackId := Fin.ofNat 16 r.a0.toNat
def MbxRun.offset (r : MbxRun) : Nat := r.a1.toNat + r.a2.toNat % 32 * 2 ^ 32

/-- The operation is known and its arguments are in range. -/
def MbxRun.valid (r : MbxRun) : Bool :=
  let op := r.op.toNat
  op == mbxAttest || op == mbxCert ||
    (op == mbxStage && decide (r.a0.toNat < 16) && r.a1.toNat % 4096 == 0 && decide (r.a2.toNat < 32) &&
      decide (4096 ≤ r.a3.toNat) && decide (r.a3.toNat ≤ 0x1000000) && decide (r.offset + r.a3.toNat ≤ hbmSize))

/-- Device states in which an operation is accepted. -/
def mbxAccepted (op dev : Nat) : Bool :=
  if op = mbxStage then dev == devReady || dev == devHalted else dev != devStarting

/-- The RESULT of a refusal; none when the operation starts. -/
def State.mbxRefusal (s : State) (p : HPort) (r : MbxRun) : Option (BitVec 8) :=
  if !r.valid then some 3
  else if !s.owns p gControl then some 2
  else if !mbxAccepted r.op.toNat s.dev then some 1
  else none

/-- A write of MBX_GO. -/
def State.mbxGo (s : State) (p : HPort) (v : Word) : State :=
  let c := s.control
  if v ≠ 1 || c.mbxRun.isSome then s
  else
    let r : MbxRun := ⟨c.mbxOp, c.mbxArgs.q0, c.mbxArgs.q1, c.mbxArgs.q2, c.mbxArgs.q3⟩
    match s.mbxRefusal p r with
    | some code => { s with control := { c with mbxResult := code } }
    | none => { s with control := { c with mbxRun := some r, mbxPortB := p == .b } }

/-- The operation in progress completes: MBX_DATA, MBX_LEN, RESULT, then BUSY. -/
def State.mbxDone (s : State) (result : BitVec 8) (data : List Byte) : State :=
  let out := data.take 4096
  { s with control := { s.control with mbxRun := none, mbxResult := result, mbxData := out, mbxLen := BitVec.ofNat 13 out.length } }

/-- The operation in progress, if it is this one. -/
def State.mbxRunning (s : State) (op : Nat) : Option MbxRun :=
  match s.control.mbxRun with
  | some r => if s.powered && r.op.toNat == op then some r else none
  | none => none

/-! ## The boot journal as bytes (spec/16 R419) -/

/-- An entry of the journal. -/
def BootEntry.bytes (e : BootEntry) : List Byte :=
  leBytes 32 (e.step.toNat + e.result.toNat * 2 ^ 8 + e.unit.toNat * 2 ^ 16 + e.detail.toNat * 2 ^ 32 + e.time.toNat * 2 ^ 64)

/-- Entries of a block. -/
def bootEntries : Nat := 110

/-- The header of a block. -/
def BootBlock.header (b : BootBlock) : List Byte :=
  leBytes 64 (b.attempt.toNat + b.powerup.toNat * 2 ^ 32 + bit b.restart * 2 ^ 64 + bit b.slot * 2 ^ 65 +
    bit b.knellSeen * 2 ^ 66 + b.outcome.toNat * 2 ^ 72 + min b.entries.length bootEntries * 2 ^ 80)

/-- Header, entries and unused bytes of a block. -/
def BootBlock.body (b : BootBlock) : List Byte :=
  let es := (b.entries.take bootEntries).flatMap BootEntry.bytes
  b.header ++ es ++ List.replicate (3520 - es.length) 0

/-- 512 bytes of a signature, most significant byte first (spec/16 R414). -/
def signature (m : List Byte) : List Byte := (leBytes 512 (Config.sign m).toNat).reverse

/-- A block of the journal with its signature. -/
def BootBlock.bytes (b : BootBlock) : List Byte := b.body ++ signature b.body

/-! ## ATTEST (spec/16 R434) -/

/-- The 64 bytes of a digest, most significant byte first. -/
def digestBytes (d : BitVec 512) : List Byte := (List.range 64).map (digestByte d)

/-- 64 bytes 0. -/
def noDigest : List Byte := List.replicate 64 0

/-- The voltage table's 224 bytes: entry (s, L) at 2 · (7 · s + L) (spec/16 R413). -/
def voltageBytes : List Byte :=
  (List.range 16).flatMap fun i => (List.range 7).flatMap fun l => leBytes 2 (Config.voltage i l).toNat

/-- The loaded image, while IMAGE_VALID is 1. -/
def State.loaded (s : State) : Option Image := if s.imageValid.vote = 1 then s.image else none

/-- Bytes 0 to 511 of the report. -/
def State.reportBody (s : State) (r : MbxRun) : List Byte :=
  let run := s.control.runningSlot
  let rec' := s.record
  leBytes 4 0x54415455 ++ leBytes 4 1 ++ leBytes 8 Config.serial.toNat ++
    leBytes 4 r.a0.toNat ++ leBytes 4 r.a1.toNat ++ leBytes 4 r.a2.toNat ++ leBytes 4 r.a3.toNat ++
    leBytes 8 s.beat ++ leBytes 4 s.dev ++ leBytes 4 (Config.firmwareVersion (rec'.slot run)).toNat ++
    leBytes 4 (bit run + 2 * bit rec'.knellSet + 4 * s.imageValid.vote.toNat + 8 * bit s.control.staged) ++ leBytes 12 0 ++
    digestBytes (Config.sha512 (rec'.slot run)) ++
    (if rec'.valid !run then digestBytes (Config.sha512 (rec'.slot !run)) else noDigest) ++
    (match s.loaded with | some i => digestBytes i.digest ++ digestBytes i.keyDigest | none => noDigest ++ noDigest) ++
    digestBytes (Config.sha512 voltageBytes) ++ digestBytes (Config.sha512 Config.productionPart) ++
    (match (rec'.journal.filter fun b => b.good).getLast? with | some b => digestBytes (Config.sha512 b.bytes) | none => noDigest)

/-- The report with its signature. -/
def State.report (s : State) (r : MbxRun) : List Byte := s.reportBody r ++ signature (s.reportBody r)

/-- ATTEST: the attestation report is formed. -/
def execAttest (s : State) : Host.Outcome State Fault Refusal :=
  match s.mbxRunning mbxAttest with
  | some r => .next (s.mbxDone 0 (s.report r))
  | none => .next s

/-- CERT: the identity certificate. -/
def execCert (s : State) : Host.Outcome State Fault Refusal :=
  match s.mbxRunning mbxCert with
  | some _ => .next (s.mbxDone 0 Config.certificate)
  | none => .next s

/-- Firmware written to a slot, which is then the preferred one. -/
def Record.stage (r : Record) (i : Bool) (fw : List Byte) : Record :=
  if i then { r with slot1 := some fw, valid1 := true, preferred := true, preferredOk := true }
  else { r with slot0 := some fw, valid0 := true, preferred := false, preferredOk := true }

/-- FW_STAGE: signed firmware is read from program HBM, checked, and written to the slot not running. -/
def execFwStage (s : State) : Host.Outcome State Fault Refusal :=
  match s.mbxRunning mbxStage with
  | none => .next s
  | some r =>
    let h := r.stack
    match (blocksOf r.offset r.a3.toNat).find? ((s.stack h).hbmBad.contains ·) with
    | some b => .next ((s.loseHbm h b).mbxDone 5 [])
    | none =>
      let fw := Memory.read (s.stack h).hbm r.offset r.a3.toNat
      if Config.firmwareOk fw then
        let s := { s with record := s.record.stage (!s.control.runningSlot) fw, control := { s.control with staged := true } }
        .next (s.mbxDone 0 [])
      else .next (s.mbxDone 4 [])

end Sys2Proof.Machine
end

