-- ==== Sys2Proof/Machine/Boot.lean ====
section
/-! DEFINITION. The power-up sequence: steps, boot journal, alternatives, restart, stop, knell, READY (spec/16 R415 to
R426; spec/02 R31, R37). A POWER_UP runs the steps up to the beat alignment, and on to READY when its operand gives the
alignment; else the module waits at step 0x22 for ALIGN_CONFIRM and CLOCK_FINAL_RELEASE. -/

namespace Sys2Proof.Machine

open Sys2Proof

/-! ## The journal (spec/16 R419, R420) -/

/-- Results of an entry and outcomes of an attempt. -/
def resPass : BitVec 4 := 0
def resFail : BitVec 4 := 1
def resSkip : BitVec 4 := 2
def resAlt : BitVec 4 := 3
def resInterrupted : BitVec 4 := 4
def resNoFarEnd : BitVec 4 := 5
def outReady : BitVec 8 := 1
def outRestart : BitVec 8 := 2
def outStopped : BitVec 8 := 3
def outKnell : BitVec 8 := 4
def outInterrupted : BitVec 8 := 5

/-- Blocks of the ring. -/
def journalBlocks : Nat := 4096

/-- Attempts before the present one that count, the newest first: not an interrupted attempt, nor a block whose signature
fails, which is treated as absent (R414, R422). -/
def Record.past (r : Record) : List BootBlock := r.journal.reverse.filter fun b => b.good && b.outcome != outInterrupted

/-- The entries of a step; the last of them is that of the whole step. -/
def BootBlock.ofStep (b : BootBlock) (id : Nat) : List BootEntry := b.entries.filter fun e => e.step.toNat == id

/-- The whole step failed in an attempt. -/
def BootBlock.failedStep (b : BootBlock) (id : Nat) : Bool :=
  match (b.ofStep id).getLast? with
  | some e => e.result == resFail
  | none => false

/-- The result of one unit of a step, where it has an entry of its own. -/
def BootBlock.unitResult (b : BootBlock) (id unit : Nat) : Option (BitVec 4) :=
  ((b.ofStep id).dropLast.find? fun e => e.unit.toNat == unit).map (·.result)

/-- The result of the whole step. -/
def BootBlock.stepResult (b : BootBlock) (id : Nat) : Option (BitVec 4) := (b.ofStep id).getLast?.map (·.result)

/-- A step begins with its alternative: the preceding attempt used it after the primary failed. Attempts in a row that used
it try the primary in every second one, so their number decides. -/
def beginsAlt (past : List BootBlock) (result : BootBlock → Option (BitVec 4)) : Bool :=
  (past.takeWhile fun b => result b == some resAlt).length % 2 == 1

/-- A block appended to the ring. -/
def Record.write (r : Record) (b : BootBlock) : Record :=
  let j := r.journal ++ [b]
  { r with journal := j.drop (j.length - journalBlocks), attempts := r.attempts + 1 }

/-! ## An attempt under way -/

/-- An attempt: the module, the entries written, the times still to come, the slot that booted, the mandatory step that
ended it, whether a mandatory step failed, an alternative was taken, a step was skipped. -/
structure BootTry where
  s : State
  run : BootRun
  second : Bool
  entries : List BootEntry
  slot : Bool
  stop : Option Nat
  bad : Bool
  alt : Bool
  skip : Bool
  deriving DecidableEq, Repr

/-- An attempt that begins. -/
def BootTry.start (s : State) (run : BootRun) (second slot : Bool) : BootTry :=
  { s, run, second, entries := [], slot, stop := none, bad := false, alt := false, skip := false }

/-- The knell flag was found set. -/
def BootTry.knellSeen (b : BootTry) : Bool := b.s.record.knellSet

/-- An entry written; its time is the next of the run's. -/
def BootTry.log (b : BootTry) (id : Nat) (result : BitVec 4) (unit : BitVec 16) (detail : BitVec 32) : BootTry :=
  let time := match b.run.times with | t :: _ => t | [] => 0
  { b with
    entries := b.entries ++ [⟨BitVec.ofNat 8 id, result, unit, detail, time⟩]
    run := { b.run with times := b.run.times.drop 1 }
    alt := b.alt || result == resAlt, skip := b.skip || result == resSkip }

/-- The module changed. -/
def BootTry.act (b : BootTry) (f : State → State) : BootTry := { b with s := f b.s }

/-- The failing actions of a step in this attempt. -/
def BootTry.failures (b : BootTry) (id : Nat) (alternative : Bool) : List StepFail :=
  b.run.fails.filter fun f => f.second == b.second && f.step.toNat == id && f.alternative == alternative

/-- The failing action of a step in this attempt, at a unit or at all. -/
def BootTry.failing (b : BootTry) (id : Nat) (alternative : Bool) (unit : Option Nat) : Option StepFail :=
  (b.failures id alternative).find? fun f =>
    match unit with
    | some u => f.unit.toNat == u
    | none => true

/-- BOOT_STATUS at a step: field tests are steps 0x07 and 0x10 to 0x21. -/
def BootTry.at_ (b : BootTry) (id : Nat) : BootTry :=
  b.act fun s => { s with control := { s.control with
    bootStep := BitVec.ofNat 8 id, testsRunning := id == 7 || (decide (0x10 ≤ id) && decide (id ≤ 0x21)) } }

/-- A mandatory step; `act` is what it leaves, given its failing units: a step over units leaves those that passed up, whether
or not another fails it (R425). Each failing unit has an entry, and the whole step (R419). With the knell flag seen a failure
is journalled and the attempt goes on (R424). -/
def BootTry.mandatory (b : BootTry) (id : Nat) (units : Bool) (act : List Nat → State → State) : BootTry :=
  if b.stop.isSome then b
  else
    let b := b.at_ id
    let bad := b.failures id false
    match bad with
    | [] => (b.act (act [])).log id resPass 0 0
    | f :: _ =>
      let goes := b.knellSeen && decide (5 < id)
      let b := if units || goes then b.act (act (bad.map fun f => f.unit.toNat)) else b
      let b := if units then (bad.foldl (fun b f => b.log id resFail f.unit f.detail) b).log id resFail 0 0
        else b.log id resFail 0 f.detail
      if goes then { b with bad := true } else { b with stop := some id }

/-- What the preceding attempt gave for a unit. -/
def BootTry.before (b : BootTry) (id unit : Nat) : Option (BitVec 4) :=
  match b.s.record.past with
  | p :: _ => p.unitResult id unit
  | [] => none

/-! ## The steps -/

/-- Step 0x07 at one host port: it loops back near its end, and trains from then on. -/
def BootTry.hostUnit (b : BootTry) (p : HPort) : BootTry :=
  let u := hostIndex p
  if b.before 7 u = some resFail then b.log 7 resSkip (BitVec.ofNat 16 u) 0
  else
    match b.failing 7 false (some u) with
    | none => b.act fun s => s.modHost p fun h => { h with loopDepth := 1, loopPass := true }
    | some f => (b.act fun s => s.modHost p fun h => { h with loopDepth := 1, loopPass := false, enabled := false }).log 7 resFail f.unit f.detail

/-- The result of a whole step that is optional per port: it fails when a port failed it. -/
def BootTry.wholeResult (b : BootTry) (id : Nat) : BitVec 4 :=
  if b.entries.any fun e => e.step.toNat == id && e.result == resFail then resFail else resPass

/-- An optional step: each unit, then the whole step. -/
def BootTry.optional {α : Type} (b : BootTry) (id : Nat) (units : List α) (one : BootTry → α → BootTry) : BootTry :=
  if b.stop.isSome then b
  else
    let b := units.foldl one (b.at_ id)
    b.log id (b.wholeResult id) 0 0

/-- A port that trains with its far end. -/
def BootTry.trains (b : BootTry) (p : RPort) (half_ : Bool) : BootTry :=
  let far := (b.run.far.find? fun f => f.1 == p).map (·.2)
  b.act fun s => s.modPort p fun q => q.train ((far.map Prod.fst).getD 0) ((far.map Prod.snd).getD 0) half_ s.beat

/-- A port that fails its field test: DOWN, and out of service for the rest of the power-up (R418). -/
def State.portFailed (s : State) (p : RPort) : State := (s.portDown p).modPort p fun q => { q with failed := true }

/-- Step 0x20 at one port: 448 Gb/s per lane, or 224 Gb/s as the alternative; out of service it is DOWN. -/
def BootTry.trainUnit (b : BootTry) (p : RPort) : BootTry :=
  let u := BitVec.ofNat 16 p.val
  if b.before 0x20 p.val = some resFail then
    (if b.run.noFarEnd.contains p || (b.s.port p).failed then b else b.trains p false).log 0x20 resSkip u 0
  else if (b.s.port p).failed then b
  else if b.run.noFarEnd.contains p then b.log 0x20 resNoFarEnd u 0
  else
    let altFirst := beginsAlt b.s.record.past fun k => k.unitResult 0x20 p.val
    let primary := b.failing 0x20 false (some p.val)
    if !altFirst && primary.isNone then b.trains p false
    else
      match b.failing 0x20 true (some p.val) with
      | none => (b.trains p true).log 0x20 resAlt u 0
      | some f => (b.act fun s => s.portFailed p).log 0x20 resFail u f.detail

/-- Step 0x21 at one trained port. -/
def BootTry.loopUnit (b : BootTry) (p : RPort) : BootTry :=
  let u := BitVec.ofNat 16 p.val
  if b.before 0x21 p.val = some resFail && ((b.s.port p).trained || (b.s.port p).failed) then b.log 0x21 resSkip u 0
  else if !(b.s.port p).trained then b
  else
    match b.failing 0x21 false (some p.val) with
    | none => b.act fun s => s.modPort p fun q => { q with loopDepth := 3, loopPass := true }
    | some f =>
      (b.act fun s => (s.modPort p fun q => { q with loopDepth := 3, loopPass := false }).portFailed p).log 0x21 resFail u f.detail

/-- A change at every stack but the failing ones, which `other` changes. -/
def State.stacksBut (s : State) (bad : List Nat) (good other : Stack → Stack) : State :=
  allStacks.foldl (fun s h => s.modStack h (if bad.contains h.val then other else good)) s

/-- Result of a stack loop-back in the field tests. -/
def Stack.looped (t : Stack) (target depth : Nat) (pass : Bool) : Stack :=
  { t with loopTarget := BitVec.ofNat 3 target, loopDepth := BitVec.ofNat 3 depth, loopPass := pass }

/-- The alignment begins: every trained port sends its first delay probe and the own serial number, the lowest that the
module has seen (spec/02 R31, steps 1 and 3). -/
def State.firstProbes (s : State) : State :=
  (allPorts.filter fun p => (s.port p).trained).foldl (fun s p =>
    let s := s.modPort p fun q => { q with probe := 1, probeSent := 0 }
    (s.post p 1 (probeBody 0 0 0)).post p 6 (Config.serial.zeroExtend 320)) { s with electing := true }

/-- The delays of a run measured (spec/02 R31, step 1). -/
def State.withDelays (s : State) (delays : List (RPort × BitVec 16)) : State :=
  delays.foldl (fun s d => if (s.port d.1).trained then s.modPort d.1 fun q => { q with delay := d.2 } else s) s

/-- Every trained port has its delay measured. -/
def State.measuredAll (s : State) : Bool := allPorts.all fun p => !(s.port p).trained || (s.port p).delay != 0

/-- The alignment of a run can be carried out: every trained port measured, and the source a trained neighbour. -/
def State.canAlign (s : State) (a : AlignRun) : Bool :=
  (s.withDelays a.delays).measuredAll && match a.source with | some v => (s.port v.1).trained && v.2.2.2.1 != 0 | none => true

/-- The alignment of step 0x22 as the run gives it: delays, count, and the flood latency of the torus (spec/02 R31). -/
def State.alignTo (s : State) (a : AlignRun) : State :=
  let s := s.withDelays a.delays
  let s := match a.source with
    | some (p, count, phase, tempo, hops) => s.takeCount (s.port p).delay count phase tempo hops
    | none => { s.loadCount 0 0 with root := true, rootHops := 0 }
  s.setAligned a.links

/-- Steps 0x06 to 0x21: the rails, the field tests, the ports. -/
def BootTry.tests (b : BootTry) : BootTry :=
  let b := b.mandatory 6 false fun _ s =>
    { s with relay := 3, clocksProvisional := true, tympan := { s.tympan with testV := true, slabLevel := 0 } }
  let b := b.optional 7 [HPort.a, HPort.b] BootTry.hostUnit
  let b := [0x10, 0x11, 0x12, 0x13].foldl (fun b id => b.mandatory id true fun _ s => s) b
  let b := b.mandatory 0x14 true fun bad s =>
    s.stacksBut bad (fun t => { t.looped 2 3 true with up := true }) fun t => t.looped 2 3 false
  let b := [0x15, 0x16, 0x17].foldl (fun b id => b.mandatory id true fun _ s => s) b
  let b := b.mandatory 0x18 true fun bad s => s.stacksBut bad (fun t => t.looped 3 1 true) fun t => t.looped 3 1 false
  (b.optional 0x20 allPorts BootTry.trainUnit).optional 0x21 allPorts BootTry.loopUnit

/-- The start of the beat that comes next, or of the present one at its first cycle. -/
def State.nextBeatStart (s : State) : State :=
  if s.phase = 0 then s else { s.loadCount (s.beat + 1) 0 with refTime := s.refTime + (s.tempoNow - s.phase) }

/-- Steps 0x23 and 0x24: on the phase marker at the start of a beat the clocks are released together (spec/02 R37), each
die's transit rotation at row 1 (spec/10 R248); slab rails at their M0 entries with trims 0. -/
def BootTry.release (b : BootTry) : BootTry :=
  let b := b.mandatory 0x23 false fun _ s =>
    let s := s.nextBeatStart.mapStacks fun _ t => { t with rotReq := 0, rotRep := 0 }
    { s with
      clocksReleased := true, clocksProvisional := false, west := { s.west with rotReq := 0, rotRep := 0 }, east := { s.east with rotReq := 0, rotRep := 0 } }
  b.mandatory 0x24 true fun _ s => s.modTympan fun t => { t with trim := [], slabLevel := 0, testV := false }

/-! ## How an attempt ends -/

/-- The block of an attempt. -/
def BootTry.block (b : BootTry) (outcome : BitVec 8) : BootBlock :=
  let r := b.s.record
  { attempt := BitVec.ofNat 32 (r.attempts + 1), powerup := BitVec.ofNat 32 r.powerups, restart := b.second, slot := b.slot
    knellSeen := b.knellSeen, outcome, entries := b.entries.take bootEntries }

/-- The block written; an attempt that is complete makes its slot the preferred one (R423). ALT_TAKEN and SKIPPED are those of this
attempt (R426; of two attempts of a power-up the last: DESIGN CHOICE, notes/assumptions/201). -/
def BootTry.close (b : BootTry) (outcome : BitVec 8) : State :=
  let s := b.s
  let r := s.record.write (b.block outcome)
  let r := if outcome = outReady || (outcome = outKnell && b.stop.isNone) then { r with preferred := b.slot, preferredOk := true } else r
  { s with record := r, control := { s.control with
    booting := none, testsRunning := false, altTaken := b.alt, skipped := b.skip } }

/-- Step 0x25: READY, or KNELL where the flag was set (R424, R426). -/
def BootTry.finish (b : BootTry) : State :=
  let b := (b.at_ 0x25).log 0x25 resPass 0 0
  let flag := b.knellSeen
  let s := b.close (if flag then outKnell else outReady)
  let s := { s with control := { s.control with testsPassed := !b.bad } }
  if flag then s.enterKnell 9 .module
  else { s.setDev devReady with control := { s.control with bootTime := b.run.bootTime } }

/-- The attempt failed a mandatory step that the preceding attempt failed too. -/
def BootTry.paired (b : BootTry) (id : Nat) : Bool :=
  match b.s.record.past with
  | p :: _ => p.failedStep id
  | [] => false

/-- Host ports that the attempt did not reach in step 0x07 are not enabled for training. -/
def BootTry.idlePorts (b : BootTry) : BootTry :=
  if b.stop == some 4 || b.stop == some 6 then
    b.act fun s => (s.modHost .a fun h => { h with enabled := false }).modHost .b fun h => { h with enabled := false }
  else b

/-- The knell at the failed step (R425). -/
def BootTry.knell (b : BootTry) : State := (b.idlePorts.close outKnell).enterKnell 8 .module

/-- The counters of a core, which start again at a power-up only (spec/17 R435). -/
def Core.countersOnly (x : Core) : Core :=
  { Core.fresh with
    errs := x.errs, arrayBusy := x.arrayBusy, vectorBusy := x.vectorBusy, rowBusy := x.rowBusy, copyBlocks := x.copyBlocks }

/-- The die rails removed: cores, stacks, port dies and the alignment lose their state; the controller, the Tympan and the
host ports keep theirs, and a port out of service stays so for the power-up (R418, R421). -/
def State.diesOff (s : State) : State :=
  let r := State.reset
  let s' := { s with
    beat := 0, phase := 0, tempo := r.tempo, tempoPrev := r.tempoPrev, tempoMin := r.tempoMin, voteSpan := 0, aligned := false
    root := false, electing := false, counted := false, alignLost := false, rootHops := 0, agree := 0, mismatchLast := false
    clocksReleased := false, clocksProvisional := false, relay := 0
    cores := Sparse.mapAll Core.fresh (fun _ x => x.countersOnly) s.cores, hbmStacks := [], imageStage := [], ports := [], west := {}
    east := {}, inFlight := [], resends := [], failedLinks := [], deadCopies := []
    tympan := { s.tympan with testV := false, slabLevel := 0, trim := [] } }
  allPorts.foldl (fun t p => if (s.port p).failed then t.modPort p fun q => { q with down := true, failed := true } else t) s'

/-- The second attempt of a power-up stops: STARTING with the die rails off. -/
def BootTry.stopped (b : BootTry) : State :=
  let s := (b.idlePorts.close outStopped).diesOff
  { s with control := { s.control with stopped := true } }

/-- An attempt that has run its steps or failed one: READY or KNELL, the knell of a pair, or what `again` does with it
(R421). -/
def BootTry.settle (b : BootTry) (again : BootTry → State) : State :=
  match b.stop with
  | some id => if b.paired id then b.knell else again b
  | none => b.finish

/-- The attempt from step 0x06, up to the alignment, and on to the end when the run gives it. -/
def BootTry.fromRails (b : BootTry) (again : BootTry → State) : State :=
  let b := b.tests
  let b := if b.stop.isSome then b else (b.at_ 0x22).act State.firstProbes
  let wait := b.stop.isNone && (b.failing 0x22 false none).isNone
  let align := b.run.align.filter fun a => b.s.canAlign a
  match align, wait with
  | none, true =>
    let s := b.s
    { s with control := { s.control with
      booting := some (b.run, b.second, b.slot, b.entries), altTaken := b.alt, skipped := b.skip } }
  | align, _ =>
    let b := b.mandatory 0x22 false fun _ s => match align with | some a => s.alignTo a | none => s
    b.release.settle again

/-- E of a Kettle that holds 40 J, at which the module rail comes up, in 0.01 J (spec/12 R303). -/
def railEnergy : Nat := 4000

/-- The module as its rails come up: the soft start and the charge are over and the Kettle holds 40 J; the bus draw obeys the slope
limit from where it stands (spec/12 R303). -/
def State.railsUp (s : State) : State :=
  let s' := s.off true
  { s' with powered := true, tympan := { s'.tympan with
      charged := true, kettleE := BitVec.ofNat 16 railEnergy, busSet := s.tympan.busSet, busNext := s.tympan.busSet } }

/-- The die rails removed for a second attempt, which begins at step 0x06 (R421). -/
def BootTry.again (b : BootTry) : State :=
  (BootTry.start (b.close outRestart).diesOff b.run true b.slot).fromRails BootTry.stopped

/-! ## Steps 0x03 to 0x05 -/

/-- The slot that step 0x03 tries first: the preferred one, or the one that booted an attempt left incomplete after the
preferred slot had failed. -/
def Record.firstSlot (r : Record) : Bool × Bool :=
  match r.past with
  | p :: _ =>
    let overs := beginsAlt r.past fun k => k.stepResult 3
    if overs && p.stepResult 0x25 != some resPass then (p.slot, true) else (r.named, false)
  | [] => (r.named, false)

/-- The slot that boots and the result of step 0x03; none when no slot boots. -/
def BootTry.boots (b : BootTry) : Option (Bool × BitVec 4) :=
  let r := b.s.record
  let first := r.firstSlot
  let ok (slot alternative : Bool) : Bool := r.valid slot && (b.failing 3 alternative none).isNone
  if first.2 then (if ok first.1 true then some (first.1, resAlt) else none)
  else if ok first.1 false then some (first.1, resPass)
  else if ok (!first.1) true then some (!first.1, resAlt)
  else none

/-- An interrupted attempt written to the ring, with the entries it had. -/
def Record.interrupted (d : Record) (step : BitVec 8) (second slot : Bool) (powerup : Nat) (entries : List BootEntry) : Record :=
  let b : BootBlock :=
    { attempt := BitVec.ofNat 32 (d.attempts + 1), powerup := BitVec.ofNat 32 powerup, restart := second, slot
      knellSeen := d.knellSet, outcome := outInterrupted, entries := (entries ++ [BootEntry.mk step resInterrupted 0 0 0]).take bootEntries }
  { d.write b with cut := none }

/-- The power-up before this one ended inside a step: its attempt is recorded as interrupted (R422). -/
def State.recordInterrupted (s : State) (r : BootRun) : State :=
  let d := s.record
  match d.cut, r.interrupted with
  | some (step, second, slot, entries), _ => { s with record := d.interrupted step second slot d.powerups entries }
  | none, none => s
  | none, some step =>
    { s with record := { d.interrupted step false d.named (d.powerups + 1) [] with powerups := d.powerups + 1 } }

/-- The record as the controller reads it: blocks whose signature fails (R414); every power-up checks the signatures of both
firmware slots anew, and SLOT0_VALID and SLOT1_VALID show what it found (R423, spec/15 R404). -/
def Record.read (r : Record) (f : FlashRun) : Record :=
  { r with
    valid0 := !f.slots.contains false, valid1 := !f.slots.contains true
    preferredOk := r.preferredOk && !f.preferred, knellOk := r.knellOk && !f.knell
    journal := r.journal.map fun b => if f.journal.contains b.attempt then { b with good := false } else b }

/-- The run with what step 0x04 finds in the production part: as written it passes; as read otherwise, by its check
(Config.partOk). -/
def BootRun.checked (r : BootRun) : BootRun :=
  match r.flash.part with
  | some part => if Config.partOk part then r else { r with fails := StepFail.mk false 4 0 false 0 :: r.fails }
  | none => r

/-- The first attempt, from step 0x03. -/
def State.bootFrom3 (s : State) (run : BootRun) : State :=
  let r := BootRun.checked run
  let s := { s with record := s.record.read r.flash }
  let b := BootTry.start s r false false
  match b.boots with
  | none => { s with control := { s.control with bootStep := 3, stopped := true } }
  | some (slot, result) =>
    let s := s.recordInterrupted r
    let s := { s with
      record := { s.record with powerups := s.record.powerups + 1 }, control := { s.control with runningSlot := slot, bootStep := 3 } }
    let b := (BootTry.start s r false slot).log 3 result 0 0
    let b := b.mandatory 4 false fun _ s => s
    let b := if b.stop.isSome then b else (b.at_ 5).log 5 resPass 0 0
    if b.stop.isSome then b.settle BootTry.again else b.fromRails BootTry.again

/-- POWER_UP: from the first bus sample above 560 V, with REFCLK valid (spec/18 R470). A failure of step 0x01 or 0x02 leaves
the controller unpowered. -/
def execPowerUp (r : BootRun) (s : State) : Host.Outcome State Fault Refusal :=
  if s.powered || !s.tympan.refclk then .next s
  else if r.fails.any fun f => !f.second && (f.step == 1 || f.step == 2) then .next s
  else .next (s.railsUp.bootFrom3 r)

/-- Step 0x22 passed: its entry is written, and step 0x23, the wait for the phase marker, is in progress (R415, R422; spec/02 R37). -/
def State.stepAligned (s : State) : State :=
  match s.control.booting with
  | none => s
  | some (r, second, slot, entries) =>
    let b := (BootTry.log { BootTry.start s r second slot with entries } 0x22 resPass 0 0).at_ 0x23
    { b.s with control := { b.s.control with booting := some (b.run, second, slot, b.entries) } }

/-- ALIGN_CONFIRM: every neighbour's count agreed for 16 beats. -/
def execAlignConfirm (links : List TorusLink) (s : State) : Out :=
  if s.aligning && s.counted && decide (agreeBeats ≤ s.agree) then .next (s.setAligned links).stepAligned else .next s

/-- CLOCK_FINAL_RELEASE: on the phase marker at the start of a beat of the aligned module that starts up; the steps after
the alignment follow. -/
def execClockFinalRelease (s : State) : Host.Outcome State Fault Refusal :=
  match s.control.booting with
  | none => .next s
  | some (r, second, slot, entries) =>
    if !s.powered || !s.aligned || s.clocksReleased || s.phase != 0 then .next s
    else
      let b := { BootTry.start s r second slot with
        entries, alt := s.control.altTaken, skip := s.control.skipped
        bad := entries.any fun e => e.result == resFail && !([7, 0x20, 0x21].contains e.step.toNat) }
      .next (b.release.settle (if second then BootTry.stopped else BootTry.again))

/-- A start-up that waits at step 0x22 begins its alignment again; an ALIGNED module keeps its count, and of it the wait for the
phase marker begins again (spec/02 R29). -/
def State.restartStep (s : State) : State :=
  if s.control.booting.isSome && !s.aligned then
    (State.mapPorts { s with counted := false, root := false, agree := 0 } fun _ q => { q with
      delay := 0, probe := 0, probesIn := 0, electLow := none, electRun := 0 }).firstProbes
  else s

/-- BUS_RETURN: the bus has stayed at 720 V or above for 1 ms; the draw ramps up from 0 and the slab rails return to
their level's voltage. During the start-up the step in progress starts again from its beginning (spec/16 R422). -/
def execBusReturn (s : State) : Host.Outcome State Fault Refusal :=
  if s.powered && s.tympan.busLost then
    .next (s.restartStep.modTympan fun t =>
      { t with busLost := false, rideWork := false, rideRetain := false, rideRest := false
               slabLevel := if t.testV then t.slabLevel else BitVec.ofNat 3 (min s.level.toNat 6) }).raiseRails
  else .next s

end Sys2Proof.Machine
end

