-- ==== Sys2Proof/Machine/Bus.lean ====
section
/-! DEFINITION. Accesses of the BARs: reads with their latch and vote, register writes, the bit window of the control page,
BEAT_SNAP, CNT_SNAP, BAR2 (spec/14 R366 to R371, spec/15 R396 to R411, spec/02 R62). -/

namespace Sys2Proof.Machine

open Sys2Proof

/-! ## Reads of BAR0 and BAR4 (spec/15 R397 to R400) -/

/-- An offset of the control page or of its bit window. -/
def onControl (off : Nat) : Bool := decide (off < 0x10000) || inBitWindow off

/-- A register outside the control page reads its Reset value in STARTING (spec/16 R417). -/
def State.shown (s : State) (p : HPort) (off : Nat) : Option Word :=
  if s.dev = devStarting && !onControl off then State.resetReg p off else s.reg p off

/-- SEM_k at an offset. -/
def semAt (off : Nat) : Option (Fin 16) :=
  if h : (off - 0x10000) / 4 < 16 then (if 0x10000 ≤ off ∧ off % 4 = 0 then some ⟨(off - 0x10000) / 4, h⟩ else none) else none

/-- A read of BAR0: an Unsupported Request, an acquire, a latched upper half, or the register, voted if it is RT. -/
def State.readBar0 (s : State) (p : HPort) (off : Nat) : State :=
  let latch := (s.host p).latch
  let s := s.unlatch p
  match s.shown p off with
  | none => s.emit (.unsupported p)
  | some v =>
    match semAt off with
    | some k =>
      if s.dev = devStarting then s.emit (.value p v)
      else
        let r := s.acquire p k.val false
        r.2.emit (.value p r.1)
    | none =>
      let s := s.voteReg (actualOff off)
      let hi := match latch with | some l => if l.1 = off then l.2 else v | none => v
      let s := if isLo off then (s.voteReg (off + 4)).modHost p fun h => { h with latch := (s.shown p (off + 4)).map fun w => (off + 4, w) } else s
      s.emit (.value p hi)

/-- One aligned word with all four byte enables set (spec/15 R396). -/
def oneWord (a : Access) (off : Nat) : Bool := a.len == 4 && a.enables == 15 && off % 4 == 0 && !a.atomic

/-- An access of the MSI-X table or pending-bit array that the PCI Express rules for MSI-X allow beside one word: eight aligned
bytes (spec/15 R396). -/
def twoWords (a : Access) (off : Nat) : Bool :=
  a.len == 8 && a.enables == 255 && off % 8 == 0 && !a.atomic &&
    (decide (0x58000 ≤ off ∧ off < 0x58400) || off == 0x59000)

/-- A read of BAR4. -/
def State.readBar4 (s : State) (p : HPort) (off : Nat) : State :=
  let latch := (s.host p).latch4
  let s := s.unlatch p
  if s.dev = devStarting || off % 4 ≠ 0 then s.emit (.unsupported p)
  else
    match s.debugReg p off with
    | none => s.emit (.unsupported p)
    | some v =>
      let hi := match latch with | some l => if l.1 = off then l.2 else v | none => v
      let s := if isLo4 off then s.modHost p fun h => { h with latch4 := (s.debugReg p (off + 4)).map fun w => (off + 4, w) } else s
      s.emit (.value p hi)

/-- Eight bytes of the MSI-X table or pending-bit array read. -/
def State.readMsix (s : State) (p : HPort) (off : Nat) : State :=
  let s := s.unlatch p
  match s.shown p off, s.shown p (off + 4) with
  | some lo, some hi => s.emit (.data p (leBytes 4 lo.toNat ++ leBytes 4 hi.toNat))
  | _, _ => s.emit (.unsupported p)

/-- A memory request of a port: nothing when it does not reach the module, an Unsupported Request in D3hot or with no
firmware, else what follows. -/
def State.onBus (s : State) (p : HPort) (act : State → State) : Host.Outcome State Fault Refusal :=
  if !s.reached p then .next s
  else if (s.host p).d3hot || s.noFirmware then .next (s.emit (.unsupported p))
  else .next (act s)

/-- LO_LATCH_READ: a read of BAR0 or BAR4. -/
def execLoLatchRead (p : HPort) (how : Access) (offset : Nat) (s : State) : Host.Outcome State Fault Refusal :=
  s.onBus p fun s =>
    if !how.bar4 && twoWords how offset then s.readMsix p offset
    else if !oneWord how offset then (s.unlatch p).emit (.unsupported p)
    else if how.bar4 then s.readBar4 p offset
    else s.readBar0 p offset

/-- RT_VOTE_READ: a read of an RT register, of SEM_k, SEM_OWNERS or SEM_MINE, or of their bits in the bit window. -/
def execRtVoteRead (p : HPort) (offset : Nat) (s : State) : Host.Outcome State Fault Refusal :=
  s.onBus p fun s =>
    if isRt (actualOff offset) || (semAt offset).isSome || offset == 0x10040 || offset == 0x10044 then s.readBar0 p offset else s

/-! ## Snapshots (spec/02 R62, spec/15 R410) -/

/-- A write that only the holder of a semaphore makes (spec/14 R386). -/
def State.guarded (s : State) (p : HPort) (g : Nat) (act : State → State) : State := if s.owns p g then act s else s.notOwner p

/-- BEAT_PHASE at this cycle. -/
def State.phaseWord (s : State) : Word :=
  word (s.phase % 2 ^ 12 + bit s.rest * 2 ^ 12 + bit (!s.inWork) * 2 ^ 13)

/-- A write of BEAT_SNAP: beat count, phase and stroke index captured together. -/
def State.beatSnap (s : State) (p : HPort) (v : Word) : State :=
  s.guarded p gSnapshot fun s =>
    if v = 1 then
      { s with
        snapBeat := BitVec.ofNat 64 s.beat, snapPhase := s.phaseWord
        snapStroke := if s.dev = devRunning then BitVec.ofNat 64 (s.t - 1) else 0 }
    else s

/-- Every counter captured, and the records of the trace with them (spec/17 R440, R441, spec/15 R397). -/
def State.capturedAll (s : State) : State :=
  { s with capture := s.takeCapture, trace := { s.trace with snapRecs := s.trace.recs } }

/-- A write of CNT_SNAP: every counter captured. -/
def State.cntSnap (s : State) (p : HPort) (v : Word) : State :=
  s.guarded p gSnapshot fun s =>
    if v = 1 then s.capturedAll else s

/-- BEAT_SNAP. -/
def execBeatSnap (p : HPort) (v : Word) (s : State) : Host.Outcome State Fault Refusal := s.onRegister p fun s => s.beatSnap p v

/-- CNT_SNAP. -/
def execCntSnap (p : HPort) (v : Word) (s : State) : Host.Outcome State Fault Refusal := s.onRegister p fun s => s.cntSnap p v

/-! ## Register writes (spec/15 R396, R397, R404, R407) -/

/-- A write of a control-page word. -/
def State.writeControl (s : State) (p : HPort) (o : Nat) (v : Word) : State :=
  let set (f : Control → Control) : State := s.guarded p gControl fun s => { s with control := f s.control }
  if 0x40 ≤ o ∧ o < 0x60 then set fun c => { c with scratch := Sparse.put 0 c.scratch ((o - 0x40) / 4) v }
  else if o = 0x80 then set fun c => { c with mbxOp := BitVec.ofNat 8 v.toNat }
  else if 0x84 ≤ o ∧ o < 0x94 then set fun c => { c with mbxArgs := c.mbxArgs.set (Fin.ofNat 4 ((o - 0x84) / 4)) v }
  else if o = 0x94 then s.mbxGo p v
  else s

/-- A write of a queue register (spec/14 R372, R373). -/
def State.writeQueue (s : State) (p : HPort) (o : Nat) (v : Word) : State :=
  let k := o % 0x200 / 0x40
  let low (b : DWord) : DWord := BitVec.ofNat 64 (b.toNat / 2 ^ 32 * 2 ^ 32 + v.toNat / 4096 * 4096)
  let high (b : DWord) : DWord := BitVec.ofNat 64 (b.toNat % 2 ^ 32 + v.toNat * 2 ^ 32)
  if o < 0x200 then
    let sq (f : SubRing → SubRing) : State := s.modHost p fun h => h.modSq k f
    match o % 0x40 with
    | 0 => sq fun q => if cfgEnable q.cfg then q else { q with base := low q.base }
    | 4 => sq fun q => if cfgEnable q.cfg then q else { q with base := high q.base }
    | 8 => sq fun q => q.configure v
    | 0x10 => sq fun q => q.ring v
    | _ => s
  else
    let cq (f : CompRing → CompRing) : State := s.modHost p fun h => h.modCq k f
    match o % 0x40 with
    | 0 => cq fun q => if cfgEnable q.cfg then q else { q with base := low q.base }
    | 4 => cq fun q => if cfgEnable q.cfg then q else { q with base := high q.base }
    | 8 => (cq fun q => q.configure v).flushHeld p k
    | 0x10 => cq fun q => q.ring v
    | _ => s

/-- A write of a beat and launch register (spec/02 R62). -/
def State.writeBeat (s : State) (p : HPort) (o : Nat) (v : Word) : State :=
  match o with
  | 0x00 => s.beatSnap p v
  | 0x38 => { s with holdForce := v.getLsbD 0 }
  | 0x3C => s.guarded p gRun fun s => { s with lateMargin := BitVec.ofNat 12 v.toNat }
  | _ => s

/-- With support disabled B is never negative, and support in progress ends (spec/12 R318). A write of RETURN_EN during support
leaves B where the entry put it (DESIGN CHOICE, notes/assumptions/197). -/
def Tympan.setSupport (t : Tympan) : Tympan :=
  if t.supportCfg.getLsbD 0 then t else { t with support := false, busSet := max 0 t.busSet, busNext := max 0 t.busNext }

/-- A write of a Tympan register (spec/12 R331). -/
def State.writeTympan (s : State) (p : HPort) (o : Nat) (v : Word) : State :=
  let set (f : Tympan → Tympan) : State := s.guarded p gPower fun s => s.modTympan f
  let slope := v.toNat % 2 ^ 13
  let volt := v.toNat % 2 ^ 14
  match o with
  | 0x04 => set fun t => if 200 ≤ slope ∧ slope ≤ 5000 then { t with slope := BitVec.ofNat 13 slope } else t
  | 0x0C => set fun t => Tympan.setSupport { t with supportCfg := BitVec.ofNat 2 v.toNat }
  | 0x10 => set fun t => if 6400 ≤ volt ∧ volt ≤ 7600 then { t with supportV := BitVec.ofNat 14 volt } else t
  | 0x160 | 0x164 | 0x168 | 0x16C =>
    set fun t => { t with rippleLim := Sparse.put 0x64 t.rippleLim ((o - 0x160) / 4) (BitVec.ofNat 16 v.toNat) }
  | _ => s

/-- An MSI-X table entry with word w replaced: of the vector control, the mask bit is kept. -/
def msixWord (e : BitVec 128) (w : Nat) (v : Word) : BitVec 128 :=
  let x := if w = 3 then v.toNat % 2 else v.toNat
  BitVec.ofNat 128 (e.toNat - bitsOf e.toNat (32 * w + 31) (32 * w) * 2 ^ (32 * w) + x * 2 ^ (32 * w))

/-- A write of the MSI-X table; a pending vector that is unmasked is sent (spec/14 R376; notes/assumptions/18). -/
def State.writeMsix (s : State) (p : HPort) (o : Nat) (v : Word) : State :=
  let i := (o - 0x8000) / 16
  let e := msixWord ((s.host p).msixEntry i) (o % 16 / 4) v
  let s := s.modHost p fun h => { h with msix := Sparse.put 0 h.msix i (e ^^^ maskedEntry) }
  if !e.getLsbD 96 && (s.host p).pendingBits.getLsbD i then
    (s.modHost p fun h => { h with pendingBits := h.pendingBits &&& ~~~(BitVec.ofNat 64 (2 ^ i)) }).emit (.msix p (BitVec.ofNat 6 i))
  else s

/-- A write of the host-port block: the port's own page and MSI-X table; one to the other port's page is counted
(spec/14 R368, R392). -/
def State.writePage (s : State) (p : HPort) (o : Nat) (v : Word) : State :=
  if 0x1000 ≤ o ∧ o < 0x2000 then s.notOwner p
  else if 0x8000 ≤ o ∧ o < 0x8400 then s.writeMsix p o v
  else
    match o with
    | 0x04 => s.modHost p fun h => { h with
        bar2Base := BitVec.ofNat 41 (h.bar2Base.toNat / 2 ^ 32 * 2 ^ 32 + v.toNat / 2 ^ 30 * 2 ^ 30) }
    | 0x08 => s.modHost p fun h => { h with
        bar2Base := BitVec.ofNat 41 (h.bar2Base.toNat % 2 ^ 32 + v.toNat % 2 ^ 9 * 2 ^ 32) }
    | 0x0C => s.modHost p fun h => { h with debugSlab := BitVec.ofNat 4 v.toNat }
    | _ => s

/-- A write of a Carillon register (spec/11 R299). -/
def State.writeCar (s : State) (p : HPort) (o : Nat) (v : Word) : State :=
  if 0x100 ≤ o && o % 0x100 == 0x18 then
    match stackAt (o / 0x100 - 1) with
    | some h => s.guarded p gControl fun s => s.modStack h fun t => { t with car := { t.car with opGenSel := BitVec.ofNat 6 v.toNat } }
    | none => s
  else s

/-- A write of a trace register (spec/15 R409). -/
def State.writeTrace (s : State) (p : HPort) (o : Nat) (v : Word) : State :=
  let set (f : Trace → Trace) : State := s.guarded p gTrace fun s => { s with trace := f s.trace }
  match o with
  | 0x08 => set fun t => { t with trig := BitVec.ofNat 4 v.toNat }
  | 0x0C => set fun t => { t with slabs := BitVec.ofNat 16 v.toNat }
  | _ => s

/-- A write of a register outside the control page. -/
def State.writeBlock (s : State) (p : HPort) (off : Nat) (v : Word) : State :=
  let o := off % 0x10000
  match off / 0x10000 with
  | 0x1 => match semAt off with | some k => s.releaseSem p k.val | none => s
  | 0x2 => s.writeQueue p o v
  | 0x3 => s.writeBeat p o v
  | 0x4 => s.writeTympan p o v
  | 0x5 => s.writePage p o v
  | 0x8 => s.writeCar p o v
  | 0xA => s.writeTrace p o v
  | _ => if off = 0x100000 then s.cntSnap p v else s

/-- The word that a write of one bit of the control page stands for: the bit as written, the others as they are; of MBX_GO
the others are 0. -/
def State.bitWord (s : State) (off : Nat) (v : Word) : Word :=
  let o := (bitWordOf off).1
  let old := if o = 0x94 then 0 else ((s.controlReg o).getD 0).toNat
  let b := (bitWordOf off).2
  word (old - bitsOf old b b * 2 ^ b + v.toNat % 2 * 2 ^ b)

/-- A write of a BAR0 word: an Unsupported Request at a reserved location; outside the control page nothing in STARTING. -/
def State.writeBar0 (s : State) (p : HPort) (off : Nat) (v : Word) : State :=
  if (s.reg p off).isNone then s.emit (.unsupported p)
  else if inBitWindow off then s.writeControl p (bitWordOf off).1 (s.bitWord off v)
  else if off < 0x10000 then s.writeControl p off v
  else if s.dev = devStarting then s
  else s.writeBlock p off v

/-! ## Writes of both ports in one fabric cycle (spec/14 R389)

Of two writes that reach one register or one block in the same cycle, that of the port that would win a claim is applied second.
The command of each says that the other follows in the queue; the winner's, where it comes first, waits for the loser's
(notes/assumptions/168). -/

/-- A block or part of a block that a host writes: stored, or dropped and counted where a REDUCE owns it (spec/11 R278). -/
def State.hostBlock (s : State) (h : StackId) (a : Nat) (bs : List Byte) : State :=
  match (s.stack h).reduceAt a with
  | some _ => s.countStack h 5 1
  | none => s.hbmBlock h a bs

/-- A whole block is stored; a part of one is merged into it unless the block fails its reads (spec/14 R370). -/
def State.putBlock (s : State) (h : StackId) (a : Nat) (bs : List Byte) (fails : Bool) : State :=
  if bs.length < 64 && (fails || (s.stack h).hbmBad.contains (a / 64)) && ((s.stack h).reduceAt a).isNone then s.loseHbm h (a / 64)
  else s.hostBlock h a bs

/-- A write of a port applied. -/
def State.applyHeld (s : State) (w : HPort × HeldWrite) : State :=
  match w.2 with
  | .word off v => s.writeBar0 w.1 off v
  | .block h a bs fails => s.putBlock h a bs fails

/-- The writes of a port that waited are applied. -/
def State.applyWrites (s : State) (p : HPort) : State :=
  (s.heldWrites.filter (·.1 == p)).foldl State.applyHeld { s with heldWrites := s.heldWrites.filter (·.1 != p) }

/-- A write of a port: at once, or, where the other port's write of the same cycle is still to come and this one is applied second,
after it. -/
def State.hostWrite (s : State) (p : HPort) (same : Bool) (w : HeldWrite) : State :=
  if same && s.flam == p && !(s.heldWrites.any (·.1 == otherPort p)) then { s with heldWrites := s.heldWrites ++ [(p, w)] }
  else s.applyHeld (p, w)

/-- The other port's writes that waited for a command of this port follow it. -/
def Out.thenHeld (o : Host.Outcome State Fault Refusal) (p : HPort) : Host.Outcome State Fault Refusal :=
  match o with
  | .next s => .next (s.applyWrites (otherPort p))
  | .fault f => .fault f
  | .refused r => .refused r

/-- A register that both ports may write at any time (spec/14 R385, R387). -/
def bothWrite (off : Nat) : Bool := off == 0x30038 || (semAt off).isSome

/-- REGISTER_WRITE: one aligned word with all byte enables, or eight bytes of the MSI-X table. A word of BAR4 is ignored where it
is one that the page has, since none is writable (spec/14 R371, spec/15 R397); any other access is an Unsupported Request. -/
def execRegisterWrite (p : HPort) (offset : Nat) (v : Word) (how : Access) (s : State) : Host.Outcome State Fault Refusal :=
  Out.thenHeld (s.onBar0 p fun s =>
    if how.bar4 then
      if oneWord how offset && s.dev != devStarting && (s.debugReg p offset).isSome then s else s.emit (.unsupported p)
    else if twoWords how offset then (s.writeBar0 p offset v).writeBar0 p (offset + 4) how.high
    else if !oneWord how offset then s.emit (.unsupported p)
    else s.hostWrite p (how.same && bothWrite offset) (.word offset v)) p

/-- SEM_RELEASE: a write to SEM_k. -/
def execSemRelease (p : HPort) (k : SemWrite) (s : State) : Host.Outcome State Fault Refusal :=
  Out.thenHeld (s.onRegister p fun s => s.hostWrite p k.same (.word (0x10000 + 4 * k.sem.val) 0)) p

/-- BIT_ALIAS_WRITE: a write of one bit of the control page. -/
def execBitAliasWrite (p : HPort) (offset : Nat) (v : Word) (s : State) : Host.Outcome State Fault Refusal :=
  s.onBar0 p fun s => if inBitWindow offset then s.writeBar0 p offset v else s

/-! ## BAR2 (spec/14 R367, R369, R370, R391) -/

/-- Size of a port's window. -/
def windowSize (p : HPort) : Nat := 2 ^ (30 + (Config.bar2Log2 (hostIndex p)).val)

/-- Stack and offset of a BAR2 byte. -/
def State.window (s : State) (p : HPort) (offset : Nat) : StackId × Nat :=
  let a := (s.host p).bar2Base.toNat / windowSize p * windowSize p + offset
  (Fin.ofNat 16 (bitsOf a 40 37), bitsOf a 36 0)

/-- A request the window takes: inside it, and crossing no 4 KiB boundary. -/
def inWindow2 (p : HPort) (offset len : Nat) : Bool :=
  decide (offset + len ≤ windowSize p) && decide (offset % 4096 + len ≤ 4096)

/-- Blocks of a request that fail every read: found now, or known to fail. -/
def State.badBlocks (s : State) (h : StackId) (o len : Nat) (fails : List Nat) : List Nat :=
  (blocksOf o len).zipIdx.filterMap fun b =>
    if fails.contains b.2 || (s.stack h).hbmBad.contains b.1 then some b.1 else none

/-- A BAR2 request that the window does not take: an Unsupported Request in STARTING or for an AtomicOp; a Malformed TLP where
it crosses a 4 KiB boundary (spec/14 R366, R369); nothing where it lies outside the window, since it is then no request of BAR2;
an Unsupported Request where the stack never came up, as in a knell of the power-up (spec/16 R425; notes/assumptions/186: DESIGN
CHOICE). Of a request that R366 and R369 both name, the Unsupported Request comes first (DESIGN CHOICE, notes/assumptions/200). -/
def State.bar2Refused (s : State) (p : HPort) (offset len : Nat) (how : Bar2How) : Option State :=
  if how.atomic || s.dev == devStarting then some (s.emit (.unsupported p))
  else if 4096 < offset % 4096 + len then some (s.emit (.malformed p))
  else if !inWindow2 p offset len then some s
  else if !(s.stack (s.window p offset).1).up then some (s.emit (.unsupported p))
  else none

/-- BAR2_READ. -/
def execBar2Read (p : HPort) (offset : Nat) (len : Nat) (how : Bar2How) (s : State) : Host.Outcome State Fault Refusal :=
  s.onBus p fun s =>
    let s := s.unlatch p
    match s.bar2Refused p offset len how with
    | some t => t
    | none =>
      let w := s.window p offset
      let bad := s.badBlocks w.1 w.2 len how.fails
      let s := bad.foldl (fun s b => s.loseHbm w.1 b) s
      if bad.isEmpty then s.emit (.data p (Memory.read (s.stack w.1).hbm w.2 len)) else s.emit (.poisoned p)

/-- BAR2_WRITE: whole blocks are stored; a part of a block is merged into it unless the block fails its reads. -/
def execBar2Write (p : HPort) (offset : Nat) (bytes : List Byte) (how : Bar2How) (s : State) : Host.Outcome State Fault Refusal :=
  Out.thenHeld (s.onBus p fun s =>
    let s := s.unlatch p
    match s.bar2Refused p offset bytes.length how with
    | some t => t
    | none =>
      let w := s.window p offset
      (cutBlocks (bytes.length + 1) w.2 bytes).zipIdx.foldl (fun s c =>
        s.hostWrite p (how.same.contains c.2) (.block w.1 c.1.1 c.1.2 (how.fails.contains c.2))) s) p

end Sys2Proof.Machine
end

