-- ==== Sys2Proof/Machine/Trace.lean ====
section
/-! DEFINITION. The wait-for graph, the snapshot, the sync trace and its read-out (spec/17 R441, R444 to R453). -/

namespace Sys2Proof.Machine

open Sys2Proof

/-! ## The wait-for graph (spec/17 R451 to R453) -/

/-- An endpoint as it stands in an edge. -/
def noEnd : EndPt := ⟨0, 0, 0, 0⟩

/-- The edge of a context held back at a WAIT, when its wait began no later than beat `sweep`: both sweeps find it with one start
beat. A wait keeps its start beat for as long as it stands, so that the first sweep, at the end of the beat `sweep` in which the
build began, found those that had begun by then (spec/17 R451; notes/assumptions/78). -/
def State.waitEdge (s : State) (sweep : Nat) (c : CoreId) (k : Ctx) : Option WfEdge :=
  let x := s.core c
  ((x.waitOf k s.beat).filter fun w => decide (w.2.2 ≤ sweep)).map fun w =>
    let ctr := Sparse.look {} x.ctrs w.1.toNat
    let src := ctr.src.getD noEnd
    { kind := 0, waiter := s.coreEnd c, ctx := BitVec.ofNat 2 k.val, index := w.1, value := w.2.1, current := ctr.value
      target := src, known := EndPt.code src != 0, since := word w.2.2, block := 0 }

/-- Edges of the waits of the cores. -/
def State.waitEdges (s : State) (sweep : Nat) : List WfEdge :=
  s.cores.flatMap fun p =>
    match coreOfKey p.1 with | some c => allCtxs.filterMap fun k => s.waitEdge sweep c k | none => []

/-- The far end's escape buffers have stayed at 0 free through both sweeps (spec/17 R452). -/
def State.portBlocked (s : State) (sweep : Nat) (p : RPort) : Bool :=
  let q := s.port p
  q.trained && q.escape == 0 && decide (q.dry.getD s.beat ≤ sweep)

/-- The core of a rank of a reduction (spec/11 R278). -/
def State.rankCore (s : State) (e : OpEntry) (r : Nat) : EndPt :=
  let n := e.cnx * e.cny
  match s.rankCoord (e.mr0 + r / n) with
  | some m => ⟨m, 0, BitVec.ofNat 10 (e.cx0 + r % n % e.cnx), BitVec.ofNat 9 (e.cy0 + r % n / e.cnx)⟩
  | none => noEnd

/-- Beats after which a FILLING block enters the graph. -/
def graphBeats : Nat := 16

/-- The edge of an operation whose oldest FILLING block waits for its rank. -/
def State.fillEdge (s : State) (h : StackId) (i : Nat) : Option WfEdge :=
  let t := s.stack h
  match oldestBlock (t.car.filling.filter fun p => p.1 / 2 ^ 32 == i) with
  | none => none
  | some p =>
    if s.beat < p.2.since + graphBeats then none
    else some { kind := 1, waiter := s.stackEnd h, ctx := 0, index := BitVec.ofNat 6 i, value := BitVec.ofNat 16 p.2.next
                current := 0, target := s.rankCore (t.op i) p.2.next, known := true, since := word p.2.since, block := word (p.1 % 2 ^ 32) }

/-- The edge of a PERMUTE that has waited for its chunks 16 beats or more since it sent its own: a bad permutation leaves it waiting
forever (spec/11 R290). No rank is known to owe it a chunk: TARGET is unknown, VALUE 0, BLOCK the first chunk that is
not whole (DESIGN CHOICE, notes/assumptions/191). -/
def State.permuteEdge (s : State) (h : StackId) (i : Nat) : Option WfEdge :=
  let e := (s.stack h).op i
  let r := (s.stack h).opRun i
  if e.kind = kindPermute && r.running && r.begun && decide (r.since + graphBeats ≤ s.beat) then
    let missing := (List.range e.count).find? fun j =>
      decide (r.got.countP (fun b => b / (16 * e.unit) == j) < 16 * e.unit)
    some { kind := 1, waiter := s.stackEnd h, ctx := 0, index := BitVec.ofNat 6 i, value := 0, current := 0, target := noEnd
           known := false, since := word r.since, block := word (missing.getD 0) }
  else none

/-- The edge of a Carillon operation. -/
def State.carEdge (s : State) (h : StackId) (i : Nat) : Option WfEdge :=
  match s.fillEdge h i with
  | some e => some e
  | none => s.permuteEdge h i

/-- The neighbour's coordinates behind a port. -/
def State.neighbour (s : State) (p : RPort) : BitVec 10 :=
  let d := p.val / 2
  let k := s.dimSize d
  let at_ (i : Nat) : Nat :=
    let v := coordIn s.coord i
    if i = d then (if p.val % 2 = 0 then v + 1 else v + k - 1) % k else v
  BitVec.ofNat 10 (at_ 0 + at_ 1 * 2 ^ 3 + at_ 2 * 2 ^ 6)

/-- An edge of a port: blocked, or its neighbour silent. -/
def State.portEdge (s : State) (kind : BitVec 2) (p : RPort) : WfEdge :=
  { kind, waiter := EndPt.die s.coord (dieOf p), ctx := 0, index := BitVec.ofNat 6 p.val, value := 0, current := 0
    target := EndPt.die (s.neighbour p) (dieOf (opposite p)), known := true, since := 0, block := 0 }

/-- The edge of a knelled module: its waiter is the controller's die. -/
def State.knellEdge (s : State) (m : BitVec 10) : WfEdge :=
  { kind := 3, waiter := EndPt.die s.coord .west, ctx := 0, index := 0, value := 0, current := 0
    target := EndPt.die m .west, known := true, since := 0, block := 0 }

/-- Modules named in KNELL messages, each once. -/
def State.knelled (s : State) : List (BitVec 10) := (s.faults.knells.map (·.1)).eraseDups

/-- The edges of the graph; `sweep` is the beat of the first sweep. -/
def State.graphEdges (s : State) (sweep : Nat) : List WfEdge :=
  s.waitEdges sweep ++ (allStacks.flatMap fun h => (List.range 64).filterMap fun i => s.carEdge h i) ++
    ((allPorts.filter (s.portBlocked sweep)).map (s.portEdge 2)) ++
    ((allPorts.filter fun p => (s.port p).silent).map (s.portEdge 3)) ++ s.knelled.map s.knellEdge

/-- Edges whose target no edge of the list waits at are dropped. -/
def followed (es : List WfEdge) : List WfEdge := es.filter fun e => es.any fun f => f.waiter == e.target

/-- What is left of the edges once no more can be dropped. -/
def followAll : (fuel : Nat) → List WfEdge → List WfEdge
  | 0, es => es
  | n + 1, es => followAll n (followed es)

/-- The edges that lie on this module form a cycle. -/
def hasCycle (m : BitVec 10) (es : List WfEdge) : Bool :=
  let own := es.filter fun e => e.known && e.waiter.module == m && e.target.module == m
  !(followAll own.length own).isEmpty

/-- The wait registers that stand, as a sweep reads them. -/
def State.waitDump (s : State) : List (Nat × BitVec 6 × BitVec 16 × Nat) :=
  s.cores.flatMap fun p => allCtxs.filterMap fun k => (p.2.waitOf k s.beat).map fun w => (4 * p.1 + k.val, w)

/-- The graph built: it replaces the held one. -/
def State.buildGraph (s : State) (sweep : Nat) : State :=
  let es := s.graphEdges sweep
  { s with trace := { s.trace with
      waits := s.waitDump, valid := true, cycle := hasCycle s.coord es, wfBeat := BitVec.ofNat 64 s.beat, edges := es } }

/-- WF_GRAPH_BUILD: the build that a trigger began. -/
def execWfGraphBuild (s : State) : Host.Outcome State Fault Refusal :=
  if s.powered && s.trace.building then
    let t := s.buildGraph s.trace.sweepBeat
    .next { t with trace := { t.trace with building := false } }
  else .next s

/-- The 32 bytes of an edge. -/
def WfEdge.bytes (e : WfEdge) : List Byte :=
  leBytes 32 (e.kind.toNat + (EndPt.code e.waiter).toNat * 2 ^ 2 + e.ctx.toNat * 2 ^ 33 + e.index.toNat * 2 ^ 35 +
    e.value.toNat * 2 ^ 64 + e.current.toNat * 2 ^ 80 + (EndPt.code e.target).toNat * 2 ^ 96 + bit e.known * 2 ^ 127 +
    e.since.toNat * 2 ^ 128 + e.block.toNat * 2 ^ 160)

/-! ## SNAPSHOT (spec/17 R441) -/

/-- Offsets of the snapshot's parts. -/
def snapCounters : Nat := 64
def snapCores : Nat := 524352
def snapEdges : Nat := 59506752

/-- The 64-byte header. -/
def State.snapHeader (s : State) : List Byte :=
  leBytes 64 (0x534E5455 + 1 * 2 ^ 32 + s.capture.beat.toNat * 2 ^ 64 + s.capture.phase.toNat * 2 ^ 128 + s.trace.edges.length * 2 ^ 160 +
    bit s.trace.valid * 2 ^ 192 + bit s.trace.cycle * 2 ^ 193 + s.trace.wfBeat.toNat * 2 ^ 256)

/-- The key of core n in slab order, then slab-local order. -/
def snapCore (n : Nat) : Nat := slabKey (n / 19200) (n % 19200)

/-- A 32-bit word of the snapshot after the header, by its byte offset. -/
def State.snapWord (s : State) (o : Nat) : Word :=
  if o < snapCores then half (Sparse.look 0 s.capture.bank ((o - snapCounters) / 8)) (o % 8 / 4)
  else
    let i := o - snapCores
    Sparse.look 0 s.capture.cores (snapCore (i / 192) * 64 + 16 + i % 192 / 4)

/-- Bytes of the snapshot: n of them from the start. -/
def State.snapBytes (s : State) (n : Nat) : List Byte :=
  let mid := min n snapEdges - snapCounters
  (s.snapHeader ++ (List.range (mid / 4)).flatMap (fun i => leBytes 4 (s.snapWord (snapCounters + 4 * i)).toNat) ++
    if snapEdges < n then s.trace.edges.flatMap WfEdge.bytes else []).take n

/-- Bytes that a snapshot writes into a buffer: all of it, or the whole 64-byte blocks that fit. -/
def State.snapLength (s : State) (buffer : Nat) : Nat :=
  let all := snapEdges + 32 * s.trace.edges.length
  if all ≤ buffer then all else buffer / 64 * 64

/-- SNAPSHOT: capture, graph, memory writes. The build that a trigger began goes on beside it (spec/17 R451). -/
def execSnapshot (p : HPort) (k : Ring) (s : State) : Host.Outcome State Fault Refusal :=
  match s.command p k 7 with
  | none => .next s
  | some e =>
    let v := e.toNat
    let addr := bitsOf v 127 64
    .next (s.checked p k (badEntry e [(127, 64), (159, 128)] || addr % 64 != 0) (some gSnapshot) (decide (devReady ≤ s.dev)) fun s =>
      let s := s.capturedAll.buildGraph s.beat
      let n := s.snapLength (bitsOf v 159 128)
      let s := if n = 0 then s else s.emit (.write p (BitVec.ofNat 64 addr) (s.snapBytes n))
      s.complete p k stDone (s.capture.beat.toNat + n * 2 ^ 64))

/-! ## The sync trace (spec/17 R444 to R448) -/

/-- Bits [63:32] of the beat count of an epoch record. -/
def epochHi (r : BitVec 128) : BitVec 32 := BitVec.ofNat 32 (r.toNat / 2 ^ 48)

/-- A record is an epoch record. -/
def isEpoch (r : BitVec 128) : Bool := r.toNat % 4 == 1

/-- OLDEST_HI once the oldest record is the first of the list. -/
def oldestOf (hi : BitVec 32) (rs : List (BitVec 128)) : BitVec 32 :=
  match rs with
  | r :: _ => if isEpoch r then epochHi r else hi
  | [] => hi

/-- A record written into a buffer that takes it; a full ring gives up its oldest record. -/
def TraceBuf.store (b : TraceBuf) (stop : Bool) (beat : Nat) (r : BitVec 128) : TraceBuf :=
  let hi := if b.records.isEmpty then BitVec.ofNat 32 (beat / 2 ^ 32) else b.oldestHi
  if b.records.length < traceMax then
    let rs := b.records ++ [r]
    { b with records := rs, oldestHi := oldestOf hi rs, full := stop && rs.length == traceMax }
  else
    let rs := b.records.tail ++ [r]
    { b with records := rs, wrapped := true, head := (b.head + 1) % traceMax, oldestHi := oldestOf hi rs }

/-- The request that writes the next record of a buffer: one block of the trace area. -/
def TraceBuf.request (b : TraceBuf) : Request := .region true (traceArea + (b.head + b.records.length) % traceMax * 16 / 64 * 64) 1

/-- TRACE_COLLECT: the collector writes the oldest event of its queue to the trace area, by a request of the write class; it
waits while no entry of that class is free (spec/17 R444). One that finds a stop-mode buffer full is dropped. -/
def execTraceCollect (h : StackId) (s : State) : Host.Outcome State Fault Refusal :=
  let b := (s.stack h).trace
  match b.queue with
  | [] => .next s
  | r :: rest =>
    if !s.powered || !s.traceOn then .next s
    else if s.trace.armMode && b.full then
      .next ((s.modStack h fun t => { t with trace := { t.trace with queue := rest } }).countForever 0x82 1)
    else
      match (s.stack h).entryFor (s.dev = devRunning) .write with
      | none => .next s
      | some _ =>
      let b' := TraceBuf.store { b with queue := rest } s.trace.armMode s.beat r
      let s := (s.offer h b.request).modStack h fun t => { t with trace := b' }
      .next { s with trace := { s.trace with recs := s.trace.recs + 1, overflow := s.trace.overflow || b'.full } }

/-- TRACE_FREEZE: at the end of beat T + post count every buffer freezes. -/
def execTraceFreeze (s : State) : Host.Outcome State Fault Refusal :=
  let last := s.trace.trigBeat.toNat + s.trace.armPost.toNat
  if s.powered && s.trace.phase == .triggered && (decide (last < s.beat) || (s.beat == last && decide (s.tempoNow ≤ s.phase + 1))) then
    .next { s with trace := { s.trace with phase := .frozen } }
  else .next s

/-! ## TRACE actions (spec/14 R379, spec/17 R446, R449) -/

/-- The TRACE command in progress of a ring, if its ACTION is this one. -/
def State.traceAction (s : State) (p : HPort) (k : Ring) (action : Nat) : Option (BitVec 512) :=
  match s.command p k 8 with
  | some e => if bitsOf e.toNat 71 64 == action then some e else none
  | none => none

/-- A TRACE action checked and carried out: its parameters, the trace states that accept it. -/
def State.traceDo (s : State) (p : HPort) (k : Ring) (action : Nat) (params : List (Nat × Nat)) (ok : TracePhase → Bool)
    (act : BitVec 512 → State → State × Nat) : Host.Outcome State Fault Refusal :=
  match s.traceAction p k action with
  | none => .next s
  | some e =>
    .next (s.checked p k (badEntry e ((71, 64) :: params)) (some gTrace) (decide (devReady ≤ s.dev) && ok s.trace.phase) fun s =>
      let r := act e s
      r.1.complete p k stDone (s.beat % 2 ^ 64 + r.2 * 2 ^ 64))

/-- TRACE_CONFIGURE: MODE and post count for the next arm. -/
def execTraceConfigure (p : HPort) (k : Ring) (s : State) : Host.Outcome State Fault Refusal :=
  s.traceDo p k 1 [(72, 72), (127, 96)] (fun _ => true) fun e s =>
    ({ s with trace := { s.trace with mode := bitOf e.toNat 72, post := word (bitsOf e.toNat 127 96) } }, 0)

/-- The trace armed. -/
def State.armTrace (s : State) : State :=
  let s := s.mapStacks fun _ t => { t with trace := {} }
  let t := s.trace
  let s := { s with trace := { t with
    phase := .armed, overflow := false, recs := 0, snapRecs := 0, trigBeat := 0, trigTime := none, stopTime := none, armMode := t.mode, armPost := t.post, armTrig := t.trig
    armSlabs := t.slabs } }
  s.epochs

/-- TRACE_ARM. -/
def execTraceArm (p : HPort) (k : Ring) (s : State) : Host.Outcome State Fault Refusal :=
  s.traceDo p k 2 [] (fun _ => true) fun _ s => (s.armTrace, 0)

/-- TRACE_FORCE_TRIGGER; one that comes in the cycle of another trigger is one with it, and one in the cycle of a stop is applied
as if before it (spec/17 R447). -/
def execTraceForceTrigger (p : HPort) (k : Ring) (s : State) : Host.Outcome State Fault Refusal :=
  s.traceDo p k 3 [] (fun t => t == .armed || s.stoppedNow || s.triggeredNow) fun _ s =>
    (if s.trace.phase == .armed || s.stoppedNow then s.traceTrigger else s, 0)

/-- The trace stopped: every buffer freezes at once. The cycle of a stop of an armed trace is kept, since a trigger of the same cycle
applies first (spec/17 R447). -/
def State.stopTrace (s : State) : State :=
  { s with trace := { s.trace with phase := .frozen, stopTime := if s.trace.phase == .armed then some s.refTime else none } }

/-- TRACE_STOP. -/
def execTraceStop (p : HPort) (k : Ring) (s : State) : Host.Outcome State Fault Refusal :=
  s.traceDo p k 4 [] (fun t => t == .armed || t == .triggered) fun _ s => (s.stopTrace, 0)

/-- A slab's part of a read-out: header and n records. -/
def TraceBuf.out (b : TraceBuf) (slab n : Nat) : List Byte :=
  leBytes 64 (slab + bit b.wrapped * 2 ^ 8 + n * 2 ^ 32 + b.oldestHi.toNat * 2 ^ 64) ++
    (b.records.take n).flatMap fun r => leBytes 16 r.toNat

/-- A read-out into a buffer of some bytes: the bytes and the records written; it stops at a whole record. -/
def readOutRows (room : Nat) : List (Nat × TraceBuf) → List Byte × Nat
  | [] => ([], 0)
  | (slab, b) :: rest =>
    if room < 64 then ([], 0)
    else
      let n := min b.records.length ((room - 64) / 16)
      if n < b.records.length then (b.out slab n, n)
      else
        let r := readOutRows (room - 64 - 16 * n) rest
        (b.out slab n ++ r.1, n + r.2)

/-- TRACE_READ_OUT. -/
def execTraceReadOut (p : HPort) (k : Ring) (s : State) : Host.Outcome State Fault Refusal :=
  s.traceDo p k 5 [(191, 128), (223, 192)] (fun t => t == .idle || t == .frozen) fun e s =>
    let r := readOutRows (bitsOf e.toNat 223 192) (s.tracedSlabs.map fun h => (h.val, (s.stack h).trace))
    (if r.1.isEmpty then s else s.emit (.write p (BitVec.ofNat 64 (bitsOf e.toNat 191 128)) r.1), r.2)

end Sys2Proof.Machine
end

