-- ==== Sys2Proof/Machine/Commands.lean ====
section
/-! DEFINITION. The commands of the rings but for LOAD_IMAGE: LAUNCH, HALT, PHASE_HINT, POWER_CAP, COPY, LOOPBACK, DRAIN and
host reads that fail (spec/14 R365, R377 to R382, R393, R394; spec/02 R51, R54; spec/12 R316, R317, R329). -/

namespace Sys2Proof.Machine

open Sys2Proof

/-- A command whose effect is one step: checked, carried out, completed with its RESULT. -/
def State.simple (s : State) (p : HPort) (k : Ring) (op : Nat) (invalid : Nat → BitVec 512 → Bool) (group : Nat)
    (ok : State → Nat → Bool) (act : State → Nat → State × Nat) : Host.Outcome State Fault Refusal :=
  match s.command p k op with
  | none => .next s
  | some e =>
    .next (s.checked p k (invalid e.toNat e) (some group) (ok s e.toNat) fun s =>
      let r := act s e.toNat
      r.1.complete p k stDone r.2)

/-- 64 ones: RESULT of a disarm. -/
def allOnes : Nat := 0xFFFFFFFFFFFFFFFF

/-! ## LAUNCH and HALT (spec/02 R51, R54) -/

/-- The conditions of a launch at downbeat d. -/
def State.launchOk (s : State) (d : Nat) : Bool :=
  match s.image with
  | some i =>
    s.dev == devLoaded && !s.armed && decide (s.beat + 16 ≤ d) && decide (d ≤ s.beat + 2 ^ 32) &&
      decide (s.tempoMin.toNat ≤ i.tempo.toNat) && s.aligned
  | none => false

/-- A launch armed. -/
def State.arm (s : State) (d : Nat) : State :=
  ({ s with
    armed := true, downbeatLo := Triple.all (BitVec.ofNat 32 d), downbeatHi := Triple.all (BitVec.ofNat 32 (d / 2 ^ 32)) }).mapPorts
      fun _ q => { q with downbeat := none }

/-- LAUNCH. -/
def execLaunch (p : HPort) (k : Ring) (s : State) : Host.Outcome State Fault Refusal :=
  s.simple p k 2 (fun _ e => badEntry e [(127, 64)]) gRun (fun s v => s.launchOk (bitsOf v 127 64)) fun s v =>
    (s.arm (bitsOf v 127 64), s.beat % 2 ^ 64)

/-- HALT: the job halts, or the launch is disarmed. -/
def execHalt (p : HPort) (k : Ring) (s : State) : Host.Outcome State Fault Refusal :=
  s.simple p k 3 (fun _ e => badEntry e []) gRun (fun s _ => s.dev == devRunning || (s.dev == devLoaded && s.armed)) fun s _ =>
    if s.dev = devRunning then
      let s := s.halt 1 0 0 0
      (s, s.haltBeat.toNat)
    else (s.disarm, allOnes)

/-! ## PHASE_HINT and POWER_CAP (spec/12 R316, R317, R329) -/

/-- Hints the Tympan keeps. -/
def hintMax : Nat := 8

/-- Largest power of a hint. -/
def hintPower : Nat := 11500

/-- A hint taken: it replaces the one of its beat, or is dropped when eight others are pending. -/
def State.takeHint (s : State) (h : Hint) : State :=
  let others := s.tympan.hints.filter fun o => o.beat != h.beat
  if h.power = 0 then s.modTympan fun t => { t with hints := others }
  else if others.length < hintMax then s.modTympan fun t => { t with hints := others ++ [h] }
  else s.count mHintDrop 1

/-- PHASE_HINT. -/
def execPhaseHint (p : HPort) (k : Ring) (s : State) : Host.Outcome State Fault Refusal :=
  s.simple p k 4 (fun v e => badEntry e [(175, 64)] || (bitsOf v 143 128 != 0 && bitsOf v 175 144 == 0)) gPower
    (fun s _ => s.dev == devLoaded || s.dev == devRunning) fun s v =>
      (s.takeHint ⟨bitsOf v 127 64, min hintPower (bitsOf v 143 128), bitsOf v 175 144⟩, 0)

/-- POWER_CAP. -/
def execPowerCap (p : HPort) (k : Ring) (s : State) : Host.Outcome State Fault Refusal :=
  s.simple p k 5 (fun _ e => badEntry e [(95, 64)]) gPower (fun s _ => decide (devReady ≤ s.dev) && s.dev != devKnell) fun s v =>
    ({ s with jobCap := Triple.all (word (bitsOf v 95 64)) }, 0)

/-! ## COPY (spec/14 R381) -/

/-- Parameters of a COPY. -/
structure CopyParams where
  toHost : Bool
  host : DWord
  dev : DWord
  len : Nat
  sigAddr : DWord
  sigVal : BitVec 8
  deriving DecidableEq, Repr

/-- The parameters in an entry. -/
def CopyParams.of (v : Nat) : CopyParams :=
  { toHost := bitOf v 64, host := BitVec.ofNat 64 (bitsOf v 191 128), dev := BitVec.ofNat 64 (bitsOf v 255 192)
    len := bitsOf v 287 256, sigAddr := BitVec.ofNat 64 (bitsOf v 351 288), sigVal := BitVec.ofNat 8 (bitsOf v 359 352) }

/-- The parameters are in range. -/
def State.copyParamsOk (s : State) (q : CopyParams) : Bool :=
  q.host.toNat % 64 == 0 && q.len % 64 == 0 && decide (64 ≤ q.len) && (addrSpace q.dev == 4 || addrSpace q.dev == 5) &&
    s.endOk q.toHost q.dev q.len && ((q.sigAddr == 0) == (q.sigVal == 0)) && (!q.toHost || q.sigVal == 0) &&
    (q.sigVal == 0 || (s.ctrTarget q.sigAddr).isSome)

/-- States in which a COPY may name another module. -/
def State.mayReach (s : State) (q : CopyParams) : Bool :=
  decide (devReady ≤ s.dev) && (addrModule q.dev == s.coord || s.dev == devLoaded || s.dev == devRunning || s.dev == devHalted)

/-- The die of a host port: A stands on the west die, B on the east one (spec/01 R18). -/
def hostDie (p : HPort) : Die := match p with | .a => .west | .b => .east

/-- The issuer slot of a COPY's packets: the number of its ring, which has one command in progress. -/
def copySlotOf (k : Ring) : BitVec 5 := BitVec.ofNat 5 k.val

/-- The issuer slot of a port die's other packets. -/
def dieSlot : BitVec 5 := 30

/-- The transfers of a COPY to another module, as their WRITE packets: they end at every 64 KiB boundary, and the signal
travels on the final write of the last. -/
def State.copyTransfers (s : State) (p : HPort) (k : Ring) (q : CopyParams) (data : List Byte) : List (List Packet) :=
  let die := EndPt.die s.coord (hostDie p)
  let cuts := pieceCuts true q.dev.toNat (data.length / 64 + 1) 0 data.length
  let transfer (off : Nat) : Nat := (q.dev.toNat + off) / 65536
  (List.range (transfer (data.length - 1) + 1 - transfer 0)).map fun j =>
    let own := cuts.filter fun c => transfer c.1 == transfer 0 + j
    own.map fun c =>
      let last := c.1 + c.2 == data.length
      { kind := .write, final := own.getLast? == some c, blocks := c.2 / 64, addr := q.dev + BitVec.ofNat 64 c.1
        addr2 := if last then q.sigAddr else 0, sigVal := if last then q.sigVal else 0, count := own.length - 1
        tag := die, slot := copySlotOf k, src := die, data := (data.drop c.1).take c.2 }

/-- Bytes that the packets of a transfer carry. -/
def transferBytes (ps : List Packet) : Nat := ps.foldl (fun a w => a + w.data.length) 0

/-- A COPY of a ring. -/
def HostCopy.of (c : HostCopy) (p : HPort) (k : Ring) : Bool := c.port == p && c.ring == k

/-- A COPY to another module begins: its first transfer is sent. -/
def State.copyAway (s : State) (p : HPort) (k : Ring) (q : CopyParams) (data : List Byte) : State :=
  match s.copyTransfers p k q data with
  | [] => s.complete p k stDone q.len
  | ps :: rest =>
    let others := s.hostCopies.filter fun (c : HostCopy) => !(c.of p k)
    let here : HostCopy := { port := p, ring := k, under := transferBytes ps, moved := 0, rest }
    State.sendAllDie { s.accept p k with hostCopies := others ++ [here] } (hostDie p) ps

/-- A transfer of a COPY has landed: the next one is sent, or the COPY is done. -/
def State.copyLanded (s : State) (c : HostCopy) : State :=
  let others := s.hostCopies.filter (· != c)
  match c.rest with
  | [] => State.complete { s with hostCopies := others } c.port c.ring stDone (c.moved + c.under)
  | ps :: rest =>
    State.sendAllDie { s with hostCopies := others ++ [{ c with under := transferBytes ps, moved := c.moved + c.under, rest }] }
      (hostDie c.port) ps

/-- A packet of a COPY was discarded: the COPY ends with status copy failed; it stays marked, so that the notices of its
other packets find it. -/
def State.copyFailed (s : State) (c : HostCopy) : State :=
  State.complete { s with hostCopies := s.hostCopies.filter (· != c) ++ [{ c with failed := true, rest := [] }] }
    c.port c.ring stCopy c.moved

/-- The COPY whose packets carry this tag and slot. -/
def State.copyTagged (s : State) (w : Packet) : Option HostCopy :=
  s.hostCopies.find? fun c => w.tag == EndPt.die s.coord (hostDie c.port) && w.slot == copySlotOf c.ring

/-- Bytes of a COPY written at a place of this module, block by block; a block that reaches the stack in one fabric cycle with
a write of the other port is applied in the order of R389 (spec/14 R387, R389). -/
def State.copyStore (s : State) (p : HPort) (pl : Place) (c : CopyIn) : State :=
  match pl with
  | .hbm h o =>
    (cutBlocks (c.bytes.length + 1) o c.bytes).zipIdx.foldl (fun s b =>
      s.hostWrite p (c.same.contains b.2) (.block h b.1.1 b.1.2 false)) s
  | .sc h o => s.modStack h fun t => t.scPut o c.bytes
  | _ => s

/-- The signal of a COPY, sent by the base die it landed at. -/
def State.copySignal (s : State) (p : HPort) (q : CopyParams) (pl : Place) : State :=
  if q.sigVal = 0 then s
  else s.send (signalPacketOf (EndPt.die s.coord (hostDie p)) (s.placeEnd pl) dieSlot q.sigAddr q.sigVal.toNat)

/-- The first block of a COPY to the host that fails all its reads: its place in the copy. -/
def State.copyLost (s : State) (pl : Place) (n : Nat) (lost : Option Nat) : Option Nat :=
  let standing := match pl with | .hbm h _ => (s.stack h).hbmBad | .sc h _ => (s.stack h).scBad | _ => []
  (List.range (n / 64)).find? fun i => lost.any (fun o => o / 64 == i) || standing.contains (pl.off / 64 + i)

/-- A COPY from this module to host memory; the data before a lost block are written. -/
def State.copyOut (s : State) (p : HPort) (k : Ring) (q : CopyParams) (pl : Place) (lost : Option Nat) : State :=
  let bad := s.copyLost pl q.len lost
  let n := match bad with | some i => 64 * i | none => q.len
  let s := if n = 0 then s else s.emit (.write p q.host (s.readPlace pl n))
  match bad with
  | some i => (s.loseBlock pl (if addrSpace q.dev = 5 then 6 else 8) (pl.off / 64 + i)).complete p k stCopy n
  | none => s.complete p k stDone n

/-- The stack of a place came up (spec/16 R425). -/
def State.placeUp (s : State) (pl : Place) : Bool :=
  match pl with
  | .hbm h _ | .sc h _ => (s.stack h).up
  | _ => true

/-- Requests of a COPY to or from a stack of this module: one packet each, cut at every KiB of the device address (spec/08 R193,
spec/10 R241; notes/assumptions/189: DESIGN CHOICE). -/
def CopyParams.requests (q : CopyParams) : Nat := (q.dev.toNat + q.len - 1) / 1024 + 1 - q.dev.toNat / 1024

/-- Packets with which the base die answers: the data of each request, or the acknowledgement of each transfer of 64 KiB. -/
def CopyParams.replies (q : CopyParams) : Nat :=
  if q.toHost then q.requests else (q.dev.toNat + q.len - 1) / 65536 + 1 - q.dev.toNat / 65536

/-- The port die's rotation turns by the requests of a COPY within this module (spec/10 R248). -/
def State.copyRequests (s : State) (p : HPort) (q : CopyParams) : State :=
  s.modDie (hostDie p) fun d =>
    if q.toHost then { d with rotReq := (d.rotReq + q.requests) % 318 } else { d with rotRep := (d.rotRep + q.requests) % 318 }

/-- The base die's rotation turns by its answers, after what it has sent before. -/
def State.copyReplies (s : State) (q : CopyParams) (pl : Place) : State :=
  match pl with
  | .hbm h _ | .sc h _ => s.giveRows.modStack h fun t => { t with rotRep := (t.rotRep + q.replies) % 318 }
  | _ => s

/-- The packets of a COPY within this module have crossed the mesh: its requests, its signal, its answers. -/
def State.copyCrossed (s : State) (p : HPort) (q : CopyParams) (pl : Place) : State :=
  ((s.copyRequests p q).copySignal p q pl).copyReplies q pl

/-- A COPY carried out; of a stack that never came up it fails (notes/assumptions/186: DESIGN CHOICE). -/
def State.doCopy (s : State) (p : HPort) (k : Ring) (q : CopyParams) (pl : Place) (data : CopyIn) (lost : Option Nat)
    (pathDown : Bool) : State :=
  if addrModule q.dev = s.coord then
    if !s.placeUp pl then s.complete p k stCopy 0
    else if q.toHost then (s.copyCrossed p q pl).copyOut p k q pl lost
    else ((s.copyCrossed p q pl).copyStore p pl data).complete p k stDone q.len
  else if pathDown then s.complete p k stCopy 0
  else if q.toHost then
    let n := match lost with | some o => o / 64 * 64 | none => q.len
    let s := if n = 0 then s else s.emit (.write p q.host (data.bytes.take n))
    s.complete p k (if lost.isSome then stCopy else stDone) n
  else s.copyAway p k q data.bytes

/-- The data that come with the command are those that it moves. -/
def State.copyData (s : State) (q : CopyParams) (data : List Byte) (lost : Option Nat) (pathDown : Bool) : Bool :=
  let far := addrModule q.dev != s.coord
  let n := match lost with | some o => o / 64 * 64 | none => q.len
  if q.toHost then !far || pathDown || decide (n ≤ data.length) else (far && pathDown) || data.length == q.len

/-- COPY. `data`: the bytes read from host memory, or from another module, and how they meet the other port's writes. -/
def execCopy (p : HPort) (k : Ring) (data : CopyIn) (lost : Option Nat) (pathDown : Bool) (s : State) :
    Host.Outcome State Fault Refusal :=
  match s.command p k 6 with
  | none => .next s
  | some e =>
    let q := CopyParams.of e.toNat
    let invalid := badEntry e [(64, 64), (191, 128), (255, 192), (287, 256), (351, 288), (359, 352)] || !(s.copyParamsOk q)
    Out.thenHeld (.next (s.checked p k invalid none (s.mayReach q) fun s =>
      match placeOf q.dev with
      | some pl => if s.copyData q data.bytes lost pathDown then s.doCopy p k q pl data lost pathDown else s
      | none => s)) p

/-! ## ACK and FAIL notices (spec/09 R217, spec/10 R264) -/

/-- ACK: the copy slot is freed, and with it what fenced mode held behind it; or a transfer of a COPY has landed. -/
def execAck (p : Packet) (s : State) : Out :=
  if !s.powered || p.kind ≠ .ack || p.tag.module ≠ s.coord || s.stranded p then .next s
  else
    match EndPt.coreOf p.tag with
    | none =>
      let s := s.arrive p
      match s.copyTagged p with
      | some c => .next (if c.failed then s else s.copyLanded c)
      | none => .next s
    | some c =>
      .next ((s.arrive p).modCore c fun x =>
        { x with
          slots := x.slots.filter fun sl => sl.id != p.slot.toNat || sl.aborted
          served := x.served.filter (· != p.slot.toNat)
          repairs := x.repairs.filter (·.1 != p.slot.toNat) })

/-- A repair copy came to nothing: the block it was to repair is lost (spec/13 R342, R350). -/
def State.repairFailed (s : State) (c : CoreId) (slot : Nat) : State :=
  let s' := s.modCore c fun x => { x with repairs := x.repairs.filter (·.1 != slot) }
  match (s.core c).repairs.find? (·.1 == slot) with
  | some r => s'.itemLost c 0 1 r.2
  | none => s'

/-- FAIL_NOTICE: the named copy is aborted, a COPY of a host ends as failed; a lost packet of a SIG, of Carillon or of
a controller is a detected fault of its issuer. A repair copy that fails leaves its block lost. -/
def execFailNotice (p : Packet) (s : State) : Out :=
  if !s.powered || p.kind ≠ .fail || p.tag.module ≠ s.coord || s.stranded p then .next s
  else
    let s := s.arrive p
    match EndPt.coreOf p.tag with
    | none =>
      match s.copyTagged p with
      | some c => .next (State.linkLost (if c.failed then s else s.copyFailed c) p.tag)
      | none => .next (s.linkLost p.tag)
    | some c =>
      if p.slot.toNat ≤ 15 then
        match (s.core c).slots.find? fun sl => sl.id == p.slot.toNat with
        | none => .next s
        | some sl =>
          if sl.aborted then .next s
          else
            let s := s.copyAbort c p.slot (decide (p.cls < 6))
            .next (if p.cls = 0 then s.fault 5 (.core c) sl.ctx.val 0 0 else s)
      else if p.slot = 31 then .next (s.linkLost p.tag)
      else .next (s.repairFailed c p.slot.toNat)

/-! ## LOOPBACK (spec/14 R393, R394; spec/10 R269) -/

/-- The test an entry asks for. -/
def LoopTest.of (p : HPort) (k : Ring) (v : Nat) : LoopTest :=
  { port := p, ring := k, target := BitVec.ofNat 4 (bitsOf v 67 64), unit := BitVec.ofNat 4 (bitsOf v 71 68)
    depth := BitVec.ofNat 3 (bitsOf v 74 72), seed := bitsOf v 95 80, len := bitsOf v 127 96 }

/-- Target, unit and depth are among those of the tables; at host-port depths 3 and 4 UNIT may name either port (DESIGN CHOICE,
notes/assumptions/199). -/
def LoopTest.valid (t : LoopTest) : Bool :=
  let u := t.unit.toNat
  let d := t.depth.toNat
  match t.target.toNat with
  | 0 => decide (u ≤ 1) && decide (1 ≤ d ∧ d ≤ 4) && (decide (3 ≤ d) || u != hostIndex t.port)
  | 1 => decide (u ≤ 5) && decide (1 ≤ d ∧ d ≤ 5)
  | 2 => decide (1 ≤ d ∧ d ≤ 3)
  | 3 => d == 1
  | 4 => u == 0 && d == 1
  | _ => false

/-- Two tests would take one unit: the same target and unit, or the HBM and the Carillon of one stack (spec/14 R393). -/
def LoopTest.clashes (t o : LoopTest) : Bool :=
  let stack (v : LoopTest) : Bool := v.target == 2 || v.target == 3
  o.unit == t.unit && (o.target == t.target || (stack o && stack t))

/-- The device state accepts the test, its unit is not under test already. -/
def State.loopOk (s : State) (t : LoopTest) : Bool :=
  let v := s.dev
  let quiet := v == devReady || v == devLoaded || v == devHalted
  let free := !(s.loopTests.any t.clashes)
  free && match t.target.toNat with
    | 0 => (quiet || v == devKnell) && !(t.depth == 1 && (s.host (otherPort t.port)).linkUp)
    | 1 => if t.depth.toNat ≤ 3 then quiet else quiet || v == devRunning || v == devKnell
    | 4 => (v == devReady || v == devHalted) && s.tympan.supportCfg == 3
    | _ => quiet

/-- The LOOP packets of a test at Reduit depths 4 and 5: up to 8 blocks each. -/
def State.loopPackets (s : State) (t : LoopTest) (seed len : Nat) : List Packet :=
  let port : RPort := Fin.ofNat 6 t.unit.toNat
  let die := EndPt.die s.coord (dieOf port)
  (loopData seed len).map fun d =>
    { kind := .loop, blocks := d.length / 64, tag := die, slot := dieSlot, src := die, data := d, escape := true
      loopPort := BitVec.ofNat 3 port.val, loopDepth := t.depth }

/-- The first half of the host buffer as the DMA engine reads it for a test at host depth 4. -/
def State.hostHalf (s : State) (buffer len : Nat) : List Byte := (List.range len).map fun i => Config.hostByte s.refTime (buffer + i)

/-- A test started: its unit is under test, at host depth 2 with its link down and what that does to the port (R383, R394); at
Reduit depths 4 and 5 its packets leave; at host depth 3 the pattern is written to the host buffer, at depth 4 the first half
of the buffer to the second. -/
def State.startTest (s : State) (t : LoopTest) (v : Nat) : State :=
  let buffer := bitsOf v 191 128
  let s := if t.target = 0 && t.depth = 2 then s.loseLink (if t.unit = 0 then .a else .b) else s
  let s := ({ s with loopTests := s.loopTests ++ [t] }).testUnit t true false
  if t.target = 1 && decide (4 ≤ t.depth.toNat) then s.sendAll (s.loopPackets t t.seed t.len)
  else if t.target = 0 && t.depth = 3 && t.len != 0 then s.emit (.write t.port (BitVec.ofNat 64 buffer) (loopBytes t.seed t.len))
  else if t.target = 0 && t.depth = 4 && t.len != 0 then
    s.emit (.write t.port (BitVec.ofNat 64 (buffer + t.len)) (s.hostHalf buffer t.len))
  else s

/-- LOOPBACK. -/
def execLoopback (p : HPort) (k : Ring) (s : State) : Host.Outcome State Fault Refusal :=
  match s.command p k 9 with
  | none => .next s
  | some e =>
    let v := e.toNat
    let t := LoopTest.of p k v
    .next (s.checked p k (badEntry e [(74, 64), (95, 80), (127, 96), (191, 128)] || bitsOf v 127 96 % 64 != 0 || !t.valid)
      (some gTest) (s.loopOk t) fun s => (s.accept p k).startTest t v)

/-- The test sends LOOP packets. -/
def LoopTest.sends (t : LoopTest) : Bool := t.target == 1 && decide (4 ≤ t.depth.toNat)

/-- The errors of a test: those found otherwise, LOOP packets that came back changed, and those that did not come back. -/
def LoopTest.errors (t : LoopTest) (found : Word) : Word :=
  if t.sends then found + BitVec.ofNat 32 (t.wrong + ((loopData t.seed t.len).length - t.back)) else found

/-- The HOPS a test at Reduit depth 5 reports: those of the packet that came back last. -/
def LoopTest.hopsOf (t : LoopTest) (given : BitVec 8) : Nat :=
  if t.target = 1 && t.depth = 5 then (if t.back = 0 then given.toNat else t.hops) else 0

/-- A test passes: no error, at Reduit depth 5 the ring's length in the HOPS of every packet that came back, at the Tympan the bus and the reserve. -/
def State.testPasses (s : State) (t : LoopTest) (errors : Word) (hops : Nat) : Bool :=
  errors == 0 && (!(t.target == 1 && t.depth == 5) || (t.hopsSame && hops == s.dimSize (t.unit.toNat / 2))) &&
    (t.target != 4 || (!s.tympan.busLost && decide (Machine.reserve s.tympan.demand s.period ≤ s.tympan.energy)))

/-- LOOPBACK_DONE. -/
def execLoopbackDone (p : HPort) (k : Ring) (errors : Word) (hops : BitVec 8) (s : State) : Host.Outcome State Fault Refusal :=
  match s.loopTests.find? fun t => t.port == p && t.ring == k with
  | none => .next s
  | some t =>
    if !s.powered then .next s
    else
      let errors := t.errors errors
      let h := t.hopsOf hops
      let pass := s.testPasses t errors h
      .next ((s.endTest t pass).complete p k (if pass then stDone else stTest)
        (bit pass + t.depth.toNat * 2 ^ 8 + errors.toNat * 2 ^ 16 + h * 2 ^ 48))

/-! ## DRAIN (spec/14 R382) -/

/-- A Carillon of this module has work it can do without further input. -/
def Stack.carBusy (t : Stack) : Bool :=
  (t.car.blocks.any fun b => b.2.state == .filling && (rankData b.2.pieces b.2.next).isSome) ||
    t.car.runs.any fun r => r.2.running && !r.2.begun && (t.op r.1).kind != kindReduce

/-- A Carillon packet of this module is under way, waits at a stack, or is due to be sent again. -/
def State.carMoving (s : State) : Bool :=
  let own (p : Packet) : Bool := (p.kind == .carillon || p.was == .carillon) && p.src.module == s.coord
  s.anyPacket own || s.anyWaiting own

/-- A journal write or a trace write has not been carried out by its base die, or waits for an entry. -/
def Stack.regionBusy (t : Stack) : Bool :=
  let region (r : Request) : Bool := match r with | .region write _ _ => write | _ => false
  !t.unlisted.isEmpty || t.reqs.any (fun e => region e.req) || t.waiting.any region

/-- Nothing of this module is in flight. -/
def State.quiet (s : State) : Bool :=
  s.hostCopies.all (·.failed) && !(s.cores.any fun c => !c.2.slots.isEmpty || !c.2.cpys.isEmpty || !c.2.repairs.isEmpty || c.2.records.any fun r => !r.2.isSealed) &&
    !(s.beatLog.any fun b => !b.2.2.2) &&
    s.coresRolling == 0 && s.copyRolls == 0 && !s.carMoving &&
    !(allStacks.any fun h => (s.stack h).carBusy || (s.stack h).regionBusy ||
      (List.range 64).any fun i => s.permuteReady h i true && ((s.stack h).op i).kind == kindPermute) &&
    !(s.traceOn && allStacks.any fun h => !(s.stack h).trace.queue.isEmpty)

/-- DRAIN: checked; it completes when the module is quiet. -/
def execDrain (p : HPort) (k : Ring) (s : State) : Host.Outcome State Fault Refusal :=
  match s.command p k 10 with
  | none => .next s
  | some e =>
    .next (s.checked p k (badEntry e []) (some gDrain) (s.dev == devHalted || s.dev == devKnell) fun s => s.accept p k)

/-- A DRAIN that waits on a ring. -/
def State.draining (s : State) (p : HPort) (k : Ring) : Bool :=
  let q := (s.host p).sq k.val
  q.accepted && match q.active with | some e => entryOpcode e == 10 | none => false

/-- DRAIN_QUIET: every DRAIN that waits completes. -/
def execDrainQuiet (s : State) : Host.Outcome State Fault Refusal :=
  if !s.powered || !s.quiet then .next s
  else
    .next ([HPort.a, HPort.b].foldl (fun s p => allRings.foldl (fun s k =>
      if s.draining p k then s.complete p k stDone (s.beat % 2 ^ 64) else s) s) s)

/-! ## Host reads that fail (spec/14 R365) -/

/-- A load begins: image-valid is cleared and the device is in READY (spec/14 R380). -/
def State.beginLoad (s : State) : State := ({ s with imageValid := Triple.all 0 }).setDev devReady

/-- LOAD_IMAGE is accepted in this state. -/
def State.loadOk (s : State) : Bool :=
  s.load.isNone && (s.dev == devReady || (s.dev == devLoaded && !s.armed) || s.dev == devHalted)

/-- Reserved or misaligned parameters of a LOAD_IMAGE. -/
def loadBad (e : BitVec 512) : Bool := badEntry e [(127, 64), (143, 128)] || bitsOf e.toNat 127 64 % 64 != 0

/-- The load that the command of a ring began is under way: its extents are still read (spec/16 R429). -/
def State.loadOf (s : State) (p : HPort) (k : Ring) : Bool := match s.load with | some l => l.port == p && l.ring == k | none => false

/-- A read of host memory by the command in progress of a ring fails: the command ends with status host read failed. A load
under way ends with it, in READY. -/
def State.hostReadFails (s : State) (p : HPort) (k : Ring) : State :=
  if s.loadOf p k then State.complete { s with load := none } p k stHostRead 0
  else
  match s.loopTests.find? fun t => t.port == p && t.ring == k && t.target == 0 && decide (3 ≤ t.depth.toNat) with
  | some t => (s.endTest t false).complete p k stHostRead 0
  | none =>
    match s.command p k 1, s.command p k 6 with
    | some e, _ => s.checked p k (loadBad e) (some gImage) s.loadOk fun s => s.beginLoad.complete p k stHostRead 0
    | none, some e =>
      let q := CopyParams.of e.toNat
      if q.toHost then s
      else
        s.checked p k (badEntry e [(64, 64), (191, 128), (255, 192), (287, 256), (351, 288), (359, 352)] || !(s.copyParamsOk q)) none
          (s.mayReach q) fun s => s.complete p k stHostRead 0
    | none, none => s

/-- HOST_READ_TIMEOUT: a DMA read is not completed within 50 ms. -/
def execHostReadTimeout (p : HPort) (k : Ring) (s : State) : Host.Outcome State Fault Refusal :=
  if s.powered then .next (s.hostReadFails p k) else .next s

/-- HOST_READ_ERROR: a DMA read is completed with an error. -/
def execHostReadError (p : HPort) (k : Ring) (s : State) : Host.Outcome State Fault Refusal :=
  if s.powered then .next (s.hostReadFails p k) else .next s

end Sys2Proof.Machine
end

