-- ==== Sys2Proof/Machine/Image.lean ====
section
/-! DEFINITION. Structure images: LOAD_IMAGE, the load checks in their order, and installation (spec/16 R427 to R432,
spec/14 R380, spec/04 R101, R104, spec/11 R272, R293). -/

namespace Sys2Proof.Machine

open Sys2Proof

/-! ## The file (spec/16 R427, R428) -/

/-- n bytes of a file at an offset. -/
def slice (b : List Byte) (off n : Nat) : List Byte := (b.drop off).take n

/-- The number that n bytes at an offset spell. -/
def field (b : List Byte) (off n : Nat) : Nat := leNat (slice b off n)

/-- Bits of the header. -/
def hdr (b : List Byte) (hi lo : Nat) : Nat := bitsOf (field b 0 256) hi lo

/-- LENGTH and SECTIONS of the header. -/
def imgLength (b : List Byte) : Nat := hdr b 127 64
def imgSections (b : List Byte) : Nat := hdr b 143 128

/-- A section table entry. -/
structure Sect where
  type : Nat
  ignorable : Bool
  rsv : Nat
  off : Nat
  len : Nat
  /-- offset of the entry -/
  at_ : Nat
  deriving DecidableEq, Repr

/-- The sections in table order. -/
def sections (b : List Byte) : List Sect :=
  (List.range (imgSections b)).map fun i =>
    let at_ := 256 + 16 * i
    let e := field b at_ 16
    ⟨bitsOf e 7 0, bitOf e 8, bitsOf e 31 9, bitsOf e 95 32, bitsOf e 127 96, at_⟩

/-- The sections of a type. -/
def ofType (b : List Byte) (t : Nat) : List Sect := (sections b).filter fun x => x.type == t

/-- Offsets of the items of n bytes of a section. -/
def items (x : Sect) (n : Nat) : List Nat := (List.range (x.len / n)).map fun i => x.off + n * i

/-- The offset of the first item of a list that fails. -/
def firstBad (l : List Nat) (bad : Nat → Bool) : Option Nat := l.find? bad

/-- An offset where a condition fails. -/
def failsAt (bad : Bool) (off : Nat) : Option Nat := if bad then some off else none

/-! ## Header checks (spec/16 R430, 0x0001 to 0x0040) -/

/-- LENGTH lies in its range. -/
def lengthOk (b : List Byte) : Bool :=
  let n := imgLength b
  n % 64 == 0 && decide (n ≤ 2 ^ 32) && decide (256 + 16 * imgSections b + 1536 ≤ n)

/-- 0x0001: the extents. -/
def badExtents (extents : List (DWord × DWord)) (b : List Byte) : Option Nat :=
  let total := extents.foldl (fun a e => a + e.2.toNat) 0
  failsAt ((extents.any fun e => e.1.toNat % 4096 != 0 || e.2.toNat % 4096 != 0) || decide (total < 256) ||
    (lengthOk b && !(decide (imgLength b ≤ total) && decide (total < imgLength b + 4096)))) 0

/-- Reserved fields of the header. -/
def hdrReserved : List (Nat × Nat) :=
  [(159, 144), (191, 170), (207, 204), (223, 211), (255, 236), (271, 269), (287, 276), (2047, 424)]

/-- 0x0010: MAGIC, VERSION, LENGTH, SECTIONS, reserved bits. -/
def badHeader (b : List Byte) : Option Nat :=
  if hdr b 31 0 ≠ 0x4D495455 then some 0
  else if hdr b 63 56 ≠ 1 then some 7
  else if !lengthOk b then some 8
  else if imgSections b = 0 ∨ 256 < imgSections b then some 16
  else (hdrReserved.find? fun r => hdr b r.1 r.2 != 0).map fun r => r.2 / 8

/-- 0x0011: PART, STEPPING. -/
def badPart (b : List Byte) : Option Nat := failsAt (hdr b 47 32 != 0x7001 || hdr b 55 48 != 0xA1) 4

/-- The key block and the signature. -/
def keyBlock (b : List Byte) : List Byte := slice b (imgLength b - 1536) 1024
def signatureOf (b : List Byte) : List Byte := slice b (imgLength b - 512) 512

/-- The key block has the form of R427: an odd exponent from 3, the rest 0. -/
def keyOk (k : List Byte) : Bool :=
  let e := leNat (slice k 512 4).reverse
  e % 2 == 1 && decide (3 ≤ e) && (k.drop 516).all fun v => v == 0

/-- 0x0020: the signature. -/
def badSignature (b : List Byte) : Option Nat :=
  failsAt (!(keyOk (keyBlock b) && Config.pssVerify (keyBlock b) (b.take (imgLength b - 512)) (signatureOf b))) (imgLength b - 512)

/-- A section lies outside its bounds or is not aligned, or a reserved bit of its entry is set. -/
def Sect.misplaced (x : Sect) (b : List Byte) : Bool :=
  x.rsv != 0 || x.off % 64 != 0 || decide (x.off < 256 + 16 * imgSections b) || decide (imgLength b - 1536 < x.off + x.len)

/-- 0x0030: where the sections lie. -/
def badTable (b : List Byte) : Option Nat :=
  if imgLength b - 1536 < 256 + 16 * imgSections b then some 256
  else
    let ss := sections b
    (ss.find? fun x => x.misplaced b || ss.any fun y => x.at_ != y.at_ && sharesByte x.off x.len y.off y.len).map Sect.at_

/-- 0x0031: sections that may not be skipped. -/
def badTypes (b : List Byte) : Option Nat :=
  ((sections b).find? fun x => !x.ignorable && !(decide (1 ≤ x.type) && decide (x.type ≤ 7))).map Sect.at_

/-- 0x0032: section counts. -/
def badCounts (b : List Byte) : Option Nat :=
  if (ofType b 1).isEmpty then some 256
  else ([1, 2, 4, 6].findSome? fun t => (ofType b t)[1]?).map Sect.at_

/-- Header values. -/
def imgTempo (b : List Byte) : Nat := hdr b 203 192
def imgScCache (b : List Byte) : Nat := hdr b 275 272
def imgShadowK (b : List Byte) : Nat := hdr b 420 416
def imgShadowLs (b : List Byte) : Nat := hdr b 423 421

/-- 0x0040: ranges of header values. -/
def badRanges (b : List Byte) : Option Nat :=
  let tempo := imgTempo b
  let split := [hdr b 259 256, hdr b 263 260, hdr b 267 264]
  let k := imgShadowK b
  if tempo % 2 = 1 ∨ tempo < 500 ∨ 4000 < tempo then some 24
  else if 6 < hdr b 210 208 then some 26
  else if tempo - 41 < hdr b 235 224 then some 28
  else if split.contains 0 || split.foldl (· + ·) 0 != 16 then some 32
  else if 12 < imgScCache b then some 34
  else if k ≠ 0 ∧ (k < 8 ∨ 16 < k) then some 52
  else if (k = 0 ∧ imgShadowLs b ≠ 0) ∨ (k ≠ 0 ∧ (imgShadowLs b = 0 ∨ 4 < imgShadowLs b)) then some 52
  else none

/-! ## The rank table and the ports (0x0050 to 0x0052) -/

/-- Size of a dimension of the image's torus. -/
def imgDim (b : List Byte) (i : Nat) : Nat :=
  match i with
  | 0 => hdr b 162 160 + 1
  | 1 => hdr b 165 163 + 1
  | _ => hdr b 169 166 + 1

/-- Ranks of the image. -/
def imgRanks (b : List Byte) : Nat := imgDim b 0 * imgDim b 1 * imgDim b 2

/-- The first section of a type. -/
def sectOf (b : List Byte) (t : Nat) : Option Sect := (ofType b t).head?

/-- The rank table: serial number and coordinates. -/
def rankTable (b : List Byte) : List (DWord × BitVec 10) :=
  match sectOf b 1 with
  | some x => (items x 16).map fun o => (BitVec.ofNat 64 (field b o 8), BitVec.ofNat 10 (field b (o + 8) 2))
  | none => []

/-- A coordinate lies inside the image's torus. -/
def inShape (b : List Byte) (m : BitVec 10) : Bool := (List.range 3).all fun i => decide (coordIn m i < imgDim b i)

/-- 0x0050: the rank table. -/
def badRankTable (b : List Byte) : Option Nat :=
  match sectOf b 1 with
  | none => some 256
  | some x =>
    if x.len ≠ 16 * imgRanks b then some x.off
    else
      let t := rankTable b
      let bad (i : Nat) : Bool :=
        match t[i]? with
        | none => true
        | some r => !(inShape b r.2) || (t.take i).any fun o => o.1 == r.1 || o.2 == r.2
      ((List.range t.length).find? bad).map fun i => x.off + 16 * i

/-- This module's rank in the image. -/
def ownRank (b : List Byte) : Option Nat := (rankTable b).findIdx? fun r => r.1 == Config.serial

/-- 0x0051: the own serial number. -/
def badOwn (b : List Byte) : Option Nat := failsAt (ownRank b).isNone (((sectOf b 1).map Sect.off).getD 256)

/-- This module's coordinates in the image. -/
def ownCoord (b : List Byte) : BitVec 10 := match ownRank b with | some r => (((rankTable b)[r]?).map Prod.snd).getD 0 | none => 0

/-- The coordinates next to m through port p. -/
def nextCoord (b : List Byte) (m : BitVec 10) (p : RPort) : BitVec 10 :=
  let d := p.val / 2
  let k := imgDim b d
  let at_ (i : Nat) : Nat :=
    let v := coordIn m i
    if i = d then (if p.val % 2 = 0 then v + 1 else v + k - 1) % k else v
  BitVec.ofNat 10 (at_ 0 + at_ 1 * 2 ^ 3 + at_ 2 * 2 ^ 6)

/-- Ports that the image's torus uses. -/
def usedBy (b : List Byte) : List RPort := allPorts.filter fun p => imgDim b (p.val / 2) != 1

/-- The far end that a used port learned differs from the rank table's (spec/10 R251). A used port that learned none has far-end
serial number and port 0, and is judged by them (DESIGN CHOICE, notes/assumptions/173). -/
def cableBad (b : List Byte) (q : ReduitPort) (p : RPort) : Bool :=
  let m := nextCoord b (ownCoord b) p
  !((rankTable b).any fun r => r.2 == m && r.1 == q.farSerial) || q.farPort.toNat != (opposite p).val

/-- CABLE_MISMATCH of every used port follows the comparison with the far end it learned last. -/
def State.compareCables (s : State) (b : List Byte) : State :=
  (usedBy b).foldl (fun s p => s.modPort p fun q => { q with cableMismatch := cableBad b q p }) s

/-- 0x0052: used ports. -/
def State.badPorts (s : State) (b : List Byte) : Option Nat :=
  let bad := (usedBy b).any fun p =>
    let q := s.port p
    !q.trained || q.down || q.loopback || cableBad b q p
  failsAt bad ((((sectOf b 1).map Sect.off).getD 256) + 16 * (ownRank b).getD 0)

/-! ## Routes, classes, class map, LS contents (0x0060 to 0x0072) -/

/-- A peal route entry: axis (true: a column), line, head, tail. -/
def routeAt (b : List Byte) (o : Nat) : Bool × Nat × Nat × Nat :=
  let v := field b o 8
  (bitOf v 0, bitsOf v 10 1, bitsOf v 20 11, bitsOf v 30 21)

/-- The peal routes. -/
def routes (b : List Byte) : List (Bool × Nat × Nat × Nat) :=
  match sectOf b 2 with
  | some x => (items x 8).map (routeAt b)
  | none => []

/-- 0x0060: the route table. -/
def badRoutes (b : List Byte) : Option Nat :=
  match sectOf b 2 with
  | none => none
  | some x =>
    if x.len % 8 ≠ 0 ∨ 8 * 1023 < x.len then some x.off
    else
      firstBad (items x 8) fun o =>
        let (col, line, head, tail) := routeAt b o
        let lines := if col then 960 else 320
        let ends := if col then 320 else 960
        decide (lines ≤ line) || decide (ends ≤ head) || decide (ends ≤ tail) || bitsOf (field b o 8) 63 31 != 0

/-- A route runs through a core. -/
def routeCovers (r : Bool × Nat × Nat × Nat) (c : CoreId) : Bool :=
  let (col, line, head, tail) := r
  let v := if col then c.y.val else c.x.val
  (if col then c.x.val else c.y.val) == line && decide (min head tail ≤ v) && decide (v ≤ max head tail)

/-- 0x0061: more than 4 routes at a core. -/
def badRouters (b : List Byte) : Option Nat :=
  match sectOf b 2 with
  | none => none
  | some x =>
    let rs := routes b
    ((List.range rs.length).find? fun j =>
      match rs[j]? with
      | some r => (routeCores r).any fun c => decide (4 < (rs.take (j + 1)).countP fun o => routeCovers o c)
      | none => false).map fun j => x.off + 8 * j

/-- A core class section. -/
def classAt (b : List Byte) (x : Sect) : CoreClass :=
  let h := field b x.off 64
  let entry (k : Nat) : BitVec 10 := BitVec.ofNat 10 (bitsOf h (29 + 10 * k) (20 + 10 * k))
  { cls := BitVec.ofNat 16 (bitsOf h 15 0), enable := BitVec.ofNat 4 (bitsOf h 19 16), entries := ⟨entry 0, entry 1, entry 2, entry 3⟩
    code := (List.range (bitsOf h 73 64 + 1)).map fun i => BitVec.ofNat 64 (field b (x.off + 64 + 8 * i) 8) }

/-- The core classes. -/
def classes (b : List Byte) : List CoreClass := (ofType b 3).map (classAt b)

/-- A class is defined. -/
def hasClass (b : List Byte) (cls : Nat) : Bool := (classes b).any fun c => c.cls.toNat == cls

/-- 0x0070: a core class. -/
def badClasses (b : List Byte) : Option Nat :=
  let xs := ofType b 3
  ((List.range xs.length).findSome? fun i =>
    match xs[i]? with
    | none => none
    | some x =>
      let h := field b x.off 64
      let c := classAt b x
      let bad := x.len != 64 + 8 * (bitsOf h 73 64 + 1) || bitsOf h 63 60 != 0 || bitsOf h 511 74 != 0 ||
        ((xs.take i).any fun y => field b y.off 2 == c.cls.toNat) ||
        allCtxs.any fun k => c.enable.getLsbD k.val && decide (bitsOf h 73 64 < (c.entries.get k).toNat)
      failsAt bad x.off)

/-- An entry of the class map. -/
structure MapEntry where
  r0 : Nat
  r1 : Nat
  x0 : Nat
  x1 : Nat
  y0 : Nat
  y1 : Nat
  cls : Nat
  deriving DecidableEq, Repr

/-- The entry at an offset. -/
def mapAt (b : List Byte) (o : Nat) : MapEntry :=
  let v := field b o 16
  ⟨bitsOf v 9 0, bitsOf v 19 10, bitsOf v 29 20, bitsOf v 39 30, bitsOf v 48 40, bitsOf v 57 49, bitsOf v 79 64⟩

/-- Two entries share a core of a rank. -/
def MapEntry.meets (a e : MapEntry) : Bool :=
  decide (a.r0 ≤ e.r1 ∧ e.r0 ≤ a.r1) && decide (a.x0 ≤ e.x1 ∧ e.x0 ≤ a.x1) && decide (a.y0 ≤ e.y1 ∧ e.y0 ≤ a.y1)

/-- The class map. -/
def classMap (b : List Byte) : List MapEntry := match sectOf b 4 with | some x => (items x 16).map (mapAt b) | none => []

/-- 0x0071: the class map. -/
def badMap (b : List Byte) : Option Nat :=
  match sectOf b 4 with
  | none => none
  | some x =>
    if x.len % 16 ≠ 0 then some x.off
    else
      let m := classMap b
      ((List.range m.length).find? fun i =>
        match m[i]? with
        | none => true
        | some e =>
          let v := field b (x.off + 16 * i) 16
          bitsOf v 63 58 != 0 || bitsOf v 127 80 != 0 || !(decide (e.r0 ≤ e.r1 ∧ e.r1 < imgRanks b)) ||
            !(decide (e.x0 ≤ e.x1 ∧ e.x1 < 960)) || !(decide (e.y0 ≤ e.y1 ∧ e.y1 < 320)) || !(hasClass b e.cls) ||
            (m.take i).any fun o => o.meets e).map fun i => x.off + 16 * i

/-- First byte of the shadow area, or the end of the LS (spec/13 R355). -/
def lsTop (b : List Byte) : Nat := lsSize - (if imgShadowK b = 0 then 0 else 16384 * imgShadowLs b)

/-- 0x0072: LS contents. -/
def badInit (b : List Byte) : Option Nat :=
  ((ofType b 5).find? fun x =>
    let h := field b x.off 64
    decide (x.len < 64) || bitsOf h 48 32 % 64 != 0 || bitsOf h 31 16 != 0 || bitsOf h 511 49 != 0 || !(hasClass b (bitsOf h 15 0)) ||
      decide (lsTop b < bitsOf h 48 32 + (x.len - 64))).map Sect.off

/-! ## Tensors and Carillon (0x0080, 0x0090) -/

/-- n bytes at a global address lie in a store of the image's torus, in LS, SC or HBM. The load check asks it of SCALES as of DATA
(DESIGN CHOICE, notes/assumptions/170: spec/04 R101 names the spaces for DATA only). -/
def runFits (b : List Byte) (a : DWord) (n : Nat) : Bool :=
  a.toNat % 64 == 0 && inShape b (addrModule a) &&
    match placeOf a with
    | some (.ls _ o) => decide (o + n ≤ lsSize)
    | some (.hbm _ o) => decide (o + n ≤ hbmSize)
    | some (.sc _ o) => decide (o + n ≤ 0x0C000000 - imgScCache b * 0x1000000)
    | _ => false

/-- COARSE is positive and finite (spec/04 R104). -/
def posFinite (w : Word) : Bool := decide (0 < w.toNat) && decide (w.toNat < 0x7F800000)

/-- A tensor descriptor of 256 bits holds its fields' rules; `fits` judges its runs, that of SCALES by the same spaces as DATA
(notes/assumptions/170). -/
def tensorBad (v : Nat) (fits : DWord → Nat → Bool) : Bool :=
  let t := Tensor.of (leBytes 32 v)
  let wide := t.fmt.toNat == 5 || t.fmt.toNat == 6
  let blocks := t.dimB / 32 * t.dimO
  let run := 4 * elemWidth t.fmt * blocks
  let data := BitVec.ofNat 64 (bitsOf v 191 128)
  let scales := BitVec.ofNat 64 (bitsOf v 255 192)
  bitsOf v 63 38 != 0 || decide (6 < t.fmt.toNat) || (t.limb && t.fmt != 4) || !(posFinite t.coarse) ||
    (wide && (t.coarse != 0x3F800000 || scales != 0)) || t.dimB % 32 != 0 || decide (t.dimB < 32) || decide (2 ^ 31 < t.dimB) ||
    t.dimO == 0 || decide (2 ^ 31 < t.dimO) || !(fits data (run + if t.limb then t.limbRun else 0)) ||
    (!wide && !(fits scales ((blocks + 1) / 2)))

/-- 0x0080: the tensor descriptors. -/
def badTensors (b : List Byte) : Option Nat :=
  match sectOf b 6 with
  | none => none
  | some x => if x.len % 32 ≠ 0 then some x.off else firstBad (items x 32) fun o => tensorBad (field b o 32) (runFits b)

/-- Reserved fields of an operation entry. -/
def opReserved : List (Nat × Nat) :=
  [(15, 12), (31, 20), (127, 101), (191, 165), (287, 285), (335, 326), (351, 340), (383, 366), (511, 485)]

/-- The regions of an operation: offset and bytes (spec/11 R271). -/
def OpEntry.regions (e : OpEntry) : List (Nat × Nat) :=
  match e.kind with
  | 1 => [(e.region, 1024 * e.count)]
  | 2 | 6 => [(e.region, 256 * e.count), (e.region2, 64)]
  | 3 => [(e.region, 1024 * e.count), (e.region2, 1024 * e.count * e.mcount)]
  | 4 => [(e.region, 1024 * e.unit * e.count), (e.region2, 1024 * e.unit * e.count), (e.region3, 4 * e.count)]
  | 5 => [(e.region, 1024 * e.count), (e.region2, 1024 * e.count * e.slots)]
  | _ => []

/-- Fields that the table gives as 0 for an entry's kind are 0. -/
def OpEntry.unusedZero (e : OpEntry) : Bool :=
  let k := e.kind
  (k == 1 || (e.fmt == 0 && e.dualK == 0 && e.segLog2 == 0 && e.cx0 == 0 && e.cy0 == 0 && e.cnx == 0 && e.cny == 0)) &&
    (k != 1 || e.region2 == 0) && (k == 5 || e.slots == 0)

/-- An entry fails by itself. -/
def entryBad (v ranks : Nat) : Bool :=
  let e := OpEntry.of (BitVec.ofNat 512 v)
  if e.kind = 0 then v != 0
  else
    decide (6 < e.kind) || (opReserved.any fun r => bitsOf v r.1 r.2 != 0) || !e.unusedZero || e.region % 1024 != 0 ||
      ((e.doneAddr == 0) != (e.doneVal == 0)) || e.mcount == 0 || decide (ranks < e.mr0 + e.mcount) ||
      (e.regions.any fun r => decide (hbmSize < r.1 + r.2)) ||
      match e.kind with
      | 1 => (e.fmt != 5 && e.fmt != 6) || (e.dualK != 0 && !(decide (6 ≤ e.dualK))) || e.cnx == 0 || e.cny == 0 ||
          decide (960 < e.cx0 + e.cnx) || decide (320 < e.cy0 + e.cny) || decide (65536 < e.ranks)
      | 2 => !(posFinite e.maxNorm)
      | 5 => decide (e.slots < 2)
      | _ => false

/-- Two operations' regions share a byte. -/
def regionsMeet (a e : OpEntry) : Bool := a.regions.any fun r => e.regions.any fun q => sharesByte r.1 r.2 q.1 q.2

/-- A tensor-list record fails the conditions of R293. WORKK and WORKN in I8 may have LIMB 1, which R293 does not exclude; OPTIMIZE
then writes one run of I8 (DESIGN CHOICE, notes/assumptions/174). -/
def recordBad (own : BitVec 10) (m : Mem) (a : Nat) (h : StackId) : Bool :=
  let v (j : Nat) : Nat := leNat (Memory.read m (a + 32 * j) 32)
  let t (j : Nat) : Tensor := tensorAt m a j
  let fits (d : DWord) (n : Nat) : Bool :=
    d.toNat % 64 == 0 && addrModule d == own &&
      match placeOf d with | some (.hbm g o) => g == h && decide (o + n ≤ hbmSize) | _ => false
  let narrow (f : BitVec 4) : Bool := f == 0 || f == 1 || f == 2 || f == 4
  let ks := (t 0).dimB
  let ns := (t 0).dimO
  (List.range 6).any (fun j => tensorBad (v j) fits) || leNat (Memory.read m (a + 192) 64) / 4 != 0 ||
    !((t 0).fmt == 5 || (t 0).fmt == 6) || (t 1).fmt != 6 || !((t 2).limb && (t 3).limb) || !(narrow (t 4).fmt && narrow (t 5).fmt) ||
    (List.range 5).any (fun j => (t j).order || (t j).dimB != ks || (t j).dimO != ns) || ns % 32 != 0 || !(t 5).order ||
    (t 5).dimB != ns || (t 5).dimO != ks

/-- A Carillon section. -/
structure CarSect where
  r0 : Nat
  r1 : Nat
  stack : Nat
  trig : Nat
  at_ : Nat
  deriving DecidableEq, Repr

/-- The section at a place. -/
def carSect (b : List Byte) (x : Sect) : CarSect :=
  let h := field b x.off 64
  ⟨bitsOf h 9 0, bitsOf h 19 10, bitsOf h 23 20, bitsOf h 100 64, x.off⟩

/-- The entries of a section. -/
def CarSect.entry (c : CarSect) (b : List Byte) (i : Nat) : Nat := field b (c.at_ + 64 + 64 * i) 64

/-- Entry i of a section fails. -/
def State.carEntryBad (s : State) (b : List Byte) (c : CarSect) (i : Nat) : Bool :=
  let v := c.entry b i
  let e := OpEntry.of (BitVec.ofNat 512 v)
  let other (j : Nat) : OpEntry := OpEntry.of (BitVec.ofNat 512 (c.entry b j))
  let own := match ownRank b with | some r => decide (c.r0 ≤ r) && decide (r ≤ c.r1) | none => false
  let h : StackId := Fin.ofNat 16 c.stack
  entryBad v (imgRanks b) ||
    ((List.range i).any fun j => (e.kind == 1 || (other j).kind == 1) && regionsMeet e (other j)) ||
    (own && (e.kind == 2 || e.kind == 6) && (List.range e.count).any fun j => recordBad (ownCoord b) (s.stack h).hbm (e.region + 256 * j) h)

/-- 0x0090: the Carillon sections. -/
def State.badCarillon (s : State) (b : List Byte) : Option Nat :=
  let xs := ofType b 7
  (List.range xs.length).findSome? fun n =>
    match xs[n]? with
    | none => none
    | some x =>
      let h := field b x.off 64
      let c := carSect b x
      let bad := x.len != 64 + 4096 || decide (c.r1 < c.r0) || bitsOf h 63 24 != 0 ||
        bitsOf h 511 101 != 0 || c.trig % 4096 != 0 || decide (hbmSize < c.trig + 4096) ||
        (xs.take n).any fun y =>
          let d := carSect b y
          d.stack == c.stack && decide (d.r0 ≤ c.r1 ∧ c.r0 ≤ d.r1)
      if bad then some x.off
      else ((List.range 64).find? fun i => s.carEntryBad b c i).map fun i => x.off + 64 + 64 * i

/-! ## The checks in order -/

/-- The first of some checks that fails: reason code and offset. -/
def firstReject (l : List (Nat × (Unit → Option Nat))) : Option (Nat × Nat) :=
  l.findSome? fun c => (c.2 ()).map fun o => (c.1, o)

/-- The checks up to 0x0051. -/
def headChecks (extents : List (DWord × DWord)) (b : List Byte) : Option (Nat × Nat) :=
  firstReject [(0x0001, fun _ => badExtents extents b), (0x0010, fun _ => badHeader b), (0x0011, fun _ => badPart b),
    (0x0020, fun _ => badSignature b), (0x0030, fun _ => badTable b), (0x0031, fun _ => badTypes b), (0x0032, fun _ => badCounts b),
    (0x0040, fun _ => badRanges b), (0x0050, fun _ => badRankTable b), (0x0051, fun _ => badOwn b)]

/-- The checks from 0x0052 on. -/
def State.bodyChecks (s : State) (b : List Byte) : Option (Nat × Nat) :=
  firstReject [(0x0052, fun _ => s.badPorts b), (0x0060, fun _ => badRoutes b), (0x0061, fun _ => badRouters b),
    (0x0070, fun _ => badClasses b), (0x0071, fun _ => badMap b), (0x0072, fun _ => badInit b), (0x0080, fun _ => badTensors b),
    (0x0090, fun _ => s.badCarillon b)]

/-! ## Installation (spec/16 R431) -/

/-- What the module keeps of an image. -/
def imageOf (b : List Byte) : Image :=
  { digest := Config.sha512 (b.take (imgLength b - 512)), keyDigest := Config.sha512 (keyBlock b), ranks := rankTable b
    rank := (ownRank b).getD 0, dimX := imgDim b 0, dimY := imgDim b 1, dimZ := imgDim b 2
    tempo := BitVec.ofNat 12 (imgTempo b), floor := BitVec.ofNat 3 (hdr b 210 208), split := BitVec.ofNat 12 (hdr b 267 256)
    fenced := hdr b 268 268 == 1, scCache := BitVec.ofNat 4 (imgScCache b), dseed := BitVec.ofNat 64 (hdr b 351 288)
    carSeed := BitVec.ofNat 32 (hdr b 383 352), shadowSeed := BitVec.ofNat 32 (hdr b 415 384)
    shadowK := BitVec.ofNat 5 (imgShadowK b), shadowLs := BitVec.ofNat 3 (imgShadowLs b), routes := routes b }

/-- A core at a load, before its class: contexts disabled, LS and statistics 0, counters, flags and words clear. The
dither generators stay: no agent but a dithered rounding, a downbeat and a roll moves them (spec/04 R119, R120). -/
def Core.atLoad (x : Core) : Core :=
  { x with
    ctxs := x.ctxs.map fun _ t => { dither := t.dither }, last := none, pace := {}, ls := [], lsBad := [], landed := [], banks := Quad.all {}, stat := [], statBad := [], ctrs := []
    arrayQ := [], check := 0, landingPeak := x.landing.length, checkpoints := [], saves := [], roll := none, rolling := false
    rollMore := [], rollFound := [], rollSeq := 0, unrepaired := [], unrepairedStat := [], lost := [], repairs := [], shadow := none, routes := [] }

/-- The instruction store of a class. -/
def CoreClass.store (c : CoreClass) : Sparse DWord := (c.code.zipIdx.map fun p => (p.2, p.1)).filter fun p => p.2 != 0

/-- A core given its class: instruction store and its copy, enables and entry points; until the downbeat CTX_PC shows the entry
point and the scalar registers hold 0 (notes/assumptions/183: DESIGN CHOICE). -/
def Core.withClass (x : Core) (c : CoreClass) : Core :=
  { x with
    instr := c.store, instrBad := [], program := c.store
    ctxs := x.ctxs.map fun k t =>
      { enabled := c.enable.getLsbD k.val, entry := c.entries.get k, pc := c.entries.get k, dither := t.dither } }

/-- LS contents of a class, in section order. -/
def Core.initLs (x : Core) (b : List Byte) (cls : Nat) : Core :=
  ((ofType b 5).filter fun y => field b y.off 2 == cls).foldl (fun x y =>
    { x with ls := Memory.write x.ls (bitsOf (field b y.off 64) 48 32) (slice b (y.off + 64) (y.len - 64)) }) x

/-- The cores of a rectangle. -/
def MapEntry.cores (e : MapEntry) : List CoreId :=
  (List.range (e.y1 + 1 - e.y0)).flatMap fun j => (List.range (e.x1 + 1 - e.x0)).filterMap fun i => coreAt (e.x0 + i) (e.y0 + j)

/-- The cores of this rank given their classes. -/
def State.installCores (s : State) (b : List Byte) (rank : Nat) : State :=
  let s := s.mapCores fun _ x => x.atLoad
  ((classMap b).filter fun e => decide (e.r0 ≤ rank) && decide (rank ≤ e.r1)).foldl (fun s e =>
    match (classes b).find? fun c => c.cls.toNat == e.cls with
    | some c => e.cores.foldl (fun s i => s.modCore i fun x => (x.withClass c).initLs b e.cls) s
    | none => s) s

/-- The peal routes of the routers. -/
def State.installRoutes (s : State) (b : List Byte) : State :=
  (routes b).zipIdx.foldl (fun s r => (routeCores r.1).foldl (fun s c => s.modCore c fun x => { x with routes := x.routes ++ [r.2 + 1] }) s) s

/-- The Carillon table of a stack: this rank's section, or none. -/
def carTable (b : List Byte) (rank : Nat) (h : StackId) (old : Car) : Car :=
  match ((ofType b 7).map (carSect b)).find? fun c => c.stack == h.val && decide (c.r0 ≤ rank) && decide (rank ≤ c.r1) with
  | some c =>
    { trigBase := c.trig, loaded := true, opGenSel := old.opGenSel
      ops := ((List.range 64).map fun i => (i, BitVec.ofNat 512 (c.entry b i))).filter fun p => p.2 != 0 }
  | none => { opGenSel := old.opGenSel }

/-- A stack at a load: its Carillon, an empty cache part, peaks from here on. -/
def Stack.atLoad (t : Stack) (b : List Byte) (rank : Nat) (h : StackId) : Stack :=
  { t with
    lines := [], fills := t.fills.map fun f => { f with dirty := true }, reqPeak := t.reqs.length, landingPeak := t.landing.length
    car := carTable b rank h t.car }

/-- The image installed: the module is in LOADED with IMAGE_VALID 1. -/
def State.install (s : State) (b : List Byte) : State :=
  let i := imageOf b
  let s := (s.installCores b i.rank).installRoutes b
  let s := s.mapStacks fun h t => t.atLoad b i.rank h
  let s := s.mapPorts fun p q => { q with unused := imgDim b (p.val / 2) == 1 }
  let s := { s with
    image := some i, coord := ownCoord b, shape := BitVec.ofNat 10 (hdr b 169 160), shapeValid := true, t := 0
    lateMargin := BitVec.ofNat 12 (hdr b 235 224), floor := i.floor, imageValid := Triple.all 1
    tympan := { s.tympan with trim := [] }, faults := { s.faults with knells := [] } }
  s.setDev devLoaded

/-! ## LOAD_IMAGE and IMAGE_CHECK (spec/16 R429, spec/14 R380) -/

/-- Bytes that the extents name. -/
def extentBytes (extents : List (DWord × DWord)) : Nat := extents.foldl (fun a e => a + e.2.toNat) 0

/-- The image of a load stands where images are staged: its first LENGTH bytes; others are ignored (spec/16 R429). -/
def State.stage (s : State) (bytes : List Byte) : State :=
  let b := bytes.take (imgLength bytes)
  { s with imageStage := b ++ s.imageStage.drop b.length }

/-- LOAD_IMAGE: image-valid is cleared, the device is in READY, the image is fetched and staged. -/
def execLoadImage (p : HPort) (k : Ring) (extents : List (DWord × DWord)) (image : List Byte) (s : State) :
    Host.Outcome State Fault Refusal :=
  match s.command p k 1 with
  | none => .next s
  | some e =>
    .next (s.checked p k (loadBad e) (some gImage) s.loadOk fun s =>
      if extents.length ≠ bitsOf e.toNat 143 128 + 1 ∨ image.length ≠ extentBytes extents then s
      else
        let s := { (s.accept p k).beginLoad with load := some ⟨p, k, extents, image⟩ }
        (if s.level = 7 then s else s.stage image).raiseRails)

/-- A load ends rejected: reason code and offset of the failing item. -/
def State.rejectLoad (s : State) (l : Load) (code off : Nat) : State :=
  ({ s with load := none }).complete l.port l.ring stImage (code + off * 2 ^ 32)

/-- IMAGE_CHECK: the checks in order; the first that fails rejects the load, else the image is installed. At M7 the load
waits for the next bar boundary. -/
def execImageCheck (s : State) : Host.Outcome State Fault Refusal :=
  match s.load with
  | none => .next s
  | some l =>
    if !s.powered then .next s
    else if s.dev = devKnell then .next (s.rejectLoad l 0x00F0 0)
    else if s.level = 7 then .next s
    else
      let s := s.stage l.bytes
      match headChecks l.extents l.bytes with
      | some f => .next (s.rejectLoad l f.1 f.2)
      | none =>
        let s := s.compareCables l.bytes
        match s.bodyChecks l.bytes with
        | some f => .next (s.rejectLoad l f.1 f.2)
        | none =>
          let s := ({ s with load := none }.install l.bytes).raiseRails
          .next (s.complete l.port l.ring stDone s.ownDigest.toNat)

end Sys2Proof.Machine
end

