-- ==== Sys2Proof/Machine/Vector.lean ====
section
/-! DEFINITION. The vector engine (spec/07 R163 to R171, spec/04 R109 to R122). -/

namespace Sys2Proof.Machine

open Sys2Proof

/-! ## Running vector by vector -/

/-- What one vector writes and what the counters see of it. -/
structure VecOut where
  writes : List (Nat × List Byte)
  c0 : Nat := 0
  c1 : Nat := 0
  deriving DecidableEq, Repr

/-- Writes applied to a memory in order. -/
def applyWrites (m : Mem) (ws : List (Nat × List Byte)) : Mem := ws.foldl (fun m w => Memory.write m w.1 w.2) m

/-- Vectors in order. Vector j is read when the vectors up to j − lag have been written (spec/07 R170, R171):
`late` holds the writes of the last vectors, oldest first. -/
def vecRun (lag : Nat) (step : Nat → Mem → VecOut) : (todo : List Nat) → Mem → (late : List (List (Nat × List Byte))) → List VecOut
  | [], _, _ => []
  | j :: rest, m, late =>
    let m := if lag ≤ late.length then applyWrites m (late.headD []) else m
    let late := if lag ≤ late.length then late.tail else late
    let o := step j m
    o :: vecRun lag step rest m (late ++ [o.writes])

/-- The writes of a run applied to the LS, and its counts added up. -/
def Core.vecWrite (x : Core) (os : List VecOut) : Core :=
  (os.flatMap (·.writes)).foldl (fun x w => x.lsWrite false w.1 w.2) x

/-- Sum of the first and of the second counts. -/
def vecCounts (os : List VecOut) : Nat × Nat :=
  (os.foldl (fun n o => n + o.c0) 0, os.foldl (fun n o => n + o.c1) 0)

/-! ## Elements of wide vectors -/

/-- Bytes of an element of FP32, I32 or BF16. -/
def wideBytes (fmt : BitVec 4) : Nat := if fmt = 5 then 2 else 4

/-- Element i of a wide run. -/
def wideAt (m : Mem) (fmt : BitVec 4) (base i : Nat) : Nat := leNat (Memory.read m (base + wideBytes fmt * i) (wideBytes fmt))

/-- Bytes of wide codes. -/
def wideOut (fmt : BitVec 4) (cs : List Nat) : List Byte := cs.flatMap fun v => leBytes (wideBytes fmt) v

/-- One lane: a code with its VEC_INVALID and VEC_OVERFLOW. -/
structure Lane where
  code : Nat
  inv : Nat := 0
  ovf : Nat := 0
  deriving DecidableEq, Repr

/-- A floating lane: an exact result rounded once to FMT, and the counters (spec/07 R165, R169). -/
def floatLane (fmt : BitVec 4) (ops : List FVal) (v : Exact) : Lane :=
  let code := roundWide fmt v
  let fl := vecFlags ops (wideVal fmt code)
  ⟨code, fl.1, fl.2⟩

/-- A floating lane whose code is formed already. -/
def codeLane (fmt : BitVec 4) (ops : List FVal) (code : Nat) : Lane :=
  let fl := vecFlags ops (wideVal fmt code)
  ⟨code, fl.1, fl.2⟩

/-- Vector j of an element-wise operation on wide operands at the given bases. -/
def laneStep (fmt : BitVec 4) (d : Nat) (lane : Mem → Nat → Lane) (j : Nat) (m : Mem) : VecOut :=
  let ls := (List.range 32).map fun l => lane m (32 * j + l)
  { writes := [(d + vecBytes fmt j, wideOut fmt (ls.map (·.code)))]
    c0 := ls.foldl (fun n l => n + l.inv) 0
    c1 := ls.foldl (fun n l => n + l.ovf) 0 }

/-- FMT is one of BF16, FP32. -/
def vecFloat (fmt : BitVec 4) : Bool := isWide fmt

/-- FMT is one of BF16, FP32, I32. -/
def vecAny (fmt : BitVec 4) : Bool := isWide fmt || fmt == 7

/-- A vector instruction with its lanes given by `lane`. -/
def execVector (op : BitVec 6) (srcs : List Nat) (fails : List (Nat × Bool)) (lane : Mem → Nat → Lane)
    (c : CoreId) (k : Ctx) (f : FmtM) (s : State) : Out :=
  let t := (s.core c).ctx k
  let n := countOf f
  let d := addrD t f
  let u := vectorUse srcs t f
  let (rate, lat) := vecTiming op.toNat f.sub.toNat
  issue s c k (encM op f) u (fails ++ [(ckLs, u.lsFails 64)]) false .seq fun s =>
    s.modCore c fun x =>
      let os := vecRun ((lat + rate - 1) / rate) (laneStep f.fmt d lane) (List.range n) x.ls []
      let cs := vecCounts os
      { (x.vecWrite os).countVec cs.1 cs.2 with vectorBusy := x.vectorBusy + BitVec.ofNat 64 (rate * n) }

/-! ## The operations -/

/-- One lane of VBIN (spec/07 R165, R168). -/
def vbinLane (fmt : BitVec 4) (sub a b : Nat) (m : Mem) (i : Nat) : Lane :=
  let x := wideAt m fmt a i
  let y := wideAt m fmt b i
  if fmt = 7 then
    let p : Word := BitVec.ofNat 32 x
    let q : Word := BitVec.ofNat 32 y
    let r : Word :=
      match sub with
      | 0 => p + q
      | 1 => p - q
      | 2 => p * q
      | 3 => if p.toInt < q.toInt then q else p
      | _ => if p.toInt < q.toInt then p else q
    ⟨r.toNat, 0, 0⟩
  else
    let p := wideVal fmt x
    let q := wideVal fmt y
    let v :=
      match sub with
      | 0 => p.add q
      | 1 => p.sub q
      | 2 => p.mul q
      | 3 => (p.max q).exact
      | _ => (p.min q).exact
    floatLane fmt [p, q] v

/-- VBIN: element-wise binary operation. -/
def execVbin (c : CoreId) (k : Ctx) (f : FmtM) (s : State) : Out :=
  let t := (s.core c).ctx k
  execVector 0x20 [addrA t f, addrB t f]
    [(ckIllegal, decide (4 < f.sub.toNat) || badFlags f), (ckFormat, !vecAny f.fmt)]
    (vbinLane f.fmt f.sub.toNat (addrA t f) (addrB t f)) c k f s

/-- One lane of VFMA: A · B + D rounded once. -/
def vfmaLane (fmt : BitVec 4) (a b d : Nat) (m : Mem) (i : Nat) : Lane :=
  let p := wideVal fmt (wideAt m fmt a i)
  let q := wideVal fmt (wideAt m fmt b i)
  let r := wideVal fmt (wideAt m fmt d i)
  floatLane fmt [p, q, r] (p.fma q r)

/-- VFMA: D := A × B + D. -/
def execVfma (c : CoreId) (k : Ctx) (f : FmtM) (s : State) : Out :=
  let t := (s.core c).ctx k
  execVector 0x21 [addrA t f, addrB t f, addrD t f]
    [(ckIllegal, badSub f || badFlags f), (ckFormat, !vecFloat f.fmt)]
    (vfmaLane f.fmt (addrA t f) (addrB t f) (addrD t f)) c k f s

/-- One lane of VUN (spec/07 R165, R166, R168). The infinity of the reciprocal of a zero is not counted
(spec/07 R169). -/
def vunLane (fmt : BitVec 4) (sub a : Nat) (m : Mem) (i : Nat) : Lane :=
  let x := wideAt m fmt a i
  if fmt = 7 then
    let p : Word := BitVec.ofNat 32 x
    let r : Word :=
      match sub with
      | 0 => -p
      | 1 => if p.toInt < 0 then -p else p
      | _ => p
    ⟨r.toNat, 0, 0⟩
  else
    let p := wideVal fmt x
    match sub with
    | 0 => floatLane fmt [p] p.neg.exact
    | 1 => floatLane fmt [p] p.abs.exact
    | 2 => codeLane fmt [p] (exp2Wide fmt p)
    | 3 => if p.isZero then ⟨roundWide fmt p.recip, 0, 0⟩ else floatLane fmt [p] p.recip
    | 4 => codeLane fmt [p] (rsqrtWide fmt p)
    | _ => floatLane fmt [p] p.exact

/-- VUN: element-wise unary operation. -/
def execVun (c : CoreId) (k : Ctx) (f : FmtM) (s : State) : Out :=
  let t := (s.core c).ctx k
  let slow := vunSlow f.sub.toNat
  execVector 0x22 [addrA t f]
    [(ckIllegal, badB f || decide (5 < f.sub.toNat) || badFlags f),
      (ckFormat, !(vecFloat f.fmt || (f.fmt == 7 && !slow)))]
    (vunLane f.fmt f.sub.toNat (addrA t f)) c k f s

/-- One lane of VSCALE: the element times an FP32 factor, rounded once (spec/07 R167). -/
def vscaleLane (fmt : BitVec 4) (a : Nat) (factor : FVal) (m : Mem) (i : Nat) : Lane :=
  let p := wideVal fmt (wideAt m fmt a i)
  floatLane fmt [p, factor] (p.mul factor)

/-- VSCALE: multiply by the FP32 value in the scalar register B. -/
def execVscale (c : CoreId) (k : Ctx) (f : FmtM) (s : State) : Out :=
  let t := (s.core c).ctx k
  execVector 0x24 [addrA t f]
    [(ckIllegal, badSub f || badFlags f), (ckFormat, !vecFloat f.fmt)]
    (vscaleLane f.fmt (addrA t f) (fp32 (t.reg f.bbase.toNat))) c k f s

/-! ## VCVT -/

/-- The allowed source and destination pairs (spec/04 R109). -/
def cvtPair (src dst : BitVec 4) : Bool :=
  if isBlock src then (isBlock dst && src != dst) || isWide dst
  else if src = 6 then isBlock dst || dst == 5 || dst == 7
  else if src = 5 then isBlock dst || dst == 6 || dst == 7
  else if src = 7 then isWide dst || dst == 4
  else false

/-- The 32 exact values of vector j of a source run of n vectors. -/
def cvtSource (m : Mem) (src : BitVec 4) (a n j : Nat) : List Exact :=
  (List.range 32).map fun i =>
    if isBlock src then
      (scaledVal src (packedElem m a (elemWidth src) (32 * j + i)) (scaleAt m (a + blockRun src n) j)).exact
    else if src = 7 then i32Exact (wideAt m src a (32 * j + i))
    else (wideVal src (wideAt m src a (32 * j + i))).exact

/-- Packed 32-element block, without padding. -/
def packBlock (w : Nat) (cs : List Nat) : List Byte := leBytes (4 * w) (packNat w cs)

/-- Zeros from the end of n units of `unit` bytes at `base` to the next block (spec/04 R98), written with the last vector (DESIGN
CHOICE of the cycle, notes/assumptions/193). -/
def padding (base unit n j : Nat) : List (Nat × List Byte) :=
  if j + 1 = n then [(base + unit * n, List.replicate (up64 (unit * n) - unit * n) 0)] else []

/-- The scale nibble of vector j, with its even neighbour's, and with the last vector the padding of the scale run (DESIGN CHOICE of
the cycle, notes/assumptions/193); until the odd vector is written, the upper nibble is 0 (DESIGN CHOICE, notes/assumptions/185). -/
def scaleWrites (base n j : Nat) (e : Int) (prev : Nat) : List (Nat × List Byte) :=
  let v := if j % 2 = 0 then scaleCode e else prev + 16 * scaleCode e
  (base + j / 2, [BitVec.ofNat 8 v]) ::
    (if j + 1 = n then [(base + (n + 1) / 2, List.replicate (nibbleRun n - (n + 1) / 2) 0)] else [])

/-- Fine scale of a block of exact values under a bound. -/
def blockScale (bound : Nat) (vs : List Exact) : Int :=
  let a := maxMag vs
  chooseScale bound a.1 a.2

/-- Vector j converted. `modes` gives the rounding of every element of the run; `prev` is the scale code of the
vector before. -/
def cvtStep (src dst : BitVec 4) (a d n : Nat) (modes : List RMode) (prev : Nat) (j : Nat) (m : Mem) : VecOut :=
  let vs := cvtSource m src a n j
  let mode (i : Nat) : RMode := modes.getD (32 * j + i) .nearest
  if src = 7 && dst = 4 then
    let e := blockScale 32639 vs
    let q := (List.range 32).map fun i => limbSplit e (mode i) (vs.getD i .nan)
    let run := blockRun 4 n
    { writes := [(d + 32 * j, packBlock 8 (q.map (·.1))), (d + run + 32 * j, packBlock 8 (q.map (·.2.1)))] ++
        padding d 32 n j ++ padding (d + run) 32 n j ++ scaleWrites (d + 2 * run) n j e prev
      c0 := q.countP (·.2.2) }
  else if isBlock dst then
    let e := blockScale (maxF dst) vs
    let q := (List.range 32).map fun i => encodeElem dst e (mode i) (vs.getD i .nan)
    let w := elemWidth dst
    { writes := [(d + 4 * w * j, packBlock w (q.map (·.code)))] ++ padding d (4 * w) n j ++
        scaleWrites (d + blockRun dst n) n j e prev
      c0 := q.countP (·.sat)
      c1 := q.countP (·.nan) }
  else if dst = 7 then
    let q := (List.range 32).map fun i => convI32 (mode i) (vs.getD i .nan)
    { writes := [(d + 128 * j, wideOut 7 (q.map (·.code)))]
      c0 := q.countP (·.sat)
      c1 := q.countP (·.nan) }
  else
    let q := (List.range 32).map fun i => convWide dst (mode i) (vs.getD i .nan)
    { writes := [(d + vecBytes dst j, wideOut dst q)] }

/-- The code of the scale last written, from a vector's writes. -/
def lastScale (src dst : BitVec 4) (vs : List Exact) : Nat :=
  if src = 7 && dst = 4 then scaleCode (blockScale 32639 vs)
  else if isBlock dst then scaleCode (blockScale (maxF dst) vs)
  else 0

/-- Vectors of a VCVT in order; as `vecRun`, with the scale code of the vector before carried along. -/
def cvtRun (src dst : BitVec 4) (a d n : Nat) (modes : List RMode) :
    (todo : List Nat) → Mem → (late : List (List (Nat × List Byte))) → (prev : Nat) → List VecOut
  | [], _, _, _ => []
  | j :: rest, m, late, prev =>
    let m := if 6 ≤ late.length then applyWrites m (late.headD []) else m
    let late := if 6 ≤ late.length then late.tail else late
    let o := cvtStep src dst a d n modes prev j m
    o :: cvtRun src dst a d n modes rest m (late ++ [o.writes]) (lastScale src dst (cvtSource m src a n j))

/-- VCVT: format conversion of a run of vectors. -/
def execVcvt (c : CoreId) (k : Ctx) (f : FmtM) (s : State) : Out :=
  let t := (s.core c).ctx k
  let n := countOf f
  let a := addrA t f
  let d := addrD t f
  let src := cvtFrom f
  let dithered := bitOf f.sub.toNat 4
  let u := vcvtUse t f
  issue s c k (encM 0x23 f) u
    [(ckIllegal, badB f || badFlags f), (ckLs, u.lsFails 64), (ckFormat, !cvtPair src f.fmt)] false .seq fun s =>
    let modes := roundModes dithered (32 * n) (s.ditherOf c k)
    s.modCore c fun x =>
      let os := cvtRun src f.fmt a d n modes.1 (List.range n) x.ls [] 0
      let cs := vecCounts os
      let x' := ((x.vecWrite os).countConv cs.1 cs.2).modCtx k fun t => t.setDither dithered modes.2
      { x' with vectorBusy := x.vectorBusy + BitVec.ofNat 64 n }

end Sys2Proof.Machine
end

