-- ==== Sys2Proof/Machine/Row.lean ====
section
/-! DEFINITION. The row engine (spec/07 R172 to R184). -/

namespace Sys2Proof.Machine

open Sys2Proof

/-! ## Exact sums (spec/07 R175, R182) -/

/-- The exact sum of values: a NaN gives NaN, infinities of both signs NaN, of one sign that infinity. -/
def sumF (xs : List FVal) : FVal :=
  if xs.any FVal.isNan then .nan
  else
    let pos := xs.any fun x => x == .inf false
    let neg := xs.any fun x => x == .inf true
    if pos && neg then .nan
    else if pos then .inf false
    else if neg then .inf true
    else
      let d : Dy := xs.foldl (fun (acc : Dy) x => acc.add x.dy) ⟨0, 0⟩
      .fin (decide (d.m < 0)) d.m.natAbs d.e

/-- A value divided by a row length, exactly. -/
def divW (x : FVal) (w : Nat) : Exact := x.div (.fin false w 0)

/-- Two values are equal. -/
def FVal.same (x y : FVal) : Bool :=
  match x, y with
  | .nan, _ => false
  | _, .nan => false
  | _, _ => x.le y && y.le x || (x.isZero && y.isZero)

/-- The row exponential ex(x, m) (spec/07, Softmax); a row maximum of −∞ gives +0 in RSMAX (spec/07 R182). -/
def rowExp (x m : FVal) : FVal :=
  fp32 (BitVec.ofNat 32 (exp2Wide 6 (rn ((rn (x.sub m)).mul (fp32 0x3FB8AA3B)))))

/-- ex of RSMAX: +0 where the maximum is −∞, but NaN for a NaN element (spec/07 R182). -/
def rowExpMax (x m : FVal) : FVal :=
  if x.isNan then .nan else if m = .inf true then .fin false 0 0 else rowExp x m

/-! ## The schedule (spec/07 R183) -/

/-- The LS as the engine sees it, writes to come by cycle, all writes in order. -/
structure RowSt where
  m : Mem
  late : List (Nat × Nat × List Byte) := []
  done : List (Nat × List Byte) := []
  deriving DecidableEq, Repr

/-- Writes of the cycles before t reach the LS. -/
def RowSt.upTo (st : RowSt) (t : Nat) : RowSt :=
  { st with
    m := (st.late.filter fun w => decide (w.1 < t)).foldl (fun m w => Memory.write m w.2.1 w.2.2) st.m
    late := st.late.filter fun w => decide (t ≤ w.1) }

/-- A write in cycle t. -/
def RowSt.put (st : RowSt) (t a : Nat) (bs : List Byte) : RowSt :=
  { st with late := st.late ++ [(t, a, bs)], done := st.done ++ [(a, bs)] }

/-- The 32 values of vector v of a row at `base`. -/
def rowVec (fmt : BitVec 4) (m : Mem) (base v : Nat) : List FVal :=
  (List.range 32).map fun i => wideVal fmt (wideAt m fmt base (32 * v + i))

/-- One reading pass over vectors, from cycle t: the values of x and of dy. -/
def rowPass (fmt : BitVec 4) (xb gb : Nat) : (vs : List Nat) → (t : Nat) → RowSt → List FVal × List FVal × RowSt
  | [], _, st => ([], [], st)
  | v :: vs, t, st =>
    let st := st.upTo t
    let xs := rowVec fmt st.m xb v
    let gs := rowVec fmt st.m gb v
    let r := rowPass fmt xb gb vs (t + 1) st
    (xs ++ r.1, gs ++ r.2.1, r.2.2)

/-- A writing pass: each vector's outputs 12 cycles after it is read; all values read and codes written. -/
def rowOut (fmt : BitVec 4) (xb gb out : Nat) (fn : FVal → FVal → Nat) :
    (vs : List Nat) → (t : Nat) → RowSt → List FVal × List FVal × List Nat × RowSt
  | [], _, st => ([], [], [], st)
  | v :: vs, t, st =>
    let st := st.upTo t
    let xs := rowVec fmt st.m xb v
    let gs := rowVec fmt st.m gb v
    let cs := List.zipWith fn xs gs
    let st := st.put (t + 12) (out + vecBytes fmt v) (wideOut fmt cs)
    let r := rowOut fmt xb gb out fn vs (t + 1) st
    (xs ++ r.1, gs ++ r.2.1, cs ++ r.2.2.1, r.2.2.2)

/-- What one row gives: the schedule's state, the entry written, the two counters. -/
structure RowRes where
  st : RowSt
  entry : Option (Word × Word) := none
  inv : Nat := 0
  ovf : Nat := 0
  deriving DecidableEq, Repr

/-- Counters of results against the operands of a row, which are all its elements and the statistics it reads: a NaN among them
suppresses every count of the row, but that RNORM counts each element by its own (`rowNorm`); statistics and outputs are counted,
intermediate values not, but for v + eps of RSTAT (spec/07 R169; DESIGN CHOICE, notes/assumptions/14). -/
def rowFlags (ops rs : List FVal) : Nat × Nat :=
  (if ops.any FVal.isNan then 0 else rs.countP FVal.isNan,
    if ops.all FVal.isFinite then rs.countP (fun r => match r with | .inf _ => true | _ => false) else 0)

/-- A value as an FP32 word. -/
def fpWord (x : FVal) : Word := BitVec.ofNat 32 (roundWide 6 x.exact)

/-- Addresses of a row: the input, the gradient, the output, its vectors, its first cycle. -/
structure RowAt where
  i : Nat
  x : Nat
  g : Nat
  out : Nat
  vs : List Nat
  t : Nat
  deriving DecidableEq, Repr

/-- RSTAT of one row (spec/07 R176, R182); v + eps that overflows is counted with the statistics (notes/assumptions/14: DESIGN
CHOICE). -/
def rowStat (fmt : BitVec 4) (h : RowHdr) (r : RowAt) (_entry : Word × Word) (st : RowSt) : RowRes :=
  let p := rowPass fmt r.x r.x r.vs r.t st
  let xs := p.1
  if xs.all FVal.isFinite then
    let s1 := sumF xs
    let s2 := sumF (xs.map fun x => (x.mul x).toF)
    let mu := rn (divW s1 h.w)
    let num := (((FVal.fin false h.w 0).mul s2).toF.sub (s1.mul s1).toF).toF
    let v := rn (num.div (.fin false (h.w * h.w) 0))
    let ve := rn (v.add (fp32 h.eps))
    let q : Word := BitVec.ofNat 32 (rsqrtWide 6 ve)
    let overs (y : FVal) : Nat := match y with | .inf _ => 1 | _ => 0
    ⟨p.2.2, some (fpWord mu, q), 0, overs ve + overs (fp32 q)⟩
  else ⟨p.2.2, some (0x7FC00000, 0x7FC00000), 1, 0⟩

/-- RSMAX of one row in MODE 0 (spec/07 R179, R182). -/
def rowMax0 (fmt : BitVec 4) (r : RowAt) (st : RowSt) : RowRes :=
  let nv := r.vs.length
  let p1 := rowPass fmt r.x r.x r.vs r.t st
  let m := p1.1.foldl FVal.max .nan
  let p2 := rowPass fmt r.x r.x r.vs (r.t + nv) p1.2.2
  let s := rn (sumF (p2.1.map fun x => rowExpMax x m)).exact
  let fn (x _ : FVal) : Nat := 
    if m = .inf true && !s.isNan then roundWide fmt (.zero false) else roundWide fmt ((rowExpMax x m).div s)
  let p3 := rowOut fmt r.x r.x r.out fn r.vs (r.t + 2 * nv) p2.2.2
  let fl := rowFlags p1.1 ([m, s] ++ p3.2.2.1.map (wideVal fmt))
  ⟨p3.2.2.2, some (fpWord m, fpWord s), fl.1, fl.2⟩

/-- RSMAX of one row in MODE 1: merged with its entry (spec/07 R180, R182). `corr` is the address of its element of
the correction run. The row writes its element 16 cycles after its last vector is read, and the padding of the run is written after
every row (DESIGN CHOICE, notes/assumptions/158: spec/07 R183 gives no more than when the run is usable). -/
def rowMax1 (fmt : BitVec 4) (r : RowAt) (corr : Nat) (entry : Word × Word) (st : RowSt) : RowRes :=
  let nv := r.vs.length
  let m0 := fp32 entry.1
  let s0 := fp32 entry.2
  let p1 := rowPass fmt r.x r.x r.vs r.t st
  let m1 := FVal.max m0 (p1.1.foldl FVal.max .nan)
  let fn (x _ : FVal) : Nat := roundWide fmt (rowExpMax x m1).exact
  let p2 := rowOut fmt r.x r.x r.out fn r.vs (r.t + nv) p1.2.2
  let c := if m0.same m1 then FVal.fin false 1 0 else rowExpMax m0 m1
  let s1 := rn ((s0.mul c).toF.add (sumF (p2.1.map fun x => rowExpMax x m1)))
  let st := p2.2.2.2.put (r.t + 2 * nv + 4 + 12) corr (leBytes 4 (fpWord c).toNat)
  let fl := rowFlags (p1.1 ++ [m0, s0]) ([m1, s1, c] ++ p2.2.2.1.map (wideVal fmt))
  ⟨st, some (fpWord m1, fpWord s1), fl.1, fl.2⟩

/-- x̂ of R178: rn((x − μ) · r). -/
def rowHat (x mu q : FVal) : FVal := rn ((x.sub mu).toF.mul q)

/-- RNORM of one row (spec/07 R177); each element is counted by its own operands, x and the entry (notes/assumptions/14: DESIGN
CHOICE). -/
def rowNorm (fmt : BitVec 4) (h : RowHdr) (r : RowAt) (entry : Word × Word) (st : RowSt) : RowRes :=
  let e0 := fp32 entry.1
  let e1 := fp32 entry.2
  let fn (x _ : FVal) : Nat :=
    if h.mode = 1 then
      (if e1 = .fin false 0 (1 - 127 - 23) then roundWide fmt (.zero false) else roundWide fmt (x.div e1))
    else roundWide fmt ((x.sub e0).toF.mul e1)
  let p := rowOut fmt r.x r.x r.out fn r.vs r.t st
  let fl := (List.zip p.1 p.2.2.1).foldl (fun (a : Nat × Nat) xc =>
    let ops := if h.mode = 1 then [xc.1, e1] else [xc.1, e0, e1]
    let f := vecFlags ops (wideVal fmt xc.2)
    (a.1 + f.1, a.2 + f.2)) (0, 0)
  ⟨p.2.2.2, none, fl.1, fl.2⟩

/-- RNORMB of one row (spec/07 R178). -/
def rowNormB (fmt : BitVec 4) (h : RowHdr) (r : RowAt) (entry : Word × Word) (st : RowSt) : RowRes :=
  let mu := fp32 entry.1
  let q := fp32 entry.2
  let p1 := rowPass fmt r.x r.g r.vs r.t st
  let ma := rn (divW (sumF p1.2.1) h.w)
  let mb := rn (divW (sumF (List.zipWith (fun x dy => (dy.mul (rowHat x mu q)).toF) p1.1 p1.2.1)) h.w)
  let fn (x dy : FVal) : Nat :=
    let inner := ((dy.sub ma).toF.sub ((rowHat x mu q).mul mb).toF).toF
    roundWide fmt (q.mul inner)
  let p2 := rowOut fmt r.x r.g r.out fn r.vs (r.t + r.vs.length) p1.2.2
  let fl := rowFlags (p1.1 ++ p1.2.1 ++ [mu, q]) (p2.2.2.1.map (wideVal fmt))
  ⟨p2.2.2.2, none, fl.1, fl.2⟩

/-- RSMAXB of one row (spec/07 R181). -/
def rowMaxB (fmt : BitVec 4) (r : RowAt) (entry : Word × Word) (st : RowSt) : RowRes :=
  let m := fp32 entry.1
  let s := fp32 entry.2
  let p (x : FVal) : FVal := rn ((rowExp x m).div s)
  let p1 := rowPass fmt r.x r.g r.vs r.t st
  let g := rn (sumF (List.zipWith (fun x dy => (dy.mul (p x)).toF) p1.1 p1.2.1)).exact
  let fn (x dy : FVal) : Nat := roundWide fmt ((dy.sub g).toF.mul (p x))
  let p2 := rowOut fmt r.x r.g r.out fn r.vs (r.t + r.vs.length) p1.2.2
  let fl := rowFlags (p1.1 ++ p1.2.1 ++ [m, s]) (p2.2.2.1.map (wideVal fmt))
  ⟨p2.2.2.2, none, fl.1, fl.2⟩

/-! ## The instructions -/

/-- Rows in order: each row's entry read at its start, its result gathered. -/
def rowsRun (x : Core) (d : Nat) (row : RowAt → Word × Word → RowSt → RowRes) (mk : Nat → RowAt) :
    (todo : List Nat) → RowSt → List RowRes
  | [], _ => []
  | i :: rest, st =>
    let r := row (mk i) (x.statEntry (d + i)) st
    r :: rowsRun x d row mk rest r.st

/-- An entry of the statistics store as the context's stroke found it. -/
def Core.entryAtStart (x : Core) (k : Ctx) (e : Nat) : List Byte := Memory.read (x.ctx k).statAtStart (8 * e) 8

/-- Entries an RSMAX in MODE 1 writes are saved as the stroke found them, once (spec/07 R184). -/
def Core.saveEntries (x : Core) (k : Ctx) (d n : Nat) : Core :=
  let stroke := (x.ctx k).n
  let have_ := x.saves
  let mine (v : EntrySave) : Bool := v.ctx == k && v.n == stroke && decide (d ≤ v.entry) && decide (v.entry < d + n)
  { x with saves := (x.saves.map fun v => if mine v then { v with seq := x.ckptSeq } else v) ++ ((List.range n).filter fun i =>
      !(have_.any fun v => v.ctx == k && v.n == stroke && v.entry == d + i)).map fun i =>
        ⟨k, stroke, d + i, x.entryAtStart k (d + i), x.ckptSeq⟩ }

/-- Header fields that must be 0 and are not, for the instruction. -/
def RowOp.hdrIllegal (o : RowOp) (h : RowHdr) : Bool :=
  h.reserved || (o != .smax && o != .norm && h.mode != 0) || (o != .stat && h.eps != 0) ||
    (o != .smaxb && o != .normb && h.g != 0)

/-- EPS is +0 or positive finite. -/
def epsOk (e : Word) : Bool := !(fp32 e).sign && (fp32 e).isFinite

/-- Header fields out of their formats. -/
def RowOp.hdrFormat (o : RowOp) (h : RowHdr) : Bool :=
  h.w == 0 || h.w % 32 != 0 || decide (16384 < h.w) || (o == .stat && !epsOk h.eps) || decide (1 < h.mode)

/-- The result of one row. -/
def RowOp.run (o : RowOp) (fmt : BitVec 4) (h : RowHdr) (corr : Nat) (r : RowAt) (entry : Word × Word) (st : RowSt) : RowRes :=
  match o with
  | .stat => rowStat fmt h r entry st
  | .smax => if h.mode = 1 then rowMax1 fmt r (corr + 4 * r.i) entry st else rowMax0 fmt r st
  | .norm => rowNorm fmt h r entry st
  | .smaxb => rowMaxB fmt r entry st
  | .normb => rowNormB fmt h r entry st

/-- A row instruction. -/
def execRow (o : RowOp) (c : CoreId) (k : Ctx) (f : FmtM) (s : State) : Out :=
  let x := s.core c
  let t := x.ctx k
  let n := countOf f
  let d := indexD t f
  let a := addrA t f
  let b := addrB t f
  let judged := hdrJudged a
  let h := x.rowHdr t f
  let z := rowWidth f.fmt
  let merge := x.rowMergesAt o t f
  let u := x.rowUse o t f
  issue s c k (encM o.code f) u
    [(ckIllegal, badSub f || badFlags f || (o == .stat && badB f) || (judged && o.hdrIllegal h)), (ckLs, u.lsFails 64),
      (ckStat, u.statFails), (ckFormat, !isWide f.fmt || (judged && o.hdrFormat h))] false .seq fun s =>
    let x := s.core c
    let nv := h.w / 32
    let span := o.span h
    let mk (i : Nat) : RowAt := ⟨i, a + 64 + i * h.w * z, h.g + i * h.w * z, b + i * h.w * z, List.range nv, i * span⟩
    let corr := b + n * h.w * z
    let rs := rowsRun x d (o.run f.fmt h corr) mk (List.range n) { m := x.ls }
    let done := match rs.getLast? with | some r => r.st.done | none => []
    let x := if merge then x.saveEntries k d n else x
    let x := done.foldl (fun x w => x.lsWrite false w.1 w.2) x
    let x := if merge then x.lsWrite false (corr + 4 * n) (List.replicate (up64 (4 * n) - 4 * n) 0) else x
    let x := (List.zip (List.range n) rs).foldl
      (fun x ir => match ir.2.entry with | some e => x.setStat (d + ir.1) e.1 e.2 | none => x) x
    let x := x.countVec (rs.foldl (fun m r => m + r.inv) 0) (rs.foldl (fun m r => m + r.ovf) 0)
    s.setCore c { x with rowBusy := x.rowBusy + BitVec.ofNat 64 (n * span) }

/-- RSTAT: mean and reciprocal deviation of each row into the statistics store. -/
def execRstat (c : CoreId) (k : Ctx) (f : FmtM) (s : State) : Out := execRow .stat c k f s
/-- RSMAX: softmax forward. -/
def execRsmax (c : CoreId) (k : Ctx) (f : FmtM) (s : State) : Out := execRow .smax c k f s
/-- RNORM: normalisation forward. -/
def execRnorm (c : CoreId) (k : Ctx) (f : FmtM) (s : State) : Out := execRow .norm c k f s
/-- RSMAXB: softmax backward. -/
def execRsmaxb (c : CoreId) (k : Ctx) (f : FmtM) (s : State) : Out := execRow .smaxb c k f s
/-- RNORMB: normalisation backward. -/
def execRnormb (c : CoreId) (k : Ctx) (f : FmtM) (s : State) : Out := execRow .normb c k f s

end Sys2Proof.Machine
end

