-- ==== Sys2Proof/Machine/Scalar.lean ====
section
/-! DEFINITION. Scalar, load, store and branch instructions (spec/03 R82, R83, R479). -/

namespace Sys2Proof.Machine

open Sys2Proof

/-- A register write as an effect. -/
def State.writeReg (s : State) (c : CoreId) (k : Ctx) (r : Nat) (v : Word) : State :=
  s.modCtx c k fun t => t.setReg r v

/-- An arithmetic instruction of format S: DST := SRCA op B. -/
def execArith (op : BitVec 6) (fn : Word → Word → Word) (c : CoreId) (k : Ctx) (f : FmtS) (s : State) : Out :=
  let t := (s.core c).ctx k
  issue s c k (encS op f) {} [(ckIllegal, badArith f)] false .seq fun s =>
    s.writeReg c k f.dst.toNat (fn (opA t f) (opB t f))

/-- High 32 bits of the signed product. -/
def mulHigh (a b : Word) : Word := BitVec.ofInt 32 ((a.toInt * b.toInt) / 2 ^ 32)

/-- ADD -/
def execAdd (c : CoreId) (k : Ctx) (f : FmtS) (s : State) : Out := execArith 0x00 (fun a b => a + b) c k f s
/-- SUB -/
def execSub (c : CoreId) (k : Ctx) (f : FmtS) (s : State) : Out := execArith 0x01 (fun a b => a - b) c k f s
/-- AND -/
def execAnd (c : CoreId) (k : Ctx) (f : FmtS) (s : State) : Out := execArith 0x02 (fun a b => a &&& b) c k f s
/-- OR -/
def execOr (c : CoreId) (k : Ctx) (f : FmtS) (s : State) : Out := execArith 0x03 (fun a b => a ||| b) c k f s
/-- XOR -/
def execXor (c : CoreId) (k : Ctx) (f : FmtS) (s : State) : Out := execArith 0x04 (fun a b => a ^^^ b) c k f s
/-- SHL: shifts use B[4:0]. -/
def execShl (c : CoreId) (k : Ctx) (f : FmtS) (s : State) : Out :=
  execArith 0x05 (fun a b => a <<< (b.toNat % 32)) c k f s
/-- SHR, logical. -/
def execShr (c : CoreId) (k : Ctx) (f : FmtS) (s : State) : Out :=
  execArith 0x06 (fun a b => a >>> (b.toNat % 32)) c k f s
/-- SRA, arithmetic. -/
def execSra (c : CoreId) (k : Ctx) (f : FmtS) (s : State) : Out :=
  execArith 0x07 (fun a b => a.sshiftRight (b.toNat % 32)) c k f s
/-- MUL: low 32 bits of the product. -/
def execMul (c : CoreId) (k : Ctx) (f : FmtS) (s : State) : Out := execArith 0x08 (fun a b => a * b) c k f s
/-- MULH: high 32 bits of the signed product. -/
def execMulh (c : CoreId) (k : Ctx) (f : FmtS) (s : State) : Out := execArith 0x09 mulHigh c k f s
/-- SLT: 1 if SRCA is less than B as a signed number, else 0. -/
def execSlt (c : CoreId) (k : Ctx) (f : FmtS) (s : State) : Out :=
  execArith 0x0A (fun a b => if a.toInt < b.toInt then 1 else 0) c k f s

/-- LDW: DST := LS word at SRCA + IMM. -/
def execLdw (c : CoreId) (k : Ctx) (f : FmtS) (s : State) : Out :=
  let x := s.core c
  let a := addrS (x.ctx k) f
  let u : Use := { lsR := [(a, 4)] }
  issue s c k (encS 0x0B f) u
    [(ckIllegal, f.srcb != 0 || f.immsel != 0 || f.cond != 0 || f.rsv != 0), (ckLs, u.lsFails 4)] false .seq fun s =>
    s.writeReg c k f.dst.toNat (Memory.word x.ls a)

/-- STW: LS word at SRCA + IMM := SRCB. -/
def execStw (c : CoreId) (k : Ctx) (f : FmtS) (s : State) : Out :=
  let t := (s.core c).ctx k
  let a := addrS t f
  let u : Use := { lsW := [(a, 4)] }
  issue s c k (encS 0x0C f) u
    [(ckIllegal, f.dst != 0 || f.immsel != 0 || f.cond != 0 || f.rsv != 0), (ckLs, u.lsFails 4)] false .seq fun s =>
    s.modCore c fun x => x.lsWrite false a (leBytes 4 (t.reg f.srcb.toNat).toNat)

/-- The special value of a selector (spec/03 R83, spec/13 R344). -/
def State.special (s : State) (c : CoreId) (k : Ctx) (sel : Nat) : Word :=
  match sel with
  | 0 => BitVec.ofNat 32 ((s.core c).ctx k).n
  | 1 => BitVec.ofNat 32 (((s.core c).ctx k).n / 2 ^ 32)
  | 2 => BitVec.ofNat 32 c.x.val
  | 3 => BitVec.ofNat 32 c.y.val
  | 4 => BitVec.ofNat 32 k.val
  | 5 => s.coord.zeroExtend 32
  | 6 => BitVec.ofNat 32 s.rank
  | _ => 0

/-- RDSPEC: DST := the special value IMM selects. -/
def execRdspec (c : CoreId) (k : Ctx) (f : FmtS) (s : State) : Out :=
  issue s c k (encS 0x0D f) {}
    [(ckIllegal, f.srca != 0 || f.srcb != 0 || f.immsel != 0 || f.cond != 0 || f.rsv != 0 ||
      decide (6 < f.imm.toNat))] false .seq fun s =>
    s.writeReg c k f.dst.toNat (s.special c k f.imm.toNat)

/-- A branch condition (spec/03, table Format S); a reserved one fails its check. -/
def condHolds (cond : BitVec 3) (a b : Word) : Bool :=
  match cond.toNat with
  | 0 => a == b
  | 1 => a != b
  | 2 => decide (a.toInt < b.toInt)
  | 3 => decide (b.toInt ≤ a.toInt)
  | 4 => decide (a.toNat < b.toNat)
  | 5 => decide (b.toNat ≤ a.toNat)
  | _ => false

/-- BRC: if SRCA COND SRCB, continue at IMM[9:0]. -/
def execBrc (c : CoreId) (k : Ctx) (f : FmtS) (s : State) : Out :=
  let t := (s.core c).ctx k
  let taken := condHolds f.cond (opA t f) (t.reg f.srcb.toNat)
  issue s c k (encS 0x0E f) {}
    [(ckIllegal, f.dst != 0 || f.immsel != 0 || f.rsv != 0 || decide (5 < f.cond.toNat) ||
      decide (1023 < f.imm.toNat))] false
    (if taken then .goto (bitsOf f.imm.toNat 9 0) else .seq) fun s => s

/-- JMP: continue at IMM[9:0] or at SRCB; DST := index of the next instruction. -/
def execJmp (c : CoreId) (k : Ctx) (f : FmtS) (s : State) : Out :=
  let t := (s.core c).ctx k
  let target := if f.immsel = 1 then bitsOf f.imm.toNat 9 0 else (t.reg f.srcb.toNat).toNat
  issue s c k (encS 0x0F f) {}
    [(ckIllegal, f.srca != 0 || f.cond != 0 || f.rsv != 0 ||
      (f.immsel == 1 && (f.srcb != 0 || decide (1023 < f.imm.toNat))) || (f.immsel == 0 && f.imm != 0))] false
    (.goto target) fun s => s.writeReg c k f.dst.toNat (BitVec.ofNat 32 (t.pc.toNat + 1))

end Sys2Proof.Machine
end

