-- ==== Sys2Proof/Machine/Shadow.lean ====
section
/-! DEFINITION. Shadow and referee runs of sampled chains (spec/13 R352 to R357). -/

namespace Sys2Proof.Machine

open Sys2Proof

/-- The core at (x xor 1, y). -/
def partnerOf (c : CoreId) : CoreId := (coreAt (c.x.val ^^^ 1) c.y.val).getD c

/-- The core at (x xor 1, y xor 1). -/
def refereeOf (c : CoreId) : CoreId := (coreAt (c.x.val ^^^ 1) (c.y.val ^^^ 1)).getD c

/-- LS ranges a chain step reads, or writes in the case of the readout tile. -/
def ChainStep.ranges (st : ChainStep) : List (Nat × Nat) :=
  let fmt : BitVec 4 := BitVec.ofNat 4 (bitsOf st.word.toNat 7 4)
  match st.op with
  | 0x10 | 0x11 => [(st.a, columnRun fmt 8), (st.b, 64)]
  | 0x12 => [(st.a, columnRun fmt st.count), (st.b, columnScales fmt st.count)]
  | 0x19 => [(st.a, 64 + tileBytes fmt st.count)]
  | 0x1A => [(st.b, 64), (st.d, tileBytes fmt st.count)]
  | _ => []

/-- Blocks a chain needs in a shadow area. -/
def chainBlocks (steps : List ChainStep) : Nat :=
  ((steps.flatMap ChainStep.ranges).flatMap fun r => blocksOf r.1 r.2).eraseDups.length

/-- Blocks of the shadow area: SHADOW_LS units of 16 KiB. -/
def State.shadowBlocks (s : State) : Nat := match s.image with | some i => i.shadowLs.toNat * 256 | none => 0

/-- All enabled contexts of a core are at their fences or have ended. -/
def Core.idle (x : Core) : Bool := x.ctxs.toList.all fun t => !t.enabled || !(t.running || t.resume) || t.ended

/-- A core can run a shadow of a chain: the blocks fit its shadow area and a bank is closed. -/
def State.canShadow (s : State) (c : CoreId) (r : ShadowRec) : Bool :=
  decide (chainBlocks r.steps ≤ s.shadowBlocks) && (s.core c).banks.toList.any fun b => !b.isOpen

/-- The time for a shadow is over: c = 0 of the second beat after the sampled stroke. -/
def State.shadowLate (s : State) (r : ShadowRec) : Bool :=
  decide (r.beat + 2 < s.beat) || (s.beat == r.beat + 2 && !s.inWork)

/-- SDC_LAST of an outcome. -/
def sdcWord (outcome : Nat) (c : CoreId) (k : Ctx) : Word :=
  BitVec.ofNat 32 (outcome + c.x.val * 2 ^ 2 + c.y.val * 2 ^ 12 + k.val * 2 ^ 21)

/-- The record of a core is done with. -/
def State.endShadow (s : State) (c : CoreId) : State := s.modCore c fun x => { x with shadow := none }

/-- The outcome of an arbitration kept. -/
def State.noteSdc (s : State) (outcome : Nat) (c : CoreId) (r : ShadowRec) : State :=
  { s with faults := { s.faults with sdcLast := sdcWord outcome c r.ctx, sdcBeat := BitVec.ofNat 64 r.beat } }

/-- A core found odd out: a fault of class 0x0C charged to it. -/
def State.oddOut (s : State) (outcome : Nat) (c odd : CoreId) (r : ShadowRec) : State :=
  let s := s.modCore odd fun x => x.count jSdcOdd 1
  ((s.noteSdc outcome c r).fault 0x0C (.core odd) r.ctx.val 0 0).endShadow c

/-- No core is named. -/
def State.unresolved (s : State) (c : CoreId) (r : ShadowRec) : State :=
  ((s.modCore c fun x => x.count jShadowUnresolved 1).noteSdc 3 c r).endShadow c

/-! ## Running a recorded chain (spec/13 R354, R356) -/

/-- Blocks of a chain in rising order; block j of them stands at block j of the shadow area. -/
def chainOrder (steps : List ChainStep) : List Nat :=
  (((steps.flatMap ChainStep.ranges).flatMap fun r => blocksOf r.1 r.2).eraseDups).mergeSort fun a b => decide (a ≤ b)

/-- LS ranges that a chain step reads. -/
def ChainStep.inputs (st : ChainStep) : List (Nat × Nat) := if st.op = 0x1A then [(st.b, 64)] else st.ranges

/-- Input blocks of a chain. -/
def chainInputs (steps : List ChainStep) : List Nat :=
  ((steps.flatMap ChainStep.inputs).flatMap fun r => blocksOf r.1 r.2).eraseDups

/-- Where a chain is run: the first byte of the shadow area, the chain's blocks in order, a closed bank. -/
structure RunAt where
  area : Nat
  order : List Nat
  bank : Nat
  deriving DecidableEq, Repr

/-- The run of a chain at a core of this module. -/
def State.runAt (s : State) (c : CoreId) (steps : List ChainStep) : RunAt :=
  { area := lsSize - 64 * s.shadowBlocks, order := chainOrder steps
    bank := ((List.range 4).find? fun i => !((s.core c).banks.get (Fin.ofNat 4 i)).isOpen).getD 0 }

/-- An LS address of the chain in the shadow area. -/
def RunAt.ls (r : RunAt) (a : Nat) : Nat := r.area + 64 * r.order.idxOf (a / 64) + a % 64

/-- An entry of the chain in the closed bank. -/
def RunAt.entry (r : RunAt) (e : Nat) : Nat := 64 * r.bank + e % 64

/-- A chain under way: the core that runs it, the stationary operand, the bytes that the signature covers. -/
structure Rerun where
  x : Core
  station : Option Station
  output : List Byte
  deriving DecidableEq, Repr

/-- One recorded instruction run in the shadow area; `d` is the dither state at the AREAD. -/
def Rerun.step (at_ : RunAt) (d : DWord) (r : Rerun) (st : ChainStep) : Rerun :=
  let w := st.word.toNat
  let fmt : BitVec 4 := BitVec.ofNat 4 (bitsOf w 7 4)
  let n := st.count
  let x := r.x
  match st.op with
  | 0x10 => { r with station := some (readStation x.ls false fmt (at_.ls st.a) (at_.ls st.b)), x := { x with arrayBusy := x.arrayBusy + 32 } }
  | 0x11 => { r with station := some (readStation x.ls true fmt (at_.ls st.a) (at_.ls st.b)), x := { x with arrayBusy := x.arrayBusy + 32 } }
  | 0x12 =>
    match r.station with
    | none => r
    | some t =>
      let sum (x : Core) (j : Nat) : Core :=
        x.addGroup (groupCol t x.ls 0 fmt (at_.ls st.a) (at_.ls st.b) (at_.entry st.d) (bitsOf w 9 8) j)
      { r with x := (List.range n).foldl sum { x with arrayBusy := x.arrayBusy + BitVec.ofNat 64 n } }
  | 0x18 => { r with x := (List.range n).foldl (fun x i => x.setEntry (at_.entry st.d + i) []) x }
  | 0x19 =>
    let h := (x.block (at_.ls st.a)).toNat
    { r with x := (preloadEntries x.ls fmt (bitOf h 32) (fp32 (BitVec.ofNat 32 h)) (at_.ls st.a + 64) (at_.entry st.d) n (List.range n) x).1 }
  | 0x1A =>
    let h := (x.block (at_.ls st.b)).toNat
    let factor := readFactor h
    let o := readOut x fmt (bitOf h 96) (bitOf w 8) (fp32 (BitVec.ofNat 32 factor)) (at_.entry st.a) n d
    let tail := completionRecord x (at_.entry st.a) n o.sat o.nan factor
    { r with
      x := ((x.lsWrite false (at_.ls st.d) o.bytes).lsWrite false (at_.ls st.b + 32) tail).countConv o.sat o.nan
      output := if st.b < st.d then tail ++ o.bytes else o.bytes ++ tail }
  | _ => r

/-- A recorded chain run at core c: its input blocks are copied into the shadow area from the LS of core `from_`, at their
addresses there if `own`, else from its shadow area; then the instructions run in order. The core after it and the
bytes it formed. -/
def State.rerun (s : State) (c from_ : CoreId) (own : Bool) (r : ShadowRec) : Core × List Byte :=
  let at_ := s.runAt c r.steps
  let src := (s.core from_).ls
  let fetch (b : Nat) : List Byte := Memory.read src (if own then 64 * b else at_.ls (64 * b)) 64
  let x := (chainInputs r.steps).foldl (fun (x : Core) b => x.lsWrite false (at_.ls (64 * b)) (fetch b)) (s.core c)
  let o := r.steps.foldl (Rerun.step at_ r.dither) ⟨x, none, []⟩
  (o.x, o.output)

/-- The first input block of a chain whose guard fails where the run reads it. -/
def State.badInput (s : State) (from_ : CoreId) (own : Bool) (r : ShadowRec) : Option Nat :=
  let at_ := s.runAt from_ r.steps
  ((chainInputs r.steps).map fun b => if own then b else at_.ls (64 * b) / 64).find? ((s.core from_).lsBad.contains ·)

/-- The shadow area of a core is held for a referee (spec/13 R356). -/
def State.areaHeld (s : State) (c : CoreId) : Bool := (s.core (partnerOf c)).refereeDue

/-- SHADOW_RUN: the partner reruns the sampled chain while it is idle; its signature is compared. A failing guard of an
input block is a fault of the original. -/
def execShadowRun (c : CoreId) (output : ShadowTry) (s : State) : Out :=
  match (s.core c).shadow with
  | none => .next s
  | some r =>
    let p := partnerOf c
    if !s.powered || r.partner.isSome then .next s
    else if !(s.canShadow p r) || s.shadowLate r || !output.slack then
      .next ((s.modCore p fun x => x.count jShadowSkip 1).endShadow c)
    else if !(s.core p).idle then .next s
    else
      match s.badInput c true r with
      | some b => .next (s.guardFail c r.ctx 1 b)
      | none =>
        let o := s.rerun p c true r
        let sig := crc32c (output.silent.getD o.2)
        let s := s.setCore p (o.1.count jShadowRun 1)
        if sig = r.signature then .next (s.endShadow c)
        else
          .next ((s.modCore c fun x =>
            Core.count { x with shadow := some { r with partner := some sig } } jShadowMismatch 1).traceSource 3)

/-- REFEREE_RUN: the referee reruns the chain from the partner's shadow area; the odd core is named, or none. A referee
whose own shadow area is held drops the run (notes/assumptions/147). -/
def execRefereeRun (c : CoreId) (output : ShadowTry) (s : State) : Out :=
  match (s.core c).shadow with
  | none => .next s
  | some r =>
    match r.partner with
    | none => .next s
    | some sig =>
      let f := refereeOf c
      let p := partnerOf c
      if !s.powered then .next s
      else if !(s.canShadow f r) || s.areaHeld f || !output.slack then .next (s.unresolved c r)
      else if !(s.core f).idle then .next s
      else
        match s.badInput p false r with
        | some b => .next (s.guardFail p r.ctx 1 b)
        | none =>
          let o := s.rerun f p false r
          let mine := crc32c (output.silent.getD o.2)
          let s := s.setCore f o.1
          if mine = r.signature then .next (s.oddOut 1 c p r)
          else if mine = sig then .next (s.oddOut 2 c c r)
          else .next (s.unresolved c r)

end Sys2Proof.Machine
end

