-- ==== Sys2Proof/Machine/Stack.lean ====
section
/-! DEFINITION. The base die: requests, the bandwidth regulator, HBM reads, line fills (spec/08 R199 to R203,
spec/09 R233, R234, spec/13 R332). -/

namespace Sys2Proof.Machine

open Sys2Proof

/-- The stack of a request is h. -/
def State.forStack (s : State) (h : StackId) (r : Request) : Bool :=
  match r with
  | .packet _ =>
    match s.requestPlace r with
    | some (.hbm g _, _) | some (.sc g _, _) => g == h
    | _ => false
  | _ => true

/-- The same packet stands at the stack already. -/
def Stack.has (t : Stack) (r : Request) : Bool :=
  match r with
  | .packet _ => (t.entryOf r).isSome || t.waiting.contains r
  | _ => false

/-- The packet of a request has to cross a failed link. -/
def State.cutOffReq (s : State) (r : Request) : Bool :=
  match r with
  | .packet p => s.stranded p
  | _ => false

/-- BASE_DIE_ACCEPT: a request takes a request entry of its class or waits in the attachment, a READ behind the READs of its
column; a CACHED read that hits is served from the line; one that misses joins or begins a fill. -/
def execBaseDieAccept (h : StackId) (r : Request) (lineFails : Bool) (s : State) : Out :=
  if !s.powered || !(s.forStack h r) || (s.stack h).has r || s.cutOffReq r then .next s
  else
    let s := match r with | .packet p => s.arrive p | _ => s
    let t := s.stack h
    match if firstInColumn t.waiting r then t.entryFor (s.dev = devRunning) (s.classOf r) else none with
    | none => .next (s.modStack h fun t => { t with waiting := t.waiting ++ [r] })
    | some kept =>
      match r, s.requestPlace r with
      | .packet p, some (pl, some kb) =>
        match t.line kb with
        | some l =>
          if lineFails then
            let s := s.countStack h 2 1
            .next (s.modStack h fun t =>
              { t.missEntry (s.classOf r) kept p kb with lines := t.lines.filter (· != l) })
          else
            .next (s.serveLine h l p pl)
        | none =>
          .next (s.modStack h fun t => t.missEntry (s.classOf r) kept p kb)
      | _, _ => .next (s.modStack h fun t => t.takeEntry (s.classOf r) kept r (reqBlocks r) (reqSpan r))

/-! ## The regulator (spec/08 R201, R202) -/

/-- Slots of a frame. -/
def frameSlots : Nat := 257

/-- The split of the image: READ, WRITE and REMOTE shares in sixteenths; the default with no image. -/
def State.shares (s : State) : Nat × Nat × Nat :=
  let v := match s.image with | some i => i.split.toNat | none => 0x448
  (bitsOf v 3 0, bitsOf v 7 4, bitsOf v 11 8)

/-- The class that owns slot i, below 256. -/
def State.slotOwner (s : State) (i : Nat) : ReqClass :=
  let k := i % 16
  let sh := s.shares
  if k < sh.1 then .read else if k < sh.1 + sh.2.1 then .write else .remote

/-- The oldest entry of a class with a pending block. -/
def Stack.oldest (t : Stack) (c : ReqClass) : Option ReqEntry := t.reqs.find? fun r => r.cls == c && r.blocks != 0

/-- The entry that slot i serves. -/
def State.slotServes (s : State) (t : Stack) (i : Nat) : Option ReqEntry :=
  if i = 256 then t.oldest .host
  else
    let order := [s.slotOwner i, .read, .write, .remote] ++ (if s.dev = devRunning then [] else [ReqClass.host]) ++ [.idle]
    order.findSome? fun c => t.oldest c

/-- REGULATOR_SLOT: one interface slot serves one block or one CRC line; with the last slot of a request its blocks have been
read or written. A request with no packet of its own is done with it. -/
def execRegulatorSlot (h : StackId) (s : State) : Out :=
  if !s.powered then .next s
  else
    let t := s.stack h
    let next (t : Stack) : Stack := { t with slot := (t.slot + 1) % frameSlots }
    match s.slotServes t t.slot with
    | none => .next (s.modStack h next)
    | some e =>
      let reqs := replaceOne e { e with blocks := e.blocks - 1 } t.reqs
      let s := s.modStack h fun t =>
        let t := next { t with reqs }
        if e.blocks = 1 then t.lineUse (e.first, e.count) else t
      let overs := match e.req with | .packet _ => false | _ => e.blocks == 1
      .next (if overs then s.freeEntry h e.req else s)

/-! ## Reads of HBM -/

/-- READ requests of a stack, not CACHED, that cover a block. -/
def State.readsOver (s : State) (h : StackId) (b : Nat) : List Packet :=
  (s.stack h).reqs.filterMap fun r =>
    match r.req with
    | .packet p =>
      match placeOf p.addr with
      | some (.hbm _ o) => if p.kind = .read && !(Desc.of p.desc).cached && (readBlocks o p.blocks).contains b then some p else none
      | _ => none
    | _ => none

/-- HBM_READ: re-reads are counted; a third failure is stored-data loss, and the copies that read the block are
aborted (spec/13 R332, R350, spec/08 R208). -/
def execHbmRead (h : StackId) (offset : Nat) (fails : Nat) (s : State) : Out :=
  if !s.powered || !(decide (offset < hbmSize)) then .next s
  else if fails < 3 then
    .next (if fails = 0 then s else (List.range fails).foldl (fun s _ => s.note 5 (.stack h)) (s.countStack h 1 fails))
  else
    let b := offset / 64
    let s := s.loseHbm h b
    .next ((s.readsOver h b).foldl (fun s p => (s.freeEntry h (.packet p)).sendFail p (s.stackEnd h) 6) s)

/-- A request of a fill given its blocks, or told of a block that failed. -/
def State.fillServe (s : State) (h : StackId) (lost : List Nat) (p : Packet) : State :=
  match placeOf p.addr with
  | some (.hbm g o) =>
    let s := s.freeEntry h (.packet p)
    if (readBlocks o p.blocks).any (lost.contains ·) then s.sendFail p (s.stackEnd h) 6
    else s.serveRead p (.hbm g o) (Memory.read (s.stack h).hbm o (64 * p.blocks))
  | _ => s

/-- A request of a fill reads a block. -/
def Fill.reads (f : Fill) (b : Nat) : Bool :=
  f.waiting.any fun p => match placeOf p.addr with | some (.hbm _ o) => (readBlocks o p.blocks).contains b | _ => false

/-- LINE_FILL: the fill of a kilobyte completes. A block of it that failed all three reads is lost only if a request of the
fill reads it; the other requests are served, and the line is placed if no write intervened and every block was read
(spec/09 R234). -/
def execLineFill (h : StackId) (kb : Nat) (bad : List (Fin 16)) (s : State) : Out :=
  let t := s.stack h
  match t.fills.find? fun f => f.kb == kb with
  | none => .next s
  | some f =>
    let pending := f.waiting.any fun p => match t.entryOf (.packet p) with | some e => e.blocks != 0 | none => false
    if !s.powered || pending then .next s
    else
      let failed := (List.range 16).filterMap fun i =>
        if bad.any (fun j => j.val == i) || t.hbmBad.contains (16 * kb + i) then some (16 * kb + i) else none
      let s := failed.foldl (fun s b => if f.reads b then s.loseHbm h b else s.failHbm h b) s
      let data := Memory.read t.hbm (1024 * kb) 1024
      let s := s.modStack h fun t =>
        let t := { t with fills := removeOne f t.fills }
        if failed.isEmpty && !f.dirty && s.scUnits != 0 then t.place (1024 * s.scUnits) ⟨kb, data⟩ else t
      .next (f.waiting.foldl (fun s p => s.fillServe h failed p) s)

end Sys2Proof.Machine
end

