-- ==== Sys2Proof/Machine/Dispatch.lean ====
section
/-! DEFINITION. The meaning of every command: one arm for each row of the table, each a direct call. -/

namespace Sys2Proof.Machine

open Sys2Proof

/-- The effect of a command on everything but the queue. -/
def exec (i : Instr) (s : State) : Host.Outcome State Fault Refusal :=
  match i with
  | .add c k f => Sys2Proof.Machine.execAdd c k f s
  | .sub c k f => Sys2Proof.Machine.execSub c k f s
  | .and c k f => Sys2Proof.Machine.execAnd c k f s
  | .or c k f => Sys2Proof.Machine.execOr c k f s
  | .xor c k f => Sys2Proof.Machine.execXor c k f s
  | .shl c k f => Sys2Proof.Machine.execShl c k f s
  | .shr c k f => Sys2Proof.Machine.execShr c k f s
  | .sra c k f => Sys2Proof.Machine.execSra c k f s
  | .mul c k f => Sys2Proof.Machine.execMul c k f s
  | .mulh c k f => Sys2Proof.Machine.execMulh c k f s
  | .slt c k f => Sys2Proof.Machine.execSlt c k f s
  | .ldw c k f => Sys2Proof.Machine.execLdw c k f s
  | .stw c k f => Sys2Proof.Machine.execStw c k f s
  | .rdspec c k f => Sys2Proof.Machine.execRdspec c k f s
  | .brc c k f => Sys2Proof.Machine.execBrc c k f s
  | .jmp c k f => Sys2Proof.Machine.execJmp c k f s
  | .aload c k f => Sys2Proof.Machine.execAload c k f s
  | .aloadt c k f => Sys2Proof.Machine.execAloadt c k f s
  | .apass c k f => Sys2Proof.Machine.execApass c k f s
  | .accumulate c => Sys2Proof.Machine.execAccumulate c s
  | .aclr c k f => Sys2Proof.Machine.execAclr c k f s
  | .apre c k f => Sys2Proof.Machine.execApre c k f s
  | .aread c k f => Sys2Proof.Machine.execAread c k f s
  | .adrop c k f => Sys2Proof.Machine.execAdrop c k f s
  | .vbin c k f => Sys2Proof.Machine.execVbin c k f s
  | .vfma c k f => Sys2Proof.Machine.execVfma c k f s
  | .vun c k f => Sys2Proof.Machine.execVun c k f s
  | .vcvt c k f => Sys2Proof.Machine.execVcvt c k f s
  | .vscale c k f => Sys2Proof.Machine.execVscale c k f s
  | .rstat c k f => Sys2Proof.Machine.execRstat c k f s
  | .rsmax c k f => Sys2Proof.Machine.execRsmax c k f s
  | .rnorm c k f => Sys2Proof.Machine.execRnorm c k f s
  | .rsmaxb c k f => Sys2Proof.Machine.execRsmaxb c k f s
  | .rnormb c k f => Sys2Proof.Machine.execRnormb c k f s
  | .cpy c k f => Sys2Proof.Machine.execCpy c k f s
  | .descriptorRead c => Sys2Proof.Machine.execDescriptorRead c s
  | .cmark c k f => Sys2Proof.Machine.execCmark c k f s
  | .sig c k f => Sys2Proof.Machine.execSig c k f s
  | .wait c k f held => Sys2Proof.Machine.execWait c k f held s
  | .beat c k f => Sys2Proof.Machine.execBeat c k f s
  | .endCtx c k f => Sys2Proof.Machine.execEndCtx c k f s
  | .nop c k f => Sys2Proof.Machine.execNop c k f s
  | .beatStart => Sys2Proof.Machine.execBeatStart s
  | .strokeIssueClose => Sys2Proof.Machine.execStrokeIssueClose s
  | .journalCommit => Sys2Proof.Machine.execJournalCommit s
  | .holdSample => Sys2Proof.Machine.execHoldSample s
  | .boundarySnapshot => Sys2Proof.Machine.execBoundarySnapshot s
  | .powerStep m => Sys2Proof.Machine.execPowerStep m s
  | .muffleClockStop => Sys2Proof.Machine.execMuffleClockStop s
  | .journalSeal => Sys2Proof.Machine.execJournalSeal s
  | .holdVerdict => Sys2Proof.Machine.execHoldVerdict s
  | .copyLagCheck => Sys2Proof.Machine.execCopyLagCheck s
  | .barBoundary => Sys2Proof.Machine.execBarBoundary s
  | .rtScrub => Sys2Proof.Machine.execRtScrub s
  | .downbeatEntry => Sys2Proof.Machine.execDownbeatEntry s
  | .traceEpoch => Sys2Proof.Machine.execTraceEpoch s
  | .slabTempRead t => Sys2Proof.Machine.execSlabTempRead t s
  | .sidebandFrame p f => Sys2Proof.Machine.execSidebandFrame p f s
  | .delayProbe p sent received echo now => Sys2Proof.Machine.execDelayProbe p sent received echo now s
  | .alignMessage p count phase tempo hops => Sys2Proof.Machine.execAlignMessage p count phase tempo hops s
  | .elect p lowest => Sys2Proof.Machine.execElect p lowest s
  | .rootElected => Sys2Proof.Machine.execRootElected s
  | .alignConfirm links => Sys2Proof.Machine.execAlignConfirm links s
  | .clockFinalRelease => Sys2Proof.Machine.execClockFinalRelease s
  | .downbeatMessage p d digest => Sys2Proof.Machine.execDownbeatMessage p d digest s
  | .knellMessage p coord serial cause => Sys2Proof.Machine.execKnellMessage p coord serial cause s
  | .powerSlack p body => Sys2Proof.Machine.execPowerSlack p body s
  | .ident p serial port place => Sys2Proof.Machine.execIdent p serial port place s
  | .neighbourSilent p => Sys2Proof.Machine.execNeighbourSilent p s
  | .relayFail path => Sys2Proof.Machine.execRelayFail path s
  | .linkFrame p raw badCodewords corrected unacked acked => Sys2Proof.Machine.execLinkFrame p raw badCodewords corrected unacked acked s
  | .portRetrain p unacked => Sys2Proof.Machine.execPortRetrain p unacked s
  | .meshFlit c side tries p => Sys2Proof.Machine.execMeshFlit c side tries p s
  | .torusRoute d from_ p => Sys2Proof.Machine.execTorusRoute d from_ p s
  | .escapeMove d p => Sys2Proof.Machine.execEscapeMove d p s
  | .copyRequest c => Sys2Proof.Machine.execCopyRequest c s
  | .baseDieAccept h r lineFails => Sys2Proof.Machine.execBaseDieAccept h r lineFails s
  | .regulatorSlot h => Sys2Proof.Machine.execRegulatorSlot h s
  | .hbmRead h offset fails => Sys2Proof.Machine.execHbmRead h offset fails s
  | .lineFill h kb bad => Sys2Proof.Machine.execLineFill h kb bad s
  | .readPacket p bad => Sys2Proof.Machine.execReadPacket p bad s
  | .writePacket p => Sys2Proof.Machine.execWritePacket p s
  | .finalWriteApply at_ tag slot => Sys2Proof.Machine.execFinalWriteApply at_ tag slot s
  | .pealForward c p => Sys2Proof.Machine.execPealForward c p s
  | .pealFinal c p => Sys2Proof.Machine.execPealFinal c p s
  | .signalPacket p => Sys2Proof.Machine.execSignalPacket p s
  | .ack p => Sys2Proof.Machine.execAck p s
  | .refuseNotice p => Sys2Proof.Machine.execRefuseNotice p s
  | .refusedResend => Sys2Proof.Machine.execRefusedResend s
  | .failNotice p => Sys2Proof.Machine.execFailNotice p s
  | .loopPacket d from_ p => Sys2Proof.Machine.execLoopPacket d from_ p s
  | .coreRoll c found => Sys2Proof.Machine.execCoreRoll c found s
  | .copyRoll c slot => Sys2Proof.Machine.execCopyRoll c slot s
  | .shadowRun c output => Sys2Proof.Machine.execShadowRun c output s
  | .refereeRun c output => Sys2Proof.Machine.execRefereeRun c output s
  | .knellEntry cause at_ => Sys2Proof.Machine.execKnellEntry cause at_ s
  | .rankEnter h op block bad => Sys2Proof.Machine.execRankEnter h op block bad s
  | .blockRearm h op block => Sys2Proof.Machine.execBlockRearm h op block s
  | .carillonData p => Sys2Proof.Machine.execCarillonData p s
  | .dualCopy c => Sys2Proof.Machine.execDualCopy c s
  | .dualResult p => Sys2Proof.Machine.execDualResult p s
  | .normPartial p => Sys2Proof.Machine.execNormPartial p s
  | .normRecord p => Sys2Proof.Machine.execNormRecord p s
  | .sumsqStart h op => Sys2Proof.Machine.execSumsqStart h op s
  | .allgatherStart h op => Sys2Proof.Machine.execAllgatherStart h op s
  | .permuteStart h c => Sys2Proof.Machine.execPermuteStart h c s
  | .passroundStart h op => Sys2Proof.Machine.execPassroundStart h op s
  | .optimizeStart h op => Sys2Proof.Machine.execOptimizeStart h op s
  | .busLost => Sys2Proof.Machine.execBusLost s
  | .rideRetain => Sys2Proof.Machine.execRideRetain s
  | .busReturn => Sys2Proof.Machine.execBusReturn s
  | .kettleEmpty => Sys2Proof.Machine.execKettleEmpty s
  | .supportEntry v => Sys2Proof.Machine.execSupportEntry v s
  | .supportEnd => Sys2Proof.Machine.execSupportEnd s
  | .busSag lowest samples => Sys2Proof.Machine.execBusSag lowest samples s
  | .busSwell highest samples => Sys2Proof.Machine.execBusSwell highest samples s
  | .rippleWindow b0 b1 b2 b3 => Sys2Proof.Machine.execRippleWindow b0 b1 b2 b3 s
  | .droopStretch slab cycles => Sys2Proof.Machine.execDroopStretch slab cycles s
  | .converterFault => Sys2Proof.Machine.execConverterFault s
  | .hintExpire => Sys2Proof.Machine.execHintExpire s
  | .refclkValid => Sys2Proof.Machine.execRefclkValid s
  | .refclkLost => Sys2Proof.Machine.execRefclkLost s
  | .powerUp r => Sys2Proof.Machine.execPowerUp r s
  | .softStartEnd => Sys2Proof.Machine.execSoftStartEnd s
  | .portReset p e => Sys2Proof.Machine.execPortReset p e s
  | .perstAssert p => Sys2Proof.Machine.execPerstAssert p s
  | .hostReadTimeout p k => Sys2Proof.Machine.execHostReadTimeout p k s
  | .commandFetch p k entry => Sys2Proof.Machine.execCommandFetch p k entry s
  | .loadImage p k extents image => Sys2Proof.Machine.execLoadImage p k extents image s
  | .imageCheck => Sys2Proof.Machine.execImageCheck s
  | .launch p k => Sys2Proof.Machine.execLaunch p k s
  | .halt p k => Sys2Proof.Machine.execHalt p k s
  | .phaseHint p k => Sys2Proof.Machine.execPhaseHint p k s
  | .powerCap p k => Sys2Proof.Machine.execPowerCap p k s
  | .copy p k data lost pathDown => Sys2Proof.Machine.execCopy p k data lost pathDown s
  | .snapshot p k => Sys2Proof.Machine.execSnapshot p k s
  | .wfGraphBuild => Sys2Proof.Machine.execWfGraphBuild s
  | .traceConfigure p k => Sys2Proof.Machine.execTraceConfigure p k s
  | .traceArm p k => Sys2Proof.Machine.execTraceArm p k s
  | .traceForceTrigger p k => Sys2Proof.Machine.execTraceForceTrigger p k s
  | .traceStop p k => Sys2Proof.Machine.execTraceStop p k s
  | .traceReadOut p k => Sys2Proof.Machine.execTraceReadOut p k s
  | .traceFreeze => Sys2Proof.Machine.execTraceFreeze s
  | .traceCollect h => Sys2Proof.Machine.execTraceCollect h s
  | .loopback p k => Sys2Proof.Machine.execLoopback p k s
  | .loopbackDone p k errors hops => Sys2Proof.Machine.execLoopbackDone p k errors hops s
  | .drain p k => Sys2Proof.Machine.execDrain p k s
  | .drainQuiet => Sys2Proof.Machine.execDrainQuiet s
  | .sqTailDoorbell p k v => Sys2Proof.Machine.execSqTailDoorbell p k v s
  | .cqHeadDoorbell p k v => Sys2Proof.Machine.execCqHeadDoorbell p k v s
  | .sqCfgWrite p k v => Sys2Proof.Machine.execSqCfgWrite p k v s
  | .cqCfgWrite p k v => Sys2Proof.Machine.execCqCfgWrite p k v s
  | .semAcquire p k both => Sys2Proof.Machine.execSemAcquire p k both s
  | .semRelease p k => Sys2Proof.Machine.execSemRelease p k s
  | .beatSnap p v => Sys2Proof.Machine.execBeatSnap p v s
  | .cntSnap p v => Sys2Proof.Machine.execCntSnap p v s
  | .attest => Sys2Proof.Machine.execAttest s
  | .cert => Sys2Proof.Machine.execCert s
  | .fwStage => Sys2Proof.Machine.execFwStage s
  | .bitAliasWrite p offset v => Sys2Proof.Machine.execBitAliasWrite p offset v s
  | .loLatchRead p how offset => Sys2Proof.Machine.execLoLatchRead p how offset s
  | .rtVoteRead p offset => Sys2Proof.Machine.execRtVoteRead p offset s
  | .bar2Read p offset len how => Sys2Proof.Machine.execBar2Read p offset len how s
  | .bar2Write p offset bytes how => Sys2Proof.Machine.execBar2Write p offset bytes how s
  | .registerWrite p offset v how => Sys2Proof.Machine.execRegisterWrite p offset v how s
  | .linkTraining p serial port half allLanes => Sys2Proof.Machine.execLinkTraining p serial port half allLanes s
  | .hostLinkUp p rate width flit => Sys2Proof.Machine.execHostLinkUp p rate width flit s
  | .d3hotExit p => Sys2Proof.Machine.execD3hotExit p s
  | .loopbackSlave p enter => Sys2Proof.Machine.execLoopbackSlave p enter s
  | .hostReadError p k => Sys2Proof.Machine.execHostReadError p k s

end Sys2Proof.Machine
end

