-- ==== Sys2Proof/Safety.lean ====
section
/-! DEFINITION. The words that claims about the module are made in: which part of the state a command leaves alone, when
an instruction is next to issue, when a window step is due, and the invariants of the device state and of the sparse
maps. -/

namespace Sys2Proof.Machine

open Sys2Proof

/-! ## Frames -/

/-- Of the whole module only core c may differ. -/
def onlyCore (c : CoreId) (s s' : State) : Prop :=
  s' = { s with cores := s'.cores } ∧ ∀ d, d ≠ c → s'.core d = s.core d

/-- In core c every context but k is as before. -/
def otherCtxsSame (c : CoreId) (k : Ctx) (s s' : State) : Prop := ∀ j, j ≠ k → (s'.core c).ctx j = (s.core c).ctx j

/-- Of the whole module only stack h may differ. -/
def onlyStack (h : StackId) (s s' : State) : Prop :=
  s' = { s with hbmStacks := s'.hbmStacks } ∧ ∀ g, g ≠ h → s'.stack g = s.stack g

/-- Of the whole module only Reduit port p may differ. -/
def onlyPort (p : RPort) (s s' : State) : Prop :=
  s' = { s with ports := s'.ports } ∧ ∀ q, q ≠ p → s'.port q = s.port q

/-- Every scalar register is as before but dst, which holds v; s0 reads 0 whatever is written (spec/03 R64). -/
def regsAfter (t t' : CtxState) (dst : Nat) (v : Word) : Prop :=
  ∀ i, t'.reg i = if i = dst ∧ dst ≠ 0 then v else t.reg i

/-- The command answers a state of core c alone in which context k wrote v to register dst, went on at pc and issued last:
no store, no counter, no other context and no other field differs. -/
def wroteReg (c : CoreId) (k : Ctx) (dst : Nat) (v : Word) (pc : BitVec 10) (s : State)
    (out : Host.Outcome State Fault Refusal) : Prop :=
  ∃ s', out = .next s' ∧ onlyCore c s s' ∧ otherCtxsSame c k s s' ∧
    s'.core c = { s.core c with ctxs := (s'.core c).ctxs, last := some k, pace := (s'.core c).pace } ∧
    (s'.core c).ctx k = { (s.core c).ctx k with pc := pc, waiting := none, regs := ((s'.core c).ctx k).regs } ∧
    regsAfter ((s.core c).ctx k) ((s'.core c).ctx k) dst v

/-- The context went on at pc, its registers and everything else in it as before. -/
def ctxMoved (c : CoreId) (k : Ctx) (pc : BitVec 10) (s s' : State) : Prop :=
  onlyCore c s s' ∧ otherCtxsSame c k s s' ∧ (s'.core c).last = some k ∧
    (s'.core c).ctx k = { (s.core c).ctx k with pc := pc, waiting := none }

/-- In the cores and the stacks only landing entries of transfers of other modules may differ: as many stand there, and those
of own transfers as before. -/
def landingsOnly (s s' : State) : Prop :=
  (∀ c, s'.core c = { s.core c with landing := (s'.core c).landing } ∧
    (s'.core c).landing.filter (fun e => e.tag.module == s.coord) = (s.core c).landing.filter (fun e => e.tag.module == s.coord) ∧
    (s'.core c).landing.length = (s.core c).landing.length) ∧
  ∀ h, s'.stack h = { s.stack h with landing := (s'.stack h).landing } ∧
    (s'.stack h).landing.filter (fun e => e.tag.module == s.coord) = (s.stack h).landing.filter (fun e => e.tag.module == s.coord) ∧
    (s'.stack h).landing.length = (s.stack h).landing.length

/-- Those messages are pending on the sideband besides the ones that were, which keep their order: where each stands among the
messages of its reference cycle is its type's place in the table of spec/10 R266. -/
def posted (s s' : State) (ms : List SbOut) : Prop := s'.sbOut.Perm (s.sbOut ++ ms) ∧ s.sbOut.Sublist s'.sbOut

/-- A sync counter raised by a signal of src; joined: in the cycle of its last change, one combined change with it (spec/09
R225). -/
def signalled (v : SyncCtr) (inc : Nat) (src : EndPt) (joined : Bool) : SyncCtr :=
  { v with
    value := BitVec.ofNat 16 (min 65535 (v.value.toNat + inc))
    sat := v.sat || decide (65535 < v.value.toNat + inc)
    clamped := (joined && v.clamped) || decide (65535 < v.value.toNat + inc)
    src := some src, local_ := false }

/-- A byte range of a store reads as given, every byte outside it as before. -/
def bytesAfter (m m' : Mem) (a : Nat) (bs : List Byte) : Prop :=
  ∀ i, Memory.byte m' i = if a ≤ i ∧ i < a + bs.length then bs.getD (i - a) 0 else Memory.byte m i

/-- Counter j of a core counted n more events, capped (spec/17 R435); every other counter of it is as before. -/
def coreCounted (x x' : Core) (j n : Nat) : Prop :=
  ∀ i, Sparse.look {} x'.errs i = if i = j then (Sparse.look {} x.errs j).add n else Sparse.look {} x.errs i

/-- Error counter i of the module counted n more events; every other one is as before. -/
def counted (s s' : State) (i n : Nat) : Prop :=
  ∀ j, Sparse.look {} s'.counters j = if j = i then (Sparse.look {} s.counters i).add n else Sparse.look {} s.counters j

/-! ## Issue -/

/-- Context k may issue, the guard of its next word holds, and that word is w (spec/03 R67, R68, R85). -/
def State.ready (s : State) (c : CoreId) (k : Ctx) (w : DWord) : Prop :=
  s.selectable c k = true ∧ (s.core c).instrBad.contains ((s.core c).ctx k).pc.toNat = false ∧ (s.core c).fetch k = w

/-- No copy of the context is outstanding on what the instruction touches, and no guard of what it reads fails
(spec/03 R73, spec/13 R332). -/
def State.unheld (s : State) (c : CoreId) (k : Ctx) (u : Use) : Prop :=
  s.rangeHeld c k u = false ∧ (s.core c).badRead u = none ∧ (s.core c).badHdr u = none

/-- An LS operand of n bytes at a, block aligned and inside the LS (spec/03 R85, code 0x02). -/
def blockOperand (a n : Nat) : Prop := a % 64 = 0 ∧ a + n ≤ 98304

/-- No copy of the context is outstanding and no guard of the core's stores fails, so that nothing holds or spoils an
instruction's operands. -/
def State.calm (s : State) (c : CoreId) (k : Ctx) : Prop :=
  (∀ sl ∈ (s.core c).slots, sl.ctx = k → sl.tracked = false) ∧ (∀ q ∈ (s.core c).cpys, q.ctx ≠ k) ∧
    (s.core c).lsBad = [] ∧ (s.core c).afBad = [] ∧ (s.core c).statBad = []

/-- No column of the context is on its way to one of n entries from e (spec/03 R68). -/
def noneAwaited (x : Core) (k : Ctx) (e n : Nat) : Prop := ∀ g ∈ x.arrayQ, g.ctx = k → g.entry < e ∨ e + n ≤ g.entry

/-- Every open bank that n entries from e touch is the context's own (spec/03 R85, code 0x07). -/
def banksFree (x : Core) (k : Ctx) (e n : Nat) : Prop :=
  ∀ b ∈ banksOf e n, (x.banks.get b).isOpen = true → (x.banks.get b).owner.toNat = k.val

/-- A bank as an ACLR or APRE of the context leaves it: its own open bank as it is; otherwise open, age 1, in the upper
window if REPEAT stood, which clears and is kept as one of its openings in that window (spec/03 R76, spec/06 R140, R149, R150);
one opening more of the stroke. -/
def openedBank (b : Bank) (k : Ctx) (seq : Nat) : Bank :=
  if b.isOpen = true ∧ b.owner.toNat = k.val then b
  else { isOpen := true, owner := BitVec.ofNat 2 k.val, age := 1, upper := b.rep, rep := false, opened := seq
         opens := b.opens + 1
         uppers := if b.rep = true ∧ b.opens + 1 ∉ b.uppers then b.uppers ++ [b.opens + 1] else b.uppers }

/-- The banks that n entries from e touch are opened, the others as before. -/
def banksOpened (x x' : Core) (k : Ctx) (e n : Nat) : Prop :=
  ∀ b, x'.banks.get b = if b ∈ banksOf e n then openedBank (x.banks.get b) k x.ckptSeq else x.banks.get b

/-- A bank closed: REPEAT stays, and stands again if the next chain of the bank is one that overflowed before (spec/06 R149,
R150; notes/assumptions/144). -/
def closedBank (b : Bank) : Bank :=
  { rep := if b.opens + 1 ∈ b.uppers then true else b.rep, opened := b.opened, opens := b.opens, uppers := b.uppers }

/-- The banks that n entries from e touch are closed, the others as before. -/
def banksClosed (x x' : Core) (e n : Nat) : Prop :=
  ∀ b, x'.banks.get b = if b ∈ banksOf e n then closedBank (x.banks.get b) else x.banks.get b

/-- What a vector instruction leaves of the module when it ran: its context at the next instruction with the generator as given,
the vector unit busy for its cycles, no LS byte outside its destination changed, and nothing else but its
counters and the bits that go with LS blocks. -/
def vectorRan (c : CoreId) (k : Ctx) (d size cycles : Nat) (gen : Option DWord) (s : State) (out : Host.Outcome State Fault Refusal) : Prop :=
  ∃ s', out = .next s' ∧ onlyCore c s s' ∧ otherCtxsSame c k s s' ∧
    (s'.core c).ctx k = { (s.core c).ctx k with
      pc := ((s.core c).ctx k).pc + 1, waiting := none, dither := gen } ∧
    s'.core c = { s.core c with
      ctxs := (s'.core c).ctxs
      last := some k
      pace := (s'.core c).pace
      ls := (s'.core c).ls
      rollFound := (s'.core c).rollFound
      lsBad := (s'.core c).lsBad
      landed := (s'.core c).landed
      unrepaired := (s'.core c).unrepaired
      lost := (s'.core c).lost
      errs := (s'.core c).errs
      vectorBusy := (s.core c).vectorBusy + BitVec.ofNat 64 cycles } ∧
    ∀ i, (i < d ∨ d + size ≤ i) → Memory.byte (s'.core c).ls i = Memory.byte (s.core c).ls i

/-- Bytes of the rows of a row instruction: n rows of W elements. -/
def rowsBytes (x : Core) (t : CtxState) (f : FmtM) : Nat :=
  countOf f * (RowHdr.of (x.block (addrA t f))).w * rowWidth f.fmt

/-- The instruction is an RSMAX that merges into its entries. -/
def rowMerges (o : RowOp) (x : Core) (t : CtxState) (f : FmtM) : Prop := o = .smax ∧ (RowHdr.of (x.block (addrA t f))).mode = 1

/-- Bytes a row instruction writes at its output address. -/
def rowOutBytes (o : RowOp) (x : Core) (t : CtxState) (f : FmtM) : Nat :=
  if o = .stat then 0
  else rowsBytes x t f + (if o = .smax ∧ (RowHdr.of (x.block (addrA t f))).mode = 1 then up64 (4 * countOf f) else 0)

/-- Operands and header under which a row instruction executes normally (spec/03 R85, spec/07 R173, R174). -/
def rowFits (o : RowOp) (c : CoreId) (k : Ctx) (f : FmtM) (s : State) : Prop :=
  let x := s.core c
  let t := x.ctx k
  let h := RowHdr.of (x.block (addrA t f))
  f.sub = 0 ∧ f.flags = 0 ∧ (o = .stat → f.bbase = 0) ∧ isWide f.fmt = true ∧ t.pc.toNat < 1023 ∧
    blockOperand (addrA t f) (64 + rowsBytes x t f) ∧ (o = .smaxb ∨ o = .normb → blockOperand h.g (rowsBytes x t f)) ∧
    (o ≠ .stat → blockOperand (addrB t f) (rowOutBytes o x t f)) ∧ indexD t f + countOf f ≤ 512 ∧
    o.hdrIllegal h = false ∧ o.hdrFormat h = false ∧ s.calm c k

/-- What a row instruction leaves of the module when it ran: the row unit busy for P · W / 32 + 4 cycles of every row, no LS
byte outside its output and no statistics entry outside its own changed, and nothing else but its counters, the bits that
go with LS blocks and entries, and the saves of a merge. -/
def rowRan (o : RowOp) (c : CoreId) (k : Ctx) (f : FmtM) (s : State) (out : Host.Outcome State Fault Refusal) : Prop :=
  let x := s.core c
  let t := x.ctx k
  let h := RowHdr.of (x.block (addrA t f))
  ∃ s', out = .next s' ∧ onlyCore c s s' ∧ otherCtxsSame c k s s' ∧
    (s'.core c).ctx k = { t with pc := t.pc + 1, waiting := none } ∧
    s'.core c = { x with
      ctxs := (s'.core c).ctxs
      last := some k
      pace := (s'.core c).pace
      ls := (s'.core c).ls
      rollFound := (s'.core c).rollFound
      lsBad := (s'.core c).lsBad
      landed := (s'.core c).landed
      unrepaired := (s'.core c).unrepaired
      stat := (s'.core c).stat
      statBad := (s'.core c).statBad
      unrepairedStat := (s'.core c).unrepairedStat
      lost := (s'.core c).lost
      errs := (s'.core c).errs
      saves := (s'.core c).saves
      rowBusy := x.rowBusy + BitVec.ofNat 64 (countOf f * (o.passes h.mode * (h.w / 32) + 4)) } ∧
    (¬rowMerges o x t f → (s'.core c).saves = x.saves) ∧
    (∀ i, (i < addrB t f ∨ addrB t f + rowOutBytes o x t f ≤ i) → Memory.byte (s'.core c).ls i = Memory.byte x.ls i) ∧
    (o = .stat → (s'.core c).ls = x.ls ∧ (s'.core c).lsBad = x.lsBad ∧ (s'.core c).landed = x.landed) ∧
    (∀ e, (e < indexD t f ∨ indexD t f + countOf f ≤ e) → (s'.core c).statEntry e = x.statEntry e) ∧
    (o ≠ .stat → o ≠ .smax → (s'.core c).stat = x.stat)

/-- The context stopped with a check code: CHECK names the code, the context and the instruction, CHECK_STOP counted it,
and nothing else differs (spec/03 R85). -/
def checkStopped (c : CoreId) (k : Ctx) (code : Nat) (s : State) (out : Host.Outcome State Fault Refusal) : Prop :=
  ∃ s', out = .next s' ∧ onlyCore c s s' ∧ otherCtxsSame c k s s' ∧
    (s'.core c).ctx k = { (s.core c).ctx k with stopped := true } ∧
    s'.core c = { s.core c with
      ctxs := (s'.core c).ctxs
      check := BitVec.ofNat 32 (code + k.val * 2 ^ 8 + ((s.core c).ctx k).pc.toNat * 2 ^ 10)
      errs := (s'.core c).errs } ∧
    coreCounted (s.core c) (s'.core c) jCheckStop 1

/-! ## Strokes -/

/-- A context starts a stroke at the first edge of a work window of a beat whose count of stroke beats is t: its core has no roll
due, it is enabled, has neither ended nor stopped, runs no stroke, was not restored inside one, and is not level with t (spec/03
R77, spec/13 R344, R346). -/
def strokeDue (x : Core) (k : Ctx) (t : Nat) : Prop :=
  x.roll.isNone = true ∧ (x.ctx k).enabled = true ∧ (x.ctx k).ended = false ∧ (x.ctx k).stopped = false ∧
    (x.ctx k).running = false ∧ (x.ctx k).resume = false ∧ (x.ctx k).n < t

/-- The context owns an open bank of age 3: its next stroke check-stops it with CHAIN_AGE (spec/03 R77). -/
def chainTooOld (x : Core) (k : Ctx) : Prop :=
  ∃ b, (x.banks.get b).isOpen = true ∧ (x.banks.get b).owner.toNat = k.val ∧ (x.banks.get b).age = 3

/-! ## Host ports -/

/-- Of the other port only this may differ: its commands that waited behind one of those rings of port p go on (spec/14 R389). -/
def wentOn (p : HPort) (rings : Ring → Prop) (s s' : State) : Prop :=
  s'.host (otherPort p) = { s.host (otherPort p) with sqs := (s'.host (otherPort p)).sqs } ∧
    (Sparse.wf {} (s.host (otherPort p)).sqs = true → ∀ j q, (s.host (otherPort p)).sq j = q →
      ((∀ r, q.behind = some r → ¬rings r) → (s'.host (otherPort p)).sq j = q) ∧
      (∀ r, q.behind = some r → rings r → (s'.host (otherPort p)).sq j = { q with behind := none }))

/-! ## Carillon -/

/-- A CARILLON packet of this sub-operation stands at stack h, for HBM offset off, with tag block g (spec/11 R275). -/
def State.carMet (s : State) (p : Packet) (subop : Nat) (h : StackId) (off : Nat) (g : CarTag) : Prop :=
  s.powered = true ∧ p.kind = .carillon ∧ placeOf p.addr = some (.hbm h off) ∧ addrModule p.addr = s.coord ∧
    CarTag.of p.data = g ∧ g.subop = subop ∧ s.stranded p = false

/-- No byte of n from HBM offset a lies in the trigger block of the stack, so that writing them starts nothing (spec/11 R273). -/
def Stack.offTriggers (t : Stack) (a n : Nat) : Prop :=
  t.car.loaded = false ∨ a + n ≤ t.car.trigBase ∨ t.car.trigBase + 4096 ≤ a

/-- No byte of n from HBM offset a is a trigger's or in the region of a REDUCE, so that a host's write of them is stored and does
nothing else (spec/11 R273, R278). -/
def Stack.plain (t : Stack) (a n : Nat) : Prop := t.offTriggers a n ∧ ∀ i, i < n → t.reduceAt (a + i) = none

/-- The packet carries data of operation i and its generation from stack h (spec/11 R275). -/
def carOwn (s : State) (h : StackId) (i : Nat) (w : Packet) : Prop :=
  w.kind = .carillon ∧ w.src = s.stackEnd h ∧ (CarTag.of w.data).op = i ∧ (CarTag.of w.data).gen = ((s.stack h).opRun i).gen ∧
    (CarTag.of w.data).subop = 1 ∧ (CarTag.of w.data).stack = h.val

/-- The packets carry the n KiB of HBM at src to offset dst of the same stack of module m, each block in its place. -/
def carSends (s : State) (h : StackId) (ws : List Packet) (m : BitVec 10) (src dst n : Nat) : Prop :=
  ∀ b, b < 16 * n → ∃ w ∈ ws, ∃ i, i ≤ b ∧ i < w.blocks - 1 ∧ w.addr = stackAddr 5 m h (dst + 64 * (b - i)) ∧
    (w.data.drop (64 + 64 * i)).take 64 = Memory.read (s.stack h).hbm (src + 64 * b) 64

/-- An operation whose data do not stand any more: stored-data loss of the stack, which ends the job; nothing is sent or
written, and the operation does not begin again (spec/11 R276, spec/13 R350). -/
def carLost (s s' : State) (h : StackId) (i : Nat) : Prop :=
  s'.cores = s.cores ∧ s'.inFlight = s.inFlight ∧
    (∀ g, g ≠ h → s'.stack g = { s.stack g with trace := (s'.stack g).trace }) ∧ (s'.stack h).hbm = (s.stack h).hbm ∧
    (s'.stack h).opRun i = { (s.stack h).opRun i with begun := true } ∧
    s'.faults.lastFault = BitVec.ofNat 32 (6 + h.val * 2 ^ 8) ∧ (s.dev = devRunning → s'.deviceState = Triple.all 5 ∧ s'.haltCause = 5)

/-- Started operation i of stack h has ended: it no longer runs, or a held start of the next generation runs in its place,
which KNELL forbids (spec/11 R273, spec/13 R359). -/
def opEnded (s s' : State) (h : StackId) (i : Nat) : Prop :=
  ((s.stack h).opRun i).held = false ∨ s.dev = devKnell → ((s'.stack h).opRun i).running = false

/-! ## The beat -/

/-- A step of the boundary window is due: the module is powered, the step has not been done in this beat, its time has
come or is to come (spec/02 R27). -/
def State.dueIn (s : State) (cycle : Nat) (w : WinStep) : Prop :=
  s.powered = true ∧ w ∉ s.windowDone ∧ s.phase ≤ s.windowAt + cycle

/-- The state at that cycle of the boundary window with the step marked done: what every window step starts from. -/
def State.atCycle (s : State) (cycle : Nat) (w : WinStep) : State :=
  { s with
    refTime := s.refTime + (s.windowAt + cycle - s.phase)
    phase := s.windowAt + cycle
    windowDone := w :: s.windowDone }

/-! ## Invariants -/

/-- The copies of the device state agree on one of the six states of spec/15 R404; a launch is armed only in LOADED, a
start-up waits only in STARTING, a load runs only in READY (or was caught by the knell), HALT_CAUSE is 0 outside
HALTED (spec/02 R54, R63). -/
def State.modeOk (s : State) : Prop :=
  s.deviceState = Triple.all s.deviceState.vote ∧
    1 ≤ s.deviceState.vote.toNat ∧ s.deviceState.vote.toNat ≤ 6 ∧
    (s.powered = false → s.deviceState.vote.toNat = devStarting) ∧
    (s.armed = true → s.deviceState.vote.toNat = devLoaded) ∧
    (s.control.booting.isSome = true → s.deviceState.vote.toNat = devStarting) ∧
    (s.load.isSome = true → s.deviceState.vote.toNat = devReady ∨ s.deviceState.vote.toNat = devKnell) ∧
    (s.deviceState.vote.toNat ≠ devHalted → s.haltCause = 0)

/-- The maps of cores, stacks and ports list each unit once, in rising order, and none that is fresh. -/
def State.mapsOk (s : State) : Prop :=
  Sparse.wf Core.fresh s.cores = true ∧ Sparse.wf {} s.hbmStacks = true ∧ Sparse.wf {} s.ports = true

end Sys2Proof.Machine
end

