-- ==== Sys2Proof/Certificates/Slice0/Obligations.lean ====
section
/-! DEFINITION. The claims about the module that are to be proved: one Prop for each, over the model's own operations. -/

open Sys2Proof Sys2Proof.Machine

/-- O1. A step runs the command at the front of the queue on the rest; with an empty queue one reference cycle passes
(model's choice, note 5). With a command at the front of the queue, a step is the command's effect on the state with
the queue's rest. With an empty queue nothing happens to a module that is not powered; on a powered one the
reference clock counts one cycle and the phase goes on, but does not pass the last cycle of the beat, and nothing
else changes (the empty-queue tick is the model's choice, notes/assumptions/5). -/
def Obligations.StepRunsFrontCommand : Prop :=
  ∀ (s : State),
    (∀ c cs, s.pending = c :: cs → step s = exec c { s with pending := cs }) ∧
    (s.pending = [] → s.powered = false → step s = .next s) ∧
    (s.pending = [] → s.powered = true →
      (s.phase + 1 < s.tempo.vote.toNat → step s = .next { s with refTime := s.refTime + 1, phase := s.phase + 1 }) ∧
      (s.tempo.vote.toNat ≤ s.phase + 1 → step s = .next { s with refTime := s.refTime + 1 }))

/-- O2. Every command has a next state in every state, and leaves the queue of waiting commands alone. For every command
and every state of the module, carrying the command out answers a next state, never a fault or a refusal, and the
queue of the commands that wait is as it was (the model's choice, note 135: a command with nothing to act on answers
the state as it is): faults, check stops, refused commands and lost data are states of the module, not ends of the
model. -/
def Obligations.EveryCommandHasNextState : Prop :=
  ∀ (c : Instr) (s : State), ∃ s', exec c s = .next s' ∧ s'.pending = s.pending

/-- O3. Every step keeps the device state legal, and KNELL is left only with the power. The invariant (State.modeOk):
the three copies of the device state agree on one of the six states; an unpowered module stands at STARTING; a
launch is armed only in LOADED; a start-up waits only in STARTING; a load runs only in READY, or was caught by the
knell; HALT_CAUSE is 0 outside HALTED. Every step that answers a next state keeps it. From a state with the
invariant that is in KNELL and powered, every such step that leaves the module powered leaves it in KNELL. -/
def Obligations.ModeStaysLegal : Prop :=
  ∀ (s s' : State), s.modeOk → step s = .next s' →
    s'.modeOk ∧
      (s.powered = true → s.deviceState.vote.toNat = 6 → s'.powered = true → s'.deviceState.vote.toNat = 6)

/-- O4. Every step keeps the maps of cores, stacks and Reduit ports in their one canonical form. If the maps of the
cores, of the stacks and of the Reduit ports list each unit at most once, in rising order of key, and none that
equals a fresh unit, then so do the maps of the next state of every step. So equal modules are equal data, and
reading a unit after changing another finds it as it was. (The form is the model's own: the manual lists the units,
not a map.) -/
def Obligations.MapsStayCanonical : Prop :=
  ∀ (s s' : State), s.mapsOk → step s = .next s' → s'.mapsOk

/-- O5. The state after reset meets the invariants and holds the reset values the manual states. The state after reset
has no command waiting, is not powered, meets the invariant of the device state and the canonical form of the maps,
and holds the stated reset values: DEVICE_STATE 1, IMAGE_VALID 0, TEMPO 1,000, DOWNBEAT all ones, LAUNCH_COUNT 0,
LATE_MARGIN 0x32, SLOPE 0x3E8, JOB_CAP 0, no image, no hold, an empty boot journal with both firmware slots valid
and slot 0 preferred (the empty journal is the model's choice, notes/assumptions/6). -/
def Obligations.ResetMeetsInvariants : Prop :=
  State.reset.modeOk ∧ State.reset.mapsOk ∧ State.reset.pending = [] ∧ State.reset.powered = false ∧
    State.reset.deviceState = Triple.all 1 ∧ State.reset.imageValid = Triple.all 0 ∧ State.reset.tempo = Triple.all 1000 ∧
    State.reset.downbeatLo = Triple.all 0xFFFFFFFF ∧ State.reset.downbeatHi = Triple.all 0xFFFFFFFF ∧
    State.reset.launchCount = Triple.all 0 ∧ State.reset.lateMargin = 0x32 ∧ State.reset.tympan.slope = 0x3E8 ∧
    State.reset.jobCap = Triple.all 0 ∧ State.reset.image = none ∧ State.reset.holds = [] ∧ State.reset.record.journal = [] ∧
    State.reset.record.valid0 = true ∧ State.reset.record.valid1 = true ∧ State.reset.record.preferred = false

/-- O6. The eleven arithmetic instructions write their result to DST and nothing else. A ready ADD, SUB, AND, OR, XOR,
SHL, SHR, SRA, MUL, MULH or SLT whose reserved fields are 0 (COND and bits [38:32]; SRCB with IMMSEL 1; IMM with
IMMSEL 0) and that is not the last index of the store writes SRCA op B to DST, where B is IMM if IMMSEL is 1 and
SRCB otherwise: 32-bit wrapping results, shifts by B[4:0], SHR logical, SRA arithmetic, MUL the low and MULH the
high 32 bits of the (signed) product, SLT the signed comparison. With DST s0 nothing is written. The context goes on
at the next index and issued last; every other register, context, store, counter, core and part of the module is
unchanged. -/
def Obligations.ArithmeticWritesDestination : Prop :=
  ∀ (s : State) (c : CoreId) (k : Ctx) (f : FmtS) (a b : Word) (pc : BitVec 10),
    f.cond = 0 → f.rsv = 0 → (f.immsel = 1 → f.srcb = 0) → (f.immsel = 0 → f.imm = 0) →
    ((s.core c).ctx k).pc.toNat < 1023 → ((s.core c).ctx k).pc + 1 = pc →
    ((s.core c).ctx k).reg f.srca.toNat = a →
    (if f.immsel = 1 then f.imm else ((s.core c).ctx k).reg f.srcb.toNat) = b →
    (s.ready c k (encS 0x00 f) → wroteReg c k f.dst.toNat (a + b) pc s (exec (.add c k f) s)) ∧
    (s.ready c k (encS 0x01 f) → wroteReg c k f.dst.toNat (a - b) pc s (exec (.sub c k f) s)) ∧
    (s.ready c k (encS 0x02 f) → wroteReg c k f.dst.toNat (a &&& b) pc s (exec (.and c k f) s)) ∧
    (s.ready c k (encS 0x03 f) → wroteReg c k f.dst.toNat (a ||| b) pc s (exec (.or c k f) s)) ∧
    (s.ready c k (encS 0x04 f) → wroteReg c k f.dst.toNat (a ^^^ b) pc s (exec (.xor c k f) s)) ∧
    (s.ready c k (encS 0x05 f) → wroteReg c k f.dst.toNat (a <<< b.extractLsb' 0 5) pc s (exec (.shl c k f) s)) ∧
    (s.ready c k (encS 0x06 f) → wroteReg c k f.dst.toNat (a >>> b.extractLsb' 0 5) pc s (exec (.shr c k f) s)) ∧
    (s.ready c k (encS 0x07 f) →
      wroteReg c k f.dst.toNat (a.sshiftRight' (b.extractLsb' 0 5)) pc s (exec (.sra c k f) s)) ∧
    (s.ready c k (encS 0x08 f) → wroteReg c k f.dst.toNat (a * b) pc s (exec (.mul c k f) s)) ∧
    (s.ready c k (encS 0x09 f) →
      wroteReg c k f.dst.toNat ((a.signExtend 64 * b.signExtend 64).extractLsb' 32 32) pc s (exec (.mulh c k f) s)) ∧
    (s.ready c k (encS 0x0A f) → wroteReg c k f.dst.toNat (if a.slt b then 1 else 0) pc s (exec (.slt c k f) s))

/-- O7. RDSPEC reads its seven values, BRC and JMP go where they point, NOP does nothing; a context waits for a ready
one before it. A ready RDSPEC with its other fields 0 and IMM 0 to 6 writes to DST: N[31:0], N[63:32], the core's X,
its Y, the context, the module coordinate, the rank. A ready BRC compares SRCA with SRCB (0 equal, 1 not equal, 2
less and 3 not less as signed numbers, 4 less and 5 not less as unsigned ones) and continues at IMM[9:0] or at the
next index, writing no register. A ready JMP continues at IMM[9:0] if IMMSEL is 1, at SRCB otherwise, and writes the
index of the next instruction to DST. A ready NOP changes nothing but its place. In each case every other register,
context, store, core and part of the module is unchanged. While a context that comes earlier in the rotating order
is ready whatever the latencies are, a NOP and an ADD of this one have no effect (which contexts are surely ready is
the model's choice, note 166). -/
def Obligations.SpecialValuesAndBranches : Prop :=
  ∀ (s : State) (c : CoreId) (k : Ctx) (f : FmtS) (g : FmtY) (t : CtxState) (a b : Word),
    (s.core c).ctx k = t → t.reg f.srca.toNat = a → t.reg f.srcb.toNat = b →
    (∀ v : Word, s.ready c k (encS 0x0D f) → t.pc.toNat < 1023 →
      f.srca = 0 → f.srcb = 0 → f.immsel = 0 → f.cond = 0 → f.rsv = 0 →
      [BitVec.ofNat 32 t.n, BitVec.ofNat 32 (t.n / 2 ^ 32), BitVec.ofNat 32 c.x.val, BitVec.ofNat 32 c.y.val,
        BitVec.ofNat 32 k.val, s.coord.zeroExtend 32, BitVec.ofNat 32 s.rank][f.imm.toNat]? = some v →
      wroteReg c k f.dst.toNat v (t.pc + 1) s (exec (.rdspec c k f) s)) ∧
    (∀ taken : Bool, s.ready c k (encS 0x0E f) → f.dst = 0 → f.immsel = 0 → f.rsv = 0 → f.imm.toNat ≤ 1023 →
      [a == b, a != b, a.slt b, !a.slt b, a.ult b, !a.ult b][f.cond.toNat]? = some taken →
      (taken = true → wroteReg c k 0 0 (BitVec.ofNat 10 f.imm.toNat) s (exec (.brc c k f) s)) ∧
      (taken = false → t.pc.toNat < 1023 → wroteReg c k 0 0 (t.pc + 1) s (exec (.brc c k f) s))) ∧
    (s.ready c k (encS 0x0F f) → f.srca = 0 → f.cond = 0 → f.rsv = 0 →
      (f.immsel = 1 → f.srcb = 0 → f.imm.toNat ≤ 1023 →
        wroteReg c k f.dst.toNat (BitVec.ofNat 32 (t.pc.toNat + 1)) (BitVec.ofNat 10 f.imm.toNat) s (exec (.jmp c k f) s)) ∧
      (f.immsel = 0 → f.imm = 0 → b.toNat ≤ 1023 →
        wroteReg c k f.dst.toNat (BitVec.ofNat 32 (t.pc.toNat + 1)) (BitVec.ofNat 10 b.toNat) s (exec (.jmp c k f) s))) ∧
    (s.ready c k (encY 0x3C g) → t.pc.toNat < 1023 →
      g.abase = 0 → g.ctr = 0 → g.consume = 0 → g.remote = 0 → g.rsv = 0 → g.value = 0 →
      wroteReg c k 0 0 (t.pc + 1) s (exec (.nop c k g) s)) ∧
    (∀ j, s.surelyReady c j = true → (s.core c).turnAt j < (s.core c).turnAt k →
      exec (.nop c k g) s = .next s ∧ exec (.add c k f) s = .next s)

/-- O8. LDW reads and STW writes the four bytes of the LS at SRCA + IMM, little-endian. A ready LDW or STW whose
reserved fields are 0, whose address SRCA + IMM (unsigned, no wrap: the model's reading, note 23) is word aligned
and inside the LS, and that no copy and no failing guard holds up, runs. LDW writes the word of the four bytes,
least significant first, to DST and changes nothing else. STW stores the bytes of SRCB there: every other byte of
the LS, every register, and every other part of the module is unchanged, but that the block counts as written by an
instruction (no longer as landed). -/
def Obligations.LoadAndStoreWord : Prop :=
  ∀ (s : State) (c : CoreId) (k : Ctx) (f : FmtS) (t : CtxState) (a : Nat),
    (s.core c).ctx k = t → (t.reg f.srca.toNat).toNat + f.imm.toNat = a → a % 4 = 0 → a + 4 ≤ 98304 →
    f.immsel = 0 → f.cond = 0 → f.rsv = 0 → t.pc.toNat < 1023 →
    (s.ready c k (encS 0x0B f) → f.srcb = 0 → s.unheld c k { lsR := [(a, 4)] } →
      wroteReg c k f.dst.toNat
        (Memory.byte (s.core c).ls (a + 3) ++ Memory.byte (s.core c).ls (a + 2) ++ Memory.byte (s.core c).ls (a + 1) ++
          Memory.byte (s.core c).ls a) (t.pc + 1) s (exec (.ldw c k f) s)) ∧
    (s.ready c k (encS 0x0C f) → f.dst = 0 → s.unheld c k { lsW := [(a, 4)] } →
      ∃ s', exec (.stw c k f) s = .next s' ∧ ctxMoved c k (t.pc + 1) s s' ∧
        s'.core c = { s.core c with
          ctxs := (s'.core c).ctxs
          last := some k
          pace := (s'.core c).pace
          ls := (s'.core c).ls
          landed := (s.core c).landed.filter (· != a / 64) } ∧
        ∀ i, Memory.byte (s'.core c).ls i =
          if a ≤ i ∧ i < a + 4 then (t.reg f.srcb.toNat).extractLsb' (8 * (i - a)) 8 else Memory.byte (s.core c).ls i)

/-- O9. The first failed check of the table stops the context, writes CHECK and counts, and the instruction has no
effect. A ready ADD with a reserved field that is not 0, and a next word of a reserved opcode, stop their context
with ILLEGAL_OP (1); a ready LDW or STW (reserved fields 0, not held by a copy) whose word is misaligned or beyond
the LS stops it with code 2; a ready JMP through a register that holds more than 1,023, and an ADD in the last index
of the store, stop it with code 9. A ready ACLR, APASS, VBIN, RSTAT, END or SIG that nothing holds and that fails
one check or several stops it with the code of the first in the order of the table: reserved fields and codes (1),
operands outside the LS or misaligned (2), entries beyond 255 (3) or 511 (4), format or header fields (5), no ALOAD
yet (6), banks closed or of another context (7), END with an open bank (8), the last index (9), a remote address
that names no counter of the torus (11); a row header that does not lie aligned in the LS fails with 2 and its
fields are not judged. CHECK holds code, context and index, CHECK_STOP counts one, the context stops, and nothing
else of the module changes. (The model's choices: an instruction in the last index that goes on fails itself, note
11; SRCA plus IMM does not wrap, note 23; a size that no format gives is one block, note 24; an undefined opcode is
met by whichever command the context's step is given, stated for NOP, note 115; ABASE of a local SIG is 0, note
184.) -/
def Obligations.FailedChecksStopTheContext : Prop :=
  ∀ (s : State) (c : CoreId) (k : Ctx) (f : FmtS) (g : FmtY) (w : DWord) (t : CtxState),
    (s.core c).ctx k = t →
    (s.ready c k (encS 0x00 f) →
      (f.cond ≠ 0 ∨ f.rsv ≠ 0 ∨ (f.immsel = 1 ∧ f.srcb ≠ 0) ∨ (f.immsel = 0 ∧ f.imm ≠ 0) →
        checkStopped c k 1 s (exec (.add c k f) s)) ∧
      (f.cond = 0 → f.rsv = 0 → (f.immsel = 1 → f.srcb = 0) → (f.immsel = 0 → f.imm = 0) → t.pc.toNat = 1023 →
        checkStopped c k 9 s (exec (.add c k f) s))) ∧
    (s.ready c k w →
      opcodeOf w ∈ [0x13, 0x14, 0x15, 0x16, 0x17, 0x1C, 0x1D, 0x1E, 0x1F, 0x25, 0x26, 0x27, 0x2D, 0x2E, 0x2F, 0x32, 0x33,
        0x34, 0x35, 0x36, 0x37, 0x3D, 0x3E, 0x3F] →
      checkStopped c k 1 s (exec (.nop c k g) s)) ∧
    (∀ a, (t.reg f.srca.toNat).toNat + f.imm.toNat = a → (a % 4 ≠ 0 ∨ 98304 < a + 4) →
      f.immsel = 0 → f.cond = 0 → f.rsv = 0 →
      (s.ready c k (encS 0x0B f) → f.srcb = 0 → s.rangeHeld c k { lsR := [(a, 4)] } = false →
        checkStopped c k 2 s (exec (.ldw c k f) s)) ∧
      (s.ready c k (encS 0x0C f) → f.dst = 0 → s.rangeHeld c k { lsW := [(a, 4)] } = false →
        checkStopped c k 2 s (exec (.stw c k f) s))) ∧
    (s.ready c k (encS 0x0F f) → f.srca = 0 → f.cond = 0 → f.rsv = 0 → f.immsel = 0 → f.imm = 0 →
      1023 < (t.reg f.srcb.toNat).toNat → checkStopped c k 9 s (exec (.jmp c k f) s)) ∧
    (∀ (m : FmtM) (x : Core) (a b d n code : Nat), s.core c = x → s.calm c k → countOf m = n → addrA t m = a → addrB t m = b →
      addrD t m = d → code ≠ 0 →
      (s.ready c k (encM 0x18 m) → noneAwaited x k (indexD t m) n →
        code = (if m.abase ≠ 0 ∨ m.aoff ≠ 0 ∨ m.bbase ≠ 0 ∨ m.sub ≠ 0 ∨ m.fmt ≠ 0 ∨ m.flags ≠ 0 then 1
          else if 256 < indexD t m + n then 3
          else if ∃ e ∈ banksOf (indexD t m) n, (x.banks.get e).isOpen = true ∧ (x.banks.get e).owner.toNat ≠ k.val then 7
          else if t.pc.toNat = 1023 then 9 else 0) →
        checkStopped c k code s (exec (.aclr c k m) s)) ∧
      (s.ready c k (encM 0x12 m) →
        code = (if 2 < m.sub.toNat ∨ m.flags ≠ 0 then 1
          else if a % 64 ≠ 0 ∨ 98304 < a + sized (columnRun m.fmt n) ∨ b % 64 ≠ 0 ∨ 98304 < b + columnScales m.fmt n then 2
          else if 256 < indexD t m + n then 3
          else if pairOk t.station m.fmt m.sub.toNat = false then 5
          else if t.station = none then 6
          else if ∃ e ∈ banksOf (indexD t m) n, (x.banks.get e).isOpen = false ∨ (x.banks.get e).owner.toNat ≠ k.val then 7
          else if t.pc.toNat = 1023 then 9 else 0) →
        checkStopped c k code s (exec (.apass c k m) s)) ∧
      (s.ready c k (encM 0x20 m) →
        code = (if 4 < m.sub.toNat ∨ m.flags ≠ 0 then 1
          else if ∃ v ∈ [a, b, d], v % 64 ≠ 0 ∨ 98304 < v + sized (vecBytes m.fmt n) then 2
          else if isWide m.fmt = false ∧ m.fmt ≠ 7 then 5
          else if t.pc.toNat = 1023 then 9 else 0) →
        checkStopped c k code s (exec (.vbin c k m) s)) ∧
      (∀ h, RowHdr.of (x.block a) = h → s.ready c k (encM 0x28 m) →
        code = (if m.sub ≠ 0 ∨ m.flags ≠ 0 ∨ m.bbase ≠ 0 ∨ (a % 64 = 0 ∧ a + 64 ≤ 98304 ∧ RowOp.stat.hdrIllegal h = true) then 1
          else if a % 64 ≠ 0 ∨ 98304 < a + 64 + (if isWide m.fmt then n * h.w * rowWidth m.fmt else 64) then 2
          else if 512 < indexD t m + n then 4
          else if isWide m.fmt = false ∨ RowOp.stat.hdrFormat h = true then 5
          else if t.pc.toNat = 1023 then 9 else 0) →
        checkStopped c k code s (exec (.rstat c k m) s))) ∧
    (∀ code, code ≠ 0 → (∀ q ∈ (s.core c).arrayQ, q.ctx ≠ k) →
      (s.ready c k (encY 0x3B g) →
        code = (if g.abase ≠ 0 ∨ g.ctr ≠ 0 ∨ g.consume ≠ 0 ∨ g.remote ≠ 0 ∨ g.rsv ≠ 0 ∨ g.value ≠ 0 then 1
          else if (s.core c).ownsOpen k = true then 8 else 0) →
        checkStopped c k code s (exec (.endCtx c k g) s)) ∧
      (s.ready c k (encY 0x38 g) →
        code = (if g.value.toNat = 0 ∨ 255 < g.value.toNat ∨ g.consume ≠ 0 ∨ g.rsv ≠ 0 ∨
              (g.remote = 1 ∧ (g.abase.toNat % 2 = 1 ∨ g.ctr ≠ 0)) ∨ (g.remote = 0 ∧ g.abase ≠ 0) then 1
          else if t.pc.toNat = 1023 then 9
          else if g.remote = 1 ∧ s.ctrTarget (pairAddr t g) = none then 11 else 0) →
        checkStopped c k code s (exec (.sig c k g) s)))

/-- O10. ALOAD and ALOADT fill the copy the last APASS did not use; APASS sends its group sums on. A ready ALOAD or
ALOADT with aligned operands inside the LS and a block-scaled format fills the copy of the stationary operand that
the context's most recent APASS did not use, and the next APASS uses it: element (column, slot, row) is packed
element 32·(slots·column + slot) + row of the A run for ALOAD and 8·(32·slot + row) + column for ALOADT, its scale
number slots·column + slot of the B run; the other copy stays and the array is busy 32 cycles. A ready APASS of N
columns with an allowed pair of formats, on entries whose banks the context has open, uses the newest operand and
puts N columns of eight group sums on their way to entries E to E + N − 1, in order, with the window and the opening
of their banks; the array is busy N cycles. Nothing else changes but the context's place and the kept chain steps. -/
def Obligations.StationaryLoadAndPass : Prop :=
  ∀ (s : State) (c : CoreId) (k : Ctx) (f : FmtM) (t : CtxState) (x : Core),
    s.core c = x → x.ctx k = t → t.pc.toNat < 1023 → f.flags = 0 → isBlock f.fmt = true → s.calm c k →
    (∀ (transpose : Bool) (w : DWord), w = encM (if transpose then 0x11 else 0x10) f → s.ready c k w →
      f.dbase = 0 → f.doff = 0 → f.len = 0 → f.sub = 0 →
      blockOperand (addrA t f) (columnRun f.fmt 8) → blockOperand (addrB t f) 64 →
      ∃ s' st, exec (if transpose then .aloadt c k f else .aload c k f) s = .next s' ∧
        onlyCore c s s' ∧ otherCtxsSame c k s s' ∧
        (s'.core c).ctx k = { t with
          pc := t.pc + 1, waiting := none, chain := t.chain.map (· ++ [⟨w, addrA t f, addrB t f, 0⟩])
          stat0 := if t.passUsed then some st else t.stat0
          stat1 := if t.passUsed then t.stat1 else some st
          newest := !t.passUsed } ∧
        s'.core c = { x with ctxs := (s'.core c).ctxs, last := some k, pace := (s'.core c).pace, arrayBusy := x.arrayBusy + 32 } ∧
        st.fmt = f.fmt ∧
        ∀ col slot row, col < 8 → slot < slotsOf f.fmt → row < 32 →
          st.codes.getD ((col * slotsOf f.fmt + slot) * 32 + row) 0 =
              BitVec.ofNat 8 (packedElem x.ls (addrA t f) (elemWidth f.fmt)
                (if transpose then 8 * (32 * slot + row) + col else 32 * (slotsOf f.fmt * col + slot) + row)) ∧
            st.scales.getD (col * slotsOf f.fmt + slot) 0 = scaleAt x.ls (addrB t f) (slotsOf f.fmt * col + slot)) ∧
    (∀ st, t.station = some st → s.ready c k (encM 0x12 f) → f.sub.toNat ≤ 2 →
      (f.sub = 0 ∨ (st.fmt = 4 ∧ f.fmt = 4)) → (st.fmt = 3 ↔ f.fmt = 3) →
      blockOperand (addrA t f) (columnRun f.fmt (countOf f)) → blockOperand (addrB t f) (columnScales f.fmt (countOf f)) →
      indexD t f + countOf f ≤ 256 →
      (∀ b ∈ banksOf (indexD t f) (countOf f), (x.banks.get b).isOpen = true ∧ (x.banks.get b).owner.toNat = k.val) →
      ∃ s', exec (.apass c k f) s = .next s' ∧ onlyCore c s s' ∧ otherCtxsSame c k s s' ∧
        (s'.core c).ctx k = { t with
          pc := t.pc + 1, waiting := none, passUsed := t.newest
          chain := t.chain.map (· ++ [⟨encM 0x12 f, addrA t f, addrB t f, indexD t f⟩]) } ∧
        s'.core c = { x with
          ctxs := (s'.core c).ctxs
          last := some k
          pace := (s'.core c).pace
          arrayBusy := x.arrayBusy + BitVec.ofNat 64 (countOf f)
          arrayQ := x.arrayQ ++ (List.range (countOf f)).map fun j =>
            { ctx := k
              entry := indexD t f + j
              sums := (List.range 8).map fun col =>
                let g := columnTree (columnProducts st x.ls f.fmt (addrA t f) (addrB t f) j col)
                { g with l := g.l + 8 * f.sub.toNat }
              upper := (x.banks.get (bankOf (indexD t f + j))).upper
              opens := (x.banks.get (bankOf (indexD t f + j))).opens
              opened := (x.banks.get (bankOf (indexD t f + j))).opened } })

/-- O11. ACCUMULATE adds floor(s · 2^l) in the window's unit to every column, and an overflow sets REPEAT. While the
arithmetic clocks run, for the oldest weight column on its way to an entry with a good guard: every column i of the
entry becomes A + floor(s · 2^(l + 64)), with 2^(l + 32) where its chain is in the upper window, where s · 2^l is
its group sum, and its tag is combined with the group tag (NaN with anything is NaN, none changes nothing, equal
tags stay, opposite infinities give NaN). If no sum leaves the 128-bit range, nothing else changes but that the
column leaves the queue. A column whose sum leaves the range is unchanged; then the bank's REPEAT bit is set, closed
since or not (and which of its chains it was and what the restart may not pass is kept, note 144), and, if none is
due yet, a core roll of the context becomes due, with which pending results are discarded. -/
def Obligations.AccumulateAddsGroupSums : Prop :=
  ∀ (s : State) (c : CoreId) (x : Core) (g : GroupCol) (rest : List GroupCol) (v : Nat → Int),
    s.core c = x → s.arithStopped = false → x.arrayQ = g :: rest → x.afBad.contains g.entry = false →
    (∀ i, v i = (x.afCol g.entry i).a.toInt +
      (((g.sums.getD i ⟨0, 0, .none⟩).s : Rat) *
        (2 : Rat) ^ ((g.sums.getD i ⟨0, 0, .none⟩).l + if g.upper then 32 else 64)).floor) →
    ∃ s', exec (.accumulate c) s = .next s' ∧ onlyCore c s s' ∧
      (∀ e i, i < 8 → (s'.core c).afCol e i =
        if e = g.entry ∧ -2 ^ 127 ≤ v i ∧ v i < 2 ^ 127 then
          ⟨BitVec.ofInt 128 (v i),
            match (x.afCol e i).tag, (g.sums.getD i ⟨0, 0, .none⟩).tag with
            | .nan, _ => .nan
            | _, .nan => .nan
            | .none, b => b
            | a, .none => a
            | .posInf, .posInf => .posInf
            | .negInf, .negInf => .negInf
            | _, _ => .nan⟩
        else x.afCol e i) ∧
      ((∀ i, i < 8 → -2 ^ 127 ≤ v i ∧ v i < 2 ^ 127) →
        s'.core c = { x with af := (s'.core c).af, arrayQ := rest }) ∧
      ((∃ i, i < 8 ∧ (v i < -2 ^ 127 ∨ 2 ^ 127 ≤ v i)) →
        s'.core c = { x with
          af := (s'.core c).af
          banks := x.banks.set (bankOf g.entry) { x.banks.get (bankOf g.entry) with
            rep := true
            opened := min (x.banks.get (bankOf g.entry)).opened g.opened
            uppers := if g.opens ∈ (x.banks.get (bankOf g.entry)).uppers then (x.banks.get (bankOf g.entry)).uppers
              else (x.banks.get (bankOf g.entry)).uppers ++ [g.opens] }
          roll := if x.roll.isSome then x.roll else some ⟨0, 0, g.ctx, none, s.beat⟩
          arrayQ := if x.roll.isSome then rest else [] })

/-- O12. ACLR zeroes its entries and opens their banks; ADROP closes its banks and changes no entry. A ready ACLR with
reserved fields 0, on entries up to 255 of banks that are closed or the context's own, with no column of the context
still on its way to them, writes A = 0 and tag none into all eight columns of each, with a fresh guard, and opens
the banks (age 1, in the upper window exactly if REPEAT stood, which clears). A ready ADROP under the same
conditions closes the banks its entries touch, keeping REPEAT (which stands again ahead of a chain that overflowed
before: note 144), and leaves every entry as it is. Nothing else changes but the context's place and the kept chain
step. -/
def Obligations.AclrClearsAdropCloses : Prop :=
  ∀ (s : State) (c : CoreId) (k : Ctx) (f : FmtM) (x : Core) (t : CtxState),
    s.core c = x → x.ctx k = t → t.pc.toNat < 1023 → f.sub = 0 → f.fmt = 0 → f.flags = 0 → f.bbase = 0 →
    (s.ready c k (encM 0x18 f) → f.abase = 0 → f.aoff = 0 → indexD t f + countOf f ≤ 256 →
      banksFree x k (indexD t f) (countOf f) → noneAwaited x k (indexD t f) (countOf f) →
      ∃ s', exec (.aclr c k f) s = .next s' ∧ onlyCore c s s' ∧ otherCtxsSame c k s s' ∧
        (s'.core c).ctx k = { t with
          pc := t.pc + 1, waiting := none, chain := t.chain.map (· ++ [⟨encM 0x18 f, 0, 0, indexD t f⟩]) } ∧
        s'.core c = { x with
          ctxs := (s'.core c).ctxs, last := some k, pace := (s'.core c).pace, af := (s'.core c).af, afBad := (s'.core c).afBad
          banks := (s'.core c).banks } ∧
        banksOpened x (s'.core c) k (indexD t f) (countOf f) ∧
        (∀ e, e ∈ (s'.core c).afBad ↔ e ∈ x.afBad ∧ (e < indexD t f ∨ indexD t f + countOf f ≤ e)) ∧
        ∀ e i, i < 8 → (s'.core c).afCol e i =
          if indexD t f ≤ e ∧ e < indexD t f + countOf f then ⟨0, .none⟩ else x.afCol e i) ∧
    (s.ready c k (encM 0x1B f) → f.dbase = 0 → f.doff = 0 → indexA t f + countOf f ≤ 256 →
      banksFree x k (indexA t f) (countOf f) → noneAwaited x k (indexA t f) (countOf f) →
      ∃ s', exec (.adrop c k f) s = .next s' ∧ onlyCore c s s' ∧ otherCtxsSame c k s s' ∧
        (s'.core c).ctx k = { t with
          pc := t.pc + 1, waiting := none, chain := t.chain.map (· ++ [⟨encM 0x1B f, 0, 0, indexA t f⟩]) } ∧
        s'.core c = { x with ctxs := (s'.core c).ctxs, last := some k, pace := (s'.core c).pace, banks := (s'.core c).banks } ∧
        banksClosed x (s'.core c) (indexA t f) (countOf f))

/-- O13. APRE overwrites its entries from the tile; AREAD writes the tile and the completion record. A ready APRE
(header bits [511:33] 0, PF finite, an allowed format, 32 entries at a time if block-scaled, source and entries in
range, banks free) opens its banks and, when no element leaves the 128-bit range, gives entry E + i, column j the
preloaded value of element (i, j) of the tile behind the header; every other entry, the LS and everything else but
the conversion counters stays. A ready AREAD (descriptor bits [255:97] 0, coarse scales positive and finite, no bank
of it awaiting a repeat) writes the readout's bytes from its destination on and the completion record into bytes 32
to 63 of the descriptor, over the tile where they overlap (the model's choice, note 172), no other LS byte; the AF
stays, its banks close if CLOSE is set, with what they keep of their openings as note 144 has it, and stay
otherwise, and the generator moves only when rounding is dithered. -/
def Obligations.PreloadAndReadout : Prop :=
  ∀ (s : State) (c : CoreId) (k : Ctx) (f : FmtM) (x : Core) (t : CtxState) (h : Nat),
    s.core c = x → x.ctx k = t → t.pc.toNat < 1023 → s.calm c k → f.fmt.toNat ≤ 6 →
    (isBlock f.fmt = true → countOf f % 32 = 0) →
    (s.ready c k (encM 0x19 f) → f.bbase = 0 → f.sub = 0 → f.flags = 0 → (x.block (addrA t f)).toNat = h →
      bitsOf h 511 33 = 0 → (fp32 (BitVec.ofNat 32 h)).isFinite = true →
      blockOperand (addrA t f) (64 + tileBytes f.fmt (countOf f)) → indexD t f + countOf f ≤ 256 →
      banksFree x k (indexD t f) (countOf f) → noneAwaited x k (indexD t f) (countOf f) →
      ∀ col : Nat → Nat → Option AfCol,
        (∀ i j, col i j = (preloadCol ((openedBank (x.banks.get (bankOf (indexD t f + i))) k x.ckptSeq).upper)
          (fp32 (BitVec.ofNat 32 h))
          (tileElem x.ls f.fmt (bitOf h 32) (addrA t f + 64) (countOf f) i j)).1) →
        (∀ i j, i < countOf f → j < 8 → (col i j).isSome = true) →
        ∃ s', exec (.apre c k f) s = .next s' ∧ onlyCore c s s' ∧ otherCtxsSame c k s s' ∧
          (s'.core c).ctx k = { t with
            pc := t.pc + 1, waiting := none
            chain := t.chain.map (· ++ [⟨encM 0x19 f, addrA t f, 0, indexD t f⟩]) } ∧
          s'.core c = { x with
            ctxs := (s'.core c).ctxs, last := some k, pace := (s'.core c).pace, af := (s'.core c).af, banks := (s'.core c).banks
            errs := (s'.core c).errs } ∧
          banksOpened x (s'.core c) k (indexD t f) (countOf f) ∧
          ∀ e j, j < 8 →
            if indexD t f ≤ e ∧ e < indexD t f + countOf f then col (e - indexD t f) j = some ((s'.core c).afCol e j)
            else (s'.core c).afCol e j = x.afCol e j) ∧
    (s.ready c k (encM 0x1A f) → f.sub.toNat ≤ 1 → f.flags.toNat ≤ 1 → (x.block (addrB t f)).toNat = h →
      bitsOf h 255 97 = 0 → coarseOk h = true → coarseOk (bitsOf h 63 32) = true → coarseOk (bitsOf h 95 64) = true →
      blockOperand (addrD t f) (tileBytes f.fmt (countOf f)) → blockOperand (addrB t f) 64 →
      indexA t f + countOf f ≤ 256 → banksFree x k (indexA t f) (countOf f) → noneAwaited x k (indexA t f) (countOf f) →
      (∀ b ∈ banksOf (indexA t f) (countOf f), (x.banks.get b).rep = false) →
      ∀ r, r = readOut x f.fmt (bitOf h 96) (f.sub == 1) (fp32 (BitVec.ofNat 32 (readFactor h))) (indexA t f) (countOf f)
          (s.ditherOf c k) →
        ∃ s', exec (.aread c k f) s = .next s' ∧ onlyCore c s s' ∧ otherCtxsSame c k s s' ∧
          (s'.core c).ctx k = { t with
            pc := t.pc + 1, waiting := none, chain := ((s'.core c).ctx k).chain
            dither := if f.sub = 1 then some r.dither else t.dither } ∧
          s'.core c = { x with
            ctxs := (s'.core c).ctxs, last := some k, pace := (s'.core c).pace, ls := (s'.core c).ls, landed := (s'.core c).landed
            unrepaired := (s'.core c).unrepaired, rollFound := (s'.core c).rollFound, lost := (s'.core c).lost
            errs := (s'.core c).errs, banks := (s'.core c).banks, shadow := (s'.core c).shadow
            shadowLog := (s'.core c).shadowLog } ∧
          (∀ i, Memory.byte (s'.core c).ls i =
            if addrB t f + 32 ≤ i ∧ i < addrB t f + 64 then
              (completionRecord x (indexA t f) (countOf f) r.sat r.nan (readFactor h)).getD (i - (addrB t f + 32)) 0
            else if addrD t f ≤ i ∧ i < addrD t f + r.bytes.length then r.bytes.getD (i - addrD t f) 0
            else Memory.byte x.ls i) ∧
          (f.flags = 0 → (s'.core c).banks = x.banks) ∧
          (f.flags = 1 → banksClosed x (s'.core c) (indexA t f) (countOf f)))

/-- O14. VBIN, VFMA, VUN, VSCALE and VCVT write only their destination run and keep the unit busy n or 2n cycles. A
ready vector instruction with reserved codes and fields 0, formats the instruction allows, and block-aligned
operands inside the LS runs: its context goes on, no LS byte outside the destination run of n vectors changes, the
vector unit is busy n cycles (2n for the exponential, the reciprocal and the reciprocal square root), and nothing
else of the module changes but the result counters of the core and the bits kept with LS blocks; only VCVT with
dithered rounding moves the context's generator, by one step for each of its 32·n elements. -/
def Obligations.VectorFramesAndOccupancy : Prop :=
  ∀ (s : State) (c : CoreId) (k : Ctx) (f : FmtM) (t : CtxState) (n : Nat),
    (s.core c).ctx k = t → countOf f = n → t.pc.toNat < 1023 → f.flags = 0 → s.calm c k →
    (s.ready c k (encM 0x20 f) → f.sub.toNat ≤ 4 → (isWide f.fmt = true ∨ f.fmt = 7) →
      blockOperand (addrD t f) (vecBytes f.fmt n) → blockOperand (addrA t f) (vecBytes f.fmt n) →
      blockOperand (addrB t f) (vecBytes f.fmt n) →
      vectorRan c k (addrD t f) (vecBytes f.fmt n) n t.dither s (exec (.vbin c k f) s)) ∧
    (s.ready c k (encM 0x21 f) → f.sub = 0 → isWide f.fmt = true →
      blockOperand (addrD t f) (vecBytes f.fmt n) → blockOperand (addrA t f) (vecBytes f.fmt n) →
      blockOperand (addrB t f) (vecBytes f.fmt n) →
      vectorRan c k (addrD t f) (vecBytes f.fmt n) n t.dither s (exec (.vfma c k f) s)) ∧
    (s.ready c k (encM 0x22 f) → f.sub.toNat ≤ 5 → f.bbase = 0 →
      (isWide f.fmt = true ∨ (f.fmt = 7 ∧ (f.sub.toNat < 2 ∨ f.sub = 5))) →
      blockOperand (addrD t f) (vecBytes f.fmt n) → blockOperand (addrA t f) (vecBytes f.fmt n) →
      vectorRan c k (addrD t f) (vecBytes f.fmt n) (if 2 ≤ f.sub.toNat ∧ f.sub.toNat ≤ 4 then 2 * n else n) t.dither s
        (exec (.vun c k f) s)) ∧
    (s.ready c k (encM 0x24 f) → f.sub = 0 → isWide f.fmt = true →
      blockOperand (addrD t f) (vecBytes f.fmt n) → blockOperand (addrA t f) (vecBytes f.fmt n) →
      vectorRan c k (addrD t f) (vecBytes f.fmt n) n t.dither s (exec (.vscale c k f) s)) ∧
    (∀ src : BitVec 4, s.ready c k (encM 0x23 f) → f.bbase = 0 → f.sub.extractLsb' 0 4 = src → cvtPair src f.fmt = true →
      blockOperand (addrA t f) (convRun src n) →
      blockOperand (addrD t f) (if src = 7 ∧ f.fmt = 4 then limbRun n else convRun f.fmt n) →
      vectorRan c k (addrD t f) (if src = 7 ∧ f.fmt = 4 then limbRun n else convRun f.fmt n) n
        (if f.sub.toNat < 16 then t.dither else some ((List.range (32 * n)).foldl (fun g _ => ditherStep g) (s.ditherOf c k))) s (exec (.vcvt c k f) s))

/-- O15. I32 vectors: add, subtract, multiply, max, min, negate, absolute value and move, wrapping and counting nothing.
In I32, a ready VBIN or VUN whose destination run equals a source run or meets none gives in each of its 32·n lanes:
the low 32 bits of A + B, A − B, A × B; the larger and the smaller of A and B as signed integers; −A and |A|,
wrapping (both map −2^31 to −2^31); A itself. No counter of the core changes. -/
def Obligations.IntegerVectorsWrap : Prop :=
  ∀ (s : State) (c : CoreId) (k : Ctx) (f : FmtM) (t : CtxState) (x : Core) (n a b d : Nat),
    s.core c = x → x.ctx k = t → countOf f = n → addrA t f = a → addrB t f = b → addrD t f = d →
    f.fmt = 7 → f.flags = 0 → t.pc.toNat < 1023 → s.calm c k →
    blockOperand a (128 * n) → blockOperand d (128 * n) → (d = a ∨ d + 128 * n ≤ a ∨ a + 128 * n ≤ d) →
    (s.ready c k (encM 0x20 f) → blockOperand b (128 * n) → (d = b ∨ d + 128 * n ≤ b ∨ b + 128 * n ≤ d) →
      ∀ fn : Word → Word → Word,
        [fun p q => p + q, fun p q => p - q, fun p q => p * q, fun p q => if p.slt q then q else p,
          fun p q => if p.slt q then p else q][f.sub.toNat]? = some fn →
        ∃ s', exec (.vbin c k f) s = .next s' ∧ (s'.core c).errs = x.errs ∧
          ∀ i, i < 32 * n → Memory.word (s'.core c).ls (d + 4 * i) =
            fn (Memory.word x.ls (a + 4 * i)) (Memory.word x.ls (b + 4 * i))) ∧
    (s.ready c k (encM 0x22 f) → f.bbase = 0 →
      ∀ fn : Word → Word,
        (f.sub = 0 ∧ fn = fun p => -p) ∨ (f.sub = 1 ∧ fn = fun p => if p.slt 0 then -p else p) ∨ (f.sub = 5 ∧ fn = fun p => p) →
        ∃ s', exec (.vun c k f) s = .next s' ∧ (s'.core c).errs = x.errs ∧
          ∀ i, i < 32 * n → Memory.word (s'.core c).ls (d + 4 * i) = fn (Memory.word x.ls (a + 4 * i))) ∧
    -(0x80000000 : Word) = 0x80000000

/-- O16. The five row instructions write only their output rows and their own statistics entries. A ready RSTAT, RSMAX,
RNORM, RSMAXB or RNORMB whose fields and row header pass the checks runs: the row unit is busy P·W/32 + 4 cycles for
each of its n rows (P passes), no LS byte outside the output rows (with the correction run of a merging RSMAX)
changes, no statistics entry but its own n changes, RSTAT writes no LS byte, RNORM, RSMAXB and RNORMB write no
entry, entries are saved only by a merging RSMAX, and nothing else changes but the context's place and the result
counters. -/
def Obligations.RowFramesAndOccupancy : Prop :=
  ∀ (s : State) (c : CoreId) (k : Ctx) (f : FmtM),
    (rowFits .stat c k f s → s.ready c k (encM 0x28 f) → rowRan .stat c k f s (exec (.rstat c k f) s)) ∧
    (rowFits .smax c k f s → s.ready c k (encM 0x29 f) → rowRan .smax c k f s (exec (.rsmax c k f) s)) ∧
    (rowFits .norm c k f s → s.ready c k (encM 0x2A f) → rowRan .norm c k f s (exec (.rnorm c k f) s)) ∧
    (rowFits .smaxb c k f s → s.ready c k (encM 0x2B f) → rowRan .smaxb c k f s (exec (.rsmaxb c k f) s)) ∧
    (rowFits .normb c k f s → s.ready c k (encM 0x2C f) → rowRan .normb c k f s (exec (.rnormb c k f) s))

/-- O17. CPY hands its descriptor to the copy engine, CMARK starts a group, DESCRIPTOR_READ takes the lowest free slot.
A ready CPY with aligned descriptor block inside the LS, fewer than 16 copies of the core outstanding and no copy of
the context, leaves the copy engine one more descriptor to read with its class bits, its index, its stroke beat and
its group, counted in every held checkpoint; while a replay still suppresses CPYs it is only counted off. A ready
CMARK with reserved fields 0 starts the context's next group. DESCRIPTOR_READ of a block whose guard and fields hold
gives the oldest CPY the lowest free slot of the 16; one that fails DESC_BOUNDS issues nothing, is taken out of the
checkpoints' counts again (the model's choice, note 19) and check-stops its context with code 10, counted; a context
that is stopped already keeps its CHECK and counts nothing more. Nothing else changes. -/
def Obligations.CopyIssueAndDescriptor : Prop :=
  ∀ (s : State) (c : CoreId) (x : Core),
    s.core c = x →
    (∀ (k : Ctx) (f : FmtM) (t : CtxState), x.ctx k = t → t.pc.toNat < 1023 → f.abase = 0 → f.aoff = 0 → f.bbase = 0 →
      f.len = 0 → f.sub = 0 → f.fmt = 0 →
      (s.ready c k (encM 0x30 f) → f.flags.toNat ≤ 2 → blockOperand (addrD t f) 64 → s.calm c k →
        x.slots.length + x.cpys.length < 16 →
        ∃ s', exec (.cpy c k f) s = .next s' ∧ onlyCore c s s' ∧ otherCtxsSame c k s s' ∧
          (0 < t.skipCpy →
            (s'.core c).ctx k = { t with pc := t.pc + 1, waiting := none, skipCpy := t.skipCpy - 1 } ∧
            s'.core c = { x with ctxs := (s'.core c).ctxs, last := some k, pace := (s'.core c).pace }) ∧
          (t.skipCpy = 0 →
            (s'.core c).ctx k = { t with pc := t.pc + 1, waiting := none } ∧
            s'.core c = { x with
              ctxs := (s'.core c).ctxs
              last := some k
              pace := (s'.core c).pace
              cpys := x.cpys ++ [⟨k, addrD t f, f.flags.getLsbD 0, f.flags.getLsbD 1, t.pc, s.t, t.marks⟩]
              checkpoints := x.checkpoints.map fun p =>
                { p with cpys := p.cpys.set k (p.cpys.get k + 1) } })) ∧
      (s.ready c k (encM 0x31 f) → f.flags = 0 → f.dbase = 0 → f.doff = 0 →
        ∃ s', exec (.cmark c k f) s = .next s' ∧ onlyCore c s s' ∧ otherCtxsSame c k s s' ∧
          (s'.core c).ctx k = { t with pc := t.pc + 1, waiting := none, marks := t.marks + 1 } ∧
          s'.core c = { x with ctxs := (s'.core c).ctxs, last := some k, pace := (s'.core c).pace })) ∧
    (∀ (q : CpyIssue) (rest : List CpyIssue), x.cpys = q :: rest → s.powered = true → x.slots.length < 16 →
      x.lsBad.contains (q.block / 64) = false →
      (s.descBad (x.block q.block) = false →
        ∃ s' i, exec (.descriptorRead c) s = .next s' ∧ onlyCore c s s' ∧
          i < 16 ∧ (∀ sl ∈ x.slots, sl.id ≠ i) ∧ (∀ j, j < i → ∃ sl ∈ x.slots, sl.id = j) ∧
          s'.core c = { x with
            cpys := rest
            slots := x.slots ++
              [{ id := i, ctx := q.ctx, desc := x.block q.block, due := q.due, idle := q.idle, issuedT := q.issuedT
                 group := q.group, sent := 0, reads := 0, aborted := false, rolling := false, tracked := true }] }) ∧
      (s.descBad (x.block q.block) = true →
        ∃ s', exec (.descriptorRead c) s = .next s' ∧ onlyCore c s s' ∧ otherCtxsSame c q.ctx s s' ∧
          (s'.core c).ctx q.ctx = { x.ctx q.ctx with stopped := true } ∧
          s'.core c = { x with
            ctxs := (s'.core c).ctxs
            cpys := rest
            check := (s'.core c).check
            errs := (s'.core c).errs
            checkpoints := x.checkpoints.map fun p => { p with cpys := p.cpys.set q.ctx (p.cpys.get q.ctx - 1) } } ∧
          ((x.ctx q.ctx).stopped = false →
            (s'.core c).check = BitVec.ofNat 32 (10 + q.ctx.val * 2 ^ 8 + q.pc.toNat * 2 ^ 10) ∧
            coreCounted x (s'.core c) jCheckStop 1) ∧
          ((x.ctx q.ctx).stopped = true → (s'.core c).check = x.check ∧ (s'.core c).errs = x.errs)))

/-- O18. A CPY with both DUE and IDLE set check-stops its context with ILLEGAL_OP. A ready CPY whose FLAGS have both DUE
(bit 0) and IDLE (bit 1) set, that no rule holds back, stops its context with code 1: CHECK names it, CHECK_STOP
counts it, the copy is not issued and nothing else changes. -/
def Obligations.DueIdleCopyIsIllegal : Prop :=
  ∀ (s : State) (c : CoreId) (k : Ctx) (f : FmtM),
    s.ready c k (encM 0x30 f) → f.flags.getLsbD 0 = true → f.flags.getLsbD 1 = true → s.calm c k →
    (s.core c).slots.length + (s.core c).cpys.length < 16 → checkStopped c k 1 s (exec (.cpy c k f) s)

/-- O19. SIG raises its counter or sends one SIGNAL; WAIT issues at VALUE and otherwise only shows itself waiting. A
ready SIG for a counter of the own core, with VALUE 1 to 255 and no column of the context on its way, raises that
counter by VALUE, clamped at 65,535 (clamp counted), names this core as its last source, and changes no other
counter; one for a counter of another core sends exactly one SIGNAL packet and changes no counter, or is only
counted off while a replay suppresses it. A ready WAIT (held fewer than 16 cycles, so no trace event) whose counter
holds VALUE goes on, subtracting VALUE if CONSUME is 1; one whose counter holds less changes nothing but the wait
registers of its context, and only when they show none. A WAIT that issues in the cycle in which its counter takes
the change of the local SIG before it is judged on the value that this SIG found; with CONSUME 1 the increment less
VALUE is one change of that value, and SYNC_CLAMP counts it once if it is clamped, the SIG's own clamp not counting
(that the SIG's change shows before the WAIT joins it is the model's, note 190). -/
def Obligations.SignalsAndWaits : Prop :=
  ∀ (s : State) (c : CoreId) (k : Ctx) (f : FmtY) (x : Core) (t : CtxState) (i : Fin 64),
    s.core c = x → x.ctx k = t → t.pc.toNat < 1023 → f.rsv = 0 → i.val = f.ctr.toNat →
    (s.ready c k (encY 0x38 f) → (∀ g ∈ x.arrayQ, g.ctx ≠ k) → 1 ≤ f.value.toNat → f.value.toNat ≤ 255 → f.consume = 0 →
      (f.remote = 0 → f.abase = 0 →
        ∃ s', exec (.sig c k f) s = .next s' ∧ ctxMoved c k (t.pc + 1) s s' ∧
          s'.core c = { x with
            ctxs := (s'.core c).ctxs, last := some k, pace := (s'.core c).pace, ctrs := (s'.core c).ctrs, errs := (s'.core c).errs
            checkpoints := (s'.core c).checkpoints } ∧
          (s'.core c).syncCtr i = { (x.syncCtr i) with
            value := BitVec.ofNat 16 (min 65535 ((x.syncCtr i).value.toNat + f.value.toNat))
            sat := (x.syncCtr i).sat || decide (65535 < (x.syncCtr i).value.toNat + f.value.toNat)
            clamped := decide (65535 < (x.syncCtr i).value.toNat + f.value.toNat)
            src := some (s.coreEnd c), local_ := true } ∧
          (∀ j, j ≠ i → (s'.core c).syncCtr j = x.syncCtr j) ∧
          (if 65535 < (x.syncCtr i).value.toNat + f.value.toNat then coreCounted x (s'.core c) jSyncClamp 1
            else (s'.core c).errs = x.errs)) ∧
      (∀ (d : CoreId) (j : Fin 64), f.remote = 1 → f.ctr = 0 → f.abase.toNat % 2 = 0 →
        s.ctrTarget (pairAddr t f) = some (d, j) → ¬(d = c ∧ addrModule (pairAddr t f) = s.coord) →
        (t.skipSig = 0 →
          ∃ s', exec (.sig c k f) s = .next s' ∧
            s' = { s with
              cores := s'.cores
              inFlight := s.inFlight ++ [{ kind := .signal, addr := pairAddr t f, sigVal := f.value.setWidth 8
                                           tag := s.coreEnd c, slot := 31, src := s.coreEnd c }] } ∧
            (∀ e, e ≠ c → s'.core e = s.core e) ∧ otherCtxsSame c k s s' ∧
            (s'.core c).ctx k = { t with pc := t.pc + 1, waiting := none } ∧
            s'.core c = { x with ctxs := (s'.core c).ctxs, last := some k, pace := (s'.core c).pace, checkpoints := (s'.core c).checkpoints }) ∧
        (0 < t.skipSig →
          ∃ s', exec (.sig c k f) s = .next s' ∧ onlyCore c s s' ∧ otherCtxsSame c k s s' ∧
            (s'.core c).ctx k = { t with pc := t.pc + 1, waiting := none, skipSig := t.skipSig - 1 } ∧
            s'.core c = { x with ctxs := (s'.core c).ctxs, last := some k, pace := (s'.core c).pace }))) ∧
    (∀ held : WaitIn, s.ready c k (encY 0x39 f) → f.abase = 0 → f.remote = 0 → held.held < 16 →
      (x.sigJoined i held.joined = none → f.value.toNat ≤ (x.syncCtr i).value.toNat →
        ∃ s', exec (.wait c k f held) s = .next s' ∧ ctxMoved c k (t.pc + 1) s s' ∧
          s'.core c = { x with
            ctxs := (s'.core c).ctxs, last := some k, pace := (s'.core c).pace, ctrs := (s'.core c).ctrs, checkpoints := (s'.core c).checkpoints } ∧
          (s'.core c).syncCtr i = { (x.syncCtr i) with
            value := if f.consume = 1 then (x.syncCtr i).value - f.value else (x.syncCtr i).value
            clamped := if f.consume = 1 then false else (x.syncCtr i).clamped } ∧
          ∀ j, j ≠ i → (s'.core c).syncCtr j = x.syncCtr j) ∧
      (∀ m v, x.sigJoined i held.joined = some m → f.value.toNat ≤ m.before.value.toNat →
        m.before.value.toNat + m.inc - f.value.toNat = v →
        ∃ s', exec (.wait c k f held) s = .next s' ∧ ctxMoved c k (t.pc + 1) s s' ∧
          s'.core c = { x with
            ctxs := (s'.core c).ctxs, last := some k, pace := (s'.core c).pace, ctrs := (s'.core c).ctrs, errs := (s'.core c).errs
            checkpoints := (s'.core c).checkpoints } ∧
          (f.consume = 0 → (s'.core c).ctrs = x.ctrs ∧ (s'.core c).errs = x.errs) ∧
          (f.consume = 1 →
            (s'.core c).syncCtr i = { m.before with
              value := BitVec.ofNat 16 (min 65535 v), sat := m.before.sat || decide (65535 < v), clamped := decide (65535 < v)
              src := (x.syncCtr i).src, local_ := (x.syncCtr i).local_ } ∧
            (Sparse.look {} x.errs jSyncClamp = m.clamps.add 1 →
              Sparse.look {} (s'.core c).errs jSyncClamp = if 65535 < v then m.clamps.add 1 else m.clamps)) ∧
          ∀ j, j ≠ i → (s'.core c).syncCtr j = x.syncCtr j) ∧
      (x.waitValue i held.joined < f.value.toNat →
        ∃ s', exec (.wait c k f held) s = .next s' ∧ onlyCore c s s' ∧ otherCtxsSame c k s s' ∧
          s'.core c = { x with ctxs := (s'.core c).ctxs } ∧
          (s'.core c).ctx k = { t with
            waiting := if t.waiting.isSome then t.waiting else some (f.ctr, f.value, s.beat) }))

/-- O20. BEAT ends the context's stroke, END ends the context, and only BEAT measures the fence margin. A ready BEAT
with all fields 0 and no column of the context on its way ends the context's stroke: it no longer runs, N rises by
one, it is no longer held over; FENCE_MARGIN is set if fewer than LATE_MARGIN reference cycles are left before the
boundary window, and the beat's smallest margin is kept unless it is a rest beat. A ready END whose context owns no
open bank ends the context and its stroke; it stays at its index and measures no margin (the model's choices, notes
169 and 157). Either clears the core's replay when every enabled context that has not ended is level with T
afterwards; nothing else changes. -/
def Obligations.FencesEndStrokes : Prop :=
  ∀ (s : State) (c : CoreId) (k : Ctx) (f : FmtY) (x : Core) (t : CtxState),
    s.core c = x → x.ctx k = t → f.abase = 0 → f.ctr = 0 → f.consume = 0 → f.remote = 0 → f.rsv = 0 → f.value = 0 →
    (∀ g ∈ x.arrayQ, g.ctx ≠ k) →
    (∀ m, s.ready c k (encY 0x3A f) → t.pc.toNat < 1023 → s.windowAt - s.phase = m →
      ∃ s', exec (.beat c k f) s = .next s' ∧
        s' = { s with
          cores := s'.cores
          fenceMargin := s.fenceMargin || decide (m < s.lateMarginNow.toNat)
          beatMargin := if s.rest then s.beatMargin else some (min (s.beatMargin.getD m) m) } ∧
        (∀ d, d ≠ c → s'.core d = s.core d) ∧ otherCtxsSame c k s s' ∧
        (s'.core c).ctx k = { t with
          pc := t.pc + 1, waiting := none, running := false, n := t.n + 1, heldSince := none, chain := none } ∧
        s'.core c = { x with
          ctxs := (s'.core c).ctxs
          last := some k
          pace := (s'.core c).pace
          rolling := x.rolling && !(s'.core c).level s.t }) ∧
    (s.ready c k (encY 0x3B f) →
      (∀ b, (x.banks.get b).isOpen = true → (x.banks.get b).owner.toNat ≠ k.val) →
      ∃ s', exec (.endCtx c k f) s = .next s' ∧ onlyCore c s s' ∧ otherCtxsSame c k s s' ∧
        (s'.core c).ctx k = { t with
          waiting := none, ended := true, running := false, n := t.n + 1, heldSince := none, chain := none } ∧
        s'.core c = { x with
          ctxs := (s'.core c).ctxs
          last := some k
          pace := (s'.core c).pace
          rolling := x.rolling && !(s'.core c).level s.t })

/-- O21. BEAT_START begins the next beat: the count rises, the verdict's rest is taken, checkpoints are taken, contexts
start strokes. On a powered module BEAT_START raises the beat count, restarts the phase and the window's steps, lets
the tempo's rest of the old beat pass, makes the beat a rest beat exactly if the verdict was carried out and found a
hold, counts a rest beat, brings the next bus setpoint into force, and raises T by one in RUNNING unless the beat
rests. In RUNNING, at each core with no roll due, exactly those enabled contexts that have neither ended, stopped
nor are still in a stroke and whose N lies below T start one (a roll due keeps its core from it: model's choice,
note 47; T rises in RUNNING only: note 49), and exactly then the core takes a checkpoint, of which it holds the
three newest (with that of a roll under way): of every context the pc, registers, bits, generator, stationary
operand, N and its place in a stroke, the banks, the landed bits, the statistics store, tallies at 0, CPY and SIG
counts at 0 plus what a replay still suppresses (note 36), sealed if the old beat's parts were; a context that a
roll restored inside its stroke goes on with it; one that owns an open bank of age 3 is check-stopped (CHECK names
the highest such context with code 8: note 145), and the open banks of every other started context age by one, other
banks stay. Of other contexts, and in other states, only the wait registers may change, which show a standing WAIT
with the beat it began in, that of a context that overran too, and nothing otherwise. The stacks keep everything but
landing entries of aborted transfers of other modules. -/
def Obligations.BeatStartAdvances : Prop :=
  ∀ (s : State), s.powered = true → Sparse.wf Core.fresh s.cores = true →
    ∃ s', exec .beatStart s = .next s' ∧
      s'.beat = s.beat + 1 ∧ s'.phase = 0 ∧ s'.windowDone = [] ∧ s'.refTime = s.refTime + (s.tempoNow - s.phase) ∧
      s'.rest = (s.restNext && s.windowDone.contains .verdict) ∧
      s'.t = (if s.deviceState.vote.toNat = 4 ∧ s'.rest = false then s.t + 1 else s.t) ∧
      s'.fenceMargin = false ∧ s'.lateMarginNow = s.lateMargin ∧ s'.tympan.busSet = s.tympan.busNext ∧
      s'.forever = (if s'.rest then
        Sparse.put 0 s.forever 0x80 (Sparse.look 0 s.forever 0x80 + 1) else s.forever) ∧
      s'.deviceState = s.deviceState ∧ s'.counters = s.counters ∧
      (∀ h, s'.stack h = { s.stack h with landing := (s'.stack h).landing } ∧
        (s'.stack h).landing.Sublist (s.stack h).landing ∧
        ∀ e ∈ (s.stack h).landing, e.aborted = false ∨ e.tag.module = s.coord → e ∈ (s'.stack h).landing) ∧
      (∀ c k w,
        w = (if (((s.core c).ctx k).running = true ∨ ((s.core c).ctx k).overran = true) ∧ (s.core c).atWait k = true then
            some ((fieldsY ((s.core c).fetch k)).ctr, (fieldsY ((s.core c).fetch k)).value,
              match ((s.core c).ctx k).waiting with | some v => v.2.2 | none => s.beat)
          else none) →
        (s.deviceState.vote.toNat ≠ 4 ∨ (s.core c).roll.isNone = false ∨
            (¬strokeDue (s.core c) k s'.t ∧ ((s.core c).ctx k).resume = false) →
          (s'.core c).ctx k = { (s.core c).ctx k with waiting := w }) ∧
        (s.deviceState.vote.toNat = 4 → (s.core c).roll.isNone = true → ((s.core c).ctx k).resume = true →
          (s'.core c).ctx k = { (s.core c).ctx k with running := true, resume := false, waiting := w }) ∧
        (s.deviceState.vote.toNat = 4 → strokeDue (s.core c) k s'.t → ∀ old, (old = true ↔ chainTooOld (s.core c) k) →
          (s'.core c).ctx k =
            { (s.core c).ctx k with
              running := true, chain := some [], statAtStart := (s.core c).stat, stopped := old
              waiting := none })) ∧
      (∀ c b v, (s.core c).banks.get b = v →
        (s.deviceState.vote.toNat = 4 → v.isOpen = true → strokeDue (s.core c) (Fin.ofNat 4 v.owner.toNat) s'.t →
          ¬chainTooOld (s.core c) (Fin.ofNat 4 v.owner.toNat) → (s'.core c).banks.get b = { v with age := v.age + 1 }) ∧
        (s.deviceState.vote.toNat ≠ 4 ∨ v.isOpen = false ∨ ¬strokeDue (s.core c) (Fin.ofNat 4 v.owner.toNat) s'.t ∨
          chainTooOld (s.core c) (Fin.ofNat 4 v.owner.toNat) → (s'.core c).banks.get b = v)) ∧
      (∀ c k, s.deviceState.vote.toNat = 4 → strokeDue (s.core c) k s'.t → chainTooOld (s.core c) k →
        (∀ j, k < j → ¬(strokeDue (s.core c) j s'.t ∧ chainTooOld (s.core c) j)) →
        (s'.core c).check = BitVec.ofNat 32 (8 + k.val * 2 ^ 8 + ((s.core c).ctx k).pc.toNat * 2 ^ 10)) ∧
      (∀ c x, s.core c = x →
        (s.deviceState.vote.toNat = 4 → (∃ k, strokeDue x k s'.t) → ∃ ck, (s'.core c).ckptSeq = x.ckptSeq + 1 ∧
          lastN 3 (s'.core c).checkpoints = lastN 3 (x.checkpoints ++ [ck]) ∧
          (x.rolling = false → (s'.core c).checkpoints = lastN 3 (x.checkpoints ++ [ck])) ∧
          ck = { seq := x.ckptSeq + 1, beat := s.beat + 1, ctxs := ck.ctxs, banks := x.banks, cpys := ck.cpys, sigs := ck.sigs
                 tallies := [], landed := x.landed, stat := x.stat, isSealed := s.windowDone.contains .sealing } ∧
          ∀ k t, x.ctx k = t → ck.ctxs.get k =
              { pc := t.pc, regs := t.regs, enabled := t.enabled, ended := t.ended, dither := t.dither
                station := t.station, n := t.n, marks := t.marks, within := t.running || t.resume
                statAtStart := t.statAtStart } ∧ ck.cpys.get k = t.skipCpy ∧ ck.sigs.get k = t.skipSig) ∧
        (s.deviceState.vote.toNat ≠ 4 ∨ (∀ k, ¬strokeDue x k s'.t) →
          (s'.core c).checkpoints = x.checkpoints ∧ (s'.core c).ckptSeq = x.ckptSeq))

/-- O22. STROKE_ISSUE_CLOSE holds over the contexts at an unmet WAIT and halts the job for the others in a stroke. When
due, STROKE_ISSUE_CLOSE leaves every context alone that is at its fence (neither in a stroke nor check-stopped),
that was found an overrun before, or whose core has a roll due. Of the others one that stands at an unmet WAIT, and
was not held over for five beats already, is held over from the beat it was first held; every other one is an
overrun and runs no more, found so once. The model's choices are: that this happens in every device state (note 12),
that an overrun context runs no more (note 50), and that a core with a roll due is not judged (note 47). With no
overrun the device state and the error counters of the module stay. With one in RUNNING the module halts in this
beat with cause 2 and the first overrun's context and core in HALT_CAUSE, and OVERRUN counts every one. -/
def Obligations.IssueCloseFindsOverruns : Prop :=
  ∀ (s : State), s.dueIn 0 .close → Sparse.wf Core.fresh s.cores = true →
    ∃ s', exec .strokeIssueClose s = .next s' ∧
      (∀ c k, (s'.core c).ctx k =
        if (s.core c).roll.isNone = true ∧ ((s.core c).ctx k).overran = false ∧
            ((((s.core c).ctx k).running = true ∧ ((s.core c).ctx k).ended = false) ∨ ((s.core c).ctx k).stopped = true) then
          if (s.core c).isHeld s.beat k = true then
            { (s.core c).ctx k with heldSince := some (((s.core c).ctx k).heldSince.getD s.beat) }
          else { (s.core c).ctx k with running := false, heldSince := none, overran := true }
        else (s.core c).ctx k) ∧
      (s.overruns = [] → s'.deviceState = s.deviceState ∧ s'.haltCause = s.haltCause ∧ s'.counters = s.counters) ∧
      (∀ key k rest, s.overruns = (key, k) :: rest → s.deviceState.vote.toNat = 4 →
        s'.deviceState = Triple.all 5 ∧
        s'.haltCause = BitVec.ofNat 32 (2 + k.val * 2 ^ 4 + key % 960 * 2 ^ 6 + key / 960 * 2 ^ 16) ∧
        s'.haltBeat = BitVec.ofNat 64 s.beat ∧ counted s s' 1 (rest.length + 1))

/-- O23. JOURNAL_COMMIT files each working core's beat record, JOURNAL_SEAL seals the records of the beat. When due,
JOURNAL_COMMIT puts into slot (beat mod 16) of every core that is in use a record of the beat, its T, whether it
rests, and the landings and the overflow mark logged so far, not sealed; every other record and every other field of
the core stays; and, if the stack beside the core's slab is up, the request that writes the record into the journal
area takes an entry of it or waits there. So does the request that writes the header of the record of every core not
in use (behind all others and in order of index, by the model's choice: note 192), at least of a stack that has none
of an earlier beat left. A stack that is not up is asked for nothing. JOURNAL_SEAL, when due, seals every record of
the present beat, that of the cores nothing landed in among them, and changes no other record. Outside the cores
both mark their step done at their cycle; the commit also keeps the beat for cores nothing landed in, and touches no
stack but its requests, those that still wait and the CRC lines fetched for them. -/
def Obligations.JournalCommitAndSeal : Prop :=
  ∀ (s : State), Sparse.wf Core.fresh s.cores = true →
    (s.dueIn 0 .commit →
      ∃ s', exec .journalCommit s = .next s' ∧
        s' = { s.atCycle 0 .commit with
          cores := s'.cores, hbmStacks := s'.hbmStacks, beatLog := lastN 16 (s.beatLog ++ [(s.beat, s.t, s.rest, false)]) } ∧
        (∀ h, s'.stack h = { s.stack h with
          reqs := (s'.stack h).reqs, reqPeak := (s'.stack h).reqPeak, crcLines := (s'.stack h).crcLines
          waiting := (s'.stack h).waiting, unlisted := (s'.stack h).unlisted } ∧
          ((s.stack h).up = false → s'.stack h = s.stack h)) ∧
        (∀ c h, s.core c = Core.fresh → stackAt (slabOf c) = some h → (s.stack h).up = true → (s.stack h).unlisted = [] →
          Request.region true (recordAt (s.beat % 16) (slabIndex c)) 1 ∈ (s'.stack h).reqs.map (·.req) ∨
            ∃ r ∈ (s'.stack h).unlisted, r.slot = s.beat % 16 ∧ r.next ≤ slabIndex c ∧ slabIndex c ∉ r.skip) ∧
        (∀ c h, s.core c ≠ Core.fresh → stackAt (slabOf c) = some h → (s.stack h).up = true →
          ∃ n, Request.region true (recordAt (s.beat % 16) (slabIndex c)) n ∈
            (s'.stack h).waiting ++ (s'.stack h).reqs.map (·.req)) ∧
        ∀ c, s'.core c = { s.core c with records := (s'.core c).records } ∧
          (s.core c ≠ Core.fresh → ∀ i, Sparse.look noRecord (s'.core c).records i =
            if i = s.beat % 16 then
              { beat := s.beat, t := s.t, rest := s.rest, isSealed := false, logFull := (s.core c).logFull
                entries := (s.core c).landLog }
            else Sparse.look noRecord (s.core c).records i)) ∧
    (s.dueIn 24 .sealing →
      ∃ s', exec .journalSeal s = .next s' ∧ s' = { s.atCycle 24 .sealing with cores := s'.cores, beatLog := s'.beatLog } ∧
        s'.beatLog = s.beatLog.map (fun b => if b.1 = s.beat then (b.1, b.2.1, b.2.2.1, true) else b) ∧
        ∀ c, s'.core c = { s.core c with records := (s'.core c).records } ∧
          (Sparse.wf noRecord (s.core c).records = true → ∀ i r, Sparse.look noRecord (s.core c).records i = r →
            Sparse.look noRecord (s'.core c).records i =
              if r.beat = s.beat ∧ r ≠ noRecord then { r with isSealed := true } else r))

/-- O24. HOLD_SAMPLE samples the nine sources and sends one tagged hold; HOLD_VERDICT decides the next beat. When due,
HOLD_SAMPLE writes HOLD_SOURCES: roll, copy lag, fence margin, power, forced, halted, knell, silent neighbour, lost
alignment, from bit 0; the module is holding exactly if one is active, and then a hold tagged with this beat is
known to it and, unless a hold of this tag was known before, goes out on every trained port that is not under test,
after every message pending; in beats d and d + 1 of a running or halted job (the model's choice of the states: note
44) every used port that is not under test is also given the message of the downbeat and the digest (their places in
its body are the model's choice: note 37). HOLD_VERDICT, when due, marks the next beat a rest beat exactly if a hold
tagged with the beat before this one is known. In beat d + 1 of a running job it halts the module with cause 4 if
some used port has not brought the same downbeat and digest; of a job that halted in this reference cycle with a
higher cause it makes the cause 4; otherwise device state and cause stay. -/
def Obligations.HoldsAndVerdict : Prop :=
  ∀ (s : State),
    (s.dueIn 4 .hold →
      ∃ s' out, exec .holdSample s = .next s' ∧
        (∀ i b, [s.rollHold, s.copyLag, s.fenceMargin, s.powerHold, s.holdForce, s.dev == 5, s.dev == 6, s.silent,
          s.alignLost][i]? = some b → s'.holdSources.getLsbD i = b) ∧
        s'.holdSent = (s'.holdSources != 0) ∧
        s'.sbOut = out ++
          (if s'.holdSources = 0 ∨ s.beat ∈ s.holds then []
            else (allPorts.filter fun p => (s.port p).trained && !(s.port p).loopback).map fun p => .hold p s.beat) ∧
        (¬((s.dev = 4 ∨ s.dev = 5) ∧ (s.beat = s.downbeat ∨ s.beat = s.downbeat + 1)) → out = s.sbOut) ∧
        s.sbOut.Sublist out ∧
        ((s.dev = 4 ∨ s.dev = 5) ∧ (s.beat = s.downbeat ∨ s.beat = s.downbeat + 1) → ∀ p, (s.port p).unused = false →
          (s.port p).loopback = false → SbOut.message p 3 (BitVec.ofNat 320 (s.downbeat + s.ownDigest.toNat * 2 ^ 64)) ∈ out) ∧
        (∀ n, n ∈ s'.holds ↔ n ∈ s.holds ∨ (s'.holdSources ≠ 0 ∧ n = s.beat)) ∧
        s'.deviceState = s.deviceState ∧ s'.cores = s.cores ∧ s'.hbmStacks = s.hbmStacks ∧ s'.ports = s.ports ∧
        s'.phase = s.windowAt + 4 ∧ s'.windowDone = .hold :: s.windowDone) ∧
    (s.dueIn 36 .verdict →
      ∃ s', exec .holdVerdict s = .next s' ∧
        (s'.restNext = true ↔ 0 < s.beat ∧ s.beat - 1 ∈ s.holds) ∧
        s'.cores = s.cores ∧ s'.ports = s.ports ∧ s'.windowDone = .verdict :: s.windowDone ∧
        ∀ miss : Prop, (miss ↔ s.beat = s.downbeat + 1 ∧
            ∃ p, (s.port p).unused = false ∧ (s.port p).downbeat ≠ some (BitVec.ofNat 64 s.downbeat, s.ownDigest)) →
          (s.dev = 4 → miss → s'.deviceState = Triple.all 5 ∧ s'.haltCause = 4 ∧ s'.haltBeat = BitVec.ofNat 64 s.beat) ∧
          (s.dev = 5 → miss → s.haltTime = s.refTime + (s.windowAt + 36 - s.phase) → s'.deviceState = s.deviceState ∧
            s'.haltCause = if 4 < s.haltCause.toNat % 16 then 4 else s.haltCause) ∧
          (¬(miss ∧ (s.dev = 4 ∨ (s.dev = 5 ∧ s.haltTime = s.refTime + (s.windowAt + 36 - s.phase)))) →
            s'.deviceState = s.deviceState ∧ s'.haltCause = s.haltCause))

/-- O25. The boundary snapshot, the copy-lag check and the temperature reading. When due, BOUNDARY_SNAPSHOT captures the
counters and STATUS_SUMMARY as they stand at c = 8 and changes nothing else. COPY_LAG_CHECK, when due, makes the
COPY_LAG source active exactly if the next beat is no rest beat and a copy that has not landed, or a CPY still to be
read, is DUE in the next stroke beat; nothing else changes. SLAB_TEMP_READ of sixteen slabs of eight sensors keeps
for each slab its hottest sensor, each stack's temperature and the coolant's; a slab at 105 °C (840 units) sets
TRIP, counted when it was clear, TRIP stays while some slab is at 95 °C (760 units) and clears below. The slab rails
may rise to a faster level, in the last beat of a bar only (which beat is the model's choice, note 154), and never
fall. -/
def Obligations.SnapshotLagTemperatures : Prop :=
  ∀ (s : State),
    (s.dueIn 8 .snap →
      exec .boundarySnapshot s = .next { s.atCycle 8 .snap with
        boundary := (s.atCycle 8 .snap).takeCapture
        control := { s.control with summary := s.summary } }) ∧
    (s.dueIn 39 .lag →
      ∃ s', exec .copyLagCheck s = .next s' ∧ s' = { s.atCycle 39 .lag with copyLag := s'.copyLag } ∧
        (s'.copyLag = true ↔ s.restNext = false ∧ ∃ p ∈ s.cores,
          (∃ sl ∈ p.2.slots, sl.due = true ∧ sl.landed = false ∧ sl.issuedT = s.t) ∨ (∃ q ∈ p.2.cpys, q.due = true ∧ q.issuedT = s.t))) ∧
    (∀ m : Temps, s.powered = true → m.slabs.length = 16 → m.hbmStacks.length = 16 → (∀ l ∈ m.slabs, l.length = 8) →
      ∃ s', exec (.slabTempRead m) s = .next s' ∧
        s' = { s with tympan := s'.tympan, hbmStacks := s'.hbmStacks, counters := s'.counters } ∧
        s'.tympan = { s.tympan with
          slabTemp := s'.tympan.slabTemp, inlet := m.inlet, outlet := m.outlet, trip := s'.tympan.trip
          slabLevel := s'.tympan.slabLevel } ∧
        s'.tympan.slabLevel ≤ s.tympan.slabLevel ∧ (s.beat % 100 ≠ 99 → s'.tympan.slabLevel = s.tympan.slabLevel) ∧
        (∀ i l, m.slabs[i]? = some l →
          (∀ v ∈ l, v.toNat ≤ (Sparse.look 0 s'.tympan.slabTemp i).toNat) ∧ Sparse.look 0 s'.tympan.slabTemp i ∈ l) ∧
        (∀ h : StackId, ∃ v, m.hbmStacks[h.val]? = some v ∧ s'.stack h = { s.stack h with temp := v }) ∧
        ((∃ l ∈ m.slabs, ∃ v ∈ l, 840 ≤ v.toNat) → s'.tympan.trip = true ∧
          (if s.tympan.trip then s'.counters = s.counters else counted s s' 12 1)) ∧
        ((∀ l ∈ m.slabs, ∀ v ∈ l, v.toNat < 840) → s'.counters = s.counters ∧
          (s'.tympan.trip = true ↔ s.tympan.trip = true ∧ ∃ l ∈ m.slabs, ∃ v ∈ l, 760 ≤ v.toNat)))

/-- O26. The bus setpoint never rises faster than SLOPE and never passes 11,500 W or 16 A. When due, POWER_STEP keeps
the regulators' reports, enters the bus and Kettle values, the bus power (voltage times current, whole W: note 154)
and the demand (the sum of every report's current times voltage, divided by 0.91) and sets B for the next beat. With
the bus present, no support, a setpoint that is not negative and no current flowing back, B for the next beat is at
least 0, at most B + SLOPE · beat period, at most 11,500 W and at most 16 A times the measured voltage; at most 2 A
times it during soft start, and after it at most 1,500 W until the Kettle has held 40 J. While the bus is lost or
under support it stays; support ends when E reaches the retention part 2,150 W · 100 beats + 31.2 J. While no rail
is up and the Tympan's clock is valid, the step enters the bus and the Kettle and sets B at once: to 2 A times the
bus voltage in the soft start, then to 1,500 W until the Kettle holds 40 J (the most the rule allows: the model's
choice, note 162), after which it stays; nothing else changes. The B in force stays until the next beat. Cores,
stacks and the device state are unchanged. -/
def Obligations.SetpointKeepsItsLimits : Prop :=
  ∀ (s : State) (m : Measure),
    (s.powered = false → s.tympan.refclk = true → ∃ s', exec (.powerStep m) s = .next s' ∧
      s' = { s with tympan := { s.tympan with
        busV := m.busV, busP := s'.tympan.busP, kettleV := m.kettleV, kettleE := m.kettleE, charged := s'.tympan.charged
        busOk := s'.tympan.busOk, busSet := s'.tympan.busSet, busNext := s'.tympan.busSet } } ∧
      (s'.tympan.charged = true ↔ s.tympan.charged = true ∨ 4000 ≤ m.kettleE.toNat) ∧
      (s'.tympan.charged = false → s.tympan.softStart = true → s'.tympan.busSet = 2 * (m.busV.toNat : Rat) / 10) ∧
      (s'.tympan.charged = false → s.tympan.softStart = false → s'.tympan.busSet = 1500) ∧
      (s'.tympan.charged = true → s'.tympan.busSet = s.tympan.busSet)) ∧
    (s.powered = false → s.tympan.refclk = false → exec (.powerStep m) s = .next s) ∧
    (s.dueIn 12 .power → 0 < s.tempoNow →
    ∃ s', exec (.powerStep m) s = .next s' ∧
      s'.tympan.reports = some m ∧ s'.tympan.busV = m.busV ∧
      s'.tympan.busP = BitVec.ofInt 32 ((m.busV.toNat : Rat) * m.busI / 10000).floor ∧ s'.tympan.kettleV = m.kettleV ∧ s'.tympan.kettleE = m.kettleE ∧
      s'.tympan.demand * 91 =
        (m.slabs ++ m.hbmStacks.flatten ++ m.west ++ m.east).foldl
          (fun (a : Rat) r => a + ((r.mA * r.mV : Nat) : Rat) / 1000000) 0 * 100 ∧
      (s'.tympan.busOk = true ↔ 7200 ≤ m.busV.toNat ∧ m.busV.toNat ≤ 8800) ∧
      s'.cores = s.cores ∧ s'.hbmStacks = s.hbmStacks ∧ s'.deviceState = s.deviceState ∧ s'.phase = s.windowAt + 12 ∧
      s'.tympan.busSet = s.tympan.busSet ∧
      (s'.tympan.support = true ↔ s.tympan.support = true ∧
        2150 * (100 * ((s.tempoNow : Rat) / 100000000)) + 312 / 10 < (m.kettleE.toNat : Rat) / 100) ∧
      (s'.tympan.charged = true ↔ s.tympan.charged = true ∨ 4000 ≤ m.kettleE.toNat) ∧
      (s.tympan.busLost = true ∨ s'.tympan.support = true → s'.tympan.busNext = s.tympan.busNext) ∧
      (s.tympan.busLost = false → s'.tympan.support = false → 0 ≤ s.tympan.busSet → 0 ≤ m.busI →
        0 ≤ s'.tympan.busNext ∧
        s'.tympan.busNext ≤ s.tympan.busSet + (s.tympan.slope.toNat : Rat) * 1000 * ((s.tempoNow : Rat) / 100000000) ∧
        s'.tympan.busNext ≤ 11500 ∧ s'.tympan.busNext ≤ 16 * (m.busV.toNat : Rat) / 10 ∧
        (s.tympan.softStart = true → s'.tympan.busNext ≤ 2 * (m.busV.toNat : Rat) / 10) ∧
        (s.tympan.softStart = false → s'.tympan.charged = false → s'.tympan.busNext ≤ 1500)))

/-- O27. The clocks stop at the end of a bar and the next bar begins with its level. When due, MUFFLE_CLOCK_STOP stops
the arithmetic clocks in the last beat of a bar (beat 100·k + 99) and changes nothing else. BAR_BOUNDARY at the
start of a beat that is a multiple of 100 gives the bar its level: in RUNNING the planned level; in the other
states, with no ride-through retained, M7 under a thermal trip (in LOADED too: the model's reading, note 155), else
M6 under stage 1 (in every state: note 116), else in STARTING, LOADED and during a load M0, in READY, HALTED and
KNELL M7; in retention after a rest beat, in RUNNING, the image floor and no slower than M6, in the other states M6,
or M7 under a trip (note 116); the clocks run again unless it is M7; the level left counts one more bar; the rails
follow, not beyond M6, but for a test voltage; and a slab stretched more than 5,000 cycles in the old bar steps its
trim up by one, to at most 5, and TRIM_STEP counts the steps. -/
def Obligations.BarsAndArithmeticClock : Prop :=
  ∀ (s : State),
    (s.dueIn 16 .clock →
      exec .muffleClockStop s = .next { s.atCycle 16 .clock with
        arithStopped := s.arithStopped || decide (s.beat % 100 = 99) }) ∧
    (s.powered = true → s.phase = 0 → WinStep.bar ∉ s.windowDone → s.beat % 100 = 0 →
      ∃ s' l, exec .barBoundary s = .next s' ∧
        s' = { s with
          windowDone := .bar :: s.windowDone, level := BitVec.ofNat 3 l, arithStopped := l == 7
          tympan := s'.tympan, counters := s'.counters, forever := s'.forever } ∧
        l ≤ 7 ∧
        (s.tympan.rideRetain = false → s.dev = 4 → l = s.tympan.planLevel.toNat) ∧
        (s.tympan.rideRetain = false → s.dev ≠ 4 →
          l = if s.tympan.trip = true then 7 else if s.tympan.stage1 = true then 6
            else if s.dev = 1 ∨ s.dev = 3 ∨ s.load.isSome = true then 0 else 7) ∧
        (s.tympan.rideRetain = true → s.tympan.rideRest = true →
          l = if s.dev = 4 then min 6 s.floor.toNat else if s.tympan.trip = true then 7 else 6) ∧
        (∀ i, Sparse.look 0 s'.forever i =
          Sparse.look 0 s.forever i + if i = 0x88 + s.level.toNat then 1 else 0) ∧
        s'.tympan = { s.tympan with
          slabLevel := if s.tympan.testV = true then s.tympan.slabLevel else BitVec.ofNat 3 (min l 6)
          stretched := [], trim := s'.tympan.trim } ∧
        (Sparse.wf 0 s.tympan.stretched = true → ∀ i, (Sparse.look 0 s'.tympan.trim i).toNat =
          if 5000 < Sparse.look 0 s.tympan.stretched i ∧ (Sparse.look 0 s.tympan.trim i).toNat < 5 then
            (Sparse.look 0 s.tympan.trim i).toNat + 1
          else (Sparse.look 0 s.tympan.trim i).toNat) ∧
        (∀ n, n = (s.tympan.stretched.filter fun p =>
            decide (5000 < p.2) && decide ((Sparse.look 0 s.tympan.trim p.1).toNat < 5)).length →
          if n = 0 then s'.counters = s.counters else counted s s' 13 n))

/-- O28. RT_SCRUB rewrites every RT register with its vote and counts one repair for each that differed. On a powered
module RT_SCRUB leaves the device state, IMAGE_VALID, the tempo, the downbeat halves, LAUNCH_COUNT, the job cap and
every semaphore owner with three equal copies of the value they voted before, so that no voted value changes. The
repair counter rises by the number of registers whose copies differed, and is untouched when none did. Nothing else
changes. -/
def Obligations.ScrubRepairsEveryTriple : Prop :=
  ∀ (s : State), s.powered = true → Sparse.wf (Triple.all 0) s.sems = true →
    ∃ s', exec .rtScrub s = .next s' ∧
      s' = { s with
        deviceState := Triple.all s.deviceState.vote, imageValid := Triple.all s.imageValid.vote
        tempo := Triple.all s.tempo.vote, downbeatLo := Triple.all s.downbeatLo.vote
        downbeatHi := Triple.all s.downbeatHi.vote, launchCount := Triple.all s.launchCount.vote
        jobCap := Triple.all s.jobCap.vote, sems := s'.sems, counters := s'.counters } ∧
      (∀ i, Sparse.look (Triple.all 0) s'.sems i = Triple.all (Sparse.look (Triple.all 0) s.sems i).vote) ∧
      (s.rtDiffer = 0 → s'.counters = s.counters) ∧ (s.rtDiffer ≠ 0 → counted s s' 0 s.rtDiffer)

/-- O29. At its downbeat an armed module enters RUNNING with every core as the image set it. At the first edge of beat
d, a module in LOADED that is armed for d enters RUNNING: the launch is no longer armed, the image's tempo holds,
LAUNCH_COUNT rises by one, T is 1, or 0 if the beat rests, and the level is M0, unless thermal stage 1 or a ride-
through in retention has set one, which then stays but goes no slower than the image floor (in the middle of a bar:
the model's reading, note 187). In every core every scalar register of every context is 0, every program counter
stands at its entry point, every AF column holds 0 with no tag, the statistics and the sync counters are 0 and every
bank is closed; exactly the enabled contexts run a stroke, and none if the beat rests. LS, instruction stores,
stacks and counters are unchanged. -/
def Obligations.DownbeatStartsTheJob : Prop :=
  ∀ (s : State) (i : Image), s.powered = true → s.dev = 3 → s.armed = true → s.phase = 0 → s.beat = s.downbeat →
    s.image = some i → Sparse.wf Core.fresh s.cores = true →
    ∃ s', exec .downbeatEntry s = .next s' ∧
      s'.deviceState = Triple.all 4 ∧ s'.armed = false ∧ s'.tempo = Triple.all i.tempo ∧
      s'.launchCount = Triple.all (s.launchCount.vote + 1) ∧
      s'.level = (if s.tympan.stage1 = true ∨ (s.tympan.rideRetain = true ∧ s.tympan.rideRest = true) then
        BitVec.ofNat 3 (min s.level.toNat s.floor.toNat) else 0) ∧
      s'.arithStopped = false ∧
      s'.t = (if s.rest then 0 else 1) ∧ s'.hbmStacks = s.hbmStacks ∧ s'.counters = s.counters ∧ s'.forever = s.forever ∧
      ∀ c, (s'.core c).ls = (s.core c).ls ∧ (s'.core c).instr = (s.core c).instr ∧
        (∀ e j, (s'.core c).afCol e j = ⟨0, .none⟩) ∧ (∀ e, (s'.core c).statEntry e = (0, 0)) ∧
        (∀ j, (s'.core c).syncCtr j = {}) ∧ (∀ b, ((s'.core c).banks.get b).isOpen = false) ∧
        ∀ k, ((s'.core c).ctx k).enabled = ((s.core c).ctx k).enabled ∧
          ((s'.core c).ctx k).pc = ((s.core c).ctx k).entry ∧ (∀ r, ((s'.core c).ctx k).reg r = 0) ∧
          ((s'.core c).ctx k).n = 0 ∧ ((s'.core c).ctx k).running = (((s.core c).ctx k).enabled && !s.rest)

/-- O30. A frame with a new hold tag is relayed once; one that comes after its verdict is counted and halts a running
job. On an aligned module, a frame whose four fragments the port's link frames brought, of a defined message type
from an aligned sender on a trained port that is not under test, whose stamp agrees with the own counters (or whose
port has no measured delay), that carries one new hold tag, for the sender's own beat n (the beat nearest the own
whose low 8 bits it gives): the port is heard in this beat; a tag already known changes nothing else. A tag not
known is kept and sent on at once on every other such port (across to the other die only while a relay path works).
If it came before its verdict, nothing else changes; if after (n + 1 below this beat, or equal to it with the
verdict done or its cycle past), HOLD_LATE counts it and a job in RUNNING halts with cause 3. -/
def Obligations.SidebandFramesCarryHolds : Prop :=
  ∀ (s : State) (p : RPort) (f : SbFrame) (n : Nat),
    s.powered = true → s.aligned = true → (s.port p).trained = true → (s.port p).loopback = false → (s.port p).brought f = true → f.aligned = true → f.msgType.toNat ≤ 7 →
    ((s.port p).delay = 0 ∨ s.stampAgrees (s.port p).delay f = true) → f.holdNew = 1 →
    n % 256 = f.beatLo.toNat → n ≤ s.beat + 128 → s.beat + 128 < n + 256 →
    ∃ s', exec (.sidebandFrame p f) s = .next s' ∧
      (s'.port p).heard = s.beat ∧ (s'.port p).farAligned = true ∧ (∀ q, q ≠ p → s'.port q = s.port q) ∧
      s'.cores = s.cores ∧ s'.beat = s.beat ∧ s'.aligned = true ∧
      (n ∈ s.holds → s' = { s with ports := s'.ports }) ∧
      (n ∉ s.holds →
        s'.holds = s.holds ++ [n] ∧
        s'.sbOut = s.sbOut ++
          (allPorts.filter fun q => (s.port q).trained && !(s.port q).loopback && (q != p && (dieOf q == dieOf p || s.relay != 0))).map
            (fun q => .hold q n) ∧
        ((n + 1 < s.beat ∨ (n + 1 = s.beat ∧ (WinStep.verdict ∈ s.windowDone ∨ s.windowAt + 36 < s.phase))) →
          counted s s' 2 1 ∧ (s.dev = 4 → s'.deviceState = Triple.all 5 ∧ s'.haltCause = 3)) ∧
        (¬(n + 1 < s.beat ∨ (n + 1 = s.beat ∧ (WinStep.verdict ∈ s.windowDone ∨ s.windowAt + 36 < s.phase))) →
          s' = { s with ports := s'.ports, holds := s'.holds, sbOut := s'.sbOut }))

/-- O31. Probes measure the delay, a module in start-up takes a count or elects a root, and 16 agreeing beats align it.
On a powered module and a trained port that is not under test: DELAY_PROBE answers with the next own probe (which
probe answers which is the model's choice: note 39) and, when it echoes the last own probe, sets the link delay to
half of the round trip less the far end's turn-round. The rest happens only while a start-up waits for the
alignment. ALIGN_MESSAGE, while no count is loaded and the delay is known, loads the neighbour's count and phase
with the delay added (rounded to the nearest cycle: the model's choice), its tempo, and one hop more than the
sender's (the model's choice: note 40). ELECT keeps the lowest number heard and sends the lowest one it knows: on
every trained port not under test if that is a new one, else back (the model's choice: note 160). ROOT_ELECTED, when
the own number survived 64 frames on every trained port and no neighbour is aligned, makes the module the root at
beat 0, phase 0. ALIGN_CONFIRM after 16 agreeing beats sets ALIGNED with the largest flood latency over the links of
the torus and their delays (no less than that of an own hop; a hop's cycles are the model's reading: note 150), at
most 4,095 (the cap is the model's choice: note 182), and TEMPO_MIN to the least even number of at least 500 and
latency − 12; step 0x22 is entered as passed, and BOOT_STATUS names step 0x23 with no test running. Cores, stacks
and the device state never change. -/
def Obligations.AlignmentCommands : Prop :=
  ∀ (s : State) (p : RPort), s.powered = true → (s.port p).loopback = false →
    (∀ sent received echo now, (s.port p).trained = true →
      ∃ s', exec (.delayProbe p sent received echo now) s = .next s' ∧
        s' = { s with ports := s'.ports, sbOut := s'.sbOut, sbSince := s'.sbSince } ∧
        posted s s' [.message p 1 (probeBody now now ((s.port p).probesIn + 1))] ∧
        (∀ q, q ≠ p → s'.port q = s.port q) ∧
        s'.port p = { s.port p with
          delay := if (s.port p).probe ≠ 0 ∧ echo = (s.port p).probe then
              BitVec.ofNat 16 (((now - (s.port p).probeSent) - (sent - received)).toNat / 2)
            else (s.port p).delay
          probesIn := (s.port p).probesIn + 1, probeRecv := now, probe := (s.port p).probe + 1, probeSent := now }) ∧
    (∀ count phase tempo hops at_, s.control.booting.isSome = true → (s.port p).trained = true → s.aligned = false → s.counted = false →
      (s.port p).delay ≠ 0 → tempo ≠ 0 → phase.toNat + ((s.port p).delay.toNat + 8) / 16 = at_ →
      ∃ s', exec (.alignMessage p count phase tempo hops) s = .next s' ∧
        s' = { s with
          beat := count.toNat + at_ / tempo.toNat, phase := at_ % tempo.toNat, tempo := Triple.all tempo
          tempoPrev := tempo, rootHops := hops + 1, root := false, counted := true, electing := false, agree := 0
          windowDone := [], mismatchLast := false, ports := s'.ports } ∧
        ∀ q, s'.port q = { s.port q with heard := count.toNat + at_ / tempo.toNat, mismatch := false, strayed := false }) ∧
    (∀ lowest : DWord, s.control.booting.isSome = true → (s.port p).trained = true → s.aligned = false → s.counted = false →
      ∃ s' low, exec (.elect p lowest) s = .next s' ∧
        s' = { s with electing := true, ports := s'.ports, sbOut := s'.sbOut, sbSince := s'.sbSince } ∧
        (∀ q, q ≠ p → s'.port q = s.port q) ∧ (s'.port p).electLow = some low ∧
        low.toNat ≤ lowest.toNat ∧ (∀ v, (s.port p).electLow = some v → low.toNat ≤ v.toNat) ∧
        (low = lowest ∨ (s.port p).electLow = some low) ∧
        (s'.port p).electRun = (if lowest = Config.serial then (s.port p).electRun + 1 else 0) ∧
        posted s s' ((if s'.lowestSeen = s.lowestSeen then [p]
          else allPorts.filter fun q => (s.port q).trained && !(s.port q).loopback).map
          fun q => .message q 6 (s'.lowestSeen.zeroExtend 320))) ∧
    (s.control.booting.isSome = true → s.aligned = false → s.counted = false →
      (∀ q, (s.port q).trained = true → 64 ≤ (s.port q).electRun ∧ (s.port q).farAligned = false) →
      ∃ s', exec .rootElected s = .next s' ∧
        s' = { s with
          beat := 0, phase := 0, root := true, rootHops := 0, counted := true, electing := false, agree := 0
          windowDone := [], mismatchLast := false, ports := s'.ports } ∧
        ∀ q, s'.port q = { s.port q with heard := 0, mismatch := false, strayed := false }) ∧
    (∀ links : List TorusLink, s.control.booting.isSome = true → s.aligned = false → s.counted = true → 16 ≤ s.agree →
      ∃ s', exec (.alignConfirm links) s = .next s' ∧
        s' = { s with aligned := true, alignLost := false, voteSpan := s'.voteSpan, tempoMin := s'.tempoMin, control := s'.control } ∧
        (∀ r second slot entries, s.control.booting = some (r, second, slot, entries) →
          s'.control = { s.control with
            bootStep := 0x23, testsRunning := false
            booting := some ({ r with times := r.times.drop 1 }, second, slot, entries ++ [⟨0x22, 0, 0, 0, r.times.headD 0⟩]) }) ∧
        ∀ v, v = min 4095 (max (floodSpan links) s.ownSpan) →
          s'.voteSpan.toNat = v ∧ s'.tempoMin.toNat % 2 = 0 ∧ 500 ≤ s'.tempoMin.toNat ∧ v ≤ s'.tempoMin.toNat + 12 ∧
          ∀ m, m % 2 = 0 → 500 ≤ m → v ≤ m + 12 → s'.tempoMin.toNat ≤ m)

/-- O32. Downbeat, knell, slack and identity messages, a silent neighbour and a failed relay path. On a powered module:
by a port that is not under test, DOWNBEAT_MESSAGE keeps the first message of a port, and of later ones a message
that differs from the own downbeat stands. KNELL_MESSAGE of another module, not known yet, is recorded and sent on
once on every other trained port that is not under test. POWER_SLACK of another rank (any rank with no image), not
known yet nor of the bar before one known, is kept and sent on the same way; the reports of the other ranks stay,
and of its rank no more than the one of the bar before. IDENT records the far end; a port under test takes none of
them. NEIGHBOUR_SILENT marks a used port that has been silent for more than 2 beats (counted in whole beats: the
model's choice, note 181). RELAY_FAIL puts a working relay path out; with both out the module has a fault of class
0x0A. Nothing else changes; no core, stack or device state ever does, but that a fault may trigger an armed trace. -/
def Obligations.SidebandMessages : Prop :=
  ∀ (s : State) (p : RPort), s.powered = true →
    ((s.port p).loopback = true → ∀ d digest coord serial cause body port place,
      exec (.downbeatMessage p d digest) s = .next s ∧ exec (.knellMessage p coord serial cause) s = .next s ∧
        exec (.powerSlack p body) s = .next s ∧ exec (.ident p serial port place) s = .next s) ∧
    ((s.port p).loopback = false → ∀ d digest, ∃ s', exec (.downbeatMessage p d digest) s = .next s' ∧ onlyPort p s s' ∧
      ((s.port p).downbeat = none → s'.port p = { s.port p with downbeat := some (d, digest) }) ∧
      (∀ v, (s.port p).downbeat = some v → v ≠ (BitVec.ofNat 64 s.downbeat, s.ownDigest) → s'.port p = s.port p) ∧
      ((s.port p).downbeat = some (BitVec.ofNat 64 s.downbeat, s.ownDigest) →
        s'.port p = { s.port p with downbeat := some (d, digest) })) ∧
    (∀ coord serial cause, (s.port p).loopback = false → serial ≠ Config.serial → (coord, serial, cause) ∉ s.faults.knells →
      ∃ s', exec (.knellMessage p coord serial cause) s = .next s' ∧
        s' = { s with
          faults := { s.faults with knells := s.faults.knells ++ [(coord, serial, cause)] }
          sbOut := s'.sbOut, sbSince := s'.sbSince } ∧
        posted s s'
          ((allPorts.filter fun q => (s.port q).trained && !(s.port q).loopback && (q != p && (dieOf q == dieOf p || s.relay != 0))).map
            (fun q => .message q 4 (knellBody coord serial cause.toNat)))) ∧
    (∀ body v, (s.port p).loopback = false → Slack.of body = v → (s.image.isSome = true → v.rank ≠ s.rank) →
      (∀ o ∈ s.tympan.slacks, ¬(o.rank = v.rank ∧ (o.bar = v.bar ∨ o.bar = v.bar + 1))) →
      ∃ s', exec (.powerSlack p body) s = .next s' ∧
        s' = { s with
          tympan := { s.tympan with slacks := s'.tympan.slacks }, sbOut := s'.sbOut, sbSince := s'.sbSince } ∧
        posted s s'
          ((allPorts.filter fun q => (s.port q).trained && !(s.port q).loopback && (q != p && (dieOf q == dieOf p || s.relay != 0))).map
            (fun q => .message q 5 body)) ∧
        v ∈ s'.tympan.slacks ∧
        (∀ o ∈ s.tympan.slacks, o.rank ≠ v.rank → o ∈ s'.tympan.slacks) ∧
        ∀ o, o ∈ s'.tympan.slacks → o = v ∨ (o ∈ s.tympan.slacks ∧ (o.rank ≠ v.rank ∨ o.bar + 1 = v.bar))) ∧
    (∀ serial port place, (s.port p).loopback = false → ∃ s', exec (.ident p serial port place) s = .next s' ∧ onlyPort p s s' ∧
      s'.port p = { s.port p with farSerial := serial, farPort := port, farPlace := place }) ∧
    ((s.port p).trained = true ∨ (s.port p).down = true → (s.port p).unused = false → (s.port p).heard + 2 < s.beat →
      ∃ s', exec (.neighbourSilent p) s = .next s' ∧ onlyPort p s s' ∧ s'.port p = { s.port p with silent := true }) ∧
    (∀ path : Fin 2, s.relay.getLsbD path.val = true →
      ∃ s', exec (.relayFail path) s = .next s' ∧ s'.relay.getLsbD path.val = false ∧
        (∀ i, i ≠ path.val → s'.relay.getLsbD i = s.relay.getLsbD i) ∧
        s' = { s with relay := s'.relay, faults := s'.faults, trace := s'.trace, hbmStacks := s'.hbmStacks } ∧
        (∀ h, s'.stack h = { s.stack h with trace := (s'.stack h).trace }) ∧
        (s'.relay ≠ 0 → s' = { s with relay := s'.relay }) ∧
        (s'.relay = 0 → s'.faults.lastFault = 0x0A ∧ s'.faults.lastBeat = BitVec.ofNat 64 s.beat))

/-- O33. A good next frame is taken in and acknowledged, any other asks for a re-send; the third retrain brings a port
down. On a trained port, not under test, of a powered module: LINK_FRAME counts corrected symbols and bad codewords;
a frame whose CRC checks, with no bad codeword and the next SEQ, advances SEQ, ends a retrain, lets acknowledged
packets go, and takes its credits: returned adaptive ones first pay what waiting flits owe, the rest rises to at
most 64, escape buffers to at most 4; its fragment joins the sideband frame, its flits join those under way on their
channel, and the packets now whole are received in order; nothing else of the port changes, and a NAK in it has the
kept frames sent again, counted; any other frame delivers nothing and a NAK goes out. PORT_RETRAIN counts RETRAIN
and the frames sent again (at most 256); the third in a row with no accepted frame makes the port DOWN: it holds no
packet and no credit, each packet it held is a LINK_DROP, and those received whole before stay. LINK_TRAINING of an
untrained port that passed its field test gives it the far end, a new sequence, 64 adaptive credits and 4 escape
buffers, and keeps what it received before; if a lane does not train, the port is DOWN; a port that failed its test,
and any port before the start-up reached step 0x20, stays as it is. Cores, stacks, other ports and the device state
are unchanged, but for landing entries of dropped transfers of other modules. The model's choices are: that a
retrain ends with the next accepted frame, that TRAINED stays set meanwhile, the first SEQ 0 and a DOWN port's zeros
(note 153), what 'three in a row' means (note 51) and that a NAK or a retrain only counts (note 133). -/
def Obligations.ReduitLinkFrames : Prop :=
  ∀ (s : State) (p : RPort), s.powered = true →
    (∀ raw bad corrected unacked acked, (s.port p).trained = true → (s.port p).loopback = false →
      ∃ s', exec (.linkFrame p raw bad corrected unacked acked) s = .next s' ∧
        s' = { s with ports := s'.ports, counters := s'.counters } ∧ (∀ q, q ≠ p → s'.port q = s.port q) ∧
        Sparse.look {} s'.counters (0x200 + 0x10 * p.val + 1) =
          (Sparse.look {} s.counters (0x200 + 0x10 * p.val + 1)).add corrected ∧
        Sparse.look {} s'.counters (0x200 + 0x10 * p.val + 2) =
          (Sparse.look {} s.counters (0x200 + 0x10 * p.val + 2)).add bad ∧
        (frameCrc raw = true ∧ bad = 0 ∧ frameSeq raw = (s.port p).seqNext.toNat →
          Sparse.look {} s'.counters (0x200 + 0x10 * p.val) = (if frameNak raw then
            (Sparse.look {} s.counters (0x200 + 0x10 * p.val)).add (min unacked 256)
            else Sparse.look {} s.counters (0x200 + 0x10 * p.val)) ∧
          ∀ q paid onAdaptive onEscape frag, s.port p = q → paid = min q.owed (frameAdaptive raw) →
            takeWhole 16 (q.rxAdaptive ++ frameFlits raw 1) = onAdaptive →
            takeWhole 16 (q.rxEscape ++ frameFlits raw 2) = onEscape → (raw.drop 24).take 16 = frag →
            s'.port p = { q with
              seqNext := q.seqNext + 1, ackedSeq := BitVec.ofNat 12 (frameAck raw), nak := false
              retraining := false, retrains := 0
              owed := q.owed - paid, adaptive := min 64 (q.adaptive + (frameAdaptive raw - paid))
              escape := min 4 (q.escape + frameEscape raw), dry := if frameEscape raw = 0 then q.dry else none
              frags := if frameFrag raw = 0 then [frag]
                else if frameFrag raw = q.frags.length then q.frags ++ [frag] else []
              rxAdaptive := onAdaptive.2, rxEscape := onEscape.2
              rx := q.rx ++ (onAdaptive.1 ++ onEscape.1).filter fun bs => (packetOf bs).isSome
              tx := q.tx.drop acked }) ∧
        (¬(frameCrc raw = true ∧ bad = 0 ∧ frameSeq raw = (s.port p).seqNext.toNat) →
          s'.port p = { s.port p with nak := true } ∧
          Sparse.look {} s'.counters (0x200 + 0x10 * p.val) = Sparse.look {} s.counters (0x200 + 0x10 * p.val))) ∧
    (∀ unacked, (s.port p).trained = true →
      ∃ s', exec (.portRetrain p unacked) s = .next s' ∧ (∀ q, q ≠ p → s'.port q = s.port q) ∧
        (s.mapsOk → landingsOnly s s') ∧ s'.deviceState = s.deviceState ∧
        Sparse.look {} s'.counters (0x200 + 0x10 * p.val + 3) =
          (Sparse.look {} s.counters (0x200 + 0x10 * p.val + 3)).add 1 ∧
        ((s.port p).retrains < 2 →
          s' = { s with ports := s'.ports, counters := s'.counters } ∧
          s'.port p = { s.port p with retraining := true, retrains := (s.port p).retrains + 1 } ∧
          Sparse.look {} s'.counters (0x200 + 0x10 * p.val) =
            (Sparse.look {} s.counters (0x200 + 0x10 * p.val)).add (min unacked 256)) ∧
        (2 ≤ (s.port p).retrains →
          s'.port p = { s.port p with
            trained := false, retraining := false, down := true, delay := 0, tx := [], adaptive := 0, owed := 0, escape := 0
            rxAdaptive := [], rxEscape := [], frags := [] } ∧
          Sparse.look {} s'.counters (0x200 + 0x10 * p.val + 4) =
            (List.range (s.port p).tx.length).foldl (fun e _ => e.add 1)
              (Sparse.look {} s.counters (0x200 + 0x10 * p.val + 4)))) ∧
    (∀ serial port half allLanes, (s.port p).trained = false →
      ((s.port p).failed = true ∨ s.control.stopped = true ∨ s.control.bootStep.toNat < 0x20 →
        exec (.linkTraining p serial port half allLanes) s = .next s) ∧
      ((s.port p).failed = false → s.control.stopped = false → 0x20 ≤ s.control.bootStep.toNat →
        ∃ s', exec (.linkTraining p serial port half allLanes) s = .next s' ∧ (∀ q, q ≠ p → s'.port q = s.port q) ∧
        (s.mapsOk → landingsOnly s s') ∧ s'.deviceState = s.deviceState ∧
        (allLanes = true → s' = { s with ports := s'.ports } ∧ s'.port p = { s.port p with
          trained := true, retraining := false, down := false, halfRate := half, farSerial := serial, farPort := port
          farPlace := none, farAligned := false, delay := 0, adaptive := 64, owed := 0, escape := 4, dry := none, seqNext := 0
          ackedSeq := 0, nak := false, retrains := 0, frags := [], rxAdaptive := [], rxEscape := [], tx := [], probe := 0
          probesIn := 0, electLow := none, electRun := 0, heard := s.beat }) ∧
        (allLanes = false → s'.port p = { s.port p with
          trained := false, retraining := false, down := true, delay := 0, tx := [], adaptive := 0, owed := 0, escape := 0
          rxAdaptive := [], rxEscape := [], frags := [] })))

/-- O34. A mesh flit is sent again up to three times; a fourth failure in a row makes the link a failed link. On a
powered module, for a link (of one plane) that works and a flit on the packet's channel (XY for what a core or a
port die sends, YX for a base die's: note 179): a flit whose copies failed their CRC one to three times before one
checked counts that many re-sends at the core and changes nothing else; one whose first copy checks changes nothing.
One that failed four times or more counts three, makes the link of that plane a failed link, and is a fault of class
0x09 charged to the core, which LAST_FAULT names; a flit of a link that failed already changes nothing. -/
def Obligations.MeshFlitRetries : Prop :=
  ∀ (s : State) (c : CoreId) (side : Fin 5) (tries : List FlitTry) (p : Packet) (link fails : Nat),
    s.powered = true → Sparse.wf Core.fresh s.cores = true → (∀ f ∈ tries, f.yx ≠ s.onXY p) →
    link = linkNo (meshLink c.x.val c.y.val side.val (if p.kind = .read then 0 else 1)) →
    fails = (tries.takeWhile fun f => !(f.flit.length == 32 && crc16 f.flit == f.crc)).length →
    (link ∉ s.failedLinks → fails = 0 → exec (.meshFlit c side tries p) s = .next s) ∧
    (link ∉ s.failedLinks → 1 ≤ fails → fails ≤ 3 →
      ∃ s', exec (.meshFlit c side tries p) s = .next s' ∧ onlyCore c s s' ∧
        s'.core c = { s.core c with errs := (s'.core c).errs } ∧ coreCounted (s.core c) (s'.core c) jMeshResend fails) ∧
    (link ∉ s.failedLinks → 4 ≤ fails →
      ∃ s', exec (.meshFlit c side tries p) s = .next s' ∧
        s'.failedLinks = s.failedLinks ++ [link] ∧
        Sparse.look {} (s'.core c).errs jMeshResend = (Sparse.look {} (s.core c).errs jMeshResend).add 3 ∧
        s'.faults.lastFault = BitVec.ofNat 32 (9 + c.x.val * 2 ^ 8 + c.y.val * 2 ^ 18) ∧
        s'.faults.lastBeat = BitVec.ofNat 64 s.beat ∧ s'.ports = s.ports) ∧
    (link ∈ s.failedLinks → exec (.meshFlit c side tries p) s = .next s)

/-- O35. A packet is ejected at home, leaves by the minimal port with most credit, or escapes under the bubble rule. On
a powered module, for a packet that a port of the die received: with every dimension complete, any kind but READ
enters the mesh off the escape channel, by way of the die (with its transit row); a READ goes to the ejection buffer
while it holds fewer than 64, else it is refused and counted. A SIG whose turn among its core's SIGs to its counter
has not come waits. A packet on the adaptive channel with a minimal port of this die that sends and has credit
leaves by one with the most credit, which pays one credit per flit, and the packet counts one more hop; no other
port changes but that the received packet is taken. ESCAPE_MOVE takes a waiting packet, while no minimal port of its
die that is not DOWN has adaptive credit, onto the escape channel of its first minimal port when two escape buffers
are free there, and reserves one; short of that the packet stays at the die, off the adaptive channel (marked by an
ESC_DIM of 3, the model's), and TORUS_ROUTE takes it into the ring when two are free. A packet on the escape channel
goes on by its escape port when a buffer is free there (two, where it turns), reserving one, across to the other die
where the port is there; else it waits. A packet all of whose usable minimal ports are on the other die crosses; one
whose minimal ports are all DOWN is dropped, counted, with a FAIL notice unless it is one. A LOOP packet of depth 4
goes back by the link it came on, reserving one escape buffer of at least two (note 153), and after its second link
goes to its test; one of depth 5 goes on along its ring, and back at its source goes to its test (that it is home
when a test of that ring runs at this port is the model's reading, note 55, DEDUCED). -/
def Obligations.TorusRouting : Prop :=
  ∀ (s : State) (d : Die) (p : Packet), s.powered = true →
    (∀ r : RPort, s.atDie d (.port r) p = true → s.sigTurn (.port r) p = true → p.kind ≠ .loop → s.minimal (targetOf p) = [] →
      ∃ s', exec (.torusRoute d (.port r) p) s = .next s' ∧ s'.cores = s.cores ∧ s'.deviceState = s.deviceState ∧
        (∀ o, s'.port o =
          if o = r ∧ (p, .port r) ∉ (s.die d).blocked then { s.port r with rx := removeOne (Packet.wire p) (s.port r).rx } else s.port o) ∧
        (s'.die d).blocked = removeOne (p, .port r) (s.die d).blocked ∧
        (p.kind ≠ .read → s'.counters = s.counters ∧
          s'.inFlight = s.inFlight ++
            [{ p with escape := false, escDim := 0, via := some (d == .east, 1 + (s.die d).rotRep) }]) ∧
        (p.kind = .read → (s.die d).eject.length < 64 →
          (s'.die d).eject = (s.die d).eject ++
            [{ p with escape := false, escDim := 0, via := some (d == .east, 1 + (s.die d).rotReq) }] ∧
          s'.inFlight = s.inFlight ∧ s'.counters = s.counters) ∧
        (p.kind = .read → 64 ≤ (s.die d).eject.length →
          (s'.die d).eject = (s.die d).eject ∧
          s'.inFlight = s.inFlight ++ [{ refuseOf p with via := some (d == .east, 1 + (s.die d).rotRep) }] ∧
          counted s s' (match d with | .west => 0x140 | .east => 0x150) 1)) ∧
    (∀ f, s.sigTurn f p = false → exec (.torusRoute d f p) s = .next s) ∧
    (∀ r : RPort, s.atDie d (.port r) p = true → s.sigTurn (.port r) p = true → p.kind ≠ .loop → p.escape = false →
      (∃ q ∈ s.minimal (targetOf p), dieOf q = d ∧ (s.port q).sends = true ∧ 0 < (s.port q).adaptive) →
      ∃ s' q, exec (.torusRoute d (.port r) p) s = .next s' ∧
        q ∈ s.minimal (targetOf p) ∧ dieOf q = d ∧ (s.port q).sends = true ∧ 0 < (s.port q).adaptive ∧
        (∀ o ∈ s.minimal (targetOf p), dieOf o = d → (s.port o).sends = true → (s.port o).adaptive ≤ (s.port q).adaptive) ∧
        (∀ o v, v = (if o = r ∧ (p, .port r) ∉ (s.die d).blocked then { s.port r with rx := removeOne (Packet.wire p) (s.port r).rx } else s.port o) →
          s'.port o =
            if o = q then
              { v with
                adaptive := v.adaptive - Packet.flits p
                owed := v.owed + (Packet.flits p - v.adaptive)
                tx := v.tx ++ [{ p with hops := p.hops + 1, via := none }] }
            else v) ∧
        s' = { s with ports := s'.ports, west := s'.west, east := s'.east } ∧
        s'.die d = { s.die d with blocked := removeOne (p, .port r) (s.die d).blocked } ∧
        s'.die (otherDie d) = s.die (otherDie d)) ∧
    (∀ (q : RPort) (b : Packet × Arrival), p.escape = false → (s.die d).blocked.find? (fun b => b.1 == p) = some b →
      (s.minimal (targetOf p)).head? = some q → dieOf q = d →
      (∀ o ∈ s.minimal (targetOf p), dieOf o = d → (s.port o).down = false → (s.port o).adaptive = 0) →
      (s.port q).down = false →
      ((s.port q).sends = false ∨ (s.port q).escape < 2 → ∃ s', exec (.escapeMove d p) s = .next s' ∧
        s' = { s with west := s'.west, east := s'.east } ∧ s'.die (otherDie d) = s.die (otherDie d) ∧
        s'.die d = { s.die d with
          blocked := addOnce ({ p with escape := true, escDim := 3 }, b.2) (removeOne b (s.die d).blocked) }) ∧
      ((s.port q).sends = true → 2 ≤ (s.port q).escape → ∃ s', exec (.escapeMove d p) s = .next s' ∧
        (∀ o, o ≠ q → s'.port o = s.port o) ∧
        s'.port q = { s.port q with
          escape := (s.port q).escape - 1
          tx := (s.port q).tx ++ [{ p with hops := p.hops + 1, via := none, escape := true, escDim := BitVec.ofNat 2 (q.val / 2) }] } ∧
        s' = { s with ports := s'.ports, west := s'.west, east := s'.east } ∧
        s'.die d = { s.die d with blocked := removeOne b (s.die d).blocked } ∧ s'.die (otherDie d) = s.die (otherDie d))) ∧
    (∀ r q : RPort, s.atDie d (.port r) p = true → s.sigTurn (.port r) p = true → p.kind ≠ .loop → p.escape = true →
      (s.minimal (targetOf p)).head? = some q → ∀ base : RPort → ReduitPort,
      (∀ o, base o = if o = r ∧ (p, .port r) ∉ (s.die d).blocked then
        { s.port r with rx := removeOne (Packet.wire p) (s.port r).rx } else s.port o) →
      ((s.port q).sends = true → (if r = opposite q ∧ p.escDim ≠ 3 then 1 else 2) ≤ (s.port q).escape → ∃ s', exec (.torusRoute d (.port r) p) s = .next s' ∧
        s' = { s with ports := s'.ports, west := s'.west, east := s'.east } ∧
        (dieOf q = d → s'.die (otherDie d) = s.die (otherDie d) ∧ ∀ o, s'.port o = if o = q then
          { base q with
            escape := (s.port q).escape - 1
            tx := (s.port q).tx ++ [{ p with hops := p.hops + 1, via := none, escape := true, escDim := BitVec.ofNat 2 (q.val / 2) }] }
          else base o) ∧
        (dieOf q ≠ d → (∀ o, s'.port o = if o = q then { base q with escape := (s.port q).escape - 1 } else base o) ∧
          (s'.die (otherDie d)).transit = (s.die (otherDie d)).transit ++
            [{ p with escape := true, escDim := BitVec.ofNat 2 (q.val / 2)
                      via := some (d == .east, 1 + if p.kind = .read then (s.die d).rotReq else (s.die d).rotRep) }])) ∧
      ((s.port q).sends = true → (s.port q).escape < (if r = opposite q ∧ p.escDim ≠ 3 then 1 else 2) → ∃ s', exec (.torusRoute d (.port r) p) s = .next s' ∧
        (∀ o, s'.port o = base o) ∧ (p, .port r) ∈ (s'.die d).blocked)) ∧
    (∀ q : RPort, (s.die d).transit.contains p = true → s.strandedCross p = false → (p, .transit) ∉ (s.die d).blocked →
      s.sigTurn .transit p = true → p.kind ≠ .loop → p.escape = true → p.escDim ≠ 3 →
      (s.minimal (targetOf p)).head? = some q → (s.port q).sends = true → ∃ s', exec (.torusRoute d .transit p) s = .next s' ∧
        s'.die d = { s.die d with transit := removeOne p (s.die d).transit } ∧ (∀ o, o ≠ q → s'.port o = s.port o) ∧
        s'.port q = { s.port q with
          tx := (s.port q).tx ++ [{ p with hops := p.hops + 1, via := none, escape := true, escDim := BitVec.ofNat 2 (q.val / 2) }] }) ∧
    (∀ (f : Arrival) (q : RPort), s.atDie d f p = true → s.sigTurn f p = true → p.kind ≠ .loop → p.escape = false →
      (s.minimal (targetOf p)).head? = some q →
      ((∃ o ∈ s.minimal (targetOf p), (s.port o).down = false) →
        (∀ o ∈ s.minimal (targetOf p), (s.port o).down = false → dieOf o ≠ d) →
        ∃ s' y, exec (.torusRoute d f p) s = .next s' ∧ s'.counters = s.counters ∧ s'.cores = s.cores ∧
          (s'.die (otherDie d)).transit =
            (s.die (otherDie d)).transit ++ [{ Packet.atPort f p with via := some (d == .east, y) }] ∧
          1 ≤ y ∧ (f ≠ .transit → (s'.die d).transit = (s.die d).transit)) ∧
      ((∀ o ∈ s.minimal (targetOf p), (s.port o).down = true) →
        ∃ s', exec (.torusRoute d f p) s = .next s' ∧ counted s s' (0x200 + 0x10 * q.val + 4) 1 ∧
          s'.deviceState = s.deviceState ∧ (p.kind = .fail → s'.cores = s.cores) ∧
          ∃ rest, (f ≠ .mesh → rest = s.inFlight) ∧ (f = .mesh → rest = s.inFlight ∨ rest = (s.leftMesh p).inFlight) ∧
            (p.kind = .fail → s'.inFlight = rest) ∧
            (p.kind ≠ .fail → ∃ w, s'.inFlight = rest ++ [w] ∧ w.kind = .fail ∧ w.tag = p.tag ∧ w.slot = p.slot ∧
              w.src = EndPt.die s.coord d))) ∧
    (∀ r : RPort, s.atDie d (.port r) p = true → p.kind = .loop → p.loopDepth = 4 → p.loopPort.toNat < 6 →
      ∀ base : ReduitPort, base = (if (p, .port r) ∈ (s.die d).blocked then s.port r
        else { s.port r with rx := removeOne (Packet.wire p) (s.port r).rx }) →
      (p.hops = 2 → p.loopPort.toNat = r.val →
        ∃ s', exec (.loopPacket d (.port r) p) s = .next s' ∧ s'.inFlight = s.inFlight ∧
          (∀ o, s'.port o = if o = r then base else s.port o) ∧
          s'.loopTests = s.loopTests.map fun t =>
            if t.target = 1 ∧ t.unit.toNat = r.val ∧ t.depth = 4 then t.returned p else t) ∧
      (p.hops ≠ 2 → (s.port r).sends = true → 2 ≤ (s.port r).escape →
        ∃ s', exec (.loopPacket d (.port r) p) s = .next s' ∧ (∀ o, o ≠ r → s'.port o = s.port o) ∧
          s'.port r = { base with
            escape := (s.port r).escape - 1
            tx := (s.port r).tx ++
              [{ p with hops := p.hops + 1, via := none, escape := true, escDim := BitVec.ofNat 2 (r.val / 2) }] })) ∧
    (∀ r q : RPort, s.atDie d (.port r) p = true → p.kind = .loop → p.loopDepth = 5 → p.loopPort.toNat = q.val →
      ∀ base : RPort → ReduitPort, (∀ o, base o = if o = r ∧ (p, .port r) ∉ (s.die d).blocked then
        { s.port r with rx := removeOne (Packet.wire p) (s.port r).rx } else s.port o) →
      ∀ home : Prop, (home ↔ p.src.module = s.coord ∧ r = opposite q ∧ ∃ t ∈ s.loopTests, t.target = 1 ∧ t.unit.toNat = q.val) →
      (home → ∃ s', exec (.loopPacket d (.port r) p) s = .next s' ∧ s'.inFlight = s.inFlight ∧ (∀ o, s'.port o = base o) ∧
        s'.loopTests = s.loopTests.map fun t =>
          if t.target = 1 ∧ t.unit.toNat = q.val ∧ t.depth = 5 then t.returned p else t) ∧
      (¬home → (s.port q).sends = true → (if p.escape = true ∧ p.escDim ≠ 3 ∧ r = opposite q then 1 else 2) ≤ (s.port q).escape →
        ∃ s', exec (.loopPacket d (.port r) p) s = .next s' ∧ s'.loopTests = s.loopTests ∧
          (∀ o, o ≠ q → s'.port o = base o) ∧ (s'.port q).escape = (s.port q).escape - 1 ∧
          (dieOf q = d → (s'.port q).tx = (s.port q).tx ++
            [{ p with hops := p.hops + 1, via := none, escape := true, escDim := BitVec.ofNat 2 (q.val / 2) }]) ∧
          (dieOf q ≠ d → (s'.port q).tx = (s.port q).tx ∧ ∃ y, (s'.die (otherDie d)).transit = (s.die (otherDie d)).transit ++
            [{ p with escape := true, escDim := BitVec.ofNat 2 (q.val / 2), via := some (d == .east, y) }])))

/-- O36. COPY_REQUEST sends one READ of a ready copy, idle copies last; READ_PACKET answers with exactly the bytes asked
for. On a powered module with a copy that has a request ready, COPY_REQUEST sends exactly one READ, the next request
of one ready copy (an idle copy only if no other is ready), marked if it is the copy's last, and counts it as sent;
no other core and nothing else changes but the round of turns. READ_PACKET at its source, inside the store, to a
block-aligned destination, served, cut off by no failed mesh link, with nothing waiting in the attachment of its
stack and with no failing block, takes the READ from the fabric and sends WRITE packets of the same copy whose data,
in order, are the bytes of the source from the READ's address on, each addressed to the READ's destination as far on
as the data before it, the last of them final, with the copy's signal, exactly if the READ is the copy's last; no
store of the module changes. (That a READ takes its blocks in one step is the model's choice, note 159.) One that
finds an HBM block failing ends with a FAIL of class 0x06 and sends no data. -/
def Obligations.CopyRequestsAndReads : Prop :=
  ∀ (s : State), s.powered = true →
    (∀ c sl0, sl0 ∈ (s.core c).slots → s.slotReady (s.core c) sl0 = true →
      ∃ s' sl r, exec (.copyRequest c) s = .next s' ∧ sl ∈ (s.core c).slots ∧ s.slotReady (s.core c) sl = true ∧
        ((∃ o ∈ (s.core c).slots, s.slotReady (s.core c) o = true ∧ o.idle = false) → sl.idle = false) ∧
        (s.requests (Desc.of sl.desc))[sl.sent]? = some r ∧
        s' = { s with
          cores := s'.cores
          inFlight := s.inFlight ++ [s.readOf (s.coreEnd c) sl.id sl.desc sl.idle r
            (sl.sent + 1 == (s.requests (Desc.of sl.desc)).length)] } ∧
        (∀ d, d ≠ c → s'.core d = s.core d) ∧
        s'.core c = { s.core c with
          slots := (s.core c).slots.map fun o => if o.id = sl.id then { o with sent := o.sent + 1 } else o
          served := (s'.core c).served }) ∧
    (∀ (p : Packet) (pl : Place) (bad : Option Nat), placeOf p.addr = some pl → p.kind = .read → p.blocks ≤ 16 → p.addr2.toNat % 64 = 0 →
      addrModule p.addr = s.coord → s.inStore pl (64 * p.blocks) = true → s.served pl p = true → s.cutOff pl p = false →
      (∀ h o, pl = .hbm h o ∨ pl = .sc h o → (s.stack h).waiting = []) →
      (s.readFails pl p.blocks bad = none →
        ∃ s' ws, exec (.readPacket p bad) s = .next s' ∧ s'.inFlight = removeOne (Packet.plain p) s.inFlight ++ ws ∧
          ws.flatMap (·.data) = s.readPlace pl (64 * p.blocks) ∧
          (∀ w ∈ ws, w.kind = .write ∧ w.tag = p.tag ∧ w.slot = p.slot ∧ w.data.length = 64 * w.blocks ∧
            w.desc = p.desc) ∧
          (∀ pre w post, ws = pre ++ w :: post → w.addr = p.addr2 + BitVec.ofNat 64 (pre.flatMap (·.data)).length) ∧
          (∀ w ∈ ws, w.final = true → w.addr2 = (Desc.of p.desc).sigAddr ∧ w.sigVal = BitVec.ofNat 8 (Desc.of p.desc).sigVal) ∧
          (∀ w ∈ ws.dropLast, w.final = false) ∧ (∀ w, ws.getLast? = some w → w.final = p.last) ∧
          (∀ q n, s'.readPlace q n = s.readPlace q n) ∧ s'.counters = s.counters ∧ s'.deviceState = s.deviceState) ∧
      (∀ h o b, pl = .hbm h o → s.readFails pl p.blocks bad = some (6, b) →
        ∃ s' pre, exec (.readPacket p bad) s = .next s' ∧
          s'.inFlight = pre ++ [failOf p (s.stackEnd h) 6] ∧ (∀ w ∈ pre, w ∈ s.inFlight) ∧
          b ∈ (s'.stack h).hbmBad))

/-- O37. A request takes a kept entry, else a shared one, else waits; a slot serves its owner's oldest request first. On
a powered module, BASE_DIE_ACCEPT of a request of the stack that is no CACHED read, not there yet and not cut off by
a failed mesh link, gives it an entry of a stack that came up, with its blocks and the CRC lines they need to serve,
if no READ of its column waits before it and its class has a kept entry free, or else one of the 912 shared ones is
free (a host request takes no shared entry while the job runs); otherwise the request waits, last in line.
REGULATOR_SLOT moves to the next of the 257 slots; it serves one block or line of one request and of no other, and
none if no class has one pending. With the last one of a request the CRC lines of its blocks are used; a request of
no packet then gives its entry back. Slots 0 to 255 serve the oldest pending request of their owner when it has one,
slot 256 only host requests. Other stacks, cores and memories do not change. (The columns of the attachment, its
turns and the CRC lines held and used without limit are the model's choice, note 130, and that a packet never
offered counts as served is note 35.) -/
def Obligations.BaseDieAndRegulator : Prop :=
  ∀ (s : State) (h : StackId), s.powered = true →
    (∀ (r : Request) (cls : ReqClass) (t : Stack), s.stack h = t → s.forStack h r = true → t.has r = false →
      s.cutOffReq r = false → s.classOf r = cls → (∀ q, s.requestPlace r = some q → q.2 = none) →
      ∃ s', exec (.baseDieAccept h r false) s = .next s' ∧
        s' = { s with hbmStacks := s'.hbmStacks, inFlight := s'.inFlight, west := s'.west, east := s'.east } ∧
        (∀ g, g ≠ h → s'.stack g = s.stack g) ∧
        (∀ kept, t.up = true → firstInColumn t.waiting r = true →
          (if t.keptUsed cls < keptOf cls then kept = true
            else kept = false ∧ t.sharedUsed < 912 ∧ ¬(cls = .host ∧ s.dev = 4)) →
          s'.stack h = { t with
            reqs := t.reqs ++
              [⟨cls, kept, r, reqBlocks r + (t.linesDue (reqSpan r)).length, (reqSpan r).1, (reqSpan r).2⟩]
            reqPeak := max t.reqPeak (t.reqs.length + 1)
            crcLines := t.crcLines ++ (t.linesDue (reqSpan r)).map fun kb => (kb, []) }) ∧
        (t.up = false ∨ firstInColumn t.waiting r = false ∨
            (keptOf cls ≤ t.keptUsed cls ∧ (912 ≤ t.sharedUsed ∨ (cls = .host ∧ s.dev = 4))) →
          s'.stack h = { t with waiting := t.waiting ++ [r] })) ∧
    (∀ t, s.stack h = t →
      (s.slotServes t t.slot = none →
        ∃ s', exec (.regulatorSlot h) s = .next s' ∧ onlyStack h s s' ∧
          s'.stack h = { t with slot := (t.slot + 1) % 257 }) ∧
      (∀ e lines reqs, s.slotServes t t.slot = some e →
        lines = (if e.blocks = 1 then (t.lineUse (e.first, e.count)).crcLines else t.crcLines) →
        reqs = replaceOne e { e with blocks := e.blocks - 1 } t.reqs →
        e ∈ t.reqs ∧ 0 < e.blocks ∧
        (1 < e.blocks ∨ (∃ p, e.req = .packet p) →
          ∃ s', exec (.regulatorSlot h) s = .next s' ∧ onlyStack h s s' ∧
            s'.stack h = { t with slot := (t.slot + 1) % 257, reqs := reqs, crcLines := lines }) ∧
        (e.blocks = 1 → (∀ p, e.req ≠ .packet p) → t.entryOf e.req = some e → t.waiting = [] → t.unlisted = [] →
          ∃ s', exec (.regulatorSlot h) s = .next s' ∧ onlyStack h s s' ∧
            s'.stack h = { t with
              slot := (t.slot + 1) % 257, reqs := removeOne { e with blocks := 0 } reqs, crcLines := lines })) ∧
      (∀ e, t.slot < 256 → t.oldest (s.slotOwner t.slot) = some e → s.slotServes t t.slot = some e) ∧
      (∀ e, t.slot = 256 → s.slotServes t t.slot = some e → e.cls = .host))

/-- O38. Re-reads of HBM are counted, a third failure loses the block and halts the job, and a clean fill is placed and
served. On a powered module: an HBM_READ that fails fewer than three times counts its re-reads and changes no
memory, no core and no device state. One that fails three times counts two re-reads and one loss, marks the block,
answers every uncached READ waiting on it with a FAIL of class 0x06 (with nothing waiting in the attachment no core
changes but by landing entries of their copies), and in RUNNING halts the module with cause 5, the stack showing
LOST. LINE_FILL, with no request waiting in the attachment, once no request of the fill has a block pending, with
every block of the kilobyte good, no write to it since the fill began and a cache part in the image, places a line
with the kilobyte as HBM holds it, ends the fill and sends every waiting request its data; HBM itself does not
change. A fill with one block that fails and that no waiting request reads places no line and loses nothing: two re-
reads are counted, the device state stays, and every waiting request gets its data. -/
def Obligations.HbmReadsAndFills : Prop :=
  ∀ (s : State) (h : StackId), s.powered = true →
    (∀ offset fails, offset < 0x2000000000 →
      (fails = 0 → exec (.hbmRead h offset fails) s = .next s) ∧
      (1 ≤ fails → fails < 3 →
        ∃ s', exec (.hbmRead h offset fails) s = .next s' ∧
          s' = { s with counters := s'.counters, faults := { s.faults with history := s'.faults.history } } ∧
          counted s s' (0x400 + 0x20 * h.val + 1) fails) ∧
      (3 ≤ fails →
        ∃ s', exec (.hbmRead h offset fails) s = .next s' ∧
          offset / 64 ∈ (s'.stack h).hbmBad ∧ (s'.stack h).hbm = (s.stack h).hbm ∧
          ((s.stack h).waiting = [] → s.mapsOk → ∀ c, s'.core c = { s.core c with landing := (s'.core c).landing }) ∧
          Sparse.look {} s'.counters (0x400 + 0x20 * h.val + 1) =
            (Sparse.look {} s.counters (0x400 + 0x20 * h.val + 1)).add 2 ∧
          Sparse.look {} s'.counters (0x400 + 0x20 * h.val + 3) =
            (Sparse.look {} s.counters (0x400 + 0x20 * h.val + 3)).add 1 ∧
          (∀ p ∈ s.readsOver h (offset / 64), failOf p (s.stackEnd h) 6 ∈ s'.inFlight) ∧
          (s.dev = 4 → s'.deviceState = Triple.all 5 ∧ s'.haltCause = 5 ∧ (s'.stack h).lost = true))) ∧
    (∀ kb f, (s.stack h).fills.find? (fun f => f.kb == kb) = some f → f.dirty = false → s.scUnits ≠ 0 →
      (s.stack h).waiting = [] →
      (∀ p ∈ f.waiting, ∀ e, (s.stack h).entryOf (.packet p) = some e → e.blocks = 0) →
      (∀ i, i < 16 → 16 * kb + i ∉ (s.stack h).hbmBad) →
      ∃ s', exec (.lineFill h kb []) s = .next s' ∧
        (⟨kb, Memory.read (s.stack h).hbm (1024 * kb) 1024⟩ : CacheLine) ∈ (s'.stack h).lines ∧
        (s'.stack h).fills = removeOne f (s.stack h).fills ∧ (s'.stack h).hbm = (s.stack h).hbm ∧
        s'.counters = s.counters ∧ s'.deviceState = s.deviceState ∧
        ∀ p ∈ f.waiting, ∀ o, placeOf p.addr = some (.hbm h o) →
          ∀ w ∈ writesOf p (s.stackEnd h) (Memory.read (s.stack h).hbm o (64 * p.blocks)), w ∈ s'.inFlight) ∧
    (∀ (kb : Nat) (f : Fill) (i : Fin 16), (s.stack h).fills.find? (fun f => f.kb == kb) = some f → (s.stack h).waiting = [] →
      (∀ p ∈ f.waiting, ∀ e, (s.stack h).entryOf (.packet p) = some e → e.blocks = 0) →
      (∀ i, i < 16 → 16 * kb + i ∉ (s.stack h).hbmBad) → f.reads (16 * kb + i.val) = false →
      ∃ s', exec (.lineFill h kb [i]) s = .next s' ∧ (s'.stack h).lines = (s.stack h).lines ∧
        (s'.stack h).fills = removeOne f (s.stack h).fills ∧ (s'.stack h).hbm = (s.stack h).hbm ∧
        16 * kb + i.val ∈ (s'.stack h).hbmBad ∧ counted s s' (0x400 + 0x20 * h.val + 1) 2 ∧ s'.deviceState = s.deviceState ∧
        ∀ p ∈ f.waiting, ∀ o, placeOf p.addr = some (.hbm h o) →
          ∀ w ∈ writesOf p (s.stackEnd h) (Memory.read (s.stack h).hbm o (64 * p.blocks)), w ∈ s'.inFlight)

/-- O39. A WRITE is applied and counted, or refused for want of a landing entry; the final write waits for all the
others. On a powered module, for a WRITE that no failed mesh link cuts off and whose address lies in a core's LS
with all its bytes: if its transfer has a landing entry or one of the 32 is free, a packet that is neither final nor
of a peal is written to the LS, byte for byte, and counted in the entry, and a final one is held there and writes
nothing. With no entry free it writes nothing, LAND_RETRY counts it and a REFUSE goes out. FINAL_WRITE_APPLY, once
as many packets were applied as the transfer counts, writes the final write's data, frees the entry, journals the
landing, acknowledges to the issuer, and raises the signalled counter of the same core by the attached value, or,
for a counter of another core, sends one SIGNAL that names the transfer. Every other byte of the LS and every other
core is unchanged, but that the slot of a copy that this module issued is marked as landed and its range is dropped
(there: the model's reading, note 180). In the same way a packet for the statistics store, for HBM (no trigger's and
no REDUCE's bytes) or for the program part of the stack cache is written there, byte for byte, and counted in its
landing entry. An entry of a transfer found aborted here is opened aborted, and a WRITE that begins a transfer of
another module anew finds the entry of the aborted one freed (note 121). -/
def Obligations.WritesLandInTheStore : Prop :=
  (∀ (s : State) (c : CoreId) (x : Core) (p : Packet) (o : Nat), s.powered = true → s.core c = x →
    placeOf p.addr = some (.ls c o) → addrModule p.addr = s.coord → o + p.data.length ≤ 98304 → p.kind = .write →
    p.peal = false → p.pos = 0 → s.stranded p = false →
    (∀ l e, s.entriesFor (.ls c o) p = l →
      (entryIn l p.tag p.slot = some e ∨ (entryIn l p.tag p.slot = none ∧ l.length < 32 ∧ e = s.newEntry p)) →
      ∃ s', exec (.writePacket p) s = .next s' ∧
        s' = { s with cores := s'.cores, inFlight := removeOne (Packet.plain p) s.inFlight, west := s'.west, east := s'.east } ∧
        (∀ d, d ≠ c → s'.core d = s.core d) ∧
        (p.final = false →
          bytesAfter x.ls (s'.core c).ls o p.data ∧
          entryIn (s'.core c).landing p.tag p.slot = some { e with applied := e.applied + 1 } ∧
          (s'.core c).copyBlocks = x.copyBlocks + BitVec.ofNat 64 (p.data.length / 64) ∧
          (∀ b ∈ blocksOf o p.data.length, b ∈ (s'.core c).landed) ∧ (s'.core c).af = x.af) ∧
        (p.final = true →
          s'.core c = { x with landing := (s'.core c).landing, landingPeak := (s'.core c).landingPeak } ∧
          entryIn (s'.core c).landing p.tag p.slot = some { e with final := some p })) ∧
    (∀ l, s.entriesFor (.ls c o) p = l → entryIn l p.tag p.slot = none → 32 ≤ l.length →
      ∃ s', exec (.writePacket p) s = .next s' ∧
        s'.inFlight = removeOne (Packet.plain p) s.inFlight ++ [refuseOf p] ∧ (∀ d, d ≠ c → s'.core d = s.core d) ∧
        s'.core c = { x with errs := (s'.core c).errs } ∧ coreCounted x (s'.core c) jLandRetry 1) ∧
    (∀ e, entryIn x.landing p.tag p.slot = some e → e.final = some p → e.aborted = false → e.applied = p.count →
      ∀ far : Prop, (far ↔ p.sigVal ≠ 0 ∧ ∃ d i, placeOf p.addr2 = some (.ctr d i) ∧ ¬(d = c ∧ addrModule p.addr2 = s.coord)) →
      (p.sigVal = 0 ∨ ∃ d i, placeOf p.addr2 = some (.ctr d i)) →
      ∃ s' sent, exec (.finalWriteApply (s.coreEnd c) p.tag p.slot) s = .next s' ∧
        s' = { s with cores := s'.cores, inFlight := s.inFlight ++ sent ++ [ackOf p (s.coreEnd c)] } ∧
        (¬far → sent = [] ) ∧
        (far → sent = [{ kind := .signal, addr := p.addr2, sigVal := p.sigVal, tag := p.tag, slot := p.slot, src := s.coreEnd c }]) ∧
        (∀ d, d ≠ c → s'.core d = { s.core d with
          slots := (s.core d).slots.map fun sl =>
            if s.coreEnd d = p.tag ∧ sl.id = p.slot.toNat then { sl with landed := true, tracked := false } else sl }) ∧
        bytesAfter x.ls (s'.core c).ls o p.data ∧
        (s'.core c).landing = x.landing.filter (· != e) ∧
        (x.landLog.length < 126 → ∃ r, (s'.core c).landLog = x.landLog ++ [r] ∧ r.issuer = p.tag ∧ r.peal = false) ∧
        (s'.core c).slots = (x.slots.map fun sl =>
          if s.coreEnd c = p.tag ∧ sl.id = p.slot.toNat then { sl with landed := true, tracked := false } else sl) ∧
        (p.sigVal = 0 ∨ far → (s'.core c).ctrs = x.ctrs) ∧
        (∀ i, p.sigVal ≠ 0 → placeOf p.addr2 = some (.ctr c i) → addrModule p.addr2 = s.coord →
          (s'.core c).syncCtr i = signalled (x.syncCtr i) p.sigVal.toNat p.tag p.joined ∧
          ∀ j, j ≠ i → (s'.core c).syncCtr j = x.syncCtr j))) ∧
  (∀ (s : State) (p : Packet) (o n : Nat), s.powered = true → addrModule p.addr = s.coord → p.kind = .write → p.final = false →
    p.peal = false → p.pos = 0 → p.data.length = n →
    (∀ c x l e, s.core c = x → placeOf p.addr = some (.stat c o) → o + n ≤ 4096 → s.stranded p = false →
      s.entriesFor (.stat c o) p = l →
      (entryIn l p.tag p.slot = some e ∨ (entryIn l p.tag p.slot = none ∧ l.length < 32 ∧ e = s.newEntry p)) →
      ∃ s', exec (.writePacket p) s = .next s' ∧
        s' = { s with cores := s'.cores, inFlight := removeOne (Packet.plain p) s.inFlight, west := s'.west, east := s'.east } ∧
        (∀ d, d ≠ c → s'.core d = s.core d) ∧
        s'.core c = { x with
          stat := (s'.core c).stat, statBad := (s'.core c).statBad, unrepairedStat := (s'.core c).unrepairedStat
          lost := (s'.core c).lost, landing := (s'.core c).landing, landingPeak := (s'.core c).landingPeak } ∧
        bytesAfter x.stat (s'.core c).stat o p.data ∧
        (∀ i, i ∈ (s'.core c).statBad ↔ i ∈ x.statBad ∧ ¬(o ≤ 8 * i ∧ 8 * i + 8 ≤ o + n)) ∧
        entryIn (s'.core c).landing p.tag p.slot = some { e with applied := e.applied + 1 }) ∧
    (∀ h t pl l e, s.stack h = t → t.waiting = [] → placeOf p.addr = some pl → s.served pl p = true → s.entriesFor pl p = l →
      (entryIn l p.tag p.slot = some e ∨ (entryIn l p.tag p.slot = none ∧ l.length < 256 ∧ e = s.newEntry p)) →
      (pl = .hbm h o ∧ o + n ≤ hbmSize ∧ t.plain o n) ∨ (pl = .sc h o ∧ o + n ≤ s.scProgram) →
      ∃ s', exec (.writePacket p) s = .next s' ∧
        s' = { s with
          hbmStacks := s'.hbmStacks, inFlight := removeOne (Packet.plain p) s.inFlight, west := s'.west, east := s'.east } ∧
        (∀ g, g ≠ h → s'.stack g = s.stack g) ∧
        (pl = .hbm h o → bytesAfter t.hbm (s'.stack h).hbm o p.data ∧ (s'.stack h).sc = t.sc) ∧
        (pl = .sc h o → bytesAfter t.sc (s'.stack h).sc o p.data ∧ (s'.stack h).hbm = t.hbm) ∧
        entryIn (s'.stack h).landing p.tag p.slot = some { e with applied := e.applied + 1 }))

/-- O40. Every core of a peal's route writes the packet, counted at the head, passes it on, and the tail acknowledges.
On a powered module, for a peal packet at a core of its route, not cut off by a failed mesh link, with all its bytes
inside the LS: at the head, with a landing entry of its transfer or a free one (that of an aborted transfer which
the packet begins anew is free, note 121), a packet that is not final is written to the LS, counted in the entry and
sent on to the next core of the route, and the final one is held in the entry. At a core after the head, where it is
the next of its copy: PEAL_FORWARD of a packet that is not final, and PEAL_FINAL of the final one, write its data to
this core's LS, byte for byte, and send it on to the next core of the route. At the tail nothing is passed on, and
the final write is acknowledged to the issuer. The final write raises the peal's counter by the signal value when
the peal signals, and no counter otherwise. Every other byte of the LS and every other core is unchanged, but that
at the tail the issuing core marks its copy as landed and drops its range (note 180). A packet of a copy that its
issuer aborted is taken and written nowhere. -/
def Obligations.PealsAlongTheRoute : Prop :=
  ∀ (s : State) (c d : CoreId) (p : Packet) (o : Nat), s.powered = true → p.kind = .write → p.peal = true →
    s.routeCore p p.pos = some c → placeOf p.addr = some (.ls d o) → o + p.data.length ≤ 98304 →
    s.pealTurn p = true → s.stranded p = false →
    (∀ x l e, p.pos = 0 → s.core c = x → s.entriesFor (.ls c o) p = l →
      (entryIn l p.tag p.slot = some e ∨ (entryIn l p.tag p.slot = none ∧ l.length < 32 ∧ e = s.newEntry p)) →
      (p.final = false → ∃ s', exec (.pealForward c p) s = .next s' ∧
        s' = { s with cores := s'.cores, inFlight := s'.inFlight, west := s'.west, east := s'.east } ∧
        (∀ e, e ≠ c → s'.core e = s.core e) ∧ bytesAfter x.ls (s'.core c).ls o p.data ∧ (s'.core c).ctrs = x.ctrs ∧
        entryIn (s'.core c).landing p.tag p.slot = some { e with applied := e.applied + 1 } ∧
        s'.inFlight = removeOne (Packet.plain p) s.inFlight ++
          (if (s.routeCore p 1).isSome then [{ Packet.plain p with pos := 1, via := none }] else [])) ∧
      (p.final = true → ∃ s', exec (.pealFinal c p) s = .next s' ∧
        s' = { s with
          cores := s'.cores, inFlight := removeOne (Packet.plain p) s.inFlight, west := s'.west, east := s'.east } ∧
        (∀ e, e ≠ c → s'.core e = s.core e) ∧
        s'.core c = { x with landing := (s'.core c).landing, landingPeak := (s'.core c).landingPeak } ∧
        entryIn (s'.core c).landing p.tag p.slot = some { e with final := some p })) ∧
    (p.pos ≠ 0 → s.copyDead p = true →
      (p.final = false → exec (.pealForward c p) s = .next (s.arrive p)) ∧
      (p.final = true → exec (.pealFinal c p) s = .next (s.arrive p))) ∧
    (p.pos ≠ 0 → p.final = false → s.copyDead p = false →
      ∃ s', exec (.pealForward c p) s = .next s' ∧
        s' = { s with cores := s'.cores, inFlight := s'.inFlight, west := s'.west, east := s'.east } ∧
        (∀ e, e ≠ c → s'.core e = s.core e) ∧ bytesAfter (s.core c).ls (s'.core c).ls o p.data ∧
        (s'.core c).ctrs = (s.core c).ctrs ∧
        s'.inFlight = removeOne (Packet.plain p) s.inFlight ++
          (if (s.routeCore p (p.pos + 1)).isSome then [{ Packet.plain p with pos := p.pos + 1, via := none }] else [])) ∧
    (p.pos ≠ 0 → p.final = true → s.copyDead p = false →
      ∃ s', exec (.pealFinal c p) s = .next s' ∧
        s' = { s with cores := s'.cores, inFlight := s'.inFlight, west := s'.west, east := s'.east } ∧
        (∀ e, e ≠ c → s'.core e = { s.core e with
          slots := (s.core e).slots.map fun sl =>
            if s.routeCore p (p.pos + 1) = none ∧ s.coreEnd e = p.tag ∧ sl.id = p.slot.toNat then
              { sl with landed := true, tracked := false }
            else sl }) ∧
        bytesAfter (s.core c).ls (s'.core c).ls o p.data ∧
        s'.inFlight = removeOne (Packet.plain p) s.inFlight ++
          (if (s.routeCore p (p.pos + 1)).isSome then [{ Packet.plain p with pos := p.pos + 1, via := none }]
            else [ackOf p (s.coreEnd c)]) ∧
        ((Desc.of p.desc).pealSig = false → (s'.core c).ctrs = (s.core c).ctrs) ∧
        ((Desc.of p.desc).pealSig = true →
          (s'.core c).syncCtr (Fin.ofNat 64 (Desc.of p.desc).pealCtr) =
            signalled ((s.core c).syncCtr (Fin.ofNat 64 (Desc.of p.desc).pealCtr)) (Desc.of p.desc).sigVal p.tag p.joined))

/-- O41. SIGNAL raises one counter, ACK frees its slot, a refused packet is sent again, FAIL aborts its copy. On a
powered module: SIGNAL_PACKET, in its issuer's order, raises the counter its address names by its value (clamped; a
clamp is counted, once for the changes of one cycle), with the packet's tag as last source, and no other counter of
any core. ACK frees the copy slot it names unless the copy was aborted. REFUSE_NOTICE keeps the refused packet until
64 fabric cycles have passed, and REFUSED_RESEND sends the first one that is due, its kind, address and tag as they
were, its data read again from their source; where the source fails its reads nothing of it is sent, the blocks of
HBM are lost, and a copy gets a FAIL notice. FAIL_NOTICE for a copy that is not aborted yet aborts it, counts
COPY_ABORT, and leaves a copy roll pending unless stored data were lost; a notice of a discard is a fault of class
0x05 charged to the core; one for a repair copy (slots 16 to 30: the model's choice, note 34) leaves the block lost
(the model's reading, note 123). Other cores keep everything but landing entries of the copy. (No packet cut off by
a failed mesh link.) -/
def Obligations.SignalsAndNotices : Prop :=
  ∀ (s : State) (p : Packet), s.powered = true → s.stranded p = false →
    (∀ c i, p.kind = .signal → placeOf p.addr = some (.ctr c i) → addrModule p.addr = s.coord → s.signalTurn p = true →
      ∃ s', exec (.signalPacket p) s = .next s' ∧
        s' = { s with cores := s'.cores, inFlight := removeOne (Packet.plain p) s.inFlight, west := s'.west, east := s'.east } ∧
        (∀ d, d ≠ c → s'.core d = s.core d) ∧
        s'.core c = { s.core c with ctrs := (s'.core c).ctrs, errs := (s'.core c).errs, pace := (s'.core c).pace } ∧
        (s'.core c).syncCtr i = signalled ((s.core c).syncCtr i) p.sigVal.toNat p.tag p.joined ∧
        (if 65535 < ((s.core c).syncCtr i).value.toNat + p.sigVal.toNat ∧
            (p.joined && ((s.core c).syncCtr i).clamped) = false then coreCounted (s.core c) (s'.core c) jSyncClamp 1
          else (s'.core c).errs = (s.core c).errs) ∧
        ∀ j, j ≠ i → (s'.core c).syncCtr j = (s.core c).syncCtr j) ∧
    (∀ c, p.kind = .ack → p.tag = s.coreEnd c →
      ∃ s', exec (.ack p) s = .next s' ∧
        s' = { s with cores := s'.cores, inFlight := removeOne (Packet.plain p) s.inFlight, west := s'.west, east := s'.east } ∧
        (∀ d, d ≠ c → s'.core d = s.core d) ∧
        s'.core c = { s.core c with
          slots := (s.core c).slots.filter (fun sl => sl.id != p.slot.toNat || sl.aborted)
          served := (s.core c).served.filter (· != p.slot.toNat)
          repairs := (s.core c).repairs.filter (·.1 != p.slot.toNat) }) ∧
    (∀ c b, p.kind = .fail → p.tag = s.coreEnd c → 16 ≤ p.slot.toNat → p.slot.toNat ≤ 30 →
      (s.core c).repairs.find? (·.1 == p.slot.toNat) = some (p.slot.toNat, b) →
      ∃ s', exec (.failNotice p) s = .next s' ∧ (1, b) ∈ (s'.core c).lost ∧
        (∀ d, d ≠ c → s'.core d = s.core d) ∧ (s'.core c).ls = (s.core c).ls) ∧
    (p.kind = .refuse → p.src.module = s.coord →
      ∃ s' q, exec (.refuseNotice p) s = .next s' ∧
        s' = { s with
          inFlight := removeOne (Packet.plain p) s.inFlight, west := s'.west, east := s'.east, resends := s.resends ++ [q] } ∧
        q.due = s.refTime + 6 ∧ q.packet.kind = p.was ∧ q.packet.data = p.kept ∧ q.packet.addr = p.addr ∧
        q.packet.tag = p.tag ∧ q.packet.slot = p.slot ∧ q.packet.hops = 0) ∧
    (∀ q, s.resends.find? (fun r => decide (r.due ≤ s.refTime)) = some q →
      (s.rereadFails q.packet = none →
        ∃ s' v, exec .refusedResend s = .next s' ∧
          s' = { s with
            resends := removeOne q s.resends, inFlight := s.inFlight ++ [v], west := s'.west, east := s'.east } ∧
          v = { q.packet with data := v.data, via := v.via } ∧
          (q.packet.kind = .write → q.packet.origin ≠ 0 →
            v.data = s.readAddr q.packet.origin q.packet.data.length)) ∧
      (∀ pl cls item, s.rereadFails q.packet = some (pl, cls, item) →
        ∃ s', exec .refusedResend s = .next s' ∧ s'.resends = removeOne q s.resends ∧
          (∀ h o, pl = .hbm h o → ∀ b ∈ s.rereadLost q.packet pl, b ∈ (s'.stack h).hbmBad) ∧
          ((EndPt.coreOf q.packet.tag).isSome = true → ∃ w ∈ s'.inFlight, w.kind = .fail ∧ w.tag = q.packet.tag ∧
            w.slot = q.packet.slot ∧ w.src = s.placeEnd pl))) ∧
    (∀ c sl, p.kind = .fail → p.tag = s.coreEnd c → p.slot.toNat ≤ 15 →
      (s.core c).slots.find? (fun sl => sl.id == p.slot.toNat) = some sl → sl.aborted = false →
      Sparse.wf Core.fresh s.cores = true →
      ∃ s', exec (.failNotice p) s = .next s' ∧ s'.inFlight = removeOne (Packet.plain p) s.inFlight ∧
        (s'.core c).slots = (s.core c).slots.map (fun o =>
          if o.id = p.slot.toNat then { o with aborted := true, rolling := decide (p.cls < 6) } else o) ∧
        coreCounted (s.core c) (s'.core c) jCopyAbort 1 ∧
        (∀ d, d ≠ c → s'.core d = { s.core d with landing := (s'.core d).landing }) ∧
        (p.cls = 0 → s'.faults.lastFault =
          BitVec.ofNat 32 (5 + c.x.val * 2 ^ 8 + c.y.val * 2 ^ 18 + sl.ctx.val * 2 ^ 27)) ∧
        (p.cls ≠ 0 → s'.faults = s.faults))

/-- O42. A core roll puts every context back to the restart checkpoint and arms its replay; without one the job is lost.
On a powered module, CORE_ROLL at a core with a roll due and a restart checkpoint (the newest one held that was
sealed and taken no later than the opening of every bank that is open or REPEAT, a closed REPEAT bank being judged
by its last opening, note 120; for an overflow during a replay the checkpoint of the roll under way): every context
has the checkpoint's program counter, registers, N and flags again, runs no stroke, resumes in the next work window
if it was inside a stroke at the checkpoint (note 177), is not stopped, and will suppress as many CPYs and SIGs as
it had issued since; every bank is as the checkpoint has it, REPEAT exactly if it is closed and its next chain is
one that overflowed, in this run or before (note 144); every sync counter with a tally since the checkpoint is less
by it, clamped; a fault of class 4 reloads the instruction store; entries saved by the RSMAX of replayed strokes
have the oldest save's bytes again, or the checkpoint's inside a stroke held over (note 177); a single failing LS
block that landed is read by a repair copy of the newest landing that covers it, one that did not land is left to
the replay, and one whose landing may be missing or that was left to the replay before is lost (a slot from 16: note
34); no column is on its way, no roll is due, the core is replaying, and ROLLS counts one, unless the place was
found by the roll under way. With no restart checkpoint no context runs and the data are lost, in RUNNING a halt of
cause 5. With nothing due CORE_ROLL changes nothing. A finding named with the command is first entered as a detected
fault; a new one of an LS block makes a roll due and, in its own beat, triggers an armed trace that took faults as a
source. Other cores are unchanged. -/
def Obligations.CoreRollRestoresCheckpoint : Prop :=
  ∀ (s : State) (c : CoreId) (x : Core), s.powered = true → s.core c = x →
    (∀ d, exec (.coreRoll c (some d)) s = exec (.coreRoll c none) (s.detect c d)) ∧
    (∀ b k, b < 1536 → x.roll = none → x.lost.contains (1, b) = false → x.losesAgain 1 b = false → x.foundAgain 1 b = false →
      x.mends 1 b = false → s.trace.phase = .armed → s.trace.armTrig.getLsbD 2 = true →
      ((s.detect c (.ls b k)).core c).roll = some ⟨1, coreAddr 1 s.coord c (64 * b), k, some b, s.beat⟩ ∧
        (s.detect c (.ls b k)).trace.phase = .triggered ∧ (s.detect c (.ls b k)).trace.trigBeat = BitVec.ofNat 64 s.beat) ∧
    (x.roll = none → exec (.coreRoll c none) s = .next s) ∧
    (∀ q ck depth, x.roll = some q → x.restart = some (ck, depth) →
      ck ∈ x.checkpoints ∧
      (x.rolling = true ∧ q.cls = 0 → ck.seq = x.rollSeq) ∧
      (x.rolling = false ∨ q.cls ≠ 0 →
        ck.isSealed = true ∧
        (∀ b, (x.banks.get b).isOpen = true ∨ (x.banks.get b).rep = true → ck.seq ≤ (x.banks.get b).opened) ∧
        (x.held.Pairwise (fun a b => a.seq < b.seq) → ∀ o ∈ x.held, o.isSealed = true → ck.seq < o.seq →
          ∃ b, ((x.banks.get b).isOpen = true ∨ (x.banks.get b).rep = true) ∧ (x.banks.get b).opened < o.seq)) ∧
      ∃ s', exec (.coreRoll c none) s = .next s' ∧ (∀ d, d ≠ c → s'.core d = s.core d) ∧
        (s'.core c).roll = none ∧ (s'.core c).rolling = true ∧ (s'.core c).rollSeq = ck.seq ∧ (s'.core c).arrayQ = [] ∧
        Sparse.look {} (s'.core c).errs jRolls =
          (if x.causeAgain q then Sparse.look {} x.errs jRolls else (Sparse.look {} x.errs jRolls).add 1) ∧
        (∀ b again, (again = true ↔ (ck.banks.get b).isOpen = false ∧
            (ck.banks.get b).opens + 1 ∈ (x.banks.get b).uppers) →
          (s'.core c).banks.get b = { ck.banks.get b with
            rep := again
            opened := if again then (if (x.banks.get b).rep then (x.banks.get b).opened else ck.seq)
              else (ck.banks.get b).opened
            uppers := (x.banks.get b).uppers }) ∧
        (∀ four : Bool, four = (q :: x.rollMore).any (fun o => o.cls == 4) →
          (s'.core c).instr = (if four then x.program else x.instr) ∧ (s'.core c).instrBad = (if four then [] else x.instrBad)) ∧
        (Sparse.wf 0 ck.tallies = true → (∀ p ∈ ck.tallies, p.1 < 64) → ∀ i : Fin 64, ∀ n : Int, Sparse.look 0 ck.tallies i.val = n →
          (s'.core c).syncCtr i = if n = 0 then x.syncCtr i else (x.syncCtr i).move (-n)) ∧
        (∀ e < 512, (∀ v ∈ x.saves, v.replayed ck = true → v.entry ≠ e) →
          Memory.read (s'.core c).stat (8 * e) 8 = Memory.read x.stat (8 * e) 8) ∧
        (∀ older v newer, x.saves = older ++ v :: newer → v.replayed ck = true → v.bytes.length = 8 →
          (∀ o ∈ older, o.replayed ck = true → o.entry ≠ v.entry) →
          Memory.read (s'.core c).stat (8 * v.entry) 8 =
            if (ck.ctxs.get v.ctx).within = true ∧ (ck.ctxs.get v.ctx).n = v.n then Memory.read ck.stat (8 * v.entry) 8
            else v.bytes) ∧
        (∀ b, q.cls = 1 → q.item = some b → x.rollMore = [] → x.mends 1 b = false → b ∈ (s'.core c).lsBad ∧
          (∀ e rs, b ∈ x.landed → findLanding b x.recordsNewest = some e → s.requests (Desc.of (e.repairDesc s.coord c)) = rs →
            s'.inFlight = s.inFlight ++ rs.zipIdx.map (fun r =>
              s.readOf (s.coreEnd c) (s.repairSlot c) (e.repairDesc s.coord c) false r.1 (r.2 + 1 == rs.length)) ∧
            (s'.core c).repairs = (s.repairSlot c, b) :: x.repairs ∧
            Sparse.look {} (s'.core c).errs jRepairCopy = (Sparse.look {} x.errs jRepairCopy).add 1) ∧
          ((b ∈ x.landed ∧ findLanding b x.recordsNewest = none) ∨ (b ∉ x.landed ∧ b ∈ x.unrepaired) →
            s'.inFlight = s.inFlight ∧ (1, b) ∈ (s'.core c).lost ∧
            Sparse.look {} (s'.core c).errs jDataLost = (Sparse.look {} x.errs jDataLost).add 1 ∧
            (s.dev = 4 → s'.deviceState = Triple.all 5 ∧ s'.haltCause = 5)) ∧
          (b ∉ x.landed → b ∉ x.unrepaired → s'.inFlight = s.inFlight ∧ b ∈ (s'.core c).unrepaired)) ∧
        ((s'.core c).last = x.last ∧ (s'.core c).ls = x.ls ∧ (s'.core c).program = x.program) ∧
        ∀ k, ((s'.core c).ctx k).pc = (ck.ctxs.get k).pc ∧ ((s'.core c).ctx k).regs = (ck.ctxs.get k).regs ∧
          ((s'.core c).ctx k).n = (ck.ctxs.get k).n ∧ ((s'.core c).ctx k).enabled = (ck.ctxs.get k).enabled ∧
          ((s'.core c).ctx k).ended = (ck.ctxs.get k).ended ∧ ((s'.core c).ctx k).running = false ∧
          ((s'.core c).ctx k).resume = (ck.ctxs.get k).within ∧
          ((s'.core c).ctx k).stopped = false ∧ ((s'.core c).ctx k).overran = false ∧ ((s'.core c).ctx k).heldSince = none ∧
          ((s'.core c).ctx k).skipCpy = ck.cpys.get k ∧ ((s'.core c).ctx k).skipSig = ck.sigs.get k) ∧
    (∀ q, x.roll = some q → x.restart = none →
      ∃ s', exec (.coreRoll c none) s = .next s' ∧ (∀ d, d ≠ c → s'.core d = s.core d) ∧
        (s'.core c).roll = none ∧ (∀ k, ((s'.core c).ctx k).running = false) ∧
        Sparse.look {} (s'.core c).errs jDataLost = (Sparse.look {} x.errs jDataLost).add 1 ∧
        (s.dev = 4 → s'.deviceState = Triple.all 5 ∧ s'.haltCause = 5))

/-- O43. A drained, aborted copy starts again from its first byte, or gives up its slot. On a powered module, COPY_ROLL
of an aborted copy of which no packet is left on the module: if its roll is pending and its source is whole, the
copy is no longer aborted and sends again from its first request, and COPY_ROLL counts one; if it was aborted by the
loss of stored data, its slot is free, no round counts it as served, and its group is lost to the marks behind it
(note 176). Either way no landing entry of the copy is left at this core, and nothing but landing entries changes
elsewhere. A copy that is not aborted, or still has packets under way, is left as it is. -/
def Obligations.CopyRollStartsAgain : Prop :=
  ∀ (s : State) (c : CoreId) (slot : Fin 16) (sl : CopySlot), s.powered = true → Sparse.wf Core.fresh s.cores = true →
    (s.core c).slots.find? (fun sl => sl.id == slot.val) = some sl →
    (sl.aborted = false ∨ s.drained (s.coreEnd c) (BitVec.ofNat 5 slot.val) = false →
      exec (.copyRoll c slot) s = .next s) ∧
    (sl.aborted = true → s.drained (s.coreEnd c) (BitVec.ofNat 5 slot.val) = true →
      (sl.rolling = false ∨ s.sourceWhole (Desc.of sl.desc) = true) →
      ∃ s', exec (.copyRoll c slot) s = .next s' ∧ s' = { s with cores := s'.cores, hbmStacks := s'.hbmStacks } ∧
        (∀ d, d ≠ c → s'.core d = { s.core d with landing := (s'.core d).landing }) ∧
        (∀ e ∈ (s'.core c).landing, ¬(e.tag = s.coreEnd c ∧ e.slot = BitVec.ofNat 5 slot.val)) ∧
        (sl.rolling = false →
          s'.core c = { s.core c with
            landing := (s'.core c).landing, slots := (s.core c).slots.filter (fun o => o.id != slot.val)
            served := (s.core c).served.filter (fun i => i != slot.val)
            ctxs := (s'.core c).ctxs } ∧
          ∀ k, (s'.core c).ctx k = if k = sl.ctx then
            { (s.core c).ctx k with
              lostGroup := some (match ((s.core c).ctx k).lostGroup with | some g => min g sl.group | none => sl.group) }
            else (s.core c).ctx k) ∧
        (sl.rolling = true →
          s'.core c = { s.core c with
            landing := (s'.core c).landing
            errs := (s'.core c).errs
            slots := (s.core c).slots.map fun o =>
              if o.id = slot.val then { o with sent := 0, reads := 0, aborted := false, landed := false, tracked := true }
              else o } ∧
          coreCounted (s.core c) (s'.core c) jCopyRoll 1))

/-- O44. The partner's run settles a record or calls the referee, whose run names the odd core or none. On a powered
module, for a core c with a shadow record whose partner (x xor 1, y) has not run it: if the partner cannot run it,
or the time is over or finds no idle cycles, SHADOW_SKIP counts one at the partner and the record is done with; an
idle partner with good input blocks runs the chain in its shadow area (or forms what its failing unit forms), which
changes no context, no bank state and no LS byte below that area, and SHADOW_RUN counts one there (that the partner
counts is the model's choice: note 58); if its output's signature equals the record's, the record is done with, else
SHADOW_MISMATCH counts one at c and the referee is due with the partner's signature. A failing input block is a
fault of c. REFEREE_RUN at an idle referee that can run it, whose own area is not held (a held area gives no result,
and a failing input block is a fault of the core it stands in, the partner: note 147), runs it from the partner's
area: its output matching c's signature names the partner, matching the partner's names c: SDC_ODD counts one at the
named core, a fault of class 0x0C is charged to it and SDC_LAST gives outcome 1 or 2; matching neither, or no run,
names none, and SHADOW_UNRESOLVED counts one at c with outcome 3. The record is done with, other cores' stores and
the device state do not change. -/
def Obligations.ShadowAndReferee : Prop :=
  ∀ (s : State) (c : CoreId) (r : ShadowRec), s.powered = true → (s.core c).shadow = some r →
    partnerOf c ≠ c ∧
    (∀ output : ShadowTry, r.partner = none →
      (s.canShadow (partnerOf c) r = false ∨ s.shadowLate r = true ∨ output.slack = false) →
      ∃ s', exec (.shadowRun c output) s = .next s' ∧ s' = { s with cores := s'.cores } ∧
        (s'.core c).shadow = none ∧ coreCounted (s.core (partnerOf c)) (s'.core (partnerOf c)) jShadowSkip 1) ∧
    (∀ (output : ShadowTry) (p : CoreId) (o : Core × List Byte) (sig : BitVec 32), r.partner = none → partnerOf c = p →
      s.canShadow p r = true → s.shadowLate r = false → output.slack = true → (s.core p).idle = true →
      (∀ b, s.badInput c true r = some b → exec (.shadowRun c output) s = .next (s.guardFail c r.ctx 1 b)) ∧
      (s.badInput c true r = none → s.rerun p c true r = o → crc32c (output.silent.getD o.2) = sig →
        ∃ s', exec (.shadowRun c output) s = .next s' ∧ s'.deviceState = s.deviceState ∧
          s'.core p = { o.1 with errs := (s'.core p).errs } ∧ coreCounted o.1 (s'.core p) jShadowRun 1 ∧
          o.1.ctxs = (s.core p).ctxs ∧ o.1.banks = (s.core p).banks ∧
          (∀ i, i < 98304 - 64 * s.shadowBlocks → Memory.byte o.1.ls i = Memory.byte (s.core p).ls i) ∧
          (∀ d, d ≠ c → d ≠ p → s'.core d = s.core d) ∧
          (sig = r.signature → s' = { s with cores := s'.cores } ∧ s'.core c = { s.core c with shadow := none }) ∧
          (sig ≠ r.signature →
            s'.core c = { s.core c with errs := (s'.core c).errs, shadow := some { r with partner := some sig } } ∧
            coreCounted (s.core c) (s'.core c) jShadowMismatch 1))) ∧
    (∀ (output : ShadowTry) (sig : BitVec 32), r.partner = some sig →
      (s.canShadow (refereeOf c) r = false ∨ s.areaHeld (refereeOf c) = true ∨ output.slack = false) →
      ∃ s', exec (.refereeRun c output) s = .next s' ∧ s' = { s with cores := s'.cores, faults := s'.faults } ∧
        (s'.core c).shadow = none ∧ coreCounted (s.core c) (s'.core c) jShadowUnresolved 1 ∧
        s'.faults.sdcLast = sdcWord 3 c r.ctx) ∧
    (∀ (output : ShadowTry) (sig : BitVec 32) (b : Nat), r.partner = some sig → s.canShadow (refereeOf c) r = true →
      s.areaHeld (refereeOf c) = false → output.slack = true → (s.core (refereeOf c)).idle = true →
      s.badInput (partnerOf c) false r = some b →
      exec (.refereeRun c output) s = .next (s.guardFail (partnerOf c) r.ctx 1 b)) ∧
    (∀ (output : ShadowTry) (p f : CoreId) (o : Core × List Byte) (sig mine : BitVec 32), r.partner = some sig →
      partnerOf c = p → refereeOf c = f → s.canShadow f r = true → s.areaHeld f = false → output.slack = true →
      (s.core f).idle = true → s.badInput p false r = none → s.rerun f p false r = o →
      crc32c (output.silent.getD o.2) = mine →
      ∃ s', exec (.refereeRun c output) s = .next s' ∧ (s'.core c).shadow = none ∧ s'.deviceState = s.deviceState ∧
        s'.core f = o.1 ∧
        (∀ i, i < 98304 - 64 * s.shadowBlocks → Memory.byte o.1.ls i = Memory.byte (s.core f).ls i) ∧
        (∀ d, d ≠ f → (s'.core d).ls = (s.core d).ls ∧ (s'.core d).af = (s.core d).af) ∧
        (mine = r.signature →
          coreCounted (s.core p) (s'.core p) jSdcOdd 1 ∧ s'.faults.sdcLast = sdcWord 1 c r.ctx ∧
          s'.faults.lastFault = BitVec.ofNat 32 (0x0C + p.x.val * 2 ^ 8 + p.y.val * 2 ^ 18 + r.ctx.val * 2 ^ 27)) ∧
        (mine ≠ r.signature → mine = sig →
          coreCounted (s.core c) (s'.core c) jSdcOdd 1 ∧ s'.faults.sdcLast = sdcWord 2 c r.ctx ∧
          s'.faults.lastFault = BitVec.ofNat 32 (0x0C + c.x.val * 2 ^ 8 + c.y.val * 2 ^ 18 + r.ctx.val * 2 ^ 27)) ∧
        (mine ≠ r.signature → mine ≠ sig →
          coreCounted (s.core c) (s'.core c) jShadowUnresolved 1 ∧ s'.faults.sdcLast = sdcWord 3 c r.ctx ∧
          s'.faults.lastFault = s.faults.lastFault))

/-- O45. A count that reaches its limit takes the module into KNELL, writes the flag and sends the notice. On a powered
module that has started up and is not in KNELL, KNELL_ENTRY of a cause whose limit is reached at the place named
enters KNELL: the knell flag of the record is set, KNELL_CAUSE names cause and place and KNELL_BEAT the beat, a
launch no longer is armed, and a notice goes out on every trained port that is not under test. No core changes. With
the limit not reached nothing changes. -/
def Obligations.KnellEntryRecordsAndNotifies : Prop :=
  ∀ (s : State) (cause : BitVec 4) (at_ : Charged), s.powered = true → s.dev ≠ 6 → s.dev ≠ 1 →
    (s.limitReached cause.toNat at_ = false → exec (.knellEntry cause at_) s = .next s) ∧
    (s.limitReached cause.toNat at_ = true →
      ∃ s', exec (.knellEntry cause at_) s = .next s' ∧ s'.deviceState = Triple.all 6 ∧
        s'.record = { s.record with knell := true, knellOk := true } ∧ s'.armed = false ∧ s'.cores = s.cores ∧
        s'.faults = { s.faults with
          knellCause := BitVec.ofNat 32 (cause.toNat + match at_ with
            | .core c => c.x.val * 2 ^ 4 + c.y.val * 2 ^ 14
            | .stack h => h.val * 2 ^ 23
            | .module => 0)
          knellBeat := BitVec.ofNat 64 s.beat } ∧
        posted s s' ((allPorts.filter fun p => (s.port p).trained && !(s.port p).loopback).map
          (fun p => .message p 4 (knellBody s.coord Config.serial cause.toNat))))

/-- O46. REDUCE takes contributions, RANK_ENTER adds them in rank order, the last writes the result and signals;
BLOCK_REARM comes 16 beats later. On a powered module, for a filling block of a REDUCE with the next rank's 16
pieces present and good: RANK_ENTER adds that rank's elements to the sums (the first rank's are taken as they are,
each later sum is rounded once), moves to the next rank and drops the pieces. If it was the last rank, the block is
DONE in this beat and HBM holds the result, in the operation's format, at the block's place and is otherwise
unchanged; before that HBM does not change at all. With the result CAR_NONFINITE counts its elements that are a NaN
or an infinity in the operation's format, and the segment's signal goes out exactly if every other block of the
segment has been written in the generation and a counter is named (stated where the block is not in the trigger
block). A WRITE that is not final, at a place of the region, changes no HBM: from a sender that is no rank, or for a
DONE block, its pieces are counted as invalid or late; for a filling block, or an armed one that finds room for its
sum, new pieces are kept under their rank, repeated ones counted, and sampled blocks send a copy of each new piece
to the shadow stack; with no room the packet is refused and counted. A guard failure of the pieces or the sum is
lost data of the stack (class 0x08). BLOCK_REARM of a block that has been DONE for 16 beats arms it with the next
generation, and does nothing earlier. -/
def Obligations.ReduceAddsInRankOrder : Prop :=
  ∀ (s : State) (h : StackId) (op : Fin 64) (block : Nat) (t : Stack) (e : OpEntry) (v : RBlock),
    s.powered = true → s.stack h = t → t.op op.val = e → t.rblock op.val block = v →
    (∀ data, e.kind = 1 → v.state = .filling → rankData v.pieces v.next = some data →
      (v.next + 1 ≠ e.ranks →
        ∃ s', exec (.rankEnter h op block false) s = .next s' ∧ onlyStack h s s' ∧ (s'.stack h).hbm = t.hbm ∧
          (s'.stack h).rblock op.val block = { v with
            sum := if v.sum.isEmpty then contribWords e.fmt data else List.zipWith addWord v.sum (contribWords e.fmt data)
            next := v.next + 1
            pieces := v.pieces.filter (fun p => p.rank != v.next)
            staged := v.staged.filter (fun p => p.1 != v.next) }) ∧
      (v.next + 1 = e.ranks →
        ∃ s' out, exec (.rankEnter h op block false) s = .next s' ∧ (∀ g, g ≠ h → s'.stack g = s.stack g) ∧
          s'.cores = s.cores ∧ ((s'.stack h).rblock op.val block).state = .done ∧
          ((s'.stack h).rblock op.val block).doneBeat = s.beat ∧ ((s'.stack h).rblock op.val block).gen = v.gen ∧
          ((s'.stack h).rblock op.val block).result = out ∧
          out = resultBytes e.fmt (addRank v.sum (contribWords e.fmt data)) ∧
          bytesAfter t.hbm (s'.stack h).hbm (e.region + 1024 * block) out ∧
          (t.offTriggers (e.region + 1024 * block) out.length → ∀ n first bad, 2 ^ e.segLog2 = n → block / n * n = first →
            nonFinite e.fmt (addRank v.sum (contribWords e.fmt data)) = bad →
            (bad = 0 → s'.counters = s.counters) ∧ (bad ≠ 0 → counted s s' (0x400 + 0x20 * h.val + 10) bad) ∧
            ((∀ j, first ≤ j → j < first + n → j < e.count → j ≠ block → t.written op.val j v.gen = true) →
              s'.inFlight = s.inFlight ++
                if e.doneAddr = 0 then [] else [signalPacketOf (s.stackEnd h) (s.stackEnd h) 0 e.doneAddr e.doneVal]) ∧
            ((∃ j, first ≤ j ∧ j < first + n ∧ j < e.count ∧ j ≠ block ∧ t.written op.val j v.gen = false) →
              s'.inFlight = s.inFlight))) ∧
      (∃ s', exec (.rankEnter h op block true) s = .next s' ∧ (s'.stack h).hbm = t.hbm ∧
        s'.faults.lastFault = BitVec.ofNat 32 (8 + h.val * 2 ^ 8) ∧ counted s s' (0x400 + 0x20 * h.val + 3) 1 ∧
        (s.dev = 4 → s'.deviceState = Triple.all 5 ∧ s'.haltCause = 5))) ∧
    (v.state = .done → v.doneBeat + 16 ≤ s.beat →
      ∃ s', exec (.blockRearm h op block) s = .next s' ∧ onlyStack h s s' ∧ (s'.stack h).hbm = t.hbm ∧
        (s'.stack h).rblock op.val block = { v with state := .armed, gen := v.gen + 1, next := 0 }) ∧
    (v.state ≠ .done ∨ s.beat < v.doneBeat + 16 → exec (.blockRearm h op block) s = .next s) ∧
    (∀ (p : Packet) (o b : Nat) (ps : List (Nat × List Byte)), s.powered = true → addrModule p.addr = s.coord → p.kind = .write → p.final = false →
      p.peal = false → p.pos = 0 → placeOf p.addr = some (.hbm h o) → o + p.data.length ≤ hbmSize → t.waiting = [] →
      s.served (.hbm h o) p = true → ((entryIn (s.entriesFor (.hbm h o) p) p.tag p.slot).isSome = true ∨ (s.entriesFor (.hbm h o) p).length < 256) →
      t.reduceAt o = some op.val → (o - e.region) / 1024 = b → b = block →
      piecesAt o p.data = ps → ps ≠ [] →
      ∃ s', exec (.writePacket p) s = .next s' ∧ s'.cores = s.cores ∧ (∀ g, g ≠ h → s'.stack g = s.stack g) ∧
        (s'.stack h).hbm = t.hbm ∧
        (s.contribRank e p.tag = none → s'.inFlight = removeOne (Packet.plain p) s.inFlight ∧
          (s'.stack h).rblock op.val b = v ∧ counted s s' (0x400 + 0x20 * h.val + 5) ps.length) ∧
        (∀ r, s.contribRank e p.tag = some r →
          (v.state = .done → s'.inFlight = removeOne (Packet.plain p) s.inFlight ∧
            (s'.stack h).rblock op.val b = v ∧ counted s s' (0x400 + 0x20 * h.val + 4) ps.length) ∧
          (∀ c0 v0 fresh, (v.state = .filling ∧ c0 = t.car ∧ v0 = v) ∨
              (v.state = .armed ∧ armAlloc e t.car v s.beat = some (c0, v0)) →
            (if r < v0.next then [] else ps.filter fun q => !(v0.pieces.any fun w => w.rank == r && w.index == q.1)) = fresh →
            (fresh = [] → s'.inFlight = removeOne (Packet.plain p) s.inFlight ∧
              (s'.stack h).rblock op.val b = v ∧ counted s s' (0x400 + 0x20 * h.val + 4) ps.length) ∧
            (fresh ≠ [] → stageAlloc c0 v0 r = none → s'.inFlight = removeOne (Packet.plain p) s.inFlight ++ [refuseOf p] ∧
              (s'.stack h).rblock op.val b = v ∧ counted s s' (0x400 + 0x20 * h.val + 7) 1) ∧
            (∀ c1 v1, fresh ≠ [] → stageAlloc c0 v0 r = some (c1, v1) →
              (s'.stack h).rblock op.val b =
                { v1 with pieces := v1.pieces ++ fresh.map fun q => ⟨r, q.1, q.2⟩ } ∧
              (s'.stack h).car.stageUse = c1.stageUse ∧ (s'.stack h).car.spillUse = c1.spillUse ∧
              (fresh = ps → s'.counters = s.counters) ∧
              (fresh ≠ ps → counted s s' (0x400 + 0x20 * h.val + 4) (ps.length - fresh.length)) ∧
              s'.inFlight = removeOne (Packet.plain p) s.inFlight ++
                if dualSampled b op.val v1.gen e.dualK s.carSeed then
                  fresh.map fun q => s.carPacket h ⟨op.val, v1.gen, 2, h.val, s.rank, r, 0⟩
                    (stackAddr 5 s.coord (shadowStack h) (e.region + 1024 * b + 64 * q.1)) q.2 0
                else [])) ∧
          (v.state = .armed → armAlloc e t.car v s.beat = none →
            s'.inFlight = removeOne (Packet.plain p) s.inFlight ++ [refuseOf p] ∧
            (s'.stack h).rblock op.val b = v ∧ counted s s' (0x400 + 0x20 * h.val + 7) 1)))

/-- O47. A shadow stages new pieces and returns the reduced block; the owner counts a dual result that differs. A
DUAL_COPY packet at the shadow, of a REDUCE of the stack it names: pieces seen already are dropped (a packet of
nothing else is counted); new pieces that find both areas full are refused and counted; otherwise new pieces short
of a whole block are staged with the space they take and nothing is sent, and with the last of 16 pieces of every
rank the staging ends, its space is free, and the result, reduced in rank order, goes to the owner's block in
packets of 8 blocks, each at its place there, tagged with the operation and the generation. A DUAL_RESULT packet at
the owner, of its block's last result and not yet received, is kept; once all 16 blocks are there and differ from
the block's own result, the mismatch is counted for the stack, and it is not counted otherwise. A guard that fails
where the reduction reads the staging is a loss of class 0x08 of the shadow stack, and no result goes out. The
packet leaves the fabric; no core and no memory changes. The model's choices are the space and the refusal of dual
copies (note 20), that the shadow uses its owner's entry (note 129) and that the loss is the shadow stack's (note
178). -/
def Obligations.DualPathCompares : Prop :=
  ∀ (s : State) (p : Packet) (h : StackId) (off : Nat) (g : CarTag),
    (∀ e base stage old fresh bad, s.carMet p 2 h off g → (s.stack (shadowOwner g)).op g.op = e → e.kind = 1 →
      e.region + (off - e.region) / 1024 * 1024 = base →
      (s.stack h).car.duals.find? (fun d => d.op == g.op && d.gen == g.gen &&
          d.addr == stackAddr 5 s.coord (shadowOwner g) base) = stage →
      (match stage with | some d => d.pieces | none => []) = old →
      (piecesAt off (p.data.drop 64)).filter (fun q => !(old.any fun r => r.rank == g.unit && r.index == q.1)) = fresh →
      ∃ s', exec (.dualCopy ⟨p, bad⟩) s = .next s' ∧ s'.cores = s.cores ∧ (∀ k, (s'.stack k).hbm = (s.stack k).hbm) ∧
        (fresh = [] → s'.hbmStacks = s.hbmStacks ∧ s'.inFlight = removeOne (Packet.plain p) s.inFlight ∧
          counted s s' (0x400 + 0x20 * h.val + 4) 1) ∧
        (fresh ≠ [] → dualAlloc e (s.stack h).car stage g.unit = none → s'.hbmStacks = s.hbmStacks ∧
          s'.inFlight = removeOne (Packet.plain p) s.inFlight ++ [refuseOf p] ∧ counted s s' (0x400 + 0x20 * h.val + 7) 1) ∧
        (∀ c held, fresh ≠ [] → dualAlloc e (s.stack h).car stage g.unit = some (c, held) → old.length + fresh.length ≠ 16 * e.ranks →
          s'.inFlight = removeOne (Packet.plain p) s.inFlight ∧ s'.counters = s.counters ∧
          (s'.stack h).car.stageUse = c.stageUse ∧ (s'.stack h).car.spillUse = c.spillUse ∧
          (⟨g.op, g.gen, stackAddr 5 s.coord (shadowOwner g) base, old ++ fresh.map fun q => ⟨g.unit, q.1, q.2⟩, held⟩ : DualStage) ∈
            (s'.stack h).car.duals) ∧
        (∀ c held, fresh ≠ [] → dualAlloc e (s.stack h).car stage g.unit = some (c, held) → old.length + fresh.length = 16 * e.ranks →
          bad = true → s'.inFlight = removeOne (Packet.plain p) s.inFlight ∧ s'.faults.lastFault = BitVec.ofNat 32 (8 + h.val * 2 ^ 8) ∧
            counted s s' (0x400 + 0x20 * h.val + 3) 1 ∧ (s.dev = 4 → s'.deviceState = Triple.all 5 ∧ s'.haltCause = 5) ∧
            ∀ d ∈ (s'.stack h).car.duals, ¬(d.op = g.op ∧ d.gen = g.gen ∧ d.addr = stackAddr 5 s.coord (shadowOwner g) base)) ∧
        (∀ c held, fresh ≠ [] → dualAlloc e (s.stack h).car stage g.unit = some (c, held) → old.length + fresh.length = 16 * e.ranks →
          bad = false → ∃ ws, s'.inFlight = removeOne (Packet.plain p) s.inFlight ++ ws ∧ s'.counters = s.counters ∧
            (s'.stack h).car.stageUse = (c.freeAll held).stageUse ∧ (s'.stack h).car.spillUse = (c.freeAll held).spillUse ∧
            (∀ (j : Nat) (w : Packet), ws[j]? = some w →
              w.addr = stackAddr 5 s.coord (shadowOwner g) (base + 512 * j) ∧ (w.data.drop 64).length ≤ 512 ∧
              (CarTag.of w.data).op = g.op ∧ (CarTag.of w.data).gen = g.gen) ∧
            ws.flatMap (fun w => w.data.drop 64) = resultBytes e.fmt ((List.range e.ranks).foldl (fun a r =>
              match rankData (old ++ fresh.map fun q => ⟨g.unit, q.1, q.2⟩) r with
              | some d => addRank a (contribWords e.fmt d)
              | none => a) []) ∧
            (∀ w ∈ ws, w.kind = .carillon ∧ w.blocks ≤ 9 ∧ (CarTag.of w.data).subop = 3) ∧
            ∀ d ∈ (s'.stack h).car.duals, ¬(d.op = g.op ∧ d.gen = g.gen ∧
              d.addr = stackAddr 5 s.coord (shadowOwner g) base))) ∧
    (∀ v dual, s.carMet p 3 h off g → judgeDual (s.stack h) off g = .take →
      (s.stack h).rblock g.op ((off - ((s.stack h).op g.op).region) / 1024) = v →
      v.dual ++ piecesAt off (p.data.drop 64) = dual →
      ∃ s', exec (.dualResult p) s = .next s' ∧ s'.cores = s.cores ∧ s'.inFlight = removeOne (Packet.plain p) s.inFlight ∧
        (∀ k, (s'.stack k).hbm = (s.stack k).hbm) ∧
        (s'.stack h).rblock g.op ((off - ((s.stack h).op g.op).region) / 1024) = { v with dual } ∧
        (dual.length ≠ 16 → s'.counters = s.counters ∧ s'.faults = s.faults) ∧
        (dual.length = 16 → ∀ whole, whole = (List.range 16).flatMap (fun j =>
            match dual.find? (fun q => q.1 == j) with | some q => q.2 | none => []) →
          (whole = v.result → s'.counters = s.counters) ∧
          (whole ≠ v.result → counted s s' (0x400 + 0x20 * h.val + 8) 1)))

/-- O48. A member sends its exact sum of squares once, the owner answers every member when all are in, a record ends the
operation. SUMSQ_START of a started SUMSQ that has not begun, whose records and gradients stand in HBM, sends
exactly one packet, the 640-bit exact sum of squares with its NONFINITE mark, to the norm owner's stack and marks it
begun. NORM_PARTIAL of the present generation and a sender not heard yet is kept; short of 16 partials of every
member nothing is sent, and with the last one every packet sent carries a norm record of this generation (the square
root of the total, rounded once, and the clip factor). NORM_RECORD of a running SUMSQ writes the record's bytes at
the packet's address, leaves every other byte of the stack's HBM, and ends the operation (for an address outside the
trigger block). No core changes. A SUMSQ_START that reads a block known to fail is a stored-data loss and sends
nothing. -/
def Obligations.GradientNormExchange : Prop :=
  ∀ (s : State) (h : StackId),
    (∀ (op : Fin 64) (m : BitVec 10), s.powered = true → (s.stack h).due op.val 2 = true →
      (s.stack h).lostIn (recordRanges (s.stack h).hbm ((s.stack h).op op.val).region ((s.stack h).op op.val).count [0]) = [] →
      s.rankCoord ((s.stack h).op op.val).ownerRank = some m →
      ∃ s' w, exec (.sumsqStart h op) s = .next s' ∧
        s' = { s with hbmStacks := s'.hbmStacks, inFlight := s.inFlight ++ [w] } ∧ (∀ g, g ≠ h → s'.stack g = s.stack g) ∧
        (s'.stack h).hbm = (s.stack h).hbm ∧
        (s'.stack h).opRun op.val = { (s.stack h).opRun op.val with begun := true } ∧
        w.kind = .carillon ∧
        w.addr = stackAddr 5 m (Fin.ofNat 16 ((s.stack h).op op.val).ownerStack) ((s.stack h).op op.val).region2 ∧
        w.data.drop 64 =
          leBytes 80 (sumSquares (s.stack h).hbm ((s.stack h).op op.val).region ((s.stack h).op op.val).count).1 ++
            leBytes 48 (bit (sumSquares (s.stack h).hbm ((s.stack h).op op.val).region ((s.stack h).op op.val).count).2)) ∧
    (∀ op : Fin 64, s.powered = true → (s.stack h).due op.val 2 = true →
      (s.stack h).lostIn (recordRanges (s.stack h).hbm ((s.stack h).op op.val).region ((s.stack h).op op.val).count [0]) ≠ [] →
      ∃ s', exec (.sumsqStart h op) s = .next s' ∧ carLost s s' h op.val) ∧
    (∀ p off g e r partials, s.carMet p 4 h off g → (s.stack h).op g.op = e → (s.stack h).opRun g.op = r → e.kind = 2 →
      g.gen = r.gen → (∀ q ∈ r.partials, q.1 ≠ 16 * (g.sender - e.mr0) + g.stack) →
      partials = r.partials ++ [(16 * (g.sender - e.mr0) + g.stack, leNat (p.data.drop 64) % 2 ^ 640,
        bitOf (leNat (p.data.drop 64)) 640)] →
      ∃ s' ws, exec (.normPartial p) s = .next s' ∧ s'.cores = s.cores ∧ s'.counters = s.counters ∧
        s'.inFlight = removeOne (Packet.plain p) s.inFlight ++ ws ∧ (s'.stack h).opRun g.op = { r with partials } ∧
        (∀ k, (s'.stack k).hbm = (s.stack k).hbm) ∧
        (partials.length ≠ 16 * e.mcount → ws = []) ∧
        (∀ w ∈ ws, w.kind = .carillon ∧ w.data.drop 64 =
          normRecord (partials.foldl (fun a q => a + q.2.1) 0) (partials.any (·.2.2)) e.maxNorm g.gen) ∧
        (partials.length = 16 * e.mcount → ∀ j m, j < e.mcount → s.rankCoord (e.mr0 + j) = some m →
          ∀ d : StackId, ∃ w ∈ ws, w.addr = stackAddr 5 m d e.region2)) ∧
    (∀ p off g e, s.carMet p 5 h off g → (s.stack h).op g.op = e → e.kind = 2 → g.gen = ((s.stack h).opRun g.op).gen →
      ((s.stack h).opRun g.op).running = true → (s.stack h).offTriggers off (p.data.length - 64) →
      ∃ s', exec (.normRecord p) s = .next s' ∧ s'.cores = s.cores ∧ (∀ k, k ≠ h → s'.stack k = s.stack k) ∧
        bytesAfter (s.stack h).hbm (s'.stack h).hbm off (p.data.drop 64) ∧ opEnded s s' h g.op ∧
        (e.doneAddr = 0 → s'.inFlight = removeOne (Packet.plain p) s.inFlight))

/-- O49. The collectives send their data from HBM once they start, and a data packet writes exactly its bytes. On a
powered module, for a started operation that has not begun and whose data stand in HBM: ALLGATHER_START writes the
own shard to its place in the gathered region and leaves every other byte of HBM, PERMUTE_START and PASSROUND_START
leave HBM as it is; each marks the operation begun (or, where it ends at once, a held start begins the next
generation) and sends only CARILLON data packets of its operation, generation and stack (ALLGATHER also its signal
when it ends), which carry every block to its place: the shard to every other member, each chunk to its position at
its destination, the own block to the successor's slot of step 1. Data known to fail are a stored-data loss and
nothing is sent (the data are read in one step, where R276 reads them packet by packet: note 125). A CARILLON data
packet that an ALLGATHER, PERMUTE or PASSROUND takes writes exactly its bytes at its address; an ALLGATHER records
its blocks. One of a generation ahead (by less than half the range: the model's choice, note 31) is refused and
writes nothing, one behind is dropped and counted, one for no such operation is counted. No core changes. (Stated
for writes outside the trigger block, and for a PERMUTE that the packet does not complete.) -/
def Obligations.CollectivesMoveData : Prop :=
  ∀ (s : State) (h : StackId),
    (∀ (op : Fin 64) (written : Bool) (e : OpEntry), s.powered = true → (s.stack h).op op.val = e →
      ((s.stack h).due op.val 3 = true → (s.stack h).lostIn [(e.region, 1024 * e.count)] = [] →
        (s.stack h).offTriggers (e.region2 + 1024 * e.count * (s.rank - e.mr0)) (1024 * e.count) →
        ∃ s' ws, exec (.allgatherStart h op) s = .next s' ∧ s'.cores = s.cores ∧ (∀ g, g ≠ h → s'.stack g = s.stack g) ∧
          s'.inFlight = s.inFlight ++ ws ∧
          bytesAfter (s.stack h).hbm (s'.stack h).hbm (e.region2 + 1024 * e.count * (s.rank - e.mr0))
            (Memory.read (s.stack h).hbm e.region (1024 * e.count)) ∧
          (∀ w ∈ ws, carOwn s h op.val w ∨ (w.kind = .signal ∧ w.addr = e.doneAddr)) ∧
          (∀ j m, j < e.mcount → j ≠ s.rank - e.mr0 → s.rankCoord (e.mr0 + j) = some m →
            carSends s h ws m e.region (e.region2 + 1024 * e.count * (s.rank - e.mr0)) e.count) ∧
          (((s.stack h).opRun op.val).held = false → ((s'.stack h).opRun op.val).begun = true)) ∧
      ((s.stack h).due op.val 4 = true →
        (s.stack h).lostIn [(e.region, 1024 * e.unit * e.count), (e.region3, 4 * e.count)] = [] →
        ∃ s' ws, exec (.permuteStart h ⟨op, written⟩) s = .next s' ∧ s' = { s with hbmStacks := s'.hbmStacks, inFlight := s.inFlight ++ ws } ∧
          (∀ g, g ≠ h → s'.stack g = s.stack g) ∧ (s'.stack h).hbm = (s.stack h).hbm ∧ (∀ w ∈ ws, carOwn s h op.val w) ∧
          (∀ j m, j < e.count → s.rankCoord (permEntry (s.stack h).hbm e j).1 = some m →
            carSends s h ws m (e.region + 1024 * e.unit * j) (e.region2 + 1024 * e.unit * (permEntry (s.stack h).hbm e j).2) e.unit) ∧
          ((s'.stack h).opRun op.val).begun = true) ∧
      ((s.stack h).due op.val 5 = true → (s.stack h).lostIn [(e.region, 1024 * e.count)] = [] →
        ∃ s' ws, exec (.passroundStart h op) s = .next s' ∧
          s' = { s with hbmStacks := s'.hbmStacks, inFlight := s.inFlight ++ ws } ∧
          (∀ g, g ≠ h → s'.stack g = s.stack g) ∧ (s'.stack h).hbm = (s.stack h).hbm ∧ (∀ w ∈ ws, carOwn s h op.val w) ∧
          (∀ m, 1 < e.mcount → s.rankCoord (s.ringNext e) = some m → carSends s h ws m e.region e.region2 e.count) ∧
          (((s.stack h).opRun op.val).held = false → ((s'.stack h).opRun op.val).begun = true)) ∧
      ((s.stack h).due op.val 3 = true ∧ (s.stack h).lostIn [(e.region, 1024 * e.count)] ≠ [] →
        ∃ s', exec (.allgatherStart h op) s = .next s' ∧ carLost s s' h op.val) ∧
      ((s.stack h).due op.val 4 = true ∧ (s.stack h).lostIn [(e.region, 1024 * e.unit * e.count), (e.region3, 4 * e.count)] ≠ [] →
        ∃ s', exec (.permuteStart h ⟨op, written⟩) s = .next s' ∧ carLost s s' h op.val) ∧
      ((s.stack h).due op.val 5 = true ∧ (s.stack h).lostIn [(e.region, 1024 * e.count)] ≠ [] →
        ∃ s', exec (.passroundStart h op) s = .next s' ∧ carLost s s' h op.val)) ∧
    (∀ p off g e r, s.carMet p 1 h off g → (s.stack h).op g.op = e → (s.stack h).opRun g.op = r →
      (e.kind ∈ [3, 4, 5] → judgeData off (s.stack h) g = .take → (s.stack h).offTriggers off (p.data.length - 64) →
        (e.kind = 4 → r.got.length + (p.data.length - 64) / 64 ≠ 16 * e.unit * e.count) →
        ∃ s', exec (.carillonData p) s = .next s' ∧ s'.cores = s.cores ∧ (∀ k, k ≠ h → s'.stack k = s.stack k) ∧
          bytesAfter (s.stack h).hbm (s'.stack h).hbm off (p.data.drop 64) ∧
          (e.kind = 3 → r.got.length + (p.data.drop 64).length / 64 ≠ 16 * e.count * e.mcount →
            (s'.stack h).opRun g.op = { r with
              got := r.got ++ (List.range ((p.data.drop 64).length / 64)).map ((off - e.region2) / 64 + ·) })) ∧
      (e.kind ∈ [3, 4, 5] → g.gen ≠ r.gen → (g.gen - r.gen).toNat < 2 ^ 15 →
        ∃ s', exec (.carillonData p) s = .next s' ∧ s'.hbmStacks = s.hbmStacks ∧ s'.counters = s.counters ∧
          s'.inFlight = removeOne (Packet.plain p) s.inFlight ++ [refuseOf p]) ∧
      (e.kind ∈ [3, 4, 5] → 2 ^ 15 ≤ (g.gen - r.gen).toNat →
        ∃ s', exec (.carillonData p) s = .next s' ∧ s'.hbmStacks = s.hbmStacks ∧ s'.inFlight = removeOne (Packet.plain p) s.inFlight ∧
          counted s s' (0x400 + 0x20 * h.val + 4) 1) ∧
      (e.kind ∉ [3, 4, 5] →
        ∃ s', exec (.carillonData p) s = .next s' ∧ s'.hbmStacks = s.hbmStacks ∧ s'.inFlight = removeOne (Packet.plain p) s.inFlight ∧
          counted s s' (0x400 + 0x20 * h.val + 5) 1))

/-- O50. OPTIMIZE_START runs its records once and ends; a norm record marked NONFINITE skips the whole step. On a
powered module, for a started OPTIMIZE that has not begun: a step record or norm record known to fail is a stored-
data loss and nothing is written. If the norm record is marked NONFINITE, no byte of the stack's HBM changes, the
skipped step is counted and the operation ends. Otherwise a block known to fail among the list and the tensors GRAD,
MASTER, MOM1 and MOM2 of its unfrozen records is a stored-data loss and nothing is written (a block of MASTER, which
R295 reads in its second sweep only, among them: the one-step reading of note 125); with none the step runs over the
records of the list, of any number, one after another: a frozen record leaves HBM as it is, and an unfrozen one
leaves every byte as the writes of the two sweeps over the record, in the memory it finds, put it, the later write
winning, and every byte outside them as it was; with an empty list nothing is written or counted; the operation ends
(where no write falls into the trigger block). With no loss no core, no other stack and no device state changes. -/
def Obligations.OptimizerStepEnds : Prop :=
  ∀ (s : State) (h : StackId) (op : Fin 64) (e : OpEntry) (p : OptStep) (rec_ : Nat), s.powered = true →
    (s.stack h).op op.val = e → (s.stack h).due op.val 6 = true → OptStep.of (s.stack h).hbm e.region2 = p →
    leNat (Memory.read (s.stack h).hbm p.normRec 64) = rec_ → ∀ lost heads, lost = (s.stack h).lostIn (recordRanges (s.stack h).hbm e.region e.count (List.range 4)) →
    heads = (s.stack h).lostIn [(e.region2, 64)] ++ (s.stack h).lostIn [(p.normRec, 64)] →
    (heads ≠ [] ∨ (bitOf rec_ 64 = false ∧ lost ≠ []) →
      ∃ s', exec (.optimizeStart h op) s = .next s' ∧ carLost s s' h op.val) ∧
    (heads = [] → bitOf rec_ 64 = true ∨ lost = [] → ∃ s', exec (.optimizeStart h op) s = .next s' ∧ s'.cores = s.cores ∧ (∀ g, g ≠ h → s'.stack g = s.stack g) ∧
      s'.deviceState = s.deviceState ∧
      (bitOf rec_ 64 = true →
        (s'.stack h).hbm = (s.stack h).hbm ∧ counted s s' (0x400 + 0x20 * h.val + 11) 1 ∧ opEnded s s' h op.val) ∧
      (bitOf rec_ 64 = false → e.count = 0 →
        (s'.stack h).hbm = (s.stack h).hbm ∧ s'.counters = s.counters ∧ opEnded s s' h op.val) ∧
      (∀ writes : Mem → Nat → List (Nat × List Byte), (∀ m a, writes m a = if (recordBits m a).1 then [] else
          (optRecord m p (fp32 (BitVec.ofNat 32 (bitsOf rec_ 63 32))) (OptRecord.of m a)).writes) →
        bitOf rec_ 64 = false → ∃ ms : Nat → Mem, ms 0 = (s.stack h).hbm ∧ ms e.count = (s'.stack h).hbm ∧
          (∀ j, j < e.count → ((recordBits (ms j) (e.region + 256 * j)).1 = true → ms (j + 1) = ms j) ∧
            ∀ i, Memory.byte (ms (j + 1)) i = (writes (ms j) (e.region + 256 * j)).foldl
              (fun b w => if w.1 ≤ i ∧ i < w.1 + w.2.length then w.2.getD (i - w.1) 0 else b) (Memory.byte (ms j) i)) ∧
          ((∀ j, j < e.count → ∀ w ∈ writes (ms j) (e.region + 256 * j), (s.stack h).offTriggers w.1 w.2.length) →
            opEnded s s' h op.val)))

/-- O51. Bus loss, return and support move the Tympan's flags and setpoint; sags, swells, ripple, droop and converter
faults are counted. On a powered module: BUS_LOST with the bus present sets BUS_LOST and RIDE_WORK, clears BUS_OK,
takes the setpoint to 0 and counts RIDE_EVENTS; RIDE_RETAIN of a ride in its work part turns it into the retain
part; BUS_RETURN ends the ride and the slab rails return to their level's voltage (in a field test they stay at the
test voltage; in the last beat of a bar they rise to that of a faster level to come: note 154); a start-up whose
alignment is under way begins that step again. SUPPORT_ENTRY, enabled, with the bus there and below SUPPORT_V, cuts
the setpoint to 0, or to −3,000 W with RETURN_EN, and counts SUPPORT_EVENTS (the −3,000 W are the model's reading);
SUPPORT_END ends it. An ended sag or swell counts one in the counter of its depth class (boundaries 640 and 560 V;
920 and 960 V) and its duration class (10, 100, 1,000, 10,000 samples). RIPPLE_WINDOW keeps the four rms values and
counts each band above its limit. DROOP_STRETCH adds the stretched cycles to the slab's bar and its counter,
CONVERTER_FAULT sets the standing hold and counts, HINT_EXPIRE drops exactly the hints whose HINT_BEAT + HINT_LEN
has come. Nothing outside the Tympan and these counters changes, but for that alignment. -/
def Obligations.BusEventsAndRides : Prop :=
  ∀ (s : State) (t : Tympan), s.tympan = t → s.powered = true →
    (t.busLost = false → ∃ s', exec .busLost s = .next s' ∧ counted s s' 6 1 ∧
      s' = { s with counters := s'.counters, tympan := { t with
        busLost := true, busOk := false, rideWork := true, rideRetain := false, rideStart := s.refTime, busSet := 0, busNext := 0
        rideRest := false, support := false } }) ∧
    (t.busLost = true → t.rideWork = true →
      exec .rideRetain s = .next { s with tympan := { t with rideWork := false, rideRetain := true, rideRest := false } }) ∧
    (t.busLost = true →
      ∃ s' v, exec .busReturn s = .next s' ∧
        v = (if t.testV = true then t.slabLevel else BitVec.ofNat 3 (min s.level.toNat 6)) ∧
        s'.tympan = { t with
          busLost := false, rideWork := false, rideRetain := false, rideRest := false, slabLevel := s'.tympan.slabLevel } ∧
        s'.tympan.slabLevel ≤ v ∧ (s.beat % 100 ≠ 99 ∨ t.testV = true → s'.tympan.slabLevel = v) ∧
        (s.control.booting = none ∨ s.aligned = true → s' = { s with tympan := s'.tympan }) ∧
        (s.control.booting.isSome = true → s.aligned = false → s'.aligned = false ∧ s'.beat = s.beat ∧
          s'.counted = false ∧ s'.root = false ∧ s'.electing = true)) ∧
    (∀ v : BitVec 14, t.supportCfg.getLsbD 0 = true → t.support = false → t.busLost = false → v.toNat < t.supportV.toNat →
      ∃ s', exec (.supportEntry v) s = .next s' ∧ counted s s' 7 1 ∧
        s' = { s with counters := s'.counters, tympan := { t with
          support := true, busSet := if t.supportCfg.getLsbD 1 then -3000 else 0
          busNext := if t.supportCfg.getLsbD 1 then -3000 else 0 } }) ∧
    (t.support = true → exec .supportEnd s = .next { s with tympan := { t with support := false } }) ∧
    (∀ v n, 0 < n → ∀ cls, cls = (if n < 10 then 0 else if n < 100 then 1 else if n < 1000 then 2 else if n < 10000 then 3 else 4) →
      (v < 7200 → ∃ s', exec (.busSag v n) s = .next s' ∧ s' = { s with counters := s'.counters } ∧
        counted s s' (0x10 + 5 * (if 6400 ≤ v then 0 else if 5600 ≤ v then 1 else 2) + cls) 1) ∧
      (8800 < v → ∃ s', exec (.busSwell v n) s = .next s' ∧ s' = { s with counters := s'.counters } ∧
        counted s s' (0x20 + 5 * (if v ≤ 9200 then 0 else if v ≤ 9600 then 1 else 2) + cls) 1)) ∧
    (∀ b0 b1 b2 b3 : BitVec 16, ∃ s', exec (.rippleWindow b0 b1 b2 b3) s = .next s' ∧
      s' = { s with counters := s'.counters, tympan := { t with ripple := s'.tympan.ripple } } ∧
      (∀ i, i < 4 → Sparse.look 0 s'.tympan.ripple i = [b0, b1, b2, b3].getD i 0) ∧
      ∀ j, Sparse.look {} s'.counters j =
        if 0x30 ≤ j ∧ j < 0x34 ∧ (Sparse.look 0x64 t.rippleLim (j - 0x30)).toNat < ([b0, b1, b2, b3].getD (j - 0x30) 0).toNat
        then (Sparse.look {} s.counters j).add 1 else Sparse.look {} s.counters j) ∧
    (∀ (i : Fin 16) n, ∃ s', exec (.droopStretch i n) s = .next s' ∧
      s' = { s with forever := s'.forever, tympan := { t with stretched := s'.tympan.stretched } } ∧
      (∀ j, Sparse.look 0 s'.tympan.stretched j = Sparse.look 0 t.stretched j + if j = i.val then n else 0) ∧
      ∀ j, Sparse.look 0 s'.forever j =
        Sparse.look 0 s.forever j + if j = 0x1000 + 0x40 * i.val + 0x3F then BitVec.ofNat 64 n else 0) ∧
    (∃ s', exec .converterFault s = .next s' ∧ counted s s' 14 1 ∧
      s' = { s with counters := s'.counters, tympan := { t with convFault := true } }) ∧
    exec .hintExpire s = .next { s with tympan := { t with hints := t.hints.filter fun h => s.beat < h.beat + h.len } }

/-- O52. POWER_UP with every step passing ends in READY with its journal block; an empty Kettle or a lost REFCLK loses
every store. POWER_UP of an unpowered module with REFCLK valid, every signature of the module record good, no knell
flag, the signature of the preferred slot among them, no failing step and an alignment given (a delay for every port
with a far end, and a source among them or none), whose earlier journal holds only passes: it ends powered and in
READY, IMAGE_VALID 0, aligned, clocks released at a beat's first cycle, both relay paths working, TESTS_PASSED, no
alternative or skip, BOOT_TIME as measured, every core as new, every stack up, exactly the Reduit ports with a far
end trained; the preferred slot stays and runs; one block with outcome READY joins the journal, and SLOT0_VALID and
SLOT1_VALID show whose signature verified. CLOCK_FINAL_RELEASE at phase 0 of an aligned module whose start-up waits,
with no failing step, releases the clocks and enters READY with all cores as they were. KETTLE_EMPTY and REFCLK_LOST
power the module off: cores, stacks, ports, image and every register are as at reset, the module record and what
waits or was put out stay (a start-up that waits for its alignment is marked in the record as cut short).
REFCLK_VALID sets its flag and, with no rail up and no charged Kettle, begins the soft start (the model's choice,
note 164); SOFT_START_END ends it. -/
def Obligations.PowerComesAndGoes : Prop :=
  ∀ (s : State),
    (∀ (r : BootRun) (a : AlignRun), s.powered = false → s.tympan.refclk = true → r.fails = [] → r.align = some a →
      r.interrupted = none → (∀ d ∈ a.delays, d.2 ≠ 0) →
      (∀ p, r.noFarEnd.contains p = false → ∃ d ∈ a.delays, d.1 = p) →
      (∀ v, a.source = some v → r.noFarEnd.contains v.1 = false ∧ v.2.2.2.1 ≠ 0) → r.flash.journal = [] → r.flash.preferred = false → r.flash.knell = false →
      (∀ part, r.flash.part = some part → Config.partOk part = true) → s.control.booting = none → s.record.cut = none →
      s.record.preferredOk = true → s.record.knellSet = false → s.record.preferred ∉ r.flash.slots →
      (∀ b ∈ s.record.journal, ∀ e ∈ b.entries, e.result = 0 ∨ e.result = 5) →
      ∃ s' b, exec (.powerUp r) s = .next s' ∧ s'.powered = true ∧ s'.deviceState = Triple.all 2 ∧
        s'.imageValid = Triple.all 0 ∧ s'.image = none ∧ s'.aligned = true ∧ s'.clocksReleased = true ∧ s'.phase = 0 ∧ s'.relay = 3 ∧
        s'.control.testsPassed = true ∧ s'.control.altTaken = false ∧ s'.control.skipped = false ∧
        s'.control.bootTime = r.bootTime ∧ s'.control.booting = none ∧ s'.control.runningSlot = s.record.preferred ∧
        s'.cores = [] ∧ (∀ h, (s'.stack h).up = true) ∧
        (∀ p, (s'.port p).trained = !r.noFarEnd.contains p) ∧
        s'.record = { s.record with
          valid0 := !r.flash.slots.contains false, valid1 := !r.flash.slots.contains true
          journal := (s.record.journal ++ [b]).drop (s.record.journal.length + 1 - 4096)
          attempts := s.record.attempts + 1, powerups := s.record.powerups + 1 } ∧
        b.outcome = 1 ∧ b.slot = s.record.preferred ∧ b.restart = false ∧ b.knellSeen = false) ∧
    (∀ r second slot entries, s.powered = true → s.control.booting = some (r, second, slot, entries) → s.aligned = true →
      s.clocksReleased = false → s.phase = 0 → r.fails = [] → s.record.knellSet = false →
      ∃ s', exec .clockFinalRelease s = .next s' ∧ s'.deviceState = Triple.all 2 ∧ s'.clocksReleased = true ∧
        s'.control.booting = none ∧ s'.control.bootTime = r.bootTime ∧ s'.record.preferred = slot ∧ s'.cores = s.cores ∧
        s'.record.attempts = s.record.attempts + 1) ∧
    (s.powered = true →
      exec .kettleEmpty s = .next { State.reset with
        pending := s.pending, record := s.cutRecord, hostOut := s.hostOut, sbOut := s.sbOut
        tympan := { State.reset.tympan with refclk := s.tympan.refclk } } ∧
      exec .refclkLost s = .next { State.reset with
        pending := s.pending, record := s.cutRecord, hostOut := s.hostOut, sbOut := s.sbOut }) ∧
    (s.powered = false → exec .refclkLost s = .next { s with tympan := { s.tympan with refclk := false } }) ∧
    exec .refclkValid s = .next { s with tympan := { s.tympan with
      refclk := true, softStart := s.tympan.softStart || (!s.powered && !s.tympan.charged) } } ∧
    exec .softStartEnd s = .next { s with tympan := { s.tympan with softStart := false } }

/-- O53. A claim takes a free semaphore and reads 1; of two claims in one cycle the flam rule's winner reads 1, the
other 0; the holder's write frees it. On a port that reaches the module outside STARTING: reading SEM_k alone
returns 1 if the semaphore is free or the port's own, and the port then holds it; else 0, and the holder stays. When
both ports claim a free semaphore in one cycle (the command says so: the model's operand, note 99), port A wins in a
beat of even count and port B in one of odd count: the winner's read returns 1 and it holds the semaphore, the
loser's read returns 0 and changes no holder. A write by the holder frees it; a write by the other port changes
nothing and is counted in NOT_OWNER_WRITE. Of two writes in one cycle that of the port that wins claims is applied
second: where its command comes first, it waits, changing nothing, and follows the other's (the operand and the
waiting are the model's, note 168). No other semaphore changes, nor do a core, a stack or the device state. -/
def Obligations.SemaphoresHaveOneHolder : Prop :=
  ∀ (s : State) (p : HPort) (k : Fin 16) (own owner : BitVec 2), s.reached p = true → (s.host p).d3hot = false →
    s.noFirmware = false → s.dev ≠ 1 → (s.sem k.val).vote = owner →
    own = (match p with | .a => 1 | .b => 2) → ∀ wins, wins = decide ((s.beat % 2 = 0 ∧ p = .a) ∨ (s.beat % 2 = 1 ∧ p = .b)) →
    (∃ s', exec (.semAcquire p k false) s = .next s' ∧
      s'.hostOut = s.hostOut ++ [.value p (if owner = 0 ∨ owner = own then 1 else 0)] ∧
      (s'.sem k.val).vote = (if owner = 0 then own else owner) ∧ (∀ j, j ≠ k.val → s'.sem j = s.sem j) ∧
      s'.cores = s.cores ∧ s'.hbmStacks = s.hbmStacks ∧ s'.deviceState = s.deviceState) ∧
    (owner = 0 → ∃ s', exec (.semAcquire p k true) s = .next s' ∧
        s'.hostOut = s.hostOut ++ [.value p (if wins then 1 else 0)] ∧
        (s'.sem k.val).vote = (if wins then own else 0) ∧ (∀ j, j ≠ k.val → s'.sem j = s.sem j) ∧
        s'.cores = s.cores ∧ s'.hbmStacks = s.hbmStacks ∧ s'.deviceState = s.deviceState) ∧
    (∀ same : Bool, (∀ w ∈ s.heldWrites, w.1 ≠ otherPort p) →
      (same = false ∨ wins = false →
        ∃ s', exec (.semRelease p ⟨k, same⟩) s = .next s' ∧ s'.hostOut = s.hostOut ∧ s'.cores = s.cores ∧
          s'.hbmStacks = s.hbmStacks ∧ s'.deviceState = s.deviceState ∧ s'.heldWrites = s.heldWrites ∧
          (∀ j, j ≠ k.val → s'.sem j = s.sem j) ∧ (s'.sem k.val).vote = (if owner = own then 0 else owner) ∧
          ((s.sem k.val).differs = false → owner ≠ 0 → owner ≠ own →
            counted s s' (0x100 + 0x10 * (match p with | .a => 0 | .b => 1) + 3) 1)) ∧
      (same = true → wins = true →
        exec (.semRelease p ⟨k, same⟩) s =
          .next { s.unlatch p with heldWrites := s.heldWrites ++ [(p, .word (0x10000 + 4 * k.val) 0)] })) ∧
    (∀ same : Bool, s.heldWrites = [(otherPort p, .word (0x10000 + 4 * k.val) 0)] → owner ≠ 3 →
      ∃ s', exec (.semRelease p ⟨k, same⟩) s = .next s' ∧ s'.hostOut = s.hostOut ∧ s'.cores = s.cores ∧
        s'.hbmStacks = s.hbmStacks ∧ s'.deviceState = s.deviceState ∧ s'.heldWrites = [] ∧
        (∀ j, j ≠ k.val → s'.sem j = s.sem j) ∧ (s'.sem k.val).vote = 0 ∧
        ((s.sem k.val).differs = false → owner ≠ 0 → owner ≠ own →
          counted s s' (0x100 + 0x10 * (match p with | .a => 0 | .b => 1) + 3) 1))

/-- O54. Doorbells and configurations act within their limits; COMMAND_FETCH takes one entry and reserves its
completion. On a port that reaches the module outside STARTING: a doorbell sets SQ_TAIL or CQ_HEAD to its index if
that lies below the ring's size and is ignored otherwise. A write of SQ_CFG or CQ_CFG with LOG2 outside 4 to 12 is
ignored; else ENABLE is taken from the value, the other fields only while ENABLE was 0, and ENABLE set anew starts
head and tail at 0 (and PHASE at 1) and writes all held completion entries in the order they ended, each at the next
place with that pass's PHASE. COMMAND_FETCH of a ring that can fetch (not the second of two in one cycle from the
port that wins claims) makes the entry the command in progress (the second of two in one cycle waits until the first
was processed: note 168), advances SQ_HEAD by one modulo the size and reserves one completion entry; an unknown
opcode instead ends as it is fetched (the moment is the model's reading, note 138), counted in REFUSE_INVALID, with
a completion entry of status 3 at the completion ring's tail. No other ring of the port changes, nor the other port,
but that a command waiting behind a refused one goes on. -/
def Obligations.RingsFetchInOrder : Prop :=
  ∀ (s : State) (p : HPort) (k : Ring), s.reached p = true → (s.host p).d3hot = false → s.noFirmware = false → s.dev ≠ 1 →
    (∀ v : Word, ∃ s', exec (.sqTailDoorbell p k v) s = .next s' ∧ s'.hostOut = s.hostOut ∧ s'.counters = s.counters ∧
      s'.host (otherPort p) = s.host (otherPort p) ∧ (∀ j, (s'.host p).cq j = (s.host p).cq j) ∧
      (∀ j, j ≠ k.val → (s'.host p).sq j = (s.host p).sq j) ∧
      (s'.host p).sq k.val = (if v.toNat % 4096 < 2 ^ (((s.host p).sq k.val).cfg.toNat % 16)
        then { (s.host p).sq k.val with tail := BitVec.ofNat 12 (v.toNat % 4096) } else (s.host p).sq k.val)) ∧
    (∀ v : Word, ∃ s', exec (.cqHeadDoorbell p k v) s = .next s' ∧ s'.hostOut = s.hostOut ∧ s'.counters = s.counters ∧
      s'.host (otherPort p) = s.host (otherPort p) ∧ (∀ j, (s'.host p).sq j = (s.host p).sq j) ∧
      (∀ j, j ≠ k.val → (s'.host p).cq j = (s.host p).cq j) ∧
      (s'.host p).cq k.val = (if v.toNat % 4096 < 2 ^ (((s.host p).cq k.val).cfg.toNat % 16)
        then { (s.host p).cq k.val with head := BitVec.ofNat 12 (v.toNat % 4096) } else (s.host p).cq k.val)) ∧
    (∀ (v : Word) (q : SubRing), (s.host p).sq k.val = q →
      ∃ s' q', exec (.sqCfgWrite p k v) s = .next s' ∧ (s'.host p).sq k.val = q' ∧
        s'.host (otherPort p) = s.host (otherPort p) ∧ (∀ j, (s'.host p).cq j = (s.host p).cq j) ∧
        (∀ j, j ≠ k.val → (s'.host p).sq j = (s.host p).sq j) ∧
        (v.toNat % 16 < 4 ∨ 12 < v.toNat % 16 → q' = q) ∧
        (4 ≤ v.toNat % 16 → v.toNat % 16 ≤ 12 →
          q'.cfg.getLsbD 8 = v.getLsbD 8 ∧ q'.cfg.toNat % 2 ^ 7 = (if q.cfg.getLsbD 8 then q.cfg.toNat else v.toNat) % 2 ^ 7 ∧
          q' = { q with
            cfg := q'.cfg
            head := if v.getLsbD 8 && !q.cfg.getLsbD 8 then 0 else q.head
            tail := if v.getLsbD 8 && !q.cfg.getLsbD 8 then 0 else q.tail })) ∧
    (∀ (v : Word) (q : CompRing), (s.host p).cq k.val = q → q.held = [] ∨ (q.cfg.getLsbD 8 = false ∧ v.getLsbD 8 = false) →
      ∃ s' q', exec (.cqCfgWrite p k v) s = .next s' ∧ (s'.host p).cq k.val = q' ∧ s'.hostOut = s.hostOut ∧
        s'.host (otherPort p) = s.host (otherPort p) ∧ (∀ j, (s'.host p).sq j = (s.host p).sq j) ∧
        (∀ j, j ≠ k.val → (s'.host p).cq j = (s.host p).cq j) ∧
        (v.toNat % 16 < 4 ∨ 12 < v.toNat % 16 → q' = q) ∧
        (4 ≤ v.toNat % 16 → v.toNat % 16 ≤ 12 →
          q'.cfg.getLsbD 8 = v.getLsbD 8 ∧ q'.cfg.toNat % 16 = (if q.cfg.getLsbD 8 then q.cfg.toNat else v.toNat) % 16 ∧
          q' = { q with
            cfg := q'.cfg
            head := if v.getLsbD 8 && !q.cfg.getLsbD 8 then 0 else q.head
            tail := if v.getLsbD 8 && !q.cfg.getLsbD 8 then 0 else q.tail
            phase := q.phase || (v.getLsbD 8 && !q.cfg.getLsbD 8) })) ∧
    (∀ (v : Word) (q : CompRing) (n : Nat), (s.host p).cq k.val = q → q.cfg.getLsbD 8 = false → v.getLsbD 8 = true →
      4 ≤ v.toNat % 16 → v.toNat % 16 ≤ 12 → 2 ^ (v.toNat % 16) = n →
      ∃ s' out, exec (.cqCfgWrite p k v) s = .next s' ∧ ((s'.host p).cq k.val).held = [] ∧
        (∀ j, (s'.host p).sq j = (s.host p).sq j) ∧ (∀ j, j ≠ k.val → (s'.host p).cq j = (s.host p).cq j) ∧
        ((s'.host p).cq k.val).tail = BitVec.ofNat 12 (q.held.length % n) ∧ s'.hostOut = s.hostOut ++ out ∧
        out.filterMap (fun o => match o with | .write r a bs => some (r, a, bs) | _ => none) =
          q.held.zipIdx.map fun e => (p, q.base + BitVec.ofNat 64 (32 * (e.2 % n)),
            completionBytes e.1 (decide (e.2 / n % 2 = 0)) ((s.host p).sq e.1.sq.val).head)) ∧
    (∀ (f : Fetched) (entry : BitVec 512) (q : SubRing) (cq : Nat) (c : CompRing), f.bits = entry →
      (f.same = true → s.flam ≠ p) → (s.host p).fetches k = true → (s.host p).sq k.val = q →
      q.cfg.toNat / 16 % 8 = cq → (s.host p).cq cq = c →
      ∃ s', exec (.commandFetch p k f) s = .next s' ∧
        (∀ j, j ≠ k.val → (s'.host p).sq j = (s.host p).sq j) ∧ (∀ j, j ≠ cq → (s'.host p).cq j = (s.host p).cq j) ∧
        ((s'.host p).sq k.val).head = BitVec.ofNat 12 ((q.head.toNat + 1) % 2 ^ (q.cfg.toNat % 16)) ∧
        ((s'.host p).sq k.val).tail = q.tail ∧
        (knownCommand entry = true → ((s'.host p).sq k.val).active = some entry ∧ s'.hostOut = s.hostOut ∧
          s'.host (otherPort p) = s.host (otherPort p) ∧
          ((s'.host p).sq k.val).behind = (if f.same then s.underWay (otherPort p) else none) ∧
          s'.counters = s.counters ∧ (s'.host p).cq cq = { c with reserved := c.reserved + 1 }) ∧
        (knownCommand entry = false → ((s'.host p).sq k.val).active = none ∧ wentOn p (fun r => r = k) s s' ∧
          counted s s' (0x100 + 0x10 * hostIndex p) 1 ∧ ((s'.host p).cq cq).reserved = c.reserved ∧
          ((s'.host p).cq cq).tail = BitVec.ofNat 12 ((c.tail.toNat + 1) % 2 ^ (c.cfg.toNat % 16)) ∧
          ∃ more, s'.hostOut = s.hostOut ++ .write p (c.base + BitVec.ofNat 64 (32 * c.tail.toNat))
            (completionBytes ⟨k, entrySeq entry, 3, 0, none⟩ c.phase ((s'.host p).sq k.val).head) :: more))

/-- O55. A reset or link loss of a port frees its semaphores, clears its rings and page, and touches nothing shared;
tests hold their unit. On a powered module with no test of the port in progress, PORT_RESET and PERST_ASSERT free
exactly the semaphores the port holds, clear its rings, end its load, and, but for a link loss, reset its page,
latches and MSI-X table; link loss and PERST take the link down, D3hot entry enters D3hot; no core, stack, counter
or device state changes, nor the other port, but that its commands waiting behind one of the port go on (the
model's: that RATE, FLIT and WIDTH show 0 without a link, note 152, DEDUCED; PERST's link and the return to D0, note
60, DEDUCED and after PCI Express; the cleared form of the MSI-X table and of its pending bits, note 18, PRESUMED).
HOST_LINK_UP of an enabled port not held by a test, at a rate, width and encoding it has, sets them; D3HOT_EXIT
clears its flag alone; LOOPBACK_SLAVE sets its flag and, on entering, takes the link down with a link loss's effects
on the port (RATE, FLIT and WIDTH 0 too: note 152). A LOOPBACK that passes its checks is added to the tests in
progress with its unit busy (at host depth 2 with the tested link up, that link goes down and the tested port's own
tests end); LOOPBACK_DONE ends the test, the unit shows its result, and the command completes with status 0 if it
passed and 7 if not; LOOP packets that came back changed or not at all count as errors; a ring that two of them
crossed in different numbers of hops fails. -/
def Obligations.PortEventsAndTests : Prop :=
  ∀ (s : State) (p : HPort), s.powered = true →
    (∀ i e, (i, e) ∈ [(Instr.portReset p .hotReset, some PortEvent.hotReset), (.portReset p .flr, some .flr),
        (.portReset p .d3hot, some .d3hot), (.portReset p .linkLoss, some .linkLoss), (.perstAssert p, none)] →
      (∀ t ∈ s.loopTests, t.port ≠ p) → Sparse.wf (Triple.all 0) s.sems = true →
      ∃ s' h, exec i s = .next s' ∧ s'.host p = h ∧ wentOn p (fun _ => True) s s' ∧
        (∀ k, s'.sem k = if (s.sem k).vote = ownerCode p then Triple.all 0 else s.sem k) ∧
        h.sqs = [] ∧ h.cqs = [] ∧
        (e = some .linkLoss →
          h = { s.host p with
            sqs := [], cqs := [], lastRing := none, linkUp := false, rate := 0, flit := false, width := 0 }) ∧
        (e ≠ some .linkLoss →
          h.bar2Base = 0 ∧ h.debugSlab = 0 ∧ h.msix = [] ∧ h.pendingBits = 0 ∧ h.latch = none ∧ h.latch4 = none) ∧
        h.linkUp = ((s.host p).linkUp && e != some .linkLoss && e != none) ∧
        (e ≠ some .linkLoss → h.d3hot = decide (e = some .d3hot)) ∧ h.enabled = (s.host p).enabled ∧
        (∀ l, s.load = some l → s'.load = if l.port = p then none else some l) ∧
        s'.cores = s.cores ∧ s'.hbmStacks = s.hbmStacks ∧ s'.counters = s.counters ∧ s'.deviceState = s.deviceState ∧
        s'.hostOut = s.hostOut) ∧
    (∀ rate width flit, (s.host p).enabled = true → (s.host p).loopOut = false → rate ≠ 3 → width = 4 ∨ width = 8 → flit = true ∨ rate = 0 →
      ∃ s', exec (.hostLinkUp p rate width flit) s = .next s' ∧ s'.host (otherPort p) = s.host (otherPort p) ∧
        s'.host p = { s.host p with linkUp := true, rate, width, flit, slave := false } ∧ s'.cores = s.cores ∧
        s'.deviceState = s.deviceState) ∧
    ((s.host p).d3hot = true →
      ∃ s', exec (.d3hotExit p) s = .next s' ∧ s'.host (otherPort p) = s.host (otherPort p) ∧
        s'.host p = { s.host p with d3hot := false } ∧ s'.cores = s.cores ∧ s'.deviceState = s.deviceState) ∧
    ((s.host p).enabled = true →
      (∃ s', exec (.loopbackSlave p false) s = .next s' ∧ s'.host (otherPort p) = s.host (otherPort p) ∧
        s'.host p = { s.host p with slave := false } ∧ s'.cores = s.cores ∧ s'.deviceState = s.deviceState) ∧
      ((∀ t ∈ s.loopTests, t.port ≠ p) →
        ∃ s', exec (.loopbackSlave p true) s = .next s' ∧
          (if (s.host p).linkUp then wentOn p (fun _ => True) s s' else s'.host (otherPort p) = s.host (otherPort p)) ∧
          s'.host p = (if (s.host p).linkUp then
              { s.host p with
                sqs := [], cqs := [], lastRing := none, linkUp := false, rate := 0, flit := false, width := 0, slave := true }
            else { s.host p with slave := true }) ∧ s'.cores = s.cores ∧ s'.deviceState = s.deviceState)) ∧
    (∀ k e t, s.command p k 9 = some e → LoopTest.of p k e.toNat = t →
      badEntry e [(74, 64), (95, 80), (127, 96), (191, 128)] = false → bitsOf e.toNat 127 96 % 64 = 0 → t.valid = true →
      s.owns p 4 = true → s.loopOk t = true →
      ∃ s', exec (.loopback p k) s = .next s' ∧
        s'.loopTests = (if t.target = 0 ∧ t.depth = 2 ∧ (s.host (otherPort p)).linkUp = true
          then s.loopTests.filter (fun o => o.port != otherPort p) else s.loopTests) ++ [t] ∧
        (t.target = 0 → t.depth = 2 → (s'.host (otherPort p)).linkUp = false) ∧ s'.cores = s.cores ∧
        s'.deviceState = s.deviceState ∧ s'.counters = s.counters ∧ ((s'.host p).sq k.val).accepted = true ∧
        ((s'.host p).sq k.val).active = some e ∧
        (∀ q, t.target = 0 → hostIndex q = t.unit.toNat → (s'.host q).loopBusy = true) ∧
        (∀ q : RPort, t.target = 1 → q.val = t.unit.toNat → (s'.port q).loopBusy = true) ∧
        (t.target = 2 ∨ t.target = 3 → (s'.stack (Fin.ofNat 16 t.unit.toNat)).loopBusy = true ∧
          (s'.stack (Fin.ofNat 16 t.unit.toNat)).test = true)) ∧
    (∀ k t found given errors pass, s.loopTests.find? (fun t => t.port == p && t.ring == k) = some t →
      errors = (if t.target = 1 ∧ 4 ≤ t.depth.toNat
        then found + BitVec.ofNat 32 (t.wrong + ((loopData t.seed t.len).length - t.back)) else found) →
      pass = s.testPasses t errors (t.hopsOf given) →
      ∃ s' : State, exec (.loopbackDone p k found given) s =
          .next (s'.complete p k (if pass then 0 else 7) (bit pass +
            t.depth.toNat * 2 ^ 8 + errors.toNat * 2 ^ 16 + t.hopsOf given * 2 ^ 48)) ∧
        s'.loopTests = s.loopTests.filter (· != t) ∧ s'.cores = s.cores ∧ s'.deviceState = s.deviceState ∧
        s'.hostOut = s.hostOut ∧
        (∀ q, t.target = 0 → q = (if t.unit = 0 then .a else .b) → (s'.host q).loopBusy = false ∧ (s'.host q).loopPass = pass) ∧
        (∀ q : RPort, t.target = 1 → q.val = t.unit.toNat → (s'.port q).loopBusy = false ∧ (s'.port q).loopPass = pass) ∧
        (t.target = 2 ∨ t.target = 3 →
          (s'.stack (Fin.ofNat 16 t.unit.toNat)).loopBusy = false ∧ (s'.stack (Fin.ofNat 16 t.unit.toNat)).test = false ∧
          (s'.stack (Fin.ofNat 16 t.unit.toNat)).loopPass = pass))

/-- O56. LAUNCH, HALT, PHASE_HINT, POWER_CAP and DRAIN are refused in R377's order, or have their effect and complete.
For a command in progress of a ring: an entry with a reserved header bit set is refused with status 3 and has no
other effect; a well-formed LAUNCH from a port without RUN is refused with status 2, one whose conditions fail with
status 1. LAUNCH that passes its checks arms the launch at beat d and completes; HALT in RUNNING halts with cause 1
at this beat, and with a launch armed disarms it; PHASE_HINT adds its hint (power capped at 11,500 W), replaces that
of its beat, removes it for power 0, or drops the hint and counts it when eight others are pending, completing with
status 0 all the same (note 87); POWER_CAP sets JOB_CAP. DRAIN waits, and DRAIN_QUIET completes every DRAIN that
waits once the module is quiet, changing no device state, core or stack. -/
def Obligations.RingCommandsAct : Prop :=
  ∀ (s : State) (p : HPort) (k : Ring) (e : BitVec 512) (v : Nat), e.toNat = v →
    (∀ i op, (i, op) ∈ [(Instr.launch p k, 2), (.halt p k, 3), (.phaseHint p k, 4), (.powerCap p k, 5), (.drain p k, 10)] →
      s.command p k op = some e → bitsOf v 31 15 ≠ 0 → exec i s = .next (s.refuse p k 3)) ∧
    (s.command p k 2 = some e → badEntry e [(127, 64)] = false →
      (s.owns p 1 = false → exec (.launch p k) s = .next (s.refuse p k 2)) ∧
      (s.owns p 1 = true → s.launchOk (bitsOf v 127 64) = false → exec (.launch p k) s = .next (s.refuse p k 1)) ∧
      (s.owns p 1 = true → s.launchOk (bitsOf v 127 64) = true →
        ∃ s' : State, exec (.launch p k) s = .next (s'.complete p k 0 (s.beat % 2 ^ 64)) ∧
          s' = { s with armed := true, downbeatLo := s'.downbeatLo, downbeatHi := s'.downbeatHi, ports := s'.ports } ∧
          s'.downbeatLo = Triple.all (BitVec.ofNat 32 (bitsOf v 95 64)) ∧
          s'.downbeatHi = Triple.all (BitVec.ofNat 32 (bitsOf v 127 96)) ∧ (∀ q, (s'.port q).downbeat = none))) ∧
    (s.command p k 3 = some e → badEntry e [] = false → s.owns p 1 = true →
      (s.dev = 4 →
        ∃ s' : State, exec (.halt p k) s = .next (s'.complete p k 0 (s.beat % 2 ^ 64)) ∧ s'.deviceState = Triple.all 5 ∧
          s'.haltCause = 1 ∧ s'.haltBeat = BitVec.ofNat 64 s.beat ∧ s'.cores = s.cores) ∧
      (s.dev = 3 → s.armed = true →
        exec (.halt p k) s = .next (State.complete { s with
          armed := false, downbeatLo := Triple.all 0xFFFFFFFF, downbeatHi := Triple.all 0xFFFFFFFF } p k 0 (2 ^ 64 - 1)))) ∧
    (s.command p k 4 = some e → badEntry e [(175, 64)] = false → s.owns p 2 = true → s.dev = 3 ∨ s.dev = 4 →
      ∀ d w n rest, bitsOf v 127 64 = d → bitsOf v 143 128 = w → bitsOf v 175 144 = n →
        s.tympan.hints.filter (fun o => o.beat != d) = rest → (w ≠ 0 → n ≠ 0) →
        ∃ s' : State, exec (.phaseHint p k) s = .next (s'.complete p k 0 0) ∧
          s' = { s with counters := s'.counters, tympan := { s.tympan with hints := s'.tympan.hints } } ∧
          (w = 0 → s'.tympan.hints = rest ∧ s'.counters = s.counters) ∧
          (w ≠ 0 → rest.length < 8 → s'.tympan.hints = rest ++ [⟨d, min 11500 w, n⟩] ∧ s'.counters = s.counters) ∧
          (w ≠ 0 → 8 ≤ rest.length → s'.tympan.hints = s.tympan.hints ∧ counted s s' 10 1)) ∧
    (s.command p k 5 = some e → badEntry e [(95, 64)] = false → s.owns p 2 = true → 2 ≤ s.dev → s.dev ≤ 5 →
      exec (.powerCap p k) s =
        .next (State.complete { s with jobCap := Triple.all (BitVec.ofNat 32 (bitsOf v 95 64)) } p k 0 0)) ∧
    (s.command p k 10 = some e → badEntry e [] = false → s.owns p 6 = true → s.dev = 5 ∨ s.dev = 6 →
      ∃ s', exec (.drain p k) s = .next s' ∧ s'.draining p k = true ∧ s'.hostOut = s.hostOut ∧ s'.cores = s.cores ∧
        s'.hbmStacks = s.hbmStacks ∧ s'.deviceState = s.deviceState) ∧
    (s.powered = true → s.quiet = true → (∀ q, Sparse.wf {} (s.host q).sqs = true) →
      ∃ s', exec .drainQuiet s = .next s' ∧ s'.cores = s.cores ∧ s'.hbmStacks = s.hbmStacks ∧ s'.deviceState = s.deviceState ∧
        ∀ q r, ((s'.host q).sq r.val).active = if s.draining q r then none else ((s.host q).sq r.val).active)

/-- O57. COPY and BAR2 move exactly their bytes between the host and HBM; a host read that fails ends its command with
status 4. A COPY that passes its checks and names HBM of this module: from the host, the bytes given land at the
device address (blocks that the losing port's following write reaches in the same cycle wait for it: the operand and
the waiting are the model's, note 168), every other byte stays, its signal (if any) leaves, and it completes with
LEN; to the host, with no block lost, the bytes as they stand go out, and it completes; in space 0x4 likewise. To
another module, its first transfer leaves and the command goes on; an ACK of its transfer sends the next one, or
with none left completes it; a FAIL notice ends it with status 6 and is a detected fault of its port die (the
model's choices: transfers one after another, note 141; their tag and slot, note 82; one step each, note 79;
failures, note 84). BAR2_READ through a port's window returns exactly the bytes of the stack that the window address
names, and poisoned data if a block fails its reads; an AtomicOp is unsupported, a request across 4 KiB malformed;
BAR2_WRITE stores exactly its bytes and leaves every other byte of that stack; one that waits for the losing port's
write of its cycle follows it, and its bytes stand where both write. A DMA read that times out or errs ends a COPY
from the host with status 4 and no effect, and a LOAD_IMAGE, fetched or accepted, with status 4, leaving READY with
IMAGE_VALID 0 (what each leaves is note 89). (Stated for bytes that are no trigger's and no REDUCE's, in stacks that
came up.) -/
def Obligations.CopiesAndWindows : Prop :=
  ∀ (s : State) (p : HPort),
    (∀ k e q h o, s.command p k 6 = some e → CopyParams.of e.toNat = q → (s.stack h).up = true →
      (∀ w ∈ s.heldWrites, w.1 ≠ otherPort p) →
      badEntry e [(64, 64), (191, 128), (255, 192), (287, 256), (351, 288), (359, 352)] = false → s.copyParamsOk q = true →
      s.mayReach q = true → addrModule q.dev = s.coord → placeOf q.dev = some (.hbm h o) → (s.stack h).plain o q.len →
      (∀ data : CopyIn, q.toHost = false → data.bytes.length = q.len → data.same = [] ∨ s.flam ≠ p →
        ∃ s' : State, exec (.copy p k data none false) s = .next (s'.complete p k 0 q.len) ∧ s'.cores = s.cores ∧
          s'.heldWrites = s.heldWrites ∧
          (∀ g, g ≠ h → s'.stack g = s.giveRows.stack g) ∧ bytesAfter (s.stack h).hbm (s'.stack h).hbm o data.bytes ∧
          s'.deviceState = s.deviceState ∧ s'.counters = s.counters ∧ s'.hostOut = s.hostOut ∧
          (q.sigVal = 0 → s'.inFlight = s.giveRows.inFlight) ∧
          (q.sigVal ≠ 0 → ∃ w, s'.inFlight = s.giveRows.inFlight ++ [w] ∧ w.kind = .signal ∧ w.addr = q.sigAddr ∧
            w.sigVal.toNat = q.sigVal.toNat)) ∧
      (∀ data : CopyIn, q.toHost = false → data.bytes.length = q.len → data.same = List.range (q.len / 64) → s.flam = p →
        q.sigVal = 0 → exec (.copy p k data none false) s = .next (State.complete { s.copyCrossed p q (.hbm h o) with
          heldWrites := s.heldWrites ++ (List.range (q.len / 64)).map fun i =>
            (p, .block h (o + 64 * i) ((data.bytes.drop (64 * i)).take 64) false) } p k 0 q.len)) ∧
      (q.toHost = true → (∀ i, i < q.len / 64 → o / 64 + i ∉ (s.stack h).hbmBad) → ∀ data : CopyIn,
        exec (.copy p k data none false) s = .next (State.complete { s.copyCrossed p q (.hbm h o) with
          hostOut := s.hostOut ++ [.write p q.host (Memory.read (s.stack h).hbm o q.len)] } p k 0 q.len)) ∧
      (q.toHost = false → (∀ t ∈ s.loopTests, ¬(t.port = p ∧ t.ring = k)) → s.loadOf p k = false →
        exec (.hostReadTimeout p k) s = .next (s.complete p k 4 0) ∧
        exec (.hostReadError p k) s = .next (s.complete p k 4 0))) ∧
    (∀ k e q h o (data : CopyIn), s.command p k 6 = some e → CopyParams.of e.toNat = q → (s.stack h).up = true →
      (∀ w ∈ s.heldWrites, w.1 ≠ otherPort p) →
      badEntry e [(64, 64), (191, 128), (255, 192), (287, 256), (351, 288), (359, 352)] = false → s.copyParamsOk q = true →
      s.mayReach q = true → addrModule q.dev = s.coord → placeOf q.dev = some (.sc h o) →
      (q.toHost = false → data.bytes.length = q.len →
        ∃ s' : State, exec (.copy p k data none false) s = .next (s'.complete p k 0 q.len) ∧
          s' = { s with hbmStacks := s'.hbmStacks, inFlight := s'.inFlight, west := s'.west, east := s'.east } ∧
          (∀ g, g ≠ h → s'.stack g = s.giveRows.stack g) ∧
          (s'.stack h).hbm = (s.stack h).hbm ∧ bytesAfter (s.stack h).sc (s'.stack h).sc o data.bytes ∧
          (q.sigVal = 0 → s'.inFlight = s.giveRows.inFlight)) ∧
      (q.toHost = true → (∀ i, i < q.len / 64 → o / 64 + i ∉ (s.stack h).scBad) →
        exec (.copy p k data none false) s = .next (State.complete { s.copyCrossed p q (.sc h o) with
          hostOut := s.hostOut ++ [.write p q.host (Memory.read (s.stack h).sc o q.len)] } p k 0 q.len))) ∧
    (∀ k e q, s.command p k 6 = some e → CopyParams.of e.toNat = q → (∀ w ∈ s.heldWrites, w.1 ≠ otherPort p) →
      badEntry e [(64, 64), (191, 128), (255, 192), (287, 256), (351, 288), (359, 352)] = false → s.copyParamsOk q = true →
      s.mayReach q = true → addrModule q.dev ≠ s.coord → q.toHost = false → ∀ data : CopyIn, data.bytes.length = q.len →
      ∃ s' ps, exec (.copy p k data none false) s = .next s' ∧ ((s'.host p).sq k.val).active = some e ∧
        ((s'.host p).sq k.val).accepted = true ∧ ps ≠ [] ∧
        s'.inFlight = s.inFlight ++ ps ∧ (∀ w ∈ ps, w.kind = .write ∧ w.tag = EndPt.die s.coord (hostDie p)) ∧
        ps.flatMap (fun w => w.data) = data.bytes.take (65536 - q.dev.toNat % 65536) ∧ ps.head?.map (fun w => w.addr) = some q.dev ∧
        s'.cores = s.cores ∧ s'.hbmStacks = s.hbmStacks ∧ s'.hostOut = s.hostOut ∧ s'.counters = s.counters) ∧
    (∀ w c, s.powered = true → w.tag.module = s.coord → EndPt.coreOf w.tag = none → s.copyTagged w = some c → c.failed = false →
      s.stranded w = false →
      (w.kind = .ack → c.rest = [] →
        ∃ s' : State, exec (.ack w) s = .next (s'.complete c.port c.ring 0 (c.moved + c.under)) ∧ s'.hostOut = s.hostOut ∧
          s'.cores = s.cores ∧ s'.hbmStacks = s.hbmStacks ∧ s'.counters = s.counters) ∧
      (∀ ps rest, w.kind = .ack → c.rest = ps :: rest →
        ∃ s' ws, exec (.ack w) s = .next s' ∧ s'.inFlight = removeOne (Packet.plain w) s.inFlight ++ ws ∧
          ws.map (fun v : Packet => { v with via := none }) = ps.map (fun v : Packet => { v with via := none }) ∧ s'.hostOut = s.hostOut ∧
          s'.cores = s.cores ∧ s'.hbmStacks = s.hbmStacks ∧ s'.counters = s.counters) ∧
      (w.kind = .fail →
        ∃ s' : State, exec (.failNotice w) s = .next ((s'.complete c.port c.ring 6 c.moved).linkLost w.tag) ∧ s'.hostOut = s.hostOut ∧
          s'.cores = s.cores ∧ s'.hbmStacks = s.hbmStacks ∧ s'.counters = s.counters)) ∧
    (∀ l, s.load = some l → s.powered = true →
      exec (.hostReadTimeout l.port l.ring) s = .next (State.complete { s with load := none } l.port l.ring 4 0) ∧
      exec (.hostReadError l.port l.ring) s = .next (State.complete { s with load := none } l.port l.ring 4 0)) ∧
    (∀ k e, s.command p k 1 = some e → loadBad e = false → s.owns p 0 = true → s.loadOk = true →
      (∀ t ∈ s.loopTests, ¬(t.port = p ∧ t.ring = k)) → s.loadOf p k = false →
      ∃ s' : State, exec (.hostReadTimeout p k) s = .next (s'.complete p k 4 0) ∧
        exec (.hostReadError p k) s = .next (s'.complete p k 4 0) ∧ s'.deviceState = Triple.all 2 ∧
        s'.imageValid = Triple.all 0 ∧ s'.load = none ∧ s'.cores = s.cores) ∧
    (∀ offset len (how : Bar2How), s.reached p = true → (s.host p).d3hot = false → s.noFirmware = false → s.dev ≠ 1 →
      how.atomic = true ∨ 4096 < offset % 4096 + len → ∀ r, r = (if how.atomic then HostOut.unsupported p else .malformed p) →
      exec (.bar2Read p offset len how) s = .next { s.unlatch p with hostOut := s.hostOut ++ [r] } ∧
      ∀ bytes, bytes.length = len → (∀ w ∈ s.heldWrites, w.1 ≠ otherPort p) →
        exec (.bar2Write p offset bytes how) s = .next { s.unlatch p with hostOut := s.hostOut ++ [r] }) ∧
    (∀ offset len h o (how : Bar2How), s.reached p = true → (s.host p).d3hot = false → s.noFirmware = false → s.dev ≠ 1 →
      how.atomic = false → how.fails = [] → inWindow2 p offset len = true → s.window p offset = (h, o) → (s.stack h).up = true →
      ((∀ b ∈ blocksOf o len, b ∉ (s.stack h).hbmBad) →
        exec (.bar2Read p offset len how) s = .next { s.unlatch p with
          hostOut := s.hostOut ++ [.data p (Memory.read (s.stack h).hbm o len)] }) ∧
      ((∃ b ∈ blocksOf o len, b ∈ (s.stack h).hbmBad) →
        ∃ s', exec (.bar2Read p offset len how) s = .next s' ∧ s'.hostOut = s.hostOut ++ [.poisoned p] ∧
          (s'.stack h).hbm = (s.stack h).hbm ∧ s'.faults.lastFault = BitVec.ofNat 32 (6 + h.val * 2 ^ 8)) ∧
      (∀ bytes, bytes.length = len → (s.stack h).plain o len → (∀ b ∈ blocksOf o len, b ∉ (s.stack h).hbmBad) →
        (how.same = [] ∨ s.flam ≠ p → (∀ w ∈ s.heldWrites, w.1 ≠ otherPort p) →
          ∃ s', exec (.bar2Write p offset bytes how) s = .next s' ∧ s' = { s.unlatch p with hbmStacks := s'.hbmStacks } ∧
            (∀ g, g ≠ h → s'.stack g = s.stack g) ∧ bytesAfter (s.stack h).hbm (s'.stack h).hbm o bytes) ∧
        (how.same = [0] → s.flam = p → (∀ w ∈ s.heldWrites, w.1 ≠ otherPort p) → 0 < len → o % 64 + len ≤ 64 →
          exec (.bar2Write p offset bytes how) s =
            .next { s.unlatch p with heldWrites := s.heldWrites ++ [(p, .block h o bytes false)] }) ∧
        (∀ a bs, s.heldWrites = [(otherPort p, .block h a bs false)] → 0 < bs.length → a % 64 + bs.length ≤ 64 →
          (s.stack h).plain a bs.length → a / 64 ∉ (s.stack h).hbmBad →
          ∃ s', exec (.bar2Write p offset bytes how) s = .next s' ∧
            s' = { s.unlatch p with hbmStacks := s'.hbmStacks, heldWrites := [] } ∧ (∀ g, g ≠ h → s'.stack g = s.stack g) ∧
            ∀ i, Memory.byte (s'.stack h).hbm i =
              if a ≤ i ∧ i < a + bs.length then bs.getD (i - a) 0 else if o ≤ i ∧ i < o + len then bytes.getD (i - o) 0
              else Memory.byte (s.stack h).hbm i)))

/-- O58. The TRACE actions move the trace through its states; events queue, are collected and read out; SNAPSHOT
captures and writes. TRACE commands of a port that holds TRACE, well formed and outside STARTING, complete with the
beat and have these effects: configure keeps MODE and post count; arm takes the settings, empties every buffer and
queues one epoch record in each selected slab; a forced trigger of an armed trace, or of one stopped in this cycle
before any trigger (which stays frozen), puts the mark ahead of the queue of each selected slab, notes the beat and
begins a graph build; stop freezes; a read-out writes the selected slabs' headers and records and counts them.
TRACE_FREEZE freezes a triggered trace after its post count; TRACE_COLLECT moves the oldest queued event to the end
of the buffer while it has room, by a request of the write class, and waits while no entry of that class is free;
TRACE_EPOCH, at phase 0 of a beat whose low 32 bits are 0, queues the epoch record in every selected slab with room.
WF_GRAPH_BUILD ends the build with the new graph; SNAPSHOT captures the counters and TRACE_REC, builds a graph of
its own, leaving a build under way, writes what fits and completes. No core and no HBM byte changes. The model's
choices: SNAPSHOT's two sweeps (note 78), a read-out in one step (79), events dropped at a full stop-mode buffer
(80), when a trace freezes (81), the epoch row (98) and that an arm sets the captured TRACE_REC to 0 (61, DEDUCED). -/
def Obligations.TraceAndSnapshot : Prop :=
  ∀ (s : State) (p : HPort) (k : Ring) (e : BitVec 512),
    (s.owns p 3 = true → 2 ≤ s.dev →
      (s.traceAction p k 1 = some e → badEntry e [(71, 64), (72, 72), (127, 96)] = false →
        exec (.traceConfigure p k) s = .next (State.complete { s with trace := { s.trace with
          mode := bitOf e.toNat 72, post := BitVec.ofNat 32 (bitsOf e.toNat 127 96) } } p k 0 (s.beat % 2 ^ 64))) ∧
      (s.traceAction p k 2 = some e → badEntry e [(71, 64)] = false →
        ∃ s' : State, exec (.traceArm p k) s = .next (s'.complete p k 0 (s.beat % 2 ^ 64)) ∧ s'.cores = s.cores ∧
          s'.trace = { s.trace with
            phase := .armed, overflow := false, recs := 0, snapRecs := 0, trigBeat := 0, trigTime := none, stopTime := none, armMode := s.trace.mode, armPost := s.trace.post
            armTrig := s.trace.trig, armSlabs := s.trace.slabs } ∧
          ∀ h, s'.stack h = { s.stack h with trace := if s.trace.slabs.getLsbD h.val then { queue := [epochRecord s.beat] } else {} }) ∧
      (s.traceAction p k 3 = some e → badEntry e [(71, 64)] = false →
        s.trace.phase = .armed ∨ (s.trace.phase = .frozen ∧ s.trace.stopTime = some s.refTime) →
        ∃ s' : State, exec (.traceForceTrigger p k) s = .next (s'.complete p k 0 (s.beat % 2 ^ 64)) ∧ s'.cores = s.cores ∧
          s'.trace = { s.trace with
            phase := if s.trace.phase = .frozen then .frozen else .triggered, trigBeat := BitVec.ofNat 64 s.beat
            building := true, trigTime := some s.refTime, stopTime := none, sweepBeat := s.beat } ∧
          ∀ h, s'.stack h = if s.trace.armSlabs.getLsbD h.val then { s.stack h with trace := { (s.stack h).trace with
            queue := triggerMark s.beat s.phase :: (s.stack h).trace.queue } } else s.stack h) ∧
      (s.traceAction p k 4 = some e → badEntry e [(71, 64)] = false → s.trace.phase = .armed ∨ s.trace.phase = .triggered →
        exec (.traceStop p k) s = .next (State.complete { s with trace := { s.trace with
          phase := .frozen, stopTime := if s.trace.phase = .armed then some s.refTime else none } } p k 0 (s.beat % 2 ^ 64))) ∧
      (s.traceAction p k 5 = some e → badEntry e [(71, 64), (191, 128), (223, 192)] = false →
        s.trace.phase = .idle ∨ s.trace.phase = .frozen →
        ∀ out, readOutRows (bitsOf e.toNat 223 192) (s.tracedSlabs.map fun h => (h.val, (s.stack h).trace)) = out →
          exec (.traceReadOut p k) s = .next (State.complete { s with
            hostOut := s.hostOut ++ if out.1 = [] then [] else [.write p (BitVec.ofNat 64 (bitsOf e.toNat 191 128)) out.1] } p k 0
            (s.beat % 2 ^ 64 + out.2 * 2 ^ 64)))) ∧
    (s.powered = true →
      (s.trace.phase = .triggered → s.trace.trigBeat.toNat + s.trace.armPost.toNat < s.beat →
        exec .traceFreeze s = .next { s with trace := { s.trace with phase := .frozen } }) ∧
      (∀ h b r rest, (s.stack h).trace = b → b.queue = r :: rest → s.traceOn = true → b.full = false →
        b.records.length < 67108864 →
        ((s.stack h).entryFor (decide (s.dev = 4)) .write = none → exec (.traceCollect h) s = .next s) ∧
        ((s.stack h).entryFor (decide (s.dev = 4)) .write ≠ none → ∃ s', exec (.traceCollect h) s = .next s' ∧ s'.cores = s.cores ∧ (∀ g, g ≠ h → s'.stack g = s.stack g) ∧
          (s'.stack h).hbm = (s.stack h).hbm ∧ (s'.stack h).trace.queue = rest ∧
          (s'.stack h).trace.records = b.records ++ [r] ∧ s'.trace.recs = s.trace.recs + 1 ∧
          (∃ q, (s'.stack h).reqs = (s.stack h).reqs ++ [q] ∧ q.cls = .write))) ∧
      (s.phase = 0 → WinStep.epoch ∉ s.windowDone → s.beat % 2 ^ 32 = 0 → s.traceOn = true →
        ∃ s', exec .traceEpoch s = .next s' ∧ s'.cores = s.cores ∧ s'.windowDone = .epoch :: s.windowDone ∧
          ∀ h, s'.stack h =
            if s.trace.armSlabs.getLsbD h.val = true ∧ (s.stack h).trace.queue.length < 256 ∧
                ¬(s.trace.armMode = true ∧ (s.stack h).trace.full = true) then
              { s.stack h with trace := { (s.stack h).trace with queue := (s.stack h).trace.queue ++ [epochRecord s.beat] } }
            else s.stack h) ∧
      (s.trace.building = true →
        exec .wfGraphBuild s = .next { s with trace := { s.trace with
          building := false, waits := s.waitDump, valid := true, cycle := hasCycle s.coord (s.graphEdges s.trace.sweepBeat)
          wfBeat := BitVec.ofNat 64 s.beat, edges := s.graphEdges s.trace.sweepBeat } })) ∧
    (s.command p k 7 = some e → badEntry e [(127, 64), (159, 128)] = false → bitsOf e.toNat 127 64 % 64 = 0 →
      s.owns p 5 = true → 2 ≤ s.dev →
      ∃ (s' : State) (n : Nat), exec (.snapshot p k) s = .next (s'.complete p k 0 (s.beat % 2 ^ 64 + n * 2 ^ 64)) ∧ s'.cores = s.cores ∧
        s'.hbmStacks = s.hbmStacks ∧ s'.deviceState = s.deviceState ∧ s'.capture = s.takeCapture ∧
        s'.trace = { s.trace with
          snapRecs := s.trace.recs, waits := s.waitDump, valid := true, cycle := hasCycle s.coord (s.graphEdges s.beat)
          wfBeat := BitVec.ofNat 64 s.beat, edges := s.graphEdges s.beat } ∧ n = s'.snapLength (bitsOf e.toNat 159 128) ∧
        s'.hostOut = if n = 0 then s.hostOut else
          s.hostOut ++ [.write p (BitVec.ofNat 64 (bitsOf e.toNat 127 64)) (s'.snapBytes n)])

/-- O59. Reads latch, vote and return what stands; writes act for the holder alone; a snapshot takes its values on one
edge. On a port that reaches the module outside STARTING: a read of BAR0 returns the register as it stands, or the
latched upper half if it is the matching _HI right after its _LO; a _LO that is not SC latches its upper half; a
reserved location is an Unsupported Request; BAR4 returns the debug word. A read of DEVICE_STATE or TEMPO whose
copies differ returns the majority, rewrites all copies with it and counts one repair. An access that is not one
aligned word with every byte enable, an AtomicOp and a write at a reserved word of BAR4 are Unsupported Requests,
eight bytes of the MSI-X table apart; a write at a debug word is ignored; SCRATCH_k, MBX_OP, MBX_ARG_k, LATE_MARGIN,
SLOPE (200 to 5,000), TRACE_TRIG and TRACE_SLABS take a write of their group's holder, and any other port's is
counted in NOT_OWNER_WRITE and ignored; MBX_GO with 1 and BUSY 0 starts the operation, or sets RESULT to 3
(invalid), 2 (not CONTROL) or 1 (state), in that order, and is otherwise ignored; HOLD_FORCE takes bit 0 from either
port, of two writes in one cycle that of the port that wins claims second (its command waits where it comes first:
note 168); a word of the port's MSI-X table is replaced, and a pending vector it unmasks is sent (note 18); a write
of a bit of SCRATCH_k through the bit window changes that bit alone. BEAT_SNAP with 1 by the holder of SNAPSHOT
captures beat, phase and stroke index together, CNT_SNAP every counter and the trace's record count (that an arm
clears the captured count is the model's choice, note 61); another value changes nothing. -/
def Obligations.RegisterAccesses : Prop :=
  ∀ (s : State) (p : HPort), s.reached p = true → (s.host p).d3hot = false → s.noFirmware = false → s.dev ≠ 1 →
    ∀ free : Prop, (free ↔ ∀ w ∈ s.heldWrites, w.1 ≠ otherPort p) →
    (∀ (u v : Word) (same : Bool), s.heldWrites = [(otherPort p, .word 0x30038 u)] →
      ∃ s', exec (.registerWrite p 0x30038 v { same }) s = .next s' ∧
        s' = { s.unlatch p with holdForce := u.getLsbD 0, heldWrites := [] }) ∧
    (∀ (v : Word) (same : Bool), free →
      (same = false ∨ s.flam ≠ p → exec (.registerWrite p 0x30038 v { same }) s =
        .next { s.unlatch p with holdForce := v.getLsbD 0 }) ∧
      (same = true → s.flam = p → exec (.registerWrite p 0x30038 v { same }) s =
        .next { s.unlatch p with heldWrites := s.heldWrites ++ [(p, .word 0x30038 v)] })) ∧
    (∀ (v : Word) (c : Control) (r : MbxRun), free → s.control = c →
      r = ⟨c.mbxOp, c.mbxArgs.get 0, c.mbxArgs.get 1, c.mbxArgs.get 2, c.mbxArgs.get 3⟩ →
      ∃ s', exec (.registerWrite p 0x94 v {}) s = .next s' ∧ s' = { s.unlatch p with control := s'.control } ∧
        (v ≠ 1 ∨ c.mbxRun.isSome = true → s'.control = c) ∧
        (v = 1 → c.mbxRun = none → s'.control =
          if r.valid = false then { c with mbxResult := 3 } else if s.owns p 7 = false then { c with mbxResult := 2 }
          else if mbxAccepted r.op.toNat s.dev = false then { c with mbxResult := 1 }
          else { c with mbxRun := some r, mbxPortB := decide (p = .b) })) ∧
    (∀ i w v e, free → i < 64 → w < 4 → (s.host p).msixEntry i = e →
      ∃ s' e', exec (.registerWrite p (0x58000 + 16 * i + 4 * w) v {}) s = .next s' ∧ s'.cores = s.cores ∧
        s'.counters = s.counters ∧ s'.host (otherPort p) = s.host (otherPort p) ∧ (s'.host p).msixEntry i = e' ∧
        (∀ j, j ≠ i → (s'.host p).msixEntry j = (s.host p).msixEntry j) ∧
        (∀ b, b < 128 → e'.getLsbD b =
          if b / 32 = w then (if w = 3 ∧ b ≠ 96 then false else v.getLsbD (b % 32)) else e.getLsbD b) ∧
        (e'.getLsbD 96 = false → (s.host p).pendingBits.getLsbD i = true →
          s'.hostOut = s.hostOut ++ [.msix p (BitVec.ofNat 6 i)] ∧ (s'.host p).pendingBits.getLsbD i = false) ∧
        (e'.getLsbD 96 = true ∨ (s.host p).pendingBits.getLsbD i = false →
          s'.hostOut = s.hostOut ∧ (s'.host p).pendingBits = (s.host p).pendingBits)) ∧
    (∀ off v, free → off = 0xA0008 ∨ off = 0xA000C →
      ∃ s', exec (.registerWrite p off v {}) s = .next s' ∧ s'.hostOut = s.hostOut ∧ s'.cores = s.cores ∧
        s'.hbmStacks = s.hbmStacks ∧ (s.owns p 3 = false → s'.trace = s.trace ∧ counted s s' (0x100 + 0x10 * hostIndex p + 3) 1) ∧
        (s.owns p 3 = true → s'.counters = s.counters ∧ s'.trace = if off = 0xA0008
          then { s.trace with trig := BitVec.ofNat 4 v.toNat } else { s.trace with slabs := BitVec.ofNat 16 v.toNat })) ∧
    (∀ off v, off % 4 = 0 → s.reg p off = some v → semAt off = none → isRt (actualOff off) = false → off ≠ 0x10040 → off ≠ 0x10044 →
      ∃ s', exec (.loLatchRead p {} off) s = .next s' ∧ s'.cores = s.cores ∧ s'.hbmStacks = s.hbmStacks ∧
        s'.deviceState = s.deviceState ∧
        s'.hostOut = s.hostOut ++ [.value p (match (s.host p).latch with
          | some (o, w) => if o = off then w else v
          | none => v)] ∧
        (isLo off = true → (s'.host p).latch = (s.reg p (off + 4)).map fun w => (off + 4, w)) ∧
        (isLo off = false → (s'.host p).latch = none)) ∧
    (∀ off, s.reg p off = none →
      ∃ s', exec (.loLatchRead p {} off) s = .next s' ∧ s'.hostOut = s.hostOut ++ [.unsupported p] ∧ s'.cores = s.cores ∧
        s'.counters = s.counters ∧ s'.deviceState = s.deviceState) ∧
    (∀ (how : Access) off v, ¬(how.len = 4 ∧ how.enables = 15 ∧ off % 4 = 0 ∧ how.atomic = false) →
      how.bar4 = true ∨ twoWords how off = false →
      (∃ s', exec (.loLatchRead p how off) s = .next s' ∧ s'.hostOut = s.hostOut ++ [.unsupported p] ∧ s'.control = s.control ∧
        s'.cores = s.cores ∧ s'.counters = s.counters) ∧
      (free → ∃ s', exec (.registerWrite p off v how) s = .next s' ∧ s'.hostOut = s.hostOut ++ [.unsupported p] ∧
        s'.control = s.control ∧ s'.cores = s.cores ∧ s'.counters = s.counters)) ∧
    (∀ off v, off % 4 = 0 → s.debugReg p off = some v → (s.host p).latch4 = none →
      ∃ s', exec (.loLatchRead p { bar4 := true } off) s = .next s' ∧ s'.hostOut = s.hostOut ++ [.value p v] ∧ s'.cores = s.cores ∧
        s'.counters = s.counters) ∧
    (∀ off, off = 0x14 ∨ off = 0x30018 → (s.host p).latch = none →
      ∃ s', exec (.rtVoteRead p off) s = .next s' ∧ s'.cores = s.cores ∧
        s'.hostOut = s.hostOut ++ [.value p (if off = 0x14 then BitVec.ofNat 32 s.deviceState.vote.toNat
          else BitVec.ofNat 32 s.tempo.vote.toNat)] ∧
        (off = 0x14 → s'.deviceState = Triple.all s.deviceState.vote ∧
          (s.deviceState.differs = true → counted s s' 0 1) ∧ (s.deviceState.differs = false → s'.counters = s.counters)) ∧
        (off = 0x30018 → s'.tempo = Triple.all s.tempo.vote ∧
          (s.tempo.differs = true → counted s s' 0 1) ∧ (s.tempo.differs = false → s'.counters = s.counters))) ∧
    (∀ (how : Access) off v, free → how.bar4 = true → off % 4 = 0 → how.len = 4 → how.enables = 15 → how.atomic = false →
      exec (.registerWrite p off v how) s = .next (if (s.debugReg p off).isSome then s.unlatch p
        else { s.unlatch p with hostOut := s.hostOut ++ [.unsupported p] })) ∧
    (∀ off g v, free → (∃ k, k < 8 ∧ off = 0x40 + 4 * k ∧ g = 7) ∨ (∃ k, k < 5 ∧ off = 0x80 + 4 * k ∧ g = 7) ∨ (off = 0x3003C ∧ g = 1) ∨ (off = 0x40004 ∧ g = 2) →
      ∃ s', exec (.registerWrite p off v {}) s = .next s' ∧ s'.hostOut = s.hostOut ∧ s'.cores = s.cores ∧
        s'.hbmStacks = s.hbmStacks ∧ s'.deviceState = s.deviceState ∧
        (s.owns p g = false → s'.control = s.control ∧ s'.lateMargin = s.lateMargin ∧ s'.tympan = s.tympan ∧
          counted s s' (0x100 + 0x10 * hostIndex p + 3) 1) ∧
        (s.owns p g = true → s'.counters = s.counters ∧
          (∀ j, Sparse.look 0 s'.control.scratch j =
            if off = 0x40 + 4 * j ∧ j < 8 then v else Sparse.look 0 s.control.scratch j) ∧
          s'.control.mbxOp = (if off = 0x80 then BitVec.ofNat 8 v.toNat else s.control.mbxOp) ∧
          (∀ j : Fin 4, s'.control.mbxArgs.get j = if off = 0x84 + 4 * j.val then v else s.control.mbxArgs.get j) ∧
          s'.lateMargin = (if off = 0x3003C then BitVec.ofNat 12 v.toNat else s.lateMargin) ∧
          s'.tympan = (if off = 0x40004 ∧ 200 ≤ v.toNat % 2 ^ 13 ∧ v.toNat % 2 ^ 13 ≤ 5000
            then { s.tympan with slope := BitVec.ofNat 13 v.toNat } else s.tympan))) ∧
    (∀ k b v, k < 8 → b < 32 → s.owns p 7 = true →
      ∃ s', exec (.bitAliasWrite p (0x2000000 + (0x40 + 4 * k) * 32 + 4 * b) v) s = .next s' ∧ s'.cores = s.cores ∧
        s'.counters = s.counters ∧ ∀ j i, i < 32 → (Sparse.look 0 s'.control.scratch j).getLsbD i =
          if j = k ∧ i = b then v.getLsbD 0 else (Sparse.look 0 s.control.scratch j).getLsbD i) ∧
    (s.owns p 5 = true → ∀ v,
      (∃ s', exec (.beatSnap p v) s = .next s' ∧ s'.cores = s.cores ∧ s'.counters = s.counters ∧
        s'.snapBeat = (if v = 1 then BitVec.ofNat 64 s.beat else s.snapBeat) ∧
        s'.snapPhase = (if v = 1 then BitVec.ofNat 32 (s.phase % 2 ^ 12 + bit s.rest * 2 ^ 12 +
          (if s.phase < s.tempo.vote.toNat - 40 then 0 else 2 ^ 13)) else s.snapPhase) ∧
        s'.snapStroke = (if v = 1 then (if s.dev = 4 then BitVec.ofNat 64 (s.t - 1) else 0) else s.snapStroke)) ∧
      (∃ s', exec (.cntSnap p v) s = .next s' ∧ s'.cores = s.cores ∧ s'.counters = s.counters ∧
        s'.capture = (if v = 1 then s.takeCapture else s.capture) ∧
        s'.trace = { s.trace with snapRecs := if v = 1 then s.trace.recs else s.trace.snapRecs }))

/-- O60. A load goes through READY to LOADED or back with its reason; the mailbox returns report, certificate, or the
staged slot. LOAD_IMAGE that passes its checks clears IMAGE_VALID, puts the device in READY and, unless the level is
M7, stages the image's bytes, with every core as it was. IMAGE_CHECK rejects an image whose first failing check
gives a code and an offset: the load ends and the command completes with status 5 and that code and offset; nothing
else changes but the staged bytes and what the comparison of the cables leaves. In KNELL it ends with code 0x00F0;
at M7 it waits. An image that passes every check is installed: LOADED, IMAGE_VALID 1, no context running, every
register and bank clear (what an install clears beyond R431's list is the model's choice, note 96), and the command
completes with status 0. ATTEST returns the 1,024-byte report, CERT the first 4,096 bytes of the certificate (the
model's choice, note 71); FW_STAGE of verified firmware writes it to the slot that is not running, names that slot
preferred and sets STAGED with RESULT 0; firmware that does not verify gives RESULT 4 and changes no slot. Each ends
BUSY. -/
def Obligations.LoadsAndMailbox : Prop :=
  ∀ (s : State),
    (∀ p k e extents image, s.command p k 1 = some e → loadBad e = false → s.owns p 0 = true → s.loadOk = true →
      extents.length = bitsOf e.toNat 143 128 + 1 → image.length = extentBytes extents →
      ∃ s', exec (.loadImage p k extents image) s = .next s' ∧ s'.deviceState = Triple.all 2 ∧ s'.imageValid = Triple.all 0 ∧
        s'.load = some ⟨p, k, extents, image⟩ ∧ s'.cores = s.cores ∧ s'.counters = s.counters ∧ s'.hostOut = s.hostOut ∧
        (s.level ≠ 7 → s'.imageStage.take (min (imgLength image) image.length) = image.take (imgLength image)) ∧
        ((s'.host p).sq k.val).active = some e ∧ ((s'.host p).sq k.val).accepted = true) ∧
    (∀ l, s.load = some l → s.powered = true → s.dev = 6 →
      exec .imageCheck s = .next (State.complete { s with load := none } l.port l.ring 5 0xF0)) ∧
    (∀ l, s.load = some l → s.powered = true → s.dev ≠ 6 →
      (s.level = 7 → exec .imageCheck s = .next s) ∧
      (s.level ≠ 7 → ∀ code off, headChecks l.extents l.bytes = some (code, off) →
        exec .imageCheck s =
          .next (State.complete { s.stage l.bytes with load := none } l.port l.ring 5 (code + off * 2 ^ 32))) ∧
      (s.level ≠ 7 → headChecks l.extents l.bytes = none → ∀ code off,
        ((s.stage l.bytes).compareCables l.bytes).bodyChecks l.bytes = some (code, off) →
        exec .imageCheck s =
          .next (State.complete { (s.stage l.bytes).compareCables l.bytes with load := none } l.port l.ring 5 (code + off * 2 ^ 32))) ∧
      (s.level ≠ 7 → headChecks l.extents l.bytes = none → ((s.stage l.bytes).compareCables l.bytes).bodyChecks l.bytes = none →
        Sparse.wf Core.fresh s.cores = true →
        ∃ (s' : State) (r : Nat), exec .imageCheck s = .next (s'.complete l.port l.ring 0 r) ∧ s'.deviceState = Triple.all 3 ∧
          s'.imageValid = Triple.all 1 ∧ s'.load = none ∧ s'.image = some (imageOf l.bytes) ∧ s'.counters = s.counters ∧
          ∀ c, (s'.core c).roll = none ∧ (s'.core c).banks = Quad.all {} ∧ (s'.core c).arrayQ = [] ∧
            ∀ k, ((s'.core c).ctx k).running = false ∧ ((s'.core c).ctx k).regs = [] ∧ ((s'.core c).ctx k).n = 0)) ∧
    (∀ r, s.powered = true → s.control.mbxRun = some r →
      (r.op = 1 → (s.report r).length = 1024 ∧
        exec .attest s = .next { s with control := { s.control with
          mbxRun := none, mbxResult := 0, mbxData := s.report r, mbxLen := 1024 } }) ∧
      (r.op = 2 →
        exec .cert s = .next { s with control := { s.control with
          mbxRun := none, mbxResult := 0, mbxData := Config.certificate.take 4096
          mbxLen := BitVec.ofNat 13 (min 4096 Config.certificate.length) } }) ∧
      (r.op = 3 → ∀ fw, Memory.read (s.stack (Fin.ofNat 16 r.a0.toNat)).hbm r.offset r.a3.toNat = fw →
        (∀ b ∈ blocksOf r.offset r.a3.toNat, b ∉ (s.stack (Fin.ofNat 16 r.a0.toNat)).hbmBad) →
        ∃ s', exec .fwStage s = .next s' ∧ s' = { s with record := s'.record, control := { s.control with
            mbxRun := none, mbxResult := s'.control.mbxResult, mbxData := [], mbxLen := 0, staged := s'.control.staged } } ∧
          (Config.firmwareOk fw = true → s'.control.mbxResult = 0 ∧ s'.control.staged = true ∧
            s'.record.slot (!s.control.runningSlot) = fw ∧ s'.record.slot s.control.runningSlot = s.record.slot s.control.runningSlot ∧
            s'.record.preferred = !s.control.runningSlot ∧ s'.record.valid (!s.control.runningSlot) = true) ∧
          (Config.firmwareOk fw = false → s'.control.mbxResult = 4 ∧ s'.record = s.record ∧
            s'.control.staged = s.control.staged)))
end

