-- ==== Sys2Proof/Laws/Sparse.lean ====
section
/-! SUPPORT. Laws of sparse maps and memories: a read after a write, every other place left alone, the
canonical form kept. -/

namespace Sys2Proof.Machine

variable {α : Type}

theorem Sparse.look_drop_other (d : α) (m : Sparse α) {j k : Nat} (h : j ≠ k) :
    Sparse.look d (Sparse.drop k m) j = Sparse.look d m j := by
  induction m with
  | nil => rfl
  | cons p m ih =>
    obtain ⟨i, v⟩ := p
    by_cases hik : i = k
    · subst hik
      have : Sparse.drop i ((i, v) :: m) = Sparse.drop i m := by simp [Sparse.drop]
      rw [this, ih]
      simp [Sparse.look, Ne.symm h]
    · have : Sparse.drop k ((i, v) :: m) = (i, v) :: Sparse.drop k m := by simp [Sparse.drop, hik]
      rw [this]
      simp only [Sparse.look, ih]

theorem Sparse.look_drop_same (d : α) (m : Sparse α) (k : Nat) :
    Sparse.look d (Sparse.drop k m) k = d := by
  induction m with
  | nil => rfl
  | cons p m ih =>
    obtain ⟨i, v⟩ := p
    by_cases hik : i = k
    · subst hik
      have : Sparse.drop i ((i, v) :: m) = Sparse.drop i m := by simp [Sparse.drop]
      rw [this, ih]
    · have : Sparse.drop k ((i, v) :: m) = (i, v) :: Sparse.drop k m := by simp [Sparse.drop, hik]
      rw [this]
      simp [Sparse.look, hik, ih]

theorem Sparse.look_insert_other (d : α) (m : Sparse α) (v : α) {j k : Nat} (h : j ≠ k) :
    Sparse.look d (Sparse.insert k v m) j = Sparse.look d m j := by
  induction m with
  | nil => simp [Sparse.insert, Sparse.look, Ne.symm h]
  | cons p m ih =>
    obtain ⟨i, w⟩ := p
    simp only [Sparse.insert]
    split
    · simp [Sparse.look, Ne.symm h]
    · simp only [Sparse.look, ih]

theorem Sparse.look_insert_same (d : α) (m : Sparse α) (v : α) (k : Nat) (h : ∀ p ∈ m, p.1 ≠ k) :
    Sparse.look d (Sparse.insert k v m) k = v := by
  induction m with
  | nil => simp [Sparse.insert, Sparse.look]
  | cons p m ih =>
    obtain ⟨i, w⟩ := p
    simp only [Sparse.insert]
    split
    · simp [Sparse.look]
    · have hi : i ≠ k := h (i, w) (by simp)
      simp only [Sparse.look, hi, if_false]
      exact ih fun q hq => h q (by simp [hq])

theorem Sparse.drop_ne (m : Sparse α) (k : Nat) : ∀ p ∈ Sparse.drop k m, p.1 ≠ k := by
  intro p hp
  simpa [Sparse.drop] using (List.mem_filter.mp hp).2

/-- A key reads what was put there. -/
@[simp] theorem Sparse.look_put_same [DecidableEq α] (d : α) (m : Sparse α) (k : Nat) (v : α) :
    Sparse.look d (Sparse.put d m k v) k = v := by
  unfold Sparse.put
  split
  · rename_i h; rw [h, Sparse.look_drop_same]
  · exact Sparse.look_insert_same d _ v k (Sparse.drop_ne m k)

/-- Every other key reads as before. -/
theorem Sparse.look_put_other [DecidableEq α] (d : α) (m : Sparse α) (v : α) {j k : Nat} (h : j ≠ k) :
    Sparse.look d (Sparse.put d m k v) j = Sparse.look d m j := by
  unfold Sparse.put
  split
  · exact Sparse.look_drop_other d m h
  · rw [Sparse.look_insert_other d _ v h, Sparse.look_drop_other d m h]

theorem Sparse.wfFrom_mono [DecidableEq α] (d : α) {b b' : Nat} (m : Sparse α) (h : b' ≤ b)
    (hw : Sparse.wfFrom d b m = true) : Sparse.wfFrom d b' m = true := by
  cases m with
  | nil => rfl
  | cons p m =>
    simp only [Sparse.wfFrom, Bool.and_eq_true, decide_eq_true_eq] at *
    exact ⟨⟨by omega, hw.1.2⟩, hw.2⟩

theorem Sparse.wfFrom_drop [DecidableEq α] (d : α) (k : Nat) (m : Sparse α) :
    ∀ b, Sparse.wfFrom d b m = true → Sparse.wfFrom d b (Sparse.drop k m) = true := by
  induction m with
  | nil => intro b _; rfl
  | cons p m ih =>
    obtain ⟨i, v⟩ := p
    intro b hw
    simp only [Sparse.wfFrom, Bool.and_eq_true, decide_eq_true_eq] at hw
    by_cases hik : i = k
    · have : Sparse.drop k ((i, v) :: m) = Sparse.drop k m := by simp [Sparse.drop, hik]
      rw [this]
      exact Sparse.wfFrom_mono d _ (by omega) (ih _ hw.2)
    · have : Sparse.drop k ((i, v) :: m) = (i, v) :: Sparse.drop k m := by simp [Sparse.drop, hik]
      rw [this]
      simp only [Sparse.wfFrom, Bool.and_eq_true, decide_eq_true_eq]
      exact ⟨hw.1, ih _ hw.2⟩

theorem Sparse.wfFrom_insert [DecidableEq α] (d : α) (k : Nat) (v : α) (hv : v ≠ d) (m : Sparse α)
    (hk : ∀ p ∈ m, p.1 ≠ k) :
    ∀ b, b ≤ k → Sparse.wfFrom d b m = true → Sparse.wfFrom d b (Sparse.insert k v m) = true := by
  induction m with
  | nil => intro b hb _; simp [Sparse.insert, Sparse.wfFrom, hb, hv]
  | cons p m ih =>
    obtain ⟨i, w⟩ := p
    intro b hb hw
    simp only [Sparse.wfFrom, Bool.and_eq_true, decide_eq_true_eq] at hw
    have hi : i ≠ k := hk (i, w) (by simp)
    simp only [Sparse.insert]
    split
    · simp only [Sparse.wfFrom, Bool.and_eq_true, decide_eq_true_eq]
      exact ⟨⟨hb, hv⟩, ⟨by omega, hw.1.2⟩, hw.2⟩
    · simp only [Sparse.wfFrom, Bool.and_eq_true, decide_eq_true_eq]
      exact ⟨hw.1, ih (fun q hq => hk q (by simp [hq])) _ (by omega) hw.2⟩

/-- A write keeps the canonical form. -/
theorem Sparse.put_wf [DecidableEq α] (d : α) (m : Sparse α) (k : Nat) (v : α)
    (hw : Sparse.wf d m = true) : Sparse.wf d (Sparse.put d m k v) = true := by
  unfold Sparse.put
  split
  · exact Sparse.wfFrom_drop d k m 0 hw
  · rename_i hv
    exact Sparse.wfFrom_insert d k v hv _ (Sparse.drop_ne m k) 0 (Nat.zero_le k)
      (Sparse.wfFrom_drop d k m 0 hw)

/-! ## Memories -/

@[simp] theorem Memory.byte_setByte_same (m : Mem) (a : Nat) (v : Byte) :
    Memory.byte (Memory.setByte m a v) a = v := Sparse.look_put_same _ _ _ _

theorem Memory.byte_setByte_other (m : Mem) (v : Byte) {a b : Nat} (h : b ≠ a) :
    Memory.byte (Memory.setByte m a v) b = Memory.byte m b := Sparse.look_put_other _ _ _ h

/-- A write leaves every byte outside the written range alone. -/
theorem Memory.byte_write_outside (vs : List Byte) :
    ∀ (m : Mem) (a b : Nat), (b < a ∨ a + vs.length ≤ b) →
      Memory.byte (Memory.write m a vs) b = Memory.byte m b := by
  induction vs with
  | nil => intro m a b _; rfl
  | cons v vs ih =>
    intro m a b h
    simp only [Memory.write, List.length_cons] at *
    rw [ih _ _ _ (by omega), Memory.byte_setByte_other _ _ (by omega)]

/-- Inside the range the byte written is read. -/
theorem Memory.byte_write_inside (vs : List Byte) :
    ∀ (m : Mem) (a i : Nat), i < vs.length →
      Memory.byte (Memory.write m a vs) (a + i) = vs.getD i 0 := by
  induction vs with
  | nil => intro m a i h; simp at h
  | cons v vs ih =>
    intro m a i h
    cases i with
    | zero =>
      simp only [Memory.write, Nat.add_zero]
      rw [Memory.byte_write_outside vs _ _ _ (by omega)]
      simp
    | succ i =>
      simp only [Memory.write, List.length_cons] at *
      have := ih (Memory.setByte m a v) (a + 1) i (by omega)
      rw [show a + (i + 1) = a + 1 + i by omega, this]
      simp

theorem Memory.setByte_wf (m : Mem) (a : Nat) (v : Byte) (h : Memory.wf m = true) :
    Memory.wf (Memory.setByte m a v) = true := Sparse.put_wf _ _ _ _ h

/-- Writing keeps the canonical form of a memory. -/
theorem Memory.write_wf (vs : List Byte) :
    ∀ (m : Mem) (a : Nat), Memory.wf m = true → Memory.wf (Memory.write m a vs) = true := by
  induction vs with
  | nil => intro m a h; exact h
  | cons v vs ih => intro m a h; exact ih _ _ (Memory.setByte_wf m a v h)

/-- n little-endian bytes of a number stand for it modulo 256^n. -/
theorem leNat_leBytes (n v : Nat) : leNat (leBytes n v) = v % 256 ^ n := by
  induction n generalizing v with
  | zero => simp [leBytes, leNat, Nat.mod_one]
  | succ n ih =>
    rw [leBytes, leNat, ih, BitVec.toNat_ofNat, show 256 ^ (n + 1) = 256 * 256 ^ n from Nat.pow_succ']
    exact (Nat.mod_mul (x := v) (a := 256) (b := 256 ^ n)).symm

theorem Quad.get_set_same (q : Quad α) (k : Fin 4) (v : α) : (q.set k v).get k = v := by
  match k with
  | 0 => rfl
  | 1 => rfl
  | 2 => rfl
  | 3 => rfl

theorem Quad.get_set_other (q : Quad α) (v : α) {j k : Fin 4} (h : j ≠ k) :
    (q.set k v).get j = q.get j := by
  match j, k with
  | 0, 0 => exact absurd rfl h
  | 0, 1 => rfl
  | 0, 2 => rfl
  | 0, 3 => rfl
  | 1, 0 => rfl
  | 1, 1 => exact absurd rfl h
  | 1, 2 => rfl
  | 1, 3 => rfl
  | 2, 0 => rfl
  | 2, 1 => rfl
  | 2, 2 => exact absurd rfl h
  | 2, 3 => rfl
  | 3, 0 => rfl
  | 3, 1 => rfl
  | 3, 2 => rfl
  | 3, 3 => exact absurd rfl h

/-- Three equal copies vote for their value. -/
@[simp] theorem Triple.vote_all {w : Nat} (v : BitVec w) : (Triple.all v).vote = v := by
  simp [Triple.all, Triple.vote]

end Sys2Proof.Machine
end

