-- ==== Sys2Proof/Laws/State.lean ====
section
/-! SUPPORT. Laws of the state: what each update of the state, of a core and of a context leaves alone, and what it
makes a read give. -/

namespace Sys2Proof.Machine

open Sys2Proof

/-! ## Sparse maps, once more -/

theorem Sparse.drop_drop {α : Type} (k : Nat) (m : Sparse α) : Sparse.drop k (Sparse.drop k m) = Sparse.drop k m := by
  simp [Sparse.drop, List.filter_filter]

theorem Sparse.drop_insert {α : Type} (k : Nat) (v : α) (m : Sparse α) :
    Sparse.drop k (Sparse.insert k v m) = Sparse.drop k m := by
  induction m with
  | nil => simp [Sparse.insert, Sparse.drop]
  | cons p m ih =>
    obtain ⟨j, w⟩ := p
    simp only [Sparse.insert]
    split
    · simp [Sparse.drop]
    · simp only [Sparse.drop, List.filter_cons] at ih ⊢
      split <;> simp [ih]

/-- Of two writes to one key the later stands. -/
@[simp] theorem Sparse.put_put {α : Type} [DecidableEq α] (d : α) (m : Sparse α) (k : Nat) (v w : α) :
    Sparse.put d (Sparse.put d m k v) k w = Sparse.put d m k w := by
  have h : Sparse.drop k (Sparse.put d m k v) = Sparse.drop k m := by
    unfold Sparse.put
    split
    · exact Sparse.drop_drop k m
    · rw [Sparse.drop_insert, Sparse.drop_drop]
  rw [Sparse.put, h, Sparse.put]


/-! ## The state -/

@[simp] theorem State.setCore_pending (s : State) (c : CoreId) (x : Core) : (s.setCore c x).pending = s.pending := rfl
@[simp] theorem State.setCore_powered (s : State) (c : CoreId) (x : Core) : (s.setCore c x).powered = s.powered := rfl
@[simp] theorem State.setCore_refTime (s : State) (c : CoreId) (x : Core) : (s.setCore c x).refTime = s.refTime := rfl
@[simp] theorem State.setCore_beat (s : State) (c : CoreId) (x : Core) : (s.setCore c x).beat = s.beat := rfl
@[simp] theorem State.setCore_phase (s : State) (c : CoreId) (x : Core) : (s.setCore c x).phase = s.phase := rfl
@[simp] theorem State.setCore_rest (s : State) (c : CoreId) (x : Core) : (s.setCore c x).rest = s.rest := rfl
@[simp] theorem State.setCore_restNext (s : State) (c : CoreId) (x : Core) : (s.setCore c x).restNext = s.restNext := rfl
@[simp] theorem State.setCore_holdSent (s : State) (c : CoreId) (x : Core) : (s.setCore c x).holdSent = s.holdSent := rfl
@[simp] theorem State.setCore_windowDone (s : State) (c : CoreId) (x : Core) : (s.setCore c x).windowDone = s.windowDone := rfl
@[simp] theorem State.setCore_deviceState (s : State) (c : CoreId) (x : Core) : (s.setCore c x).deviceState = s.deviceState := rfl
@[simp] theorem State.setCore_imageValid (s : State) (c : CoreId) (x : Core) : (s.setCore c x).imageValid = s.imageValid := rfl
@[simp] theorem State.setCore_tempo (s : State) (c : CoreId) (x : Core) : (s.setCore c x).tempo = s.tempo := rfl
@[simp] theorem State.setCore_tempoPrev (s : State) (c : CoreId) (x : Core) : (s.setCore c x).tempoPrev = s.tempoPrev := rfl
@[simp] theorem State.setCore_tempoMin (s : State) (c : CoreId) (x : Core) : (s.setCore c x).tempoMin = s.tempoMin := rfl
@[simp] theorem State.setCore_voteSpan (s : State) (c : CoreId) (x : Core) : (s.setCore c x).voteSpan = s.voteSpan := rfl
@[simp] theorem State.setCore_aligned (s : State) (c : CoreId) (x : Core) : (s.setCore c x).aligned = s.aligned := rfl
@[simp] theorem State.setCore_root (s : State) (c : CoreId) (x : Core) : (s.setCore c x).root = s.root := rfl
@[simp] theorem State.setCore_electing (s : State) (c : CoreId) (x : Core) : (s.setCore c x).electing = s.electing := rfl
@[simp] theorem State.setCore_counted (s : State) (c : CoreId) (x : Core) : (s.setCore c x).counted = s.counted := rfl
@[simp] theorem State.setCore_alignLost (s : State) (c : CoreId) (x : Core) : (s.setCore c x).alignLost = s.alignLost := rfl
@[simp] theorem State.setCore_rootHops (s : State) (c : CoreId) (x : Core) : (s.setCore c x).rootHops = s.rootHops := rfl
@[simp] theorem State.setCore_agree (s : State) (c : CoreId) (x : Core) : (s.setCore c x).agree = s.agree := rfl
@[simp] theorem State.setCore_mismatchLast (s : State) (c : CoreId) (x : Core) : (s.setCore c x).mismatchLast = s.mismatchLast := rfl
@[simp] theorem State.setCore_beatLog (s : State) (c : CoreId) (x : Core) : (s.setCore c x).beatLog = s.beatLog := rfl
@[simp] theorem State.setCore_sealedParts (s : State) (c : CoreId) (x : Core) : (s.setCore c x).sealedParts = s.sealedParts := rfl
@[simp] theorem State.setCore_clocksReleased (s : State) (c : CoreId) (x : Core) : (s.setCore c x).clocksReleased = s.clocksReleased := rfl
@[simp] theorem State.setCore_clocksProvisional (s : State) (c : CoreId) (x : Core) : (s.setCore c x).clocksProvisional = s.clocksProvisional := rfl
@[simp] theorem State.setCore_arithStopped (s : State) (c : CoreId) (x : Core) : (s.setCore c x).arithStopped = s.arithStopped := rfl
@[simp] theorem State.setCore_downbeatLo (s : State) (c : CoreId) (x : Core) : (s.setCore c x).downbeatLo = s.downbeatLo := rfl
@[simp] theorem State.setCore_downbeatHi (s : State) (c : CoreId) (x : Core) : (s.setCore c x).downbeatHi = s.downbeatHi := rfl
@[simp] theorem State.setCore_armed (s : State) (c : CoreId) (x : Core) : (s.setCore c x).armed = s.armed := rfl
@[simp] theorem State.setCore_launchCount (s : State) (c : CoreId) (x : Core) : (s.setCore c x).launchCount = s.launchCount := rfl
@[simp] theorem State.setCore_t (s : State) (c : CoreId) (x : Core) : (s.setCore c x).t = s.t := rfl
@[simp] theorem State.setCore_holdSources (s : State) (c : CoreId) (x : Core) : (s.setCore c x).holdSources = s.holdSources := rfl
@[simp] theorem State.setCore_holdForce (s : State) (c : CoreId) (x : Core) : (s.setCore c x).holdForce = s.holdForce := rfl
@[simp] theorem State.setCore_lateMargin (s : State) (c : CoreId) (x : Core) : (s.setCore c x).lateMargin = s.lateMargin := rfl
@[simp] theorem State.setCore_lateMarginNow (s : State) (c : CoreId) (x : Core) : (s.setCore c x).lateMarginNow = s.lateMarginNow := rfl
@[simp] theorem State.setCore_fenceMargin (s : State) (c : CoreId) (x : Core) : (s.setCore c x).fenceMargin = s.fenceMargin := rfl
@[simp] theorem State.setCore_copyLag (s : State) (c : CoreId) (x : Core) : (s.setCore c x).copyLag = s.copyLag := rfl
@[simp] theorem State.setCore_beatMargin (s : State) (c : CoreId) (x : Core) : (s.setCore c x).beatMargin = s.beatMargin := rfl
@[simp] theorem State.setCore_minMargin (s : State) (c : CoreId) (x : Core) : (s.setCore c x).minMargin = s.minMargin := rfl
@[simp] theorem State.setCore_holds (s : State) (c : CoreId) (x : Core) : (s.setCore c x).holds = s.holds := rfl
@[simp] theorem State.setCore_level (s : State) (c : CoreId) (x : Core) : (s.setCore c x).level = s.level := rfl
@[simp] theorem State.setCore_floor (s : State) (c : CoreId) (x : Core) : (s.setCore c x).floor = s.floor := rfl
@[simp] theorem State.setCore_haltCause (s : State) (c : CoreId) (x : Core) : (s.setCore c x).haltCause = s.haltCause := rfl
@[simp] theorem State.setCore_haltBeat (s : State) (c : CoreId) (x : Core) : (s.setCore c x).haltBeat = s.haltBeat := rfl
@[simp] theorem State.setCore_haltTime (s : State) (c : CoreId) (x : Core) : (s.setCore c x).haltTime = s.haltTime := rfl
@[simp] theorem State.setCore_snapBeat (s : State) (c : CoreId) (x : Core) : (s.setCore c x).snapBeat = s.snapBeat := rfl
@[simp] theorem State.setCore_snapPhase (s : State) (c : CoreId) (x : Core) : (s.setCore c x).snapPhase = s.snapPhase := rfl
@[simp] theorem State.setCore_snapStroke (s : State) (c : CoreId) (x : Core) : (s.setCore c x).snapStroke = s.snapStroke := rfl
@[simp] theorem State.setCore_coord (s : State) (c : CoreId) (x : Core) : (s.setCore c x).coord = s.coord := rfl
@[simp] theorem State.setCore_shape (s : State) (c : CoreId) (x : Core) : (s.setCore c x).shape = s.shape := rfl
@[simp] theorem State.setCore_shapeValid (s : State) (c : CoreId) (x : Core) : (s.setCore c x).shapeValid = s.shapeValid := rfl
@[simp] theorem State.setCore_relay (s : State) (c : CoreId) (x : Core) : (s.setCore c x).relay = s.relay := rfl
@[simp] theorem State.setCore_ditherSeed (s : State) (c : CoreId) (x : Core) : (s.setCore c x).ditherSeed = s.ditherSeed := rfl
@[simp] theorem State.setCore_hbmStacks (s : State) (c : CoreId) (x : Core) : (s.setCore c x).hbmStacks = s.hbmStacks := rfl
@[simp] theorem State.setCore_ports (s : State) (c : CoreId) (x : Core) : (s.setCore c x).ports = s.ports := rfl
@[simp] theorem State.setCore_west (s : State) (c : CoreId) (x : Core) : (s.setCore c x).west = s.west := rfl
@[simp] theorem State.setCore_east (s : State) (c : CoreId) (x : Core) : (s.setCore c x).east = s.east := rfl
@[simp] theorem State.setCore_inFlight (s : State) (c : CoreId) (x : Core) : (s.setCore c x).inFlight = s.inFlight := rfl
@[simp] theorem State.setCore_resends (s : State) (c : CoreId) (x : Core) : (s.setCore c x).resends = s.resends := rfl
@[simp] theorem State.setCore_failedLinks (s : State) (c : CoreId) (x : Core) : (s.setCore c x).failedLinks = s.failedLinks := rfl
@[simp] theorem State.setCore_deadCopies (s : State) (c : CoreId) (x : Core) : (s.setCore c x).deadCopies = s.deadCopies := rfl
@[simp] theorem State.setCore_sbOut (s : State) (c : CoreId) (x : Core) : (s.setCore c x).sbOut = s.sbOut := rfl
@[simp] theorem State.setCore_sbSince (s : State) (c : CoreId) (x : Core) : (s.setCore c x).sbSince = s.sbSince := rfl
@[simp] theorem State.setCore_tympan (s : State) (c : CoreId) (x : Core) : (s.setCore c x).tympan = s.tympan := rfl
@[simp] theorem State.setCore_portA (s : State) (c : CoreId) (x : Core) : (s.setCore c x).portA = s.portA := rfl
@[simp] theorem State.setCore_portB (s : State) (c : CoreId) (x : Core) : (s.setCore c x).portB = s.portB := rfl
@[simp] theorem State.setCore_sems (s : State) (c : CoreId) (x : Core) : (s.setCore c x).sems = s.sems := rfl
@[simp] theorem State.setCore_jobCap (s : State) (c : CoreId) (x : Core) : (s.setCore c x).jobCap = s.jobCap := rfl
@[simp] theorem State.setCore_hostOut (s : State) (c : CoreId) (x : Core) : (s.setCore c x).hostOut = s.hostOut := rfl
@[simp] theorem State.setCore_heldWrites (s : State) (c : CoreId) (x : Core) : (s.setCore c x).heldWrites = s.heldWrites := rfl
@[simp] theorem State.setCore_load (s : State) (c : CoreId) (x : Core) : (s.setCore c x).load = s.load := rfl
@[simp] theorem State.setCore_imageStage (s : State) (c : CoreId) (x : Core) : (s.setCore c x).imageStage = s.imageStage := rfl
@[simp] theorem State.setCore_image (s : State) (c : CoreId) (x : Core) : (s.setCore c x).image = s.image := rfl
@[simp] theorem State.setCore_loopTests (s : State) (c : CoreId) (x : Core) : (s.setCore c x).loopTests = s.loopTests := rfl
@[simp] theorem State.setCore_hostCopies (s : State) (c : CoreId) (x : Core) : (s.setCore c x).hostCopies = s.hostCopies := rfl
@[simp] theorem State.setCore_control (s : State) (c : CoreId) (x : Core) : (s.setCore c x).control = s.control := rfl
@[simp] theorem State.setCore_record (s : State) (c : CoreId) (x : Core) : (s.setCore c x).record = s.record := rfl
@[simp] theorem State.setCore_faults (s : State) (c : CoreId) (x : Core) : (s.setCore c x).faults = s.faults := rfl
@[simp] theorem State.setCore_trace (s : State) (c : CoreId) (x : Core) : (s.setCore c x).trace = s.trace := rfl
@[simp] theorem State.setCore_counters (s : State) (c : CoreId) (x : Core) : (s.setCore c x).counters = s.counters := rfl
@[simp] theorem State.setCore_forever (s : State) (c : CoreId) (x : Core) : (s.setCore c x).forever = s.forever := rfl
@[simp] theorem State.setCore_capture (s : State) (c : CoreId) (x : Core) : (s.setCore c x).capture = s.capture := rfl
@[simp] theorem State.setCore_boundary (s : State) (c : CoreId) (x : Core) : (s.setCore c x).boundary = s.boundary := rfl
@[simp] theorem State.modStack_pending (s : State) (h : StackId) (f : Stack → Stack) : (s.modStack h f).pending = s.pending := rfl
@[simp] theorem State.modStack_powered (s : State) (h : StackId) (f : Stack → Stack) : (s.modStack h f).powered = s.powered := rfl
@[simp] theorem State.modStack_refTime (s : State) (h : StackId) (f : Stack → Stack) : (s.modStack h f).refTime = s.refTime := rfl
@[simp] theorem State.modStack_beat (s : State) (h : StackId) (f : Stack → Stack) : (s.modStack h f).beat = s.beat := rfl
@[simp] theorem State.modStack_phase (s : State) (h : StackId) (f : Stack → Stack) : (s.modStack h f).phase = s.phase := rfl
@[simp] theorem State.modStack_rest (s : State) (h : StackId) (f : Stack → Stack) : (s.modStack h f).rest = s.rest := rfl
@[simp] theorem State.modStack_restNext (s : State) (h : StackId) (f : Stack → Stack) : (s.modStack h f).restNext = s.restNext := rfl
@[simp] theorem State.modStack_holdSent (s : State) (h : StackId) (f : Stack → Stack) : (s.modStack h f).holdSent = s.holdSent := rfl
@[simp] theorem State.modStack_windowDone (s : State) (h : StackId) (f : Stack → Stack) : (s.modStack h f).windowDone = s.windowDone := rfl
@[simp] theorem State.modStack_deviceState (s : State) (h : StackId) (f : Stack → Stack) : (s.modStack h f).deviceState = s.deviceState := rfl
@[simp] theorem State.modStack_imageValid (s : State) (h : StackId) (f : Stack → Stack) : (s.modStack h f).imageValid = s.imageValid := rfl
@[simp] theorem State.modStack_tempo (s : State) (h : StackId) (f : Stack → Stack) : (s.modStack h f).tempo = s.tempo := rfl
@[simp] theorem State.modStack_tempoPrev (s : State) (h : StackId) (f : Stack → Stack) : (s.modStack h f).tempoPrev = s.tempoPrev := rfl
@[simp] theorem State.modStack_tempoMin (s : State) (h : StackId) (f : Stack → Stack) : (s.modStack h f).tempoMin = s.tempoMin := rfl
@[simp] theorem State.modStack_voteSpan (s : State) (h : StackId) (f : Stack → Stack) : (s.modStack h f).voteSpan = s.voteSpan := rfl
@[simp] theorem State.modStack_aligned (s : State) (h : StackId) (f : Stack → Stack) : (s.modStack h f).aligned = s.aligned := rfl
@[simp] theorem State.modStack_root (s : State) (h : StackId) (f : Stack → Stack) : (s.modStack h f).root = s.root := rfl
@[simp] theorem State.modStack_electing (s : State) (h : StackId) (f : Stack → Stack) : (s.modStack h f).electing = s.electing := rfl
@[simp] theorem State.modStack_counted (s : State) (h : StackId) (f : Stack → Stack) : (s.modStack h f).counted = s.counted := rfl
@[simp] theorem State.modStack_alignLost (s : State) (h : StackId) (f : Stack → Stack) : (s.modStack h f).alignLost = s.alignLost := rfl
@[simp] theorem State.modStack_rootHops (s : State) (h : StackId) (f : Stack → Stack) : (s.modStack h f).rootHops = s.rootHops := rfl
@[simp] theorem State.modStack_agree (s : State) (h : StackId) (f : Stack → Stack) : (s.modStack h f).agree = s.agree := rfl
@[simp] theorem State.modStack_mismatchLast (s : State) (h : StackId) (f : Stack → Stack) : (s.modStack h f).mismatchLast = s.mismatchLast := rfl
@[simp] theorem State.modStack_beatLog (s : State) (h : StackId) (f : Stack → Stack) : (s.modStack h f).beatLog = s.beatLog := rfl
@[simp] theorem State.modStack_sealedParts (s : State) (h : StackId) (f : Stack → Stack) : (s.modStack h f).sealedParts = s.sealedParts := rfl
@[simp] theorem State.modStack_clocksReleased (s : State) (h : StackId) (f : Stack → Stack) : (s.modStack h f).clocksReleased = s.clocksReleased := rfl
@[simp] theorem State.modStack_clocksProvisional (s : State) (h : StackId) (f : Stack → Stack) : (s.modStack h f).clocksProvisional = s.clocksProvisional := rfl
@[simp] theorem State.modStack_arithStopped (s : State) (h : StackId) (f : Stack → Stack) : (s.modStack h f).arithStopped = s.arithStopped := rfl
@[simp] theorem State.modStack_downbeatLo (s : State) (h : StackId) (f : Stack → Stack) : (s.modStack h f).downbeatLo = s.downbeatLo := rfl
@[simp] theorem State.modStack_downbeatHi (s : State) (h : StackId) (f : Stack → Stack) : (s.modStack h f).downbeatHi = s.downbeatHi := rfl
@[simp] theorem State.modStack_armed (s : State) (h : StackId) (f : Stack → Stack) : (s.modStack h f).armed = s.armed := rfl
@[simp] theorem State.modStack_launchCount (s : State) (h : StackId) (f : Stack → Stack) : (s.modStack h f).launchCount = s.launchCount := rfl
@[simp] theorem State.modStack_t (s : State) (h : StackId) (f : Stack → Stack) : (s.modStack h f).t = s.t := rfl
@[simp] theorem State.modStack_holdSources (s : State) (h : StackId) (f : Stack → Stack) : (s.modStack h f).holdSources = s.holdSources := rfl
@[simp] theorem State.modStack_holdForce (s : State) (h : StackId) (f : Stack → Stack) : (s.modStack h f).holdForce = s.holdForce := rfl
@[simp] theorem State.modStack_lateMargin (s : State) (h : StackId) (f : Stack → Stack) : (s.modStack h f).lateMargin = s.lateMargin := rfl
@[simp] theorem State.modStack_lateMarginNow (s : State) (h : StackId) (f : Stack → Stack) : (s.modStack h f).lateMarginNow = s.lateMarginNow := rfl
@[simp] theorem State.modStack_fenceMargin (s : State) (h : StackId) (f : Stack → Stack) : (s.modStack h f).fenceMargin = s.fenceMargin := rfl
@[simp] theorem State.modStack_copyLag (s : State) (h : StackId) (f : Stack → Stack) : (s.modStack h f).copyLag = s.copyLag := rfl
@[simp] theorem State.modStack_beatMargin (s : State) (h : StackId) (f : Stack → Stack) : (s.modStack h f).beatMargin = s.beatMargin := rfl
@[simp] theorem State.modStack_minMargin (s : State) (h : StackId) (f : Stack → Stack) : (s.modStack h f).minMargin = s.minMargin := rfl
@[simp] theorem State.modStack_holds (s : State) (h : StackId) (f : Stack → Stack) : (s.modStack h f).holds = s.holds := rfl
@[simp] theorem State.modStack_level (s : State) (h : StackId) (f : Stack → Stack) : (s.modStack h f).level = s.level := rfl
@[simp] theorem State.modStack_floor (s : State) (h : StackId) (f : Stack → Stack) : (s.modStack h f).floor = s.floor := rfl
@[simp] theorem State.modStack_haltCause (s : State) (h : StackId) (f : Stack → Stack) : (s.modStack h f).haltCause = s.haltCause := rfl
@[simp] theorem State.modStack_haltBeat (s : State) (h : StackId) (f : Stack → Stack) : (s.modStack h f).haltBeat = s.haltBeat := rfl
@[simp] theorem State.modStack_haltTime (s : State) (h : StackId) (f : Stack → Stack) : (s.modStack h f).haltTime = s.haltTime := rfl
@[simp] theorem State.modStack_snapBeat (s : State) (h : StackId) (f : Stack → Stack) : (s.modStack h f).snapBeat = s.snapBeat := rfl
@[simp] theorem State.modStack_snapPhase (s : State) (h : StackId) (f : Stack → Stack) : (s.modStack h f).snapPhase = s.snapPhase := rfl
@[simp] theorem State.modStack_snapStroke (s : State) (h : StackId) (f : Stack → Stack) : (s.modStack h f).snapStroke = s.snapStroke := rfl
@[simp] theorem State.modStack_coord (s : State) (h : StackId) (f : Stack → Stack) : (s.modStack h f).coord = s.coord := rfl
@[simp] theorem State.modStack_shape (s : State) (h : StackId) (f : Stack → Stack) : (s.modStack h f).shape = s.shape := rfl
@[simp] theorem State.modStack_shapeValid (s : State) (h : StackId) (f : Stack → Stack) : (s.modStack h f).shapeValid = s.shapeValid := rfl
@[simp] theorem State.modStack_relay (s : State) (h : StackId) (f : Stack → Stack) : (s.modStack h f).relay = s.relay := rfl
@[simp] theorem State.modStack_ditherSeed (s : State) (h : StackId) (f : Stack → Stack) : (s.modStack h f).ditherSeed = s.ditherSeed := rfl
@[simp] theorem State.modStack_cores (s : State) (h : StackId) (f : Stack → Stack) : (s.modStack h f).cores = s.cores := rfl
@[simp] theorem State.modStack_ports (s : State) (h : StackId) (f : Stack → Stack) : (s.modStack h f).ports = s.ports := rfl
@[simp] theorem State.modStack_west (s : State) (h : StackId) (f : Stack → Stack) : (s.modStack h f).west = s.west := rfl
@[simp] theorem State.modStack_east (s : State) (h : StackId) (f : Stack → Stack) : (s.modStack h f).east = s.east := rfl
@[simp] theorem State.modStack_inFlight (s : State) (h : StackId) (f : Stack → Stack) : (s.modStack h f).inFlight = s.inFlight := rfl
@[simp] theorem State.modStack_resends (s : State) (h : StackId) (f : Stack → Stack) : (s.modStack h f).resends = s.resends := rfl
@[simp] theorem State.modStack_failedLinks (s : State) (h : StackId) (f : Stack → Stack) : (s.modStack h f).failedLinks = s.failedLinks := rfl
@[simp] theorem State.modStack_deadCopies (s : State) (h : StackId) (f : Stack → Stack) : (s.modStack h f).deadCopies = s.deadCopies := rfl
@[simp] theorem State.modStack_sbOut (s : State) (h : StackId) (f : Stack → Stack) : (s.modStack h f).sbOut = s.sbOut := rfl
@[simp] theorem State.modStack_sbSince (s : State) (h : StackId) (f : Stack → Stack) : (s.modStack h f).sbSince = s.sbSince := rfl
@[simp] theorem State.modStack_tympan (s : State) (h : StackId) (f : Stack → Stack) : (s.modStack h f).tympan = s.tympan := rfl
@[simp] theorem State.modStack_portA (s : State) (h : StackId) (f : Stack → Stack) : (s.modStack h f).portA = s.portA := rfl
@[simp] theorem State.modStack_portB (s : State) (h : StackId) (f : Stack → Stack) : (s.modStack h f).portB = s.portB := rfl
@[simp] theorem State.modStack_sems (s : State) (h : StackId) (f : Stack → Stack) : (s.modStack h f).sems = s.sems := rfl
@[simp] theorem State.modStack_jobCap (s : State) (h : StackId) (f : Stack → Stack) : (s.modStack h f).jobCap = s.jobCap := rfl
@[simp] theorem State.modStack_hostOut (s : State) (h : StackId) (f : Stack → Stack) : (s.modStack h f).hostOut = s.hostOut := rfl
@[simp] theorem State.modStack_heldWrites (s : State) (h : StackId) (f : Stack → Stack) : (s.modStack h f).heldWrites = s.heldWrites := rfl
@[simp] theorem State.modStack_load (s : State) (h : StackId) (f : Stack → Stack) : (s.modStack h f).load = s.load := rfl
@[simp] theorem State.modStack_imageStage (s : State) (h : StackId) (f : Stack → Stack) : (s.modStack h f).imageStage = s.imageStage := rfl
@[simp] theorem State.modStack_image (s : State) (h : StackId) (f : Stack → Stack) : (s.modStack h f).image = s.image := rfl
@[simp] theorem State.modStack_loopTests (s : State) (h : StackId) (f : Stack → Stack) : (s.modStack h f).loopTests = s.loopTests := rfl
@[simp] theorem State.modStack_hostCopies (s : State) (h : StackId) (f : Stack → Stack) : (s.modStack h f).hostCopies = s.hostCopies := rfl
@[simp] theorem State.modStack_control (s : State) (h : StackId) (f : Stack → Stack) : (s.modStack h f).control = s.control := rfl
@[simp] theorem State.modStack_record (s : State) (h : StackId) (f : Stack → Stack) : (s.modStack h f).record = s.record := rfl
@[simp] theorem State.modStack_faults (s : State) (h : StackId) (f : Stack → Stack) : (s.modStack h f).faults = s.faults := rfl
@[simp] theorem State.modStack_trace (s : State) (h : StackId) (f : Stack → Stack) : (s.modStack h f).trace = s.trace := rfl
@[simp] theorem State.modStack_counters (s : State) (h : StackId) (f : Stack → Stack) : (s.modStack h f).counters = s.counters := rfl
@[simp] theorem State.modStack_forever (s : State) (h : StackId) (f : Stack → Stack) : (s.modStack h f).forever = s.forever := rfl
@[simp] theorem State.modStack_capture (s : State) (h : StackId) (f : Stack → Stack) : (s.modStack h f).capture = s.capture := rfl
@[simp] theorem State.modStack_boundary (s : State) (h : StackId) (f : Stack → Stack) : (s.modStack h f).boundary = s.boundary := rfl
@[simp] theorem State.modPort_pending (s : State) (p : RPort) (f : ReduitPort → ReduitPort) : (s.modPort p f).pending = s.pending := rfl
@[simp] theorem State.modPort_powered (s : State) (p : RPort) (f : ReduitPort → ReduitPort) : (s.modPort p f).powered = s.powered := rfl
@[simp] theorem State.modPort_refTime (s : State) (p : RPort) (f : ReduitPort → ReduitPort) : (s.modPort p f).refTime = s.refTime := rfl
@[simp] theorem State.modPort_beat (s : State) (p : RPort) (f : ReduitPort → ReduitPort) : (s.modPort p f).beat = s.beat := rfl
@[simp] theorem State.modPort_phase (s : State) (p : RPort) (f : ReduitPort → ReduitPort) : (s.modPort p f).phase = s.phase := rfl
@[simp] theorem State.modPort_rest (s : State) (p : RPort) (f : ReduitPort → ReduitPort) : (s.modPort p f).rest = s.rest := rfl
@[simp] theorem State.modPort_restNext (s : State) (p : RPort) (f : ReduitPort → ReduitPort) : (s.modPort p f).restNext = s.restNext := rfl
@[simp] theorem State.modPort_holdSent (s : State) (p : RPort) (f : ReduitPort → ReduitPort) : (s.modPort p f).holdSent = s.holdSent := rfl
@[simp] theorem State.modPort_windowDone (s : State) (p : RPort) (f : ReduitPort → ReduitPort) : (s.modPort p f).windowDone = s.windowDone := rfl
@[simp] theorem State.modPort_deviceState (s : State) (p : RPort) (f : ReduitPort → ReduitPort) : (s.modPort p f).deviceState = s.deviceState := rfl
@[simp] theorem State.modPort_imageValid (s : State) (p : RPort) (f : ReduitPort → ReduitPort) : (s.modPort p f).imageValid = s.imageValid := rfl
@[simp] theorem State.modPort_tempo (s : State) (p : RPort) (f : ReduitPort → ReduitPort) : (s.modPort p f).tempo = s.tempo := rfl
@[simp] theorem State.modPort_tempoPrev (s : State) (p : RPort) (f : ReduitPort → ReduitPort) : (s.modPort p f).tempoPrev = s.tempoPrev := rfl
@[simp] theorem State.modPort_tempoMin (s : State) (p : RPort) (f : ReduitPort → ReduitPort) : (s.modPort p f).tempoMin = s.tempoMin := rfl
@[simp] theorem State.modPort_voteSpan (s : State) (p : RPort) (f : ReduitPort → ReduitPort) : (s.modPort p f).voteSpan = s.voteSpan := rfl
@[simp] theorem State.modPort_aligned (s : State) (p : RPort) (f : ReduitPort → ReduitPort) : (s.modPort p f).aligned = s.aligned := rfl
@[simp] theorem State.modPort_root (s : State) (p : RPort) (f : ReduitPort → ReduitPort) : (s.modPort p f).root = s.root := rfl
@[simp] theorem State.modPort_electing (s : State) (p : RPort) (f : ReduitPort → ReduitPort) : (s.modPort p f).electing = s.electing := rfl
@[simp] theorem State.modPort_counted (s : State) (p : RPort) (f : ReduitPort → ReduitPort) : (s.modPort p f).counted = s.counted := rfl
@[simp] theorem State.modPort_alignLost (s : State) (p : RPort) (f : ReduitPort → ReduitPort) : (s.modPort p f).alignLost = s.alignLost := rfl
@[simp] theorem State.modPort_rootHops (s : State) (p : RPort) (f : ReduitPort → ReduitPort) : (s.modPort p f).rootHops = s.rootHops := rfl
@[simp] theorem State.modPort_agree (s : State) (p : RPort) (f : ReduitPort → ReduitPort) : (s.modPort p f).agree = s.agree := rfl
@[simp] theorem State.modPort_mismatchLast (s : State) (p : RPort) (f : ReduitPort → ReduitPort) : (s.modPort p f).mismatchLast = s.mismatchLast := rfl
@[simp] theorem State.modPort_beatLog (s : State) (p : RPort) (f : ReduitPort → ReduitPort) : (s.modPort p f).beatLog = s.beatLog := rfl
@[simp] theorem State.modPort_sealedParts (s : State) (p : RPort) (f : ReduitPort → ReduitPort) : (s.modPort p f).sealedParts = s.sealedParts := rfl
@[simp] theorem State.modPort_clocksReleased (s : State) (p : RPort) (f : ReduitPort → ReduitPort) : (s.modPort p f).clocksReleased = s.clocksReleased := rfl
@[simp] theorem State.modPort_clocksProvisional (s : State) (p : RPort) (f : ReduitPort → ReduitPort) : (s.modPort p f).clocksProvisional = s.clocksProvisional := rfl
@[simp] theorem State.modPort_arithStopped (s : State) (p : RPort) (f : ReduitPort → ReduitPort) : (s.modPort p f).arithStopped = s.arithStopped := rfl
@[simp] theorem State.modPort_downbeatLo (s : State) (p : RPort) (f : ReduitPort → ReduitPort) : (s.modPort p f).downbeatLo = s.downbeatLo := rfl
@[simp] theorem State.modPort_downbeatHi (s : State) (p : RPort) (f : ReduitPort → ReduitPort) : (s.modPort p f).downbeatHi = s.downbeatHi := rfl
@[simp] theorem State.modPort_armed (s : State) (p : RPort) (f : ReduitPort → ReduitPort) : (s.modPort p f).armed = s.armed := rfl
@[simp] theorem State.modPort_launchCount (s : State) (p : RPort) (f : ReduitPort → ReduitPort) : (s.modPort p f).launchCount = s.launchCount := rfl
@[simp] theorem State.modPort_t (s : State) (p : RPort) (f : ReduitPort → ReduitPort) : (s.modPort p f).t = s.t := rfl
@[simp] theorem State.modPort_holdSources (s : State) (p : RPort) (f : ReduitPort → ReduitPort) : (s.modPort p f).holdSources = s.holdSources := rfl
@[simp] theorem State.modPort_holdForce (s : State) (p : RPort) (f : ReduitPort → ReduitPort) : (s.modPort p f).holdForce = s.holdForce := rfl
@[simp] theorem State.modPort_lateMargin (s : State) (p : RPort) (f : ReduitPort → ReduitPort) : (s.modPort p f).lateMargin = s.lateMargin := rfl
@[simp] theorem State.modPort_lateMarginNow (s : State) (p : RPort) (f : ReduitPort → ReduitPort) : (s.modPort p f).lateMarginNow = s.lateMarginNow := rfl
@[simp] theorem State.modPort_fenceMargin (s : State) (p : RPort) (f : ReduitPort → ReduitPort) : (s.modPort p f).fenceMargin = s.fenceMargin := rfl
@[simp] theorem State.modPort_copyLag (s : State) (p : RPort) (f : ReduitPort → ReduitPort) : (s.modPort p f).copyLag = s.copyLag := rfl
@[simp] theorem State.modPort_beatMargin (s : State) (p : RPort) (f : ReduitPort → ReduitPort) : (s.modPort p f).beatMargin = s.beatMargin := rfl
@[simp] theorem State.modPort_minMargin (s : State) (p : RPort) (f : ReduitPort → ReduitPort) : (s.modPort p f).minMargin = s.minMargin := rfl
@[simp] theorem State.modPort_holds (s : State) (p : RPort) (f : ReduitPort → ReduitPort) : (s.modPort p f).holds = s.holds := rfl
@[simp] theorem State.modPort_level (s : State) (p : RPort) (f : ReduitPort → ReduitPort) : (s.modPort p f).level = s.level := rfl
@[simp] theorem State.modPort_floor (s : State) (p : RPort) (f : ReduitPort → ReduitPort) : (s.modPort p f).floor = s.floor := rfl
@[simp] theorem State.modPort_haltCause (s : State) (p : RPort) (f : ReduitPort → ReduitPort) : (s.modPort p f).haltCause = s.haltCause := rfl
@[simp] theorem State.modPort_haltBeat (s : State) (p : RPort) (f : ReduitPort → ReduitPort) : (s.modPort p f).haltBeat = s.haltBeat := rfl
@[simp] theorem State.modPort_haltTime (s : State) (p : RPort) (f : ReduitPort → ReduitPort) : (s.modPort p f).haltTime = s.haltTime := rfl
@[simp] theorem State.modPort_snapBeat (s : State) (p : RPort) (f : ReduitPort → ReduitPort) : (s.modPort p f).snapBeat = s.snapBeat := rfl
@[simp] theorem State.modPort_snapPhase (s : State) (p : RPort) (f : ReduitPort → ReduitPort) : (s.modPort p f).snapPhase = s.snapPhase := rfl
@[simp] theorem State.modPort_snapStroke (s : State) (p : RPort) (f : ReduitPort → ReduitPort) : (s.modPort p f).snapStroke = s.snapStroke := rfl
@[simp] theorem State.modPort_coord (s : State) (p : RPort) (f : ReduitPort → ReduitPort) : (s.modPort p f).coord = s.coord := rfl
@[simp] theorem State.modPort_shape (s : State) (p : RPort) (f : ReduitPort → ReduitPort) : (s.modPort p f).shape = s.shape := rfl
@[simp] theorem State.modPort_shapeValid (s : State) (p : RPort) (f : ReduitPort → ReduitPort) : (s.modPort p f).shapeValid = s.shapeValid := rfl
@[simp] theorem State.modPort_relay (s : State) (p : RPort) (f : ReduitPort → ReduitPort) : (s.modPort p f).relay = s.relay := rfl
@[simp] theorem State.modPort_ditherSeed (s : State) (p : RPort) (f : ReduitPort → ReduitPort) : (s.modPort p f).ditherSeed = s.ditherSeed := rfl
@[simp] theorem State.modPort_cores (s : State) (p : RPort) (f : ReduitPort → ReduitPort) : (s.modPort p f).cores = s.cores := rfl
@[simp] theorem State.modPort_hbmStacks (s : State) (p : RPort) (f : ReduitPort → ReduitPort) : (s.modPort p f).hbmStacks = s.hbmStacks := rfl
@[simp] theorem State.modPort_west (s : State) (p : RPort) (f : ReduitPort → ReduitPort) : (s.modPort p f).west = s.west := rfl
@[simp] theorem State.modPort_east (s : State) (p : RPort) (f : ReduitPort → ReduitPort) : (s.modPort p f).east = s.east := rfl
@[simp] theorem State.modPort_inFlight (s : State) (p : RPort) (f : ReduitPort → ReduitPort) : (s.modPort p f).inFlight = s.inFlight := rfl
@[simp] theorem State.modPort_resends (s : State) (p : RPort) (f : ReduitPort → ReduitPort) : (s.modPort p f).resends = s.resends := rfl
@[simp] theorem State.modPort_failedLinks (s : State) (p : RPort) (f : ReduitPort → ReduitPort) : (s.modPort p f).failedLinks = s.failedLinks := rfl
@[simp] theorem State.modPort_deadCopies (s : State) (p : RPort) (f : ReduitPort → ReduitPort) : (s.modPort p f).deadCopies = s.deadCopies := rfl
@[simp] theorem State.modPort_sbOut (s : State) (p : RPort) (f : ReduitPort → ReduitPort) : (s.modPort p f).sbOut = s.sbOut := rfl
@[simp] theorem State.modPort_sbSince (s : State) (p : RPort) (f : ReduitPort → ReduitPort) : (s.modPort p f).sbSince = s.sbSince := rfl
@[simp] theorem State.modPort_tympan (s : State) (p : RPort) (f : ReduitPort → ReduitPort) : (s.modPort p f).tympan = s.tympan := rfl
@[simp] theorem State.modPort_portA (s : State) (p : RPort) (f : ReduitPort → ReduitPort) : (s.modPort p f).portA = s.portA := rfl
@[simp] theorem State.modPort_portB (s : State) (p : RPort) (f : ReduitPort → ReduitPort) : (s.modPort p f).portB = s.portB := rfl
@[simp] theorem State.modPort_sems (s : State) (p : RPort) (f : ReduitPort → ReduitPort) : (s.modPort p f).sems = s.sems := rfl
@[simp] theorem State.modPort_jobCap (s : State) (p : RPort) (f : ReduitPort → ReduitPort) : (s.modPort p f).jobCap = s.jobCap := rfl
@[simp] theorem State.modPort_hostOut (s : State) (p : RPort) (f : ReduitPort → ReduitPort) : (s.modPort p f).hostOut = s.hostOut := rfl
@[simp] theorem State.modPort_heldWrites (s : State) (p : RPort) (f : ReduitPort → ReduitPort) : (s.modPort p f).heldWrites = s.heldWrites := rfl
@[simp] theorem State.modPort_load (s : State) (p : RPort) (f : ReduitPort → ReduitPort) : (s.modPort p f).load = s.load := rfl
@[simp] theorem State.modPort_imageStage (s : State) (p : RPort) (f : ReduitPort → ReduitPort) : (s.modPort p f).imageStage = s.imageStage := rfl
@[simp] theorem State.modPort_image (s : State) (p : RPort) (f : ReduitPort → ReduitPort) : (s.modPort p f).image = s.image := rfl
@[simp] theorem State.modPort_loopTests (s : State) (p : RPort) (f : ReduitPort → ReduitPort) : (s.modPort p f).loopTests = s.loopTests := rfl
@[simp] theorem State.modPort_hostCopies (s : State) (p : RPort) (f : ReduitPort → ReduitPort) : (s.modPort p f).hostCopies = s.hostCopies := rfl
@[simp] theorem State.modPort_control (s : State) (p : RPort) (f : ReduitPort → ReduitPort) : (s.modPort p f).control = s.control := rfl
@[simp] theorem State.modPort_record (s : State) (p : RPort) (f : ReduitPort → ReduitPort) : (s.modPort p f).record = s.record := rfl
@[simp] theorem State.modPort_faults (s : State) (p : RPort) (f : ReduitPort → ReduitPort) : (s.modPort p f).faults = s.faults := rfl
@[simp] theorem State.modPort_trace (s : State) (p : RPort) (f : ReduitPort → ReduitPort) : (s.modPort p f).trace = s.trace := rfl
@[simp] theorem State.modPort_counters (s : State) (p : RPort) (f : ReduitPort → ReduitPort) : (s.modPort p f).counters = s.counters := rfl
@[simp] theorem State.modPort_forever (s : State) (p : RPort) (f : ReduitPort → ReduitPort) : (s.modPort p f).forever = s.forever := rfl
@[simp] theorem State.modPort_capture (s : State) (p : RPort) (f : ReduitPort → ReduitPort) : (s.modPort p f).capture = s.capture := rfl
@[simp] theorem State.modPort_boundary (s : State) (p : RPort) (f : ReduitPort → ReduitPort) : (s.modPort p f).boundary = s.boundary := rfl
@[simp] theorem State.modTympan_pending (s : State) (f : Tympan → Tympan) : (s.modTympan f).pending = s.pending := rfl
@[simp] theorem State.modTympan_powered (s : State) (f : Tympan → Tympan) : (s.modTympan f).powered = s.powered := rfl
@[simp] theorem State.modTympan_refTime (s : State) (f : Tympan → Tympan) : (s.modTympan f).refTime = s.refTime := rfl
@[simp] theorem State.modTympan_beat (s : State) (f : Tympan → Tympan) : (s.modTympan f).beat = s.beat := rfl
@[simp] theorem State.modTympan_phase (s : State) (f : Tympan → Tympan) : (s.modTympan f).phase = s.phase := rfl
@[simp] theorem State.modTympan_rest (s : State) (f : Tympan → Tympan) : (s.modTympan f).rest = s.rest := rfl
@[simp] theorem State.modTympan_restNext (s : State) (f : Tympan → Tympan) : (s.modTympan f).restNext = s.restNext := rfl
@[simp] theorem State.modTympan_holdSent (s : State) (f : Tympan → Tympan) : (s.modTympan f).holdSent = s.holdSent := rfl
@[simp] theorem State.modTympan_windowDone (s : State) (f : Tympan → Tympan) : (s.modTympan f).windowDone = s.windowDone := rfl
@[simp] theorem State.modTympan_deviceState (s : State) (f : Tympan → Tympan) : (s.modTympan f).deviceState = s.deviceState := rfl
@[simp] theorem State.modTympan_imageValid (s : State) (f : Tympan → Tympan) : (s.modTympan f).imageValid = s.imageValid := rfl
@[simp] theorem State.modTympan_tempo (s : State) (f : Tympan → Tympan) : (s.modTympan f).tempo = s.tempo := rfl
@[simp] theorem State.modTympan_tempoPrev (s : State) (f : Tympan → Tympan) : (s.modTympan f).tempoPrev = s.tempoPrev := rfl
@[simp] theorem State.modTympan_tempoMin (s : State) (f : Tympan → Tympan) : (s.modTympan f).tempoMin = s.tempoMin := rfl
@[simp] theorem State.modTympan_voteSpan (s : State) (f : Tympan → Tympan) : (s.modTympan f).voteSpan = s.voteSpan := rfl
@[simp] theorem State.modTympan_aligned (s : State) (f : Tympan → Tympan) : (s.modTympan f).aligned = s.aligned := rfl
@[simp] theorem State.modTympan_root (s : State) (f : Tympan → Tympan) : (s.modTympan f).root = s.root := rfl
@[simp] theorem State.modTympan_electing (s : State) (f : Tympan → Tympan) : (s.modTympan f).electing = s.electing := rfl
@[simp] theorem State.modTympan_counted (s : State) (f : Tympan → Tympan) : (s.modTympan f).counted = s.counted := rfl
@[simp] theorem State.modTympan_alignLost (s : State) (f : Tympan → Tympan) : (s.modTympan f).alignLost = s.alignLost := rfl
@[simp] theorem State.modTympan_rootHops (s : State) (f : Tympan → Tympan) : (s.modTympan f).rootHops = s.rootHops := rfl
@[simp] theorem State.modTympan_agree (s : State) (f : Tympan → Tympan) : (s.modTympan f).agree = s.agree := rfl
@[simp] theorem State.modTympan_mismatchLast (s : State) (f : Tympan → Tympan) : (s.modTympan f).mismatchLast = s.mismatchLast := rfl
@[simp] theorem State.modTympan_beatLog (s : State) (f : Tympan → Tympan) : (s.modTympan f).beatLog = s.beatLog := rfl
@[simp] theorem State.modTympan_sealedParts (s : State) (f : Tympan → Tympan) : (s.modTympan f).sealedParts = s.sealedParts := rfl
@[simp] theorem State.modTympan_clocksReleased (s : State) (f : Tympan → Tympan) : (s.modTympan f).clocksReleased = s.clocksReleased := rfl
@[simp] theorem State.modTympan_clocksProvisional (s : State) (f : Tympan → Tympan) : (s.modTympan f).clocksProvisional = s.clocksProvisional := rfl
@[simp] theorem State.modTympan_arithStopped (s : State) (f : Tympan → Tympan) : (s.modTympan f).arithStopped = s.arithStopped := rfl
@[simp] theorem State.modTympan_downbeatLo (s : State) (f : Tympan → Tympan) : (s.modTympan f).downbeatLo = s.downbeatLo := rfl
@[simp] theorem State.modTympan_downbeatHi (s : State) (f : Tympan → Tympan) : (s.modTympan f).downbeatHi = s.downbeatHi := rfl
@[simp] theorem State.modTympan_armed (s : State) (f : Tympan → Tympan) : (s.modTympan f).armed = s.armed := rfl
@[simp] theorem State.modTympan_launchCount (s : State) (f : Tympan → Tympan) : (s.modTympan f).launchCount = s.launchCount := rfl
@[simp] theorem State.modTympan_t (s : State) (f : Tympan → Tympan) : (s.modTympan f).t = s.t := rfl
@[simp] theorem State.modTympan_holdSources (s : State) (f : Tympan → Tympan) : (s.modTympan f).holdSources = s.holdSources := rfl
@[simp] theorem State.modTympan_holdForce (s : State) (f : Tympan → Tympan) : (s.modTympan f).holdForce = s.holdForce := rfl
@[simp] theorem State.modTympan_lateMargin (s : State) (f : Tympan → Tympan) : (s.modTympan f).lateMargin = s.lateMargin := rfl
@[simp] theorem State.modTympan_lateMarginNow (s : State) (f : Tympan → Tympan) : (s.modTympan f).lateMarginNow = s.lateMarginNow := rfl
@[simp] theorem State.modTympan_fenceMargin (s : State) (f : Tympan → Tympan) : (s.modTympan f).fenceMargin = s.fenceMargin := rfl
@[simp] theorem State.modTympan_copyLag (s : State) (f : Tympan → Tympan) : (s.modTympan f).copyLag = s.copyLag := rfl
@[simp] theorem State.modTympan_beatMargin (s : State) (f : Tympan → Tympan) : (s.modTympan f).beatMargin = s.beatMargin := rfl
@[simp] theorem State.modTympan_minMargin (s : State) (f : Tympan → Tympan) : (s.modTympan f).minMargin = s.minMargin := rfl
@[simp] theorem State.modTympan_holds (s : State) (f : Tympan → Tympan) : (s.modTympan f).holds = s.holds := rfl
@[simp] theorem State.modTympan_level (s : State) (f : Tympan → Tympan) : (s.modTympan f).level = s.level := rfl
@[simp] theorem State.modTympan_floor (s : State) (f : Tympan → Tympan) : (s.modTympan f).floor = s.floor := rfl
@[simp] theorem State.modTympan_haltCause (s : State) (f : Tympan → Tympan) : (s.modTympan f).haltCause = s.haltCause := rfl
@[simp] theorem State.modTympan_haltBeat (s : State) (f : Tympan → Tympan) : (s.modTympan f).haltBeat = s.haltBeat := rfl
@[simp] theorem State.modTympan_haltTime (s : State) (f : Tympan → Tympan) : (s.modTympan f).haltTime = s.haltTime := rfl
@[simp] theorem State.modTympan_snapBeat (s : State) (f : Tympan → Tympan) : (s.modTympan f).snapBeat = s.snapBeat := rfl
@[simp] theorem State.modTympan_snapPhase (s : State) (f : Tympan → Tympan) : (s.modTympan f).snapPhase = s.snapPhase := rfl
@[simp] theorem State.modTympan_snapStroke (s : State) (f : Tympan → Tympan) : (s.modTympan f).snapStroke = s.snapStroke := rfl
@[simp] theorem State.modTympan_coord (s : State) (f : Tympan → Tympan) : (s.modTympan f).coord = s.coord := rfl
@[simp] theorem State.modTympan_shape (s : State) (f : Tympan → Tympan) : (s.modTympan f).shape = s.shape := rfl
@[simp] theorem State.modTympan_shapeValid (s : State) (f : Tympan → Tympan) : (s.modTympan f).shapeValid = s.shapeValid := rfl
@[simp] theorem State.modTympan_relay (s : State) (f : Tympan → Tympan) : (s.modTympan f).relay = s.relay := rfl
@[simp] theorem State.modTympan_ditherSeed (s : State) (f : Tympan → Tympan) : (s.modTympan f).ditherSeed = s.ditherSeed := rfl
@[simp] theorem State.modTympan_cores (s : State) (f : Tympan → Tympan) : (s.modTympan f).cores = s.cores := rfl
@[simp] theorem State.modTympan_hbmStacks (s : State) (f : Tympan → Tympan) : (s.modTympan f).hbmStacks = s.hbmStacks := rfl
@[simp] theorem State.modTympan_ports (s : State) (f : Tympan → Tympan) : (s.modTympan f).ports = s.ports := rfl
@[simp] theorem State.modTympan_west (s : State) (f : Tympan → Tympan) : (s.modTympan f).west = s.west := rfl
@[simp] theorem State.modTympan_east (s : State) (f : Tympan → Tympan) : (s.modTympan f).east = s.east := rfl
@[simp] theorem State.modTympan_inFlight (s : State) (f : Tympan → Tympan) : (s.modTympan f).inFlight = s.inFlight := rfl
@[simp] theorem State.modTympan_resends (s : State) (f : Tympan → Tympan) : (s.modTympan f).resends = s.resends := rfl
@[simp] theorem State.modTympan_failedLinks (s : State) (f : Tympan → Tympan) : (s.modTympan f).failedLinks = s.failedLinks := rfl
@[simp] theorem State.modTympan_deadCopies (s : State) (f : Tympan → Tympan) : (s.modTympan f).deadCopies = s.deadCopies := rfl
@[simp] theorem State.modTympan_sbOut (s : State) (f : Tympan → Tympan) : (s.modTympan f).sbOut = s.sbOut := rfl
@[simp] theorem State.modTympan_sbSince (s : State) (f : Tympan → Tympan) : (s.modTympan f).sbSince = s.sbSince := rfl
@[simp] theorem State.modTympan_portA (s : State) (f : Tympan → Tympan) : (s.modTympan f).portA = s.portA := rfl
@[simp] theorem State.modTympan_portB (s : State) (f : Tympan → Tympan) : (s.modTympan f).portB = s.portB := rfl
@[simp] theorem State.modTympan_sems (s : State) (f : Tympan → Tympan) : (s.modTympan f).sems = s.sems := rfl
@[simp] theorem State.modTympan_jobCap (s : State) (f : Tympan → Tympan) : (s.modTympan f).jobCap = s.jobCap := rfl
@[simp] theorem State.modTympan_hostOut (s : State) (f : Tympan → Tympan) : (s.modTympan f).hostOut = s.hostOut := rfl
@[simp] theorem State.modTympan_heldWrites (s : State) (f : Tympan → Tympan) : (s.modTympan f).heldWrites = s.heldWrites := rfl
@[simp] theorem State.modTympan_load (s : State) (f : Tympan → Tympan) : (s.modTympan f).load = s.load := rfl
@[simp] theorem State.modTympan_imageStage (s : State) (f : Tympan → Tympan) : (s.modTympan f).imageStage = s.imageStage := rfl
@[simp] theorem State.modTympan_image (s : State) (f : Tympan → Tympan) : (s.modTympan f).image = s.image := rfl
@[simp] theorem State.modTympan_loopTests (s : State) (f : Tympan → Tympan) : (s.modTympan f).loopTests = s.loopTests := rfl
@[simp] theorem State.modTympan_hostCopies (s : State) (f : Tympan → Tympan) : (s.modTympan f).hostCopies = s.hostCopies := rfl
@[simp] theorem State.modTympan_control (s : State) (f : Tympan → Tympan) : (s.modTympan f).control = s.control := rfl
@[simp] theorem State.modTympan_record (s : State) (f : Tympan → Tympan) : (s.modTympan f).record = s.record := rfl
@[simp] theorem State.modTympan_faults (s : State) (f : Tympan → Tympan) : (s.modTympan f).faults = s.faults := rfl
@[simp] theorem State.modTympan_trace (s : State) (f : Tympan → Tympan) : (s.modTympan f).trace = s.trace := rfl
@[simp] theorem State.modTympan_counters (s : State) (f : Tympan → Tympan) : (s.modTympan f).counters = s.counters := rfl
@[simp] theorem State.modTympan_forever (s : State) (f : Tympan → Tympan) : (s.modTympan f).forever = s.forever := rfl
@[simp] theorem State.modTympan_capture (s : State) (f : Tympan → Tympan) : (s.modTympan f).capture = s.capture := rfl
@[simp] theorem State.modTympan_boundary (s : State) (f : Tympan → Tympan) : (s.modTympan f).boundary = s.boundary := rfl
@[simp] theorem State.count_pending (s : State) (i n : Nat) : (s.count i n).pending = s.pending := rfl
@[simp] theorem State.count_powered (s : State) (i n : Nat) : (s.count i n).powered = s.powered := rfl
@[simp] theorem State.count_refTime (s : State) (i n : Nat) : (s.count i n).refTime = s.refTime := rfl
@[simp] theorem State.count_beat (s : State) (i n : Nat) : (s.count i n).beat = s.beat := rfl
@[simp] theorem State.count_phase (s : State) (i n : Nat) : (s.count i n).phase = s.phase := rfl
@[simp] theorem State.count_rest (s : State) (i n : Nat) : (s.count i n).rest = s.rest := rfl
@[simp] theorem State.count_restNext (s : State) (i n : Nat) : (s.count i n).restNext = s.restNext := rfl
@[simp] theorem State.count_holdSent (s : State) (i n : Nat) : (s.count i n).holdSent = s.holdSent := rfl
@[simp] theorem State.count_windowDone (s : State) (i n : Nat) : (s.count i n).windowDone = s.windowDone := rfl
@[simp] theorem State.count_deviceState (s : State) (i n : Nat) : (s.count i n).deviceState = s.deviceState := rfl
@[simp] theorem State.count_imageValid (s : State) (i n : Nat) : (s.count i n).imageValid = s.imageValid := rfl
@[simp] theorem State.count_tempo (s : State) (i n : Nat) : (s.count i n).tempo = s.tempo := rfl
@[simp] theorem State.count_tempoPrev (s : State) (i n : Nat) : (s.count i n).tempoPrev = s.tempoPrev := rfl
@[simp] theorem State.count_tempoMin (s : State) (i n : Nat) : (s.count i n).tempoMin = s.tempoMin := rfl
@[simp] theorem State.count_voteSpan (s : State) (i n : Nat) : (s.count i n).voteSpan = s.voteSpan := rfl
@[simp] theorem State.count_aligned (s : State) (i n : Nat) : (s.count i n).aligned = s.aligned := rfl
@[simp] theorem State.count_root (s : State) (i n : Nat) : (s.count i n).root = s.root := rfl
@[simp] theorem State.count_electing (s : State) (i n : Nat) : (s.count i n).electing = s.electing := rfl
@[simp] theorem State.count_counted (s : State) (i n : Nat) : (s.count i n).counted = s.counted := rfl
@[simp] theorem State.count_alignLost (s : State) (i n : Nat) : (s.count i n).alignLost = s.alignLost := rfl
@[simp] theorem State.count_rootHops (s : State) (i n : Nat) : (s.count i n).rootHops = s.rootHops := rfl
@[simp] theorem State.count_agree (s : State) (i n : Nat) : (s.count i n).agree = s.agree := rfl
@[simp] theorem State.count_mismatchLast (s : State) (i n : Nat) : (s.count i n).mismatchLast = s.mismatchLast := rfl
@[simp] theorem State.count_beatLog (s : State) (i n : Nat) : (s.count i n).beatLog = s.beatLog := rfl
@[simp] theorem State.count_sealedParts (s : State) (i n : Nat) : (s.count i n).sealedParts = s.sealedParts := rfl
@[simp] theorem State.count_clocksReleased (s : State) (i n : Nat) : (s.count i n).clocksReleased = s.clocksReleased := rfl
@[simp] theorem State.count_clocksProvisional (s : State) (i n : Nat) : (s.count i n).clocksProvisional = s.clocksProvisional := rfl
@[simp] theorem State.count_arithStopped (s : State) (i n : Nat) : (s.count i n).arithStopped = s.arithStopped := rfl
@[simp] theorem State.count_downbeatLo (s : State) (i n : Nat) : (s.count i n).downbeatLo = s.downbeatLo := rfl
@[simp] theorem State.count_downbeatHi (s : State) (i n : Nat) : (s.count i n).downbeatHi = s.downbeatHi := rfl
@[simp] theorem State.count_armed (s : State) (i n : Nat) : (s.count i n).armed = s.armed := rfl
@[simp] theorem State.count_launchCount (s : State) (i n : Nat) : (s.count i n).launchCount = s.launchCount := rfl
@[simp] theorem State.count_t (s : State) (i n : Nat) : (s.count i n).t = s.t := rfl
@[simp] theorem State.count_holdSources (s : State) (i n : Nat) : (s.count i n).holdSources = s.holdSources := rfl
@[simp] theorem State.count_holdForce (s : State) (i n : Nat) : (s.count i n).holdForce = s.holdForce := rfl
@[simp] theorem State.count_lateMargin (s : State) (i n : Nat) : (s.count i n).lateMargin = s.lateMargin := rfl
@[simp] theorem State.count_lateMarginNow (s : State) (i n : Nat) : (s.count i n).lateMarginNow = s.lateMarginNow := rfl
@[simp] theorem State.count_fenceMargin (s : State) (i n : Nat) : (s.count i n).fenceMargin = s.fenceMargin := rfl
@[simp] theorem State.count_copyLag (s : State) (i n : Nat) : (s.count i n).copyLag = s.copyLag := rfl
@[simp] theorem State.count_beatMargin (s : State) (i n : Nat) : (s.count i n).beatMargin = s.beatMargin := rfl
@[simp] theorem State.count_minMargin (s : State) (i n : Nat) : (s.count i n).minMargin = s.minMargin := rfl
@[simp] theorem State.count_holds (s : State) (i n : Nat) : (s.count i n).holds = s.holds := rfl
@[simp] theorem State.count_level (s : State) (i n : Nat) : (s.count i n).level = s.level := rfl
@[simp] theorem State.count_floor (s : State) (i n : Nat) : (s.count i n).floor = s.floor := rfl
@[simp] theorem State.count_haltCause (s : State) (i n : Nat) : (s.count i n).haltCause = s.haltCause := rfl
@[simp] theorem State.count_haltBeat (s : State) (i n : Nat) : (s.count i n).haltBeat = s.haltBeat := rfl
@[simp] theorem State.count_haltTime (s : State) (i n : Nat) : (s.count i n).haltTime = s.haltTime := rfl
@[simp] theorem State.count_snapBeat (s : State) (i n : Nat) : (s.count i n).snapBeat = s.snapBeat := rfl
@[simp] theorem State.count_snapPhase (s : State) (i n : Nat) : (s.count i n).snapPhase = s.snapPhase := rfl
@[simp] theorem State.count_snapStroke (s : State) (i n : Nat) : (s.count i n).snapStroke = s.snapStroke := rfl
@[simp] theorem State.count_coord (s : State) (i n : Nat) : (s.count i n).coord = s.coord := rfl
@[simp] theorem State.count_shape (s : State) (i n : Nat) : (s.count i n).shape = s.shape := rfl
@[simp] theorem State.count_shapeValid (s : State) (i n : Nat) : (s.count i n).shapeValid = s.shapeValid := rfl
@[simp] theorem State.count_relay (s : State) (i n : Nat) : (s.count i n).relay = s.relay := rfl
@[simp] theorem State.count_ditherSeed (s : State) (i n : Nat) : (s.count i n).ditherSeed = s.ditherSeed := rfl
@[simp] theorem State.count_cores (s : State) (i n : Nat) : (s.count i n).cores = s.cores := rfl
@[simp] theorem State.count_hbmStacks (s : State) (i n : Nat) : (s.count i n).hbmStacks = s.hbmStacks := rfl
@[simp] theorem State.count_ports (s : State) (i n : Nat) : (s.count i n).ports = s.ports := rfl
@[simp] theorem State.count_west (s : State) (i n : Nat) : (s.count i n).west = s.west := rfl
@[simp] theorem State.count_east (s : State) (i n : Nat) : (s.count i n).east = s.east := rfl
@[simp] theorem State.count_inFlight (s : State) (i n : Nat) : (s.count i n).inFlight = s.inFlight := rfl
@[simp] theorem State.count_resends (s : State) (i n : Nat) : (s.count i n).resends = s.resends := rfl
@[simp] theorem State.count_failedLinks (s : State) (i n : Nat) : (s.count i n).failedLinks = s.failedLinks := rfl
@[simp] theorem State.count_deadCopies (s : State) (i n : Nat) : (s.count i n).deadCopies = s.deadCopies := rfl
@[simp] theorem State.count_sbOut (s : State) (i n : Nat) : (s.count i n).sbOut = s.sbOut := rfl
@[simp] theorem State.count_sbSince (s : State) (i n : Nat) : (s.count i n).sbSince = s.sbSince := rfl
@[simp] theorem State.count_tympan (s : State) (i n : Nat) : (s.count i n).tympan = s.tympan := rfl
@[simp] theorem State.count_portA (s : State) (i n : Nat) : (s.count i n).portA = s.portA := rfl
@[simp] theorem State.count_portB (s : State) (i n : Nat) : (s.count i n).portB = s.portB := rfl
@[simp] theorem State.count_sems (s : State) (i n : Nat) : (s.count i n).sems = s.sems := rfl
@[simp] theorem State.count_jobCap (s : State) (i n : Nat) : (s.count i n).jobCap = s.jobCap := rfl
@[simp] theorem State.count_hostOut (s : State) (i n : Nat) : (s.count i n).hostOut = s.hostOut := rfl
@[simp] theorem State.count_heldWrites (s : State) (i n : Nat) : (s.count i n).heldWrites = s.heldWrites := rfl
@[simp] theorem State.count_load (s : State) (i n : Nat) : (s.count i n).load = s.load := rfl
@[simp] theorem State.count_imageStage (s : State) (i n : Nat) : (s.count i n).imageStage = s.imageStage := rfl
@[simp] theorem State.count_image (s : State) (i n : Nat) : (s.count i n).image = s.image := rfl
@[simp] theorem State.count_loopTests (s : State) (i n : Nat) : (s.count i n).loopTests = s.loopTests := rfl
@[simp] theorem State.count_hostCopies (s : State) (i n : Nat) : (s.count i n).hostCopies = s.hostCopies := rfl
@[simp] theorem State.count_control (s : State) (i n : Nat) : (s.count i n).control = s.control := rfl
@[simp] theorem State.count_record (s : State) (i n : Nat) : (s.count i n).record = s.record := rfl
@[simp] theorem State.count_faults (s : State) (i n : Nat) : (s.count i n).faults = s.faults := rfl
@[simp] theorem State.count_trace (s : State) (i n : Nat) : (s.count i n).trace = s.trace := rfl
@[simp] theorem State.count_forever (s : State) (i n : Nat) : (s.count i n).forever = s.forever := rfl
@[simp] theorem State.count_capture (s : State) (i n : Nat) : (s.count i n).capture = s.capture := rfl
@[simp] theorem State.count_boundary (s : State) (i n : Nat) : (s.count i n).boundary = s.boundary := rfl
@[simp] theorem State.countForever_pending (s : State) (i n : Nat) : (s.countForever i n).pending = s.pending := rfl
@[simp] theorem State.countForever_powered (s : State) (i n : Nat) : (s.countForever i n).powered = s.powered := rfl
@[simp] theorem State.countForever_refTime (s : State) (i n : Nat) : (s.countForever i n).refTime = s.refTime := rfl
@[simp] theorem State.countForever_beat (s : State) (i n : Nat) : (s.countForever i n).beat = s.beat := rfl
@[simp] theorem State.countForever_phase (s : State) (i n : Nat) : (s.countForever i n).phase = s.phase := rfl
@[simp] theorem State.countForever_rest (s : State) (i n : Nat) : (s.countForever i n).rest = s.rest := rfl
@[simp] theorem State.countForever_restNext (s : State) (i n : Nat) : (s.countForever i n).restNext = s.restNext := rfl
@[simp] theorem State.countForever_holdSent (s : State) (i n : Nat) : (s.countForever i n).holdSent = s.holdSent := rfl
@[simp] theorem State.countForever_windowDone (s : State) (i n : Nat) : (s.countForever i n).windowDone = s.windowDone := rfl
@[simp] theorem State.countForever_deviceState (s : State) (i n : Nat) : (s.countForever i n).deviceState = s.deviceState := rfl
@[simp] theorem State.countForever_imageValid (s : State) (i n : Nat) : (s.countForever i n).imageValid = s.imageValid := rfl
@[simp] theorem State.countForever_tempo (s : State) (i n : Nat) : (s.countForever i n).tempo = s.tempo := rfl
@[simp] theorem State.countForever_tempoPrev (s : State) (i n : Nat) : (s.countForever i n).tempoPrev = s.tempoPrev := rfl
@[simp] theorem State.countForever_tempoMin (s : State) (i n : Nat) : (s.countForever i n).tempoMin = s.tempoMin := rfl
@[simp] theorem State.countForever_voteSpan (s : State) (i n : Nat) : (s.countForever i n).voteSpan = s.voteSpan := rfl
@[simp] theorem State.countForever_aligned (s : State) (i n : Nat) : (s.countForever i n).aligned = s.aligned := rfl
@[simp] theorem State.countForever_root (s : State) (i n : Nat) : (s.countForever i n).root = s.root := rfl
@[simp] theorem State.countForever_electing (s : State) (i n : Nat) : (s.countForever i n).electing = s.electing := rfl
@[simp] theorem State.countForever_counted (s : State) (i n : Nat) : (s.countForever i n).counted = s.counted := rfl
@[simp] theorem State.countForever_alignLost (s : State) (i n : Nat) : (s.countForever i n).alignLost = s.alignLost := rfl
@[simp] theorem State.countForever_rootHops (s : State) (i n : Nat) : (s.countForever i n).rootHops = s.rootHops := rfl
@[simp] theorem State.countForever_agree (s : State) (i n : Nat) : (s.countForever i n).agree = s.agree := rfl
@[simp] theorem State.countForever_mismatchLast (s : State) (i n : Nat) : (s.countForever i n).mismatchLast = s.mismatchLast := rfl
@[simp] theorem State.countForever_beatLog (s : State) (i n : Nat) : (s.countForever i n).beatLog = s.beatLog := rfl
@[simp] theorem State.countForever_sealedParts (s : State) (i n : Nat) : (s.countForever i n).sealedParts = s.sealedParts := rfl
@[simp] theorem State.countForever_clocksReleased (s : State) (i n : Nat) : (s.countForever i n).clocksReleased = s.clocksReleased := rfl
@[simp] theorem State.countForever_clocksProvisional (s : State) (i n : Nat) : (s.countForever i n).clocksProvisional = s.clocksProvisional := rfl
@[simp] theorem State.countForever_arithStopped (s : State) (i n : Nat) : (s.countForever i n).arithStopped = s.arithStopped := rfl
@[simp] theorem State.countForever_downbeatLo (s : State) (i n : Nat) : (s.countForever i n).downbeatLo = s.downbeatLo := rfl
@[simp] theorem State.countForever_downbeatHi (s : State) (i n : Nat) : (s.countForever i n).downbeatHi = s.downbeatHi := rfl
@[simp] theorem State.countForever_armed (s : State) (i n : Nat) : (s.countForever i n).armed = s.armed := rfl
@[simp] theorem State.countForever_launchCount (s : State) (i n : Nat) : (s.countForever i n).launchCount = s.launchCount := rfl
@[simp] theorem State.countForever_t (s : State) (i n : Nat) : (s.countForever i n).t = s.t := rfl
@[simp] theorem State.countForever_holdSources (s : State) (i n : Nat) : (s.countForever i n).holdSources = s.holdSources := rfl
@[simp] theorem State.countForever_holdForce (s : State) (i n : Nat) : (s.countForever i n).holdForce = s.holdForce := rfl
@[simp] theorem State.countForever_lateMargin (s : State) (i n : Nat) : (s.countForever i n).lateMargin = s.lateMargin := rfl
@[simp] theorem State.countForever_lateMarginNow (s : State) (i n : Nat) : (s.countForever i n).lateMarginNow = s.lateMarginNow := rfl
@[simp] theorem State.countForever_fenceMargin (s : State) (i n : Nat) : (s.countForever i n).fenceMargin = s.fenceMargin := rfl
@[simp] theorem State.countForever_copyLag (s : State) (i n : Nat) : (s.countForever i n).copyLag = s.copyLag := rfl
@[simp] theorem State.countForever_beatMargin (s : State) (i n : Nat) : (s.countForever i n).beatMargin = s.beatMargin := rfl
@[simp] theorem State.countForever_minMargin (s : State) (i n : Nat) : (s.countForever i n).minMargin = s.minMargin := rfl
@[simp] theorem State.countForever_holds (s : State) (i n : Nat) : (s.countForever i n).holds = s.holds := rfl
@[simp] theorem State.countForever_level (s : State) (i n : Nat) : (s.countForever i n).level = s.level := rfl
@[simp] theorem State.countForever_floor (s : State) (i n : Nat) : (s.countForever i n).floor = s.floor := rfl
@[simp] theorem State.countForever_haltCause (s : State) (i n : Nat) : (s.countForever i n).haltCause = s.haltCause := rfl
@[simp] theorem State.countForever_haltBeat (s : State) (i n : Nat) : (s.countForever i n).haltBeat = s.haltBeat := rfl
@[simp] theorem State.countForever_haltTime (s : State) (i n : Nat) : (s.countForever i n).haltTime = s.haltTime := rfl
@[simp] theorem State.countForever_snapBeat (s : State) (i n : Nat) : (s.countForever i n).snapBeat = s.snapBeat := rfl
@[simp] theorem State.countForever_snapPhase (s : State) (i n : Nat) : (s.countForever i n).snapPhase = s.snapPhase := rfl
@[simp] theorem State.countForever_snapStroke (s : State) (i n : Nat) : (s.countForever i n).snapStroke = s.snapStroke := rfl
@[simp] theorem State.countForever_coord (s : State) (i n : Nat) : (s.countForever i n).coord = s.coord := rfl
@[simp] theorem State.countForever_shape (s : State) (i n : Nat) : (s.countForever i n).shape = s.shape := rfl
@[simp] theorem State.countForever_shapeValid (s : State) (i n : Nat) : (s.countForever i n).shapeValid = s.shapeValid := rfl
@[simp] theorem State.countForever_relay (s : State) (i n : Nat) : (s.countForever i n).relay = s.relay := rfl
@[simp] theorem State.countForever_ditherSeed (s : State) (i n : Nat) : (s.countForever i n).ditherSeed = s.ditherSeed := rfl
@[simp] theorem State.countForever_cores (s : State) (i n : Nat) : (s.countForever i n).cores = s.cores := rfl
@[simp] theorem State.countForever_hbmStacks (s : State) (i n : Nat) : (s.countForever i n).hbmStacks = s.hbmStacks := rfl
@[simp] theorem State.countForever_ports (s : State) (i n : Nat) : (s.countForever i n).ports = s.ports := rfl
@[simp] theorem State.countForever_west (s : State) (i n : Nat) : (s.countForever i n).west = s.west := rfl
@[simp] theorem State.countForever_east (s : State) (i n : Nat) : (s.countForever i n).east = s.east := rfl
@[simp] theorem State.countForever_inFlight (s : State) (i n : Nat) : (s.countForever i n).inFlight = s.inFlight := rfl
@[simp] theorem State.countForever_resends (s : State) (i n : Nat) : (s.countForever i n).resends = s.resends := rfl
@[simp] theorem State.countForever_failedLinks (s : State) (i n : Nat) : (s.countForever i n).failedLinks = s.failedLinks := rfl
@[simp] theorem State.countForever_deadCopies (s : State) (i n : Nat) : (s.countForever i n).deadCopies = s.deadCopies := rfl
@[simp] theorem State.countForever_sbOut (s : State) (i n : Nat) : (s.countForever i n).sbOut = s.sbOut := rfl
@[simp] theorem State.countForever_sbSince (s : State) (i n : Nat) : (s.countForever i n).sbSince = s.sbSince := rfl
@[simp] theorem State.countForever_tympan (s : State) (i n : Nat) : (s.countForever i n).tympan = s.tympan := rfl
@[simp] theorem State.countForever_portA (s : State) (i n : Nat) : (s.countForever i n).portA = s.portA := rfl
@[simp] theorem State.countForever_portB (s : State) (i n : Nat) : (s.countForever i n).portB = s.portB := rfl
@[simp] theorem State.countForever_sems (s : State) (i n : Nat) : (s.countForever i n).sems = s.sems := rfl
@[simp] theorem State.countForever_jobCap (s : State) (i n : Nat) : (s.countForever i n).jobCap = s.jobCap := rfl
@[simp] theorem State.countForever_hostOut (s : State) (i n : Nat) : (s.countForever i n).hostOut = s.hostOut := rfl
@[simp] theorem State.countForever_heldWrites (s : State) (i n : Nat) : (s.countForever i n).heldWrites = s.heldWrites := rfl
@[simp] theorem State.countForever_load (s : State) (i n : Nat) : (s.countForever i n).load = s.load := rfl
@[simp] theorem State.countForever_imageStage (s : State) (i n : Nat) : (s.countForever i n).imageStage = s.imageStage := rfl
@[simp] theorem State.countForever_image (s : State) (i n : Nat) : (s.countForever i n).image = s.image := rfl
@[simp] theorem State.countForever_loopTests (s : State) (i n : Nat) : (s.countForever i n).loopTests = s.loopTests := rfl
@[simp] theorem State.countForever_hostCopies (s : State) (i n : Nat) : (s.countForever i n).hostCopies = s.hostCopies := rfl
@[simp] theorem State.countForever_control (s : State) (i n : Nat) : (s.countForever i n).control = s.control := rfl
@[simp] theorem State.countForever_record (s : State) (i n : Nat) : (s.countForever i n).record = s.record := rfl
@[simp] theorem State.countForever_faults (s : State) (i n : Nat) : (s.countForever i n).faults = s.faults := rfl
@[simp] theorem State.countForever_trace (s : State) (i n : Nat) : (s.countForever i n).trace = s.trace := rfl
@[simp] theorem State.countForever_counters (s : State) (i n : Nat) : (s.countForever i n).counters = s.counters := rfl
@[simp] theorem State.countForever_capture (s : State) (i n : Nat) : (s.countForever i n).capture = s.capture := rfl
@[simp] theorem State.countForever_boundary (s : State) (i n : Nat) : (s.countForever i n).boundary = s.boundary := rfl
@[simp] theorem State.send_pending (s : State) (p : Packet) : (s.send p).pending = s.pending := rfl
@[simp] theorem State.send_powered (s : State) (p : Packet) : (s.send p).powered = s.powered := rfl
@[simp] theorem State.send_refTime (s : State) (p : Packet) : (s.send p).refTime = s.refTime := rfl
@[simp] theorem State.send_beat (s : State) (p : Packet) : (s.send p).beat = s.beat := rfl
@[simp] theorem State.send_phase (s : State) (p : Packet) : (s.send p).phase = s.phase := rfl
@[simp] theorem State.send_rest (s : State) (p : Packet) : (s.send p).rest = s.rest := rfl
@[simp] theorem State.send_restNext (s : State) (p : Packet) : (s.send p).restNext = s.restNext := rfl
@[simp] theorem State.send_holdSent (s : State) (p : Packet) : (s.send p).holdSent = s.holdSent := rfl
@[simp] theorem State.send_windowDone (s : State) (p : Packet) : (s.send p).windowDone = s.windowDone := rfl
@[simp] theorem State.send_deviceState (s : State) (p : Packet) : (s.send p).deviceState = s.deviceState := rfl
@[simp] theorem State.send_imageValid (s : State) (p : Packet) : (s.send p).imageValid = s.imageValid := rfl
@[simp] theorem State.send_tempo (s : State) (p : Packet) : (s.send p).tempo = s.tempo := rfl
@[simp] theorem State.send_tempoPrev (s : State) (p : Packet) : (s.send p).tempoPrev = s.tempoPrev := rfl
@[simp] theorem State.send_tempoMin (s : State) (p : Packet) : (s.send p).tempoMin = s.tempoMin := rfl
@[simp] theorem State.send_voteSpan (s : State) (p : Packet) : (s.send p).voteSpan = s.voteSpan := rfl
@[simp] theorem State.send_aligned (s : State) (p : Packet) : (s.send p).aligned = s.aligned := rfl
@[simp] theorem State.send_root (s : State) (p : Packet) : (s.send p).root = s.root := rfl
@[simp] theorem State.send_electing (s : State) (p : Packet) : (s.send p).electing = s.electing := rfl
@[simp] theorem State.send_counted (s : State) (p : Packet) : (s.send p).counted = s.counted := rfl
@[simp] theorem State.send_alignLost (s : State) (p : Packet) : (s.send p).alignLost = s.alignLost := rfl
@[simp] theorem State.send_rootHops (s : State) (p : Packet) : (s.send p).rootHops = s.rootHops := rfl
@[simp] theorem State.send_agree (s : State) (p : Packet) : (s.send p).agree = s.agree := rfl
@[simp] theorem State.send_mismatchLast (s : State) (p : Packet) : (s.send p).mismatchLast = s.mismatchLast := rfl
@[simp] theorem State.send_beatLog (s : State) (p : Packet) : (s.send p).beatLog = s.beatLog := rfl
@[simp] theorem State.send_sealedParts (s : State) (p : Packet) : (s.send p).sealedParts = s.sealedParts := rfl
@[simp] theorem State.send_clocksReleased (s : State) (p : Packet) : (s.send p).clocksReleased = s.clocksReleased := rfl
@[simp] theorem State.send_clocksProvisional (s : State) (p : Packet) : (s.send p).clocksProvisional = s.clocksProvisional := rfl
@[simp] theorem State.send_arithStopped (s : State) (p : Packet) : (s.send p).arithStopped = s.arithStopped := rfl
@[simp] theorem State.send_downbeatLo (s : State) (p : Packet) : (s.send p).downbeatLo = s.downbeatLo := rfl
@[simp] theorem State.send_downbeatHi (s : State) (p : Packet) : (s.send p).downbeatHi = s.downbeatHi := rfl
@[simp] theorem State.send_armed (s : State) (p : Packet) : (s.send p).armed = s.armed := rfl
@[simp] theorem State.send_launchCount (s : State) (p : Packet) : (s.send p).launchCount = s.launchCount := rfl
@[simp] theorem State.send_t (s : State) (p : Packet) : (s.send p).t = s.t := rfl
@[simp] theorem State.send_holdSources (s : State) (p : Packet) : (s.send p).holdSources = s.holdSources := rfl
@[simp] theorem State.send_holdForce (s : State) (p : Packet) : (s.send p).holdForce = s.holdForce := rfl
@[simp] theorem State.send_lateMargin (s : State) (p : Packet) : (s.send p).lateMargin = s.lateMargin := rfl
@[simp] theorem State.send_lateMarginNow (s : State) (p : Packet) : (s.send p).lateMarginNow = s.lateMarginNow := rfl
@[simp] theorem State.send_fenceMargin (s : State) (p : Packet) : (s.send p).fenceMargin = s.fenceMargin := rfl
@[simp] theorem State.send_copyLag (s : State) (p : Packet) : (s.send p).copyLag = s.copyLag := rfl
@[simp] theorem State.send_beatMargin (s : State) (p : Packet) : (s.send p).beatMargin = s.beatMargin := rfl
@[simp] theorem State.send_minMargin (s : State) (p : Packet) : (s.send p).minMargin = s.minMargin := rfl
@[simp] theorem State.send_holds (s : State) (p : Packet) : (s.send p).holds = s.holds := rfl
@[simp] theorem State.send_level (s : State) (p : Packet) : (s.send p).level = s.level := rfl
@[simp] theorem State.send_floor (s : State) (p : Packet) : (s.send p).floor = s.floor := rfl
@[simp] theorem State.send_haltCause (s : State) (p : Packet) : (s.send p).haltCause = s.haltCause := rfl
@[simp] theorem State.send_haltBeat (s : State) (p : Packet) : (s.send p).haltBeat = s.haltBeat := rfl
@[simp] theorem State.send_haltTime (s : State) (p : Packet) : (s.send p).haltTime = s.haltTime := rfl
@[simp] theorem State.send_snapBeat (s : State) (p : Packet) : (s.send p).snapBeat = s.snapBeat := rfl
@[simp] theorem State.send_snapPhase (s : State) (p : Packet) : (s.send p).snapPhase = s.snapPhase := rfl
@[simp] theorem State.send_snapStroke (s : State) (p : Packet) : (s.send p).snapStroke = s.snapStroke := rfl
@[simp] theorem State.send_coord (s : State) (p : Packet) : (s.send p).coord = s.coord := rfl
@[simp] theorem State.send_shape (s : State) (p : Packet) : (s.send p).shape = s.shape := rfl
@[simp] theorem State.send_shapeValid (s : State) (p : Packet) : (s.send p).shapeValid = s.shapeValid := rfl
@[simp] theorem State.send_relay (s : State) (p : Packet) : (s.send p).relay = s.relay := rfl
@[simp] theorem State.send_ditherSeed (s : State) (p : Packet) : (s.send p).ditherSeed = s.ditherSeed := rfl
@[simp] theorem State.send_cores (s : State) (p : Packet) : (s.send p).cores = s.cores := rfl
@[simp] theorem State.send_hbmStacks (s : State) (p : Packet) : (s.send p).hbmStacks = s.hbmStacks := rfl
@[simp] theorem State.send_ports (s : State) (p : Packet) : (s.send p).ports = s.ports := rfl
@[simp] theorem State.send_west (s : State) (p : Packet) : (s.send p).west = s.west := rfl
@[simp] theorem State.send_east (s : State) (p : Packet) : (s.send p).east = s.east := rfl
@[simp] theorem State.send_resends (s : State) (p : Packet) : (s.send p).resends = s.resends := rfl
@[simp] theorem State.send_failedLinks (s : State) (p : Packet) : (s.send p).failedLinks = s.failedLinks := rfl
@[simp] theorem State.send_deadCopies (s : State) (p : Packet) : (s.send p).deadCopies = s.deadCopies := rfl
@[simp] theorem State.send_sbOut (s : State) (p : Packet) : (s.send p).sbOut = s.sbOut := rfl
@[simp] theorem State.send_sbSince (s : State) (p : Packet) : (s.send p).sbSince = s.sbSince := rfl
@[simp] theorem State.send_tympan (s : State) (p : Packet) : (s.send p).tympan = s.tympan := rfl
@[simp] theorem State.send_portA (s : State) (p : Packet) : (s.send p).portA = s.portA := rfl
@[simp] theorem State.send_portB (s : State) (p : Packet) : (s.send p).portB = s.portB := rfl
@[simp] theorem State.send_sems (s : State) (p : Packet) : (s.send p).sems = s.sems := rfl
@[simp] theorem State.send_jobCap (s : State) (p : Packet) : (s.send p).jobCap = s.jobCap := rfl
@[simp] theorem State.send_hostOut (s : State) (p : Packet) : (s.send p).hostOut = s.hostOut := rfl
@[simp] theorem State.send_heldWrites (s : State) (p : Packet) : (s.send p).heldWrites = s.heldWrites := rfl
@[simp] theorem State.send_load (s : State) (p : Packet) : (s.send p).load = s.load := rfl
@[simp] theorem State.send_imageStage (s : State) (p : Packet) : (s.send p).imageStage = s.imageStage := rfl
@[simp] theorem State.send_image (s : State) (p : Packet) : (s.send p).image = s.image := rfl
@[simp] theorem State.send_loopTests (s : State) (p : Packet) : (s.send p).loopTests = s.loopTests := rfl
@[simp] theorem State.send_hostCopies (s : State) (p : Packet) : (s.send p).hostCopies = s.hostCopies := rfl
@[simp] theorem State.send_control (s : State) (p : Packet) : (s.send p).control = s.control := rfl
@[simp] theorem State.send_record (s : State) (p : Packet) : (s.send p).record = s.record := rfl
@[simp] theorem State.send_faults (s : State) (p : Packet) : (s.send p).faults = s.faults := rfl
@[simp] theorem State.send_trace (s : State) (p : Packet) : (s.send p).trace = s.trace := rfl
@[simp] theorem State.send_counters (s : State) (p : Packet) : (s.send p).counters = s.counters := rfl
@[simp] theorem State.send_forever (s : State) (p : Packet) : (s.send p).forever = s.forever := rfl
@[simp] theorem State.send_capture (s : State) (p : Packet) : (s.send p).capture = s.capture := rfl
@[simp] theorem State.send_boundary (s : State) (p : Packet) : (s.send p).boundary = s.boundary := rfl
@[simp] theorem State.sendAll_pending (s : State) (ps : List Packet) : (s.sendAll ps).pending = s.pending := rfl
@[simp] theorem State.sendAll_powered (s : State) (ps : List Packet) : (s.sendAll ps).powered = s.powered := rfl
@[simp] theorem State.sendAll_refTime (s : State) (ps : List Packet) : (s.sendAll ps).refTime = s.refTime := rfl
@[simp] theorem State.sendAll_beat (s : State) (ps : List Packet) : (s.sendAll ps).beat = s.beat := rfl
@[simp] theorem State.sendAll_phase (s : State) (ps : List Packet) : (s.sendAll ps).phase = s.phase := rfl
@[simp] theorem State.sendAll_rest (s : State) (ps : List Packet) : (s.sendAll ps).rest = s.rest := rfl
@[simp] theorem State.sendAll_restNext (s : State) (ps : List Packet) : (s.sendAll ps).restNext = s.restNext := rfl
@[simp] theorem State.sendAll_holdSent (s : State) (ps : List Packet) : (s.sendAll ps).holdSent = s.holdSent := rfl
@[simp] theorem State.sendAll_windowDone (s : State) (ps : List Packet) : (s.sendAll ps).windowDone = s.windowDone := rfl
@[simp] theorem State.sendAll_deviceState (s : State) (ps : List Packet) : (s.sendAll ps).deviceState = s.deviceState := rfl
@[simp] theorem State.sendAll_imageValid (s : State) (ps : List Packet) : (s.sendAll ps).imageValid = s.imageValid := rfl
@[simp] theorem State.sendAll_tempo (s : State) (ps : List Packet) : (s.sendAll ps).tempo = s.tempo := rfl
@[simp] theorem State.sendAll_tempoPrev (s : State) (ps : List Packet) : (s.sendAll ps).tempoPrev = s.tempoPrev := rfl
@[simp] theorem State.sendAll_tempoMin (s : State) (ps : List Packet) : (s.sendAll ps).tempoMin = s.tempoMin := rfl
@[simp] theorem State.sendAll_voteSpan (s : State) (ps : List Packet) : (s.sendAll ps).voteSpan = s.voteSpan := rfl
@[simp] theorem State.sendAll_aligned (s : State) (ps : List Packet) : (s.sendAll ps).aligned = s.aligned := rfl
@[simp] theorem State.sendAll_root (s : State) (ps : List Packet) : (s.sendAll ps).root = s.root := rfl
@[simp] theorem State.sendAll_electing (s : State) (ps : List Packet) : (s.sendAll ps).electing = s.electing := rfl
@[simp] theorem State.sendAll_counted (s : State) (ps : List Packet) : (s.sendAll ps).counted = s.counted := rfl
@[simp] theorem State.sendAll_alignLost (s : State) (ps : List Packet) : (s.sendAll ps).alignLost = s.alignLost := rfl
@[simp] theorem State.sendAll_rootHops (s : State) (ps : List Packet) : (s.sendAll ps).rootHops = s.rootHops := rfl
@[simp] theorem State.sendAll_agree (s : State) (ps : List Packet) : (s.sendAll ps).agree = s.agree := rfl
@[simp] theorem State.sendAll_mismatchLast (s : State) (ps : List Packet) : (s.sendAll ps).mismatchLast = s.mismatchLast := rfl
@[simp] theorem State.sendAll_beatLog (s : State) (ps : List Packet) : (s.sendAll ps).beatLog = s.beatLog := rfl
@[simp] theorem State.sendAll_sealedParts (s : State) (ps : List Packet) : (s.sendAll ps).sealedParts = s.sealedParts := rfl
@[simp] theorem State.sendAll_clocksReleased (s : State) (ps : List Packet) : (s.sendAll ps).clocksReleased = s.clocksReleased := rfl
@[simp] theorem State.sendAll_clocksProvisional (s : State) (ps : List Packet) : (s.sendAll ps).clocksProvisional = s.clocksProvisional := rfl
@[simp] theorem State.sendAll_arithStopped (s : State) (ps : List Packet) : (s.sendAll ps).arithStopped = s.arithStopped := rfl
@[simp] theorem State.sendAll_downbeatLo (s : State) (ps : List Packet) : (s.sendAll ps).downbeatLo = s.downbeatLo := rfl
@[simp] theorem State.sendAll_downbeatHi (s : State) (ps : List Packet) : (s.sendAll ps).downbeatHi = s.downbeatHi := rfl
@[simp] theorem State.sendAll_armed (s : State) (ps : List Packet) : (s.sendAll ps).armed = s.armed := rfl
@[simp] theorem State.sendAll_launchCount (s : State) (ps : List Packet) : (s.sendAll ps).launchCount = s.launchCount := rfl
@[simp] theorem State.sendAll_t (s : State) (ps : List Packet) : (s.sendAll ps).t = s.t := rfl
@[simp] theorem State.sendAll_holdSources (s : State) (ps : List Packet) : (s.sendAll ps).holdSources = s.holdSources := rfl
@[simp] theorem State.sendAll_holdForce (s : State) (ps : List Packet) : (s.sendAll ps).holdForce = s.holdForce := rfl
@[simp] theorem State.sendAll_lateMargin (s : State) (ps : List Packet) : (s.sendAll ps).lateMargin = s.lateMargin := rfl
@[simp] theorem State.sendAll_lateMarginNow (s : State) (ps : List Packet) : (s.sendAll ps).lateMarginNow = s.lateMarginNow := rfl
@[simp] theorem State.sendAll_fenceMargin (s : State) (ps : List Packet) : (s.sendAll ps).fenceMargin = s.fenceMargin := rfl
@[simp] theorem State.sendAll_copyLag (s : State) (ps : List Packet) : (s.sendAll ps).copyLag = s.copyLag := rfl
@[simp] theorem State.sendAll_beatMargin (s : State) (ps : List Packet) : (s.sendAll ps).beatMargin = s.beatMargin := rfl
@[simp] theorem State.sendAll_minMargin (s : State) (ps : List Packet) : (s.sendAll ps).minMargin = s.minMargin := rfl
@[simp] theorem State.sendAll_holds (s : State) (ps : List Packet) : (s.sendAll ps).holds = s.holds := rfl
@[simp] theorem State.sendAll_level (s : State) (ps : List Packet) : (s.sendAll ps).level = s.level := rfl
@[simp] theorem State.sendAll_floor (s : State) (ps : List Packet) : (s.sendAll ps).floor = s.floor := rfl
@[simp] theorem State.sendAll_haltCause (s : State) (ps : List Packet) : (s.sendAll ps).haltCause = s.haltCause := rfl
@[simp] theorem State.sendAll_haltBeat (s : State) (ps : List Packet) : (s.sendAll ps).haltBeat = s.haltBeat := rfl
@[simp] theorem State.sendAll_haltTime (s : State) (ps : List Packet) : (s.sendAll ps).haltTime = s.haltTime := rfl
@[simp] theorem State.sendAll_snapBeat (s : State) (ps : List Packet) : (s.sendAll ps).snapBeat = s.snapBeat := rfl
@[simp] theorem State.sendAll_snapPhase (s : State) (ps : List Packet) : (s.sendAll ps).snapPhase = s.snapPhase := rfl
@[simp] theorem State.sendAll_snapStroke (s : State) (ps : List Packet) : (s.sendAll ps).snapStroke = s.snapStroke := rfl
@[simp] theorem State.sendAll_coord (s : State) (ps : List Packet) : (s.sendAll ps).coord = s.coord := rfl
@[simp] theorem State.sendAll_shape (s : State) (ps : List Packet) : (s.sendAll ps).shape = s.shape := rfl
@[simp] theorem State.sendAll_shapeValid (s : State) (ps : List Packet) : (s.sendAll ps).shapeValid = s.shapeValid := rfl
@[simp] theorem State.sendAll_relay (s : State) (ps : List Packet) : (s.sendAll ps).relay = s.relay := rfl
@[simp] theorem State.sendAll_ditherSeed (s : State) (ps : List Packet) : (s.sendAll ps).ditherSeed = s.ditherSeed := rfl
@[simp] theorem State.sendAll_cores (s : State) (ps : List Packet) : (s.sendAll ps).cores = s.cores := rfl
@[simp] theorem State.sendAll_hbmStacks (s : State) (ps : List Packet) : (s.sendAll ps).hbmStacks = s.hbmStacks := rfl
@[simp] theorem State.sendAll_ports (s : State) (ps : List Packet) : (s.sendAll ps).ports = s.ports := rfl
@[simp] theorem State.sendAll_west (s : State) (ps : List Packet) : (s.sendAll ps).west = s.west := rfl
@[simp] theorem State.sendAll_east (s : State) (ps : List Packet) : (s.sendAll ps).east = s.east := rfl
@[simp] theorem State.sendAll_resends (s : State) (ps : List Packet) : (s.sendAll ps).resends = s.resends := rfl
@[simp] theorem State.sendAll_failedLinks (s : State) (ps : List Packet) : (s.sendAll ps).failedLinks = s.failedLinks := rfl
@[simp] theorem State.sendAll_deadCopies (s : State) (ps : List Packet) : (s.sendAll ps).deadCopies = s.deadCopies := rfl
@[simp] theorem State.sendAll_sbOut (s : State) (ps : List Packet) : (s.sendAll ps).sbOut = s.sbOut := rfl
@[simp] theorem State.sendAll_sbSince (s : State) (ps : List Packet) : (s.sendAll ps).sbSince = s.sbSince := rfl
@[simp] theorem State.sendAll_tympan (s : State) (ps : List Packet) : (s.sendAll ps).tympan = s.tympan := rfl
@[simp] theorem State.sendAll_portA (s : State) (ps : List Packet) : (s.sendAll ps).portA = s.portA := rfl
@[simp] theorem State.sendAll_portB (s : State) (ps : List Packet) : (s.sendAll ps).portB = s.portB := rfl
@[simp] theorem State.sendAll_sems (s : State) (ps : List Packet) : (s.sendAll ps).sems = s.sems := rfl
@[simp] theorem State.sendAll_jobCap (s : State) (ps : List Packet) : (s.sendAll ps).jobCap = s.jobCap := rfl
@[simp] theorem State.sendAll_hostOut (s : State) (ps : List Packet) : (s.sendAll ps).hostOut = s.hostOut := rfl
@[simp] theorem State.sendAll_heldWrites (s : State) (ps : List Packet) : (s.sendAll ps).heldWrites = s.heldWrites := rfl
@[simp] theorem State.sendAll_load (s : State) (ps : List Packet) : (s.sendAll ps).load = s.load := rfl
@[simp] theorem State.sendAll_imageStage (s : State) (ps : List Packet) : (s.sendAll ps).imageStage = s.imageStage := rfl
@[simp] theorem State.sendAll_image (s : State) (ps : List Packet) : (s.sendAll ps).image = s.image := rfl
@[simp] theorem State.sendAll_loopTests (s : State) (ps : List Packet) : (s.sendAll ps).loopTests = s.loopTests := rfl
@[simp] theorem State.sendAll_hostCopies (s : State) (ps : List Packet) : (s.sendAll ps).hostCopies = s.hostCopies := rfl
@[simp] theorem State.sendAll_control (s : State) (ps : List Packet) : (s.sendAll ps).control = s.control := rfl
@[simp] theorem State.sendAll_record (s : State) (ps : List Packet) : (s.sendAll ps).record = s.record := rfl
@[simp] theorem State.sendAll_faults (s : State) (ps : List Packet) : (s.sendAll ps).faults = s.faults := rfl
@[simp] theorem State.sendAll_trace (s : State) (ps : List Packet) : (s.sendAll ps).trace = s.trace := rfl
@[simp] theorem State.sendAll_counters (s : State) (ps : List Packet) : (s.sendAll ps).counters = s.counters := rfl
@[simp] theorem State.sendAll_forever (s : State) (ps : List Packet) : (s.sendAll ps).forever = s.forever := rfl
@[simp] theorem State.sendAll_capture (s : State) (ps : List Packet) : (s.sendAll ps).capture = s.capture := rfl
@[simp] theorem State.sendAll_boundary (s : State) (ps : List Packet) : (s.sendAll ps).boundary = s.boundary := rfl
@[simp] theorem State.arrive_pending (s : State) (p : Packet) : (s.arrive p).pending = s.pending := rfl
@[simp] theorem State.arrive_powered (s : State) (p : Packet) : (s.arrive p).powered = s.powered := rfl
@[simp] theorem State.arrive_refTime (s : State) (p : Packet) : (s.arrive p).refTime = s.refTime := rfl
@[simp] theorem State.arrive_beat (s : State) (p : Packet) : (s.arrive p).beat = s.beat := rfl
@[simp] theorem State.arrive_phase (s : State) (p : Packet) : (s.arrive p).phase = s.phase := rfl
@[simp] theorem State.arrive_rest (s : State) (p : Packet) : (s.arrive p).rest = s.rest := rfl
@[simp] theorem State.arrive_restNext (s : State) (p : Packet) : (s.arrive p).restNext = s.restNext := rfl
@[simp] theorem State.arrive_holdSent (s : State) (p : Packet) : (s.arrive p).holdSent = s.holdSent := rfl
@[simp] theorem State.arrive_windowDone (s : State) (p : Packet) : (s.arrive p).windowDone = s.windowDone := rfl
@[simp] theorem State.arrive_deviceState (s : State) (p : Packet) : (s.arrive p).deviceState = s.deviceState := rfl
@[simp] theorem State.arrive_imageValid (s : State) (p : Packet) : (s.arrive p).imageValid = s.imageValid := rfl
@[simp] theorem State.arrive_tempo (s : State) (p : Packet) : (s.arrive p).tempo = s.tempo := rfl
@[simp] theorem State.arrive_tempoPrev (s : State) (p : Packet) : (s.arrive p).tempoPrev = s.tempoPrev := rfl
@[simp] theorem State.arrive_tempoMin (s : State) (p : Packet) : (s.arrive p).tempoMin = s.tempoMin := rfl
@[simp] theorem State.arrive_voteSpan (s : State) (p : Packet) : (s.arrive p).voteSpan = s.voteSpan := rfl
@[simp] theorem State.arrive_aligned (s : State) (p : Packet) : (s.arrive p).aligned = s.aligned := rfl
@[simp] theorem State.arrive_root (s : State) (p : Packet) : (s.arrive p).root = s.root := rfl
@[simp] theorem State.arrive_electing (s : State) (p : Packet) : (s.arrive p).electing = s.electing := rfl
@[simp] theorem State.arrive_counted (s : State) (p : Packet) : (s.arrive p).counted = s.counted := rfl
@[simp] theorem State.arrive_alignLost (s : State) (p : Packet) : (s.arrive p).alignLost = s.alignLost := rfl
@[simp] theorem State.arrive_rootHops (s : State) (p : Packet) : (s.arrive p).rootHops = s.rootHops := rfl
@[simp] theorem State.arrive_agree (s : State) (p : Packet) : (s.arrive p).agree = s.agree := rfl
@[simp] theorem State.arrive_mismatchLast (s : State) (p : Packet) : (s.arrive p).mismatchLast = s.mismatchLast := rfl
@[simp] theorem State.arrive_beatLog (s : State) (p : Packet) : (s.arrive p).beatLog = s.beatLog := rfl
@[simp] theorem State.arrive_sealedParts (s : State) (p : Packet) : (s.arrive p).sealedParts = s.sealedParts := rfl
@[simp] theorem State.arrive_clocksReleased (s : State) (p : Packet) : (s.arrive p).clocksReleased = s.clocksReleased := rfl
@[simp] theorem State.arrive_clocksProvisional (s : State) (p : Packet) : (s.arrive p).clocksProvisional = s.clocksProvisional := rfl
@[simp] theorem State.arrive_arithStopped (s : State) (p : Packet) : (s.arrive p).arithStopped = s.arithStopped := rfl
@[simp] theorem State.arrive_downbeatLo (s : State) (p : Packet) : (s.arrive p).downbeatLo = s.downbeatLo := rfl
@[simp] theorem State.arrive_downbeatHi (s : State) (p : Packet) : (s.arrive p).downbeatHi = s.downbeatHi := rfl
@[simp] theorem State.arrive_armed (s : State) (p : Packet) : (s.arrive p).armed = s.armed := rfl
@[simp] theorem State.arrive_launchCount (s : State) (p : Packet) : (s.arrive p).launchCount = s.launchCount := rfl
@[simp] theorem State.arrive_t (s : State) (p : Packet) : (s.arrive p).t = s.t := rfl
@[simp] theorem State.arrive_holdSources (s : State) (p : Packet) : (s.arrive p).holdSources = s.holdSources := rfl
@[simp] theorem State.arrive_holdForce (s : State) (p : Packet) : (s.arrive p).holdForce = s.holdForce := rfl
@[simp] theorem State.arrive_lateMargin (s : State) (p : Packet) : (s.arrive p).lateMargin = s.lateMargin := rfl
@[simp] theorem State.arrive_lateMarginNow (s : State) (p : Packet) : (s.arrive p).lateMarginNow = s.lateMarginNow := rfl
@[simp] theorem State.arrive_fenceMargin (s : State) (p : Packet) : (s.arrive p).fenceMargin = s.fenceMargin := rfl
@[simp] theorem State.arrive_copyLag (s : State) (p : Packet) : (s.arrive p).copyLag = s.copyLag := rfl
@[simp] theorem State.arrive_beatMargin (s : State) (p : Packet) : (s.arrive p).beatMargin = s.beatMargin := rfl
@[simp] theorem State.arrive_minMargin (s : State) (p : Packet) : (s.arrive p).minMargin = s.minMargin := rfl
@[simp] theorem State.arrive_holds (s : State) (p : Packet) : (s.arrive p).holds = s.holds := rfl
@[simp] theorem State.arrive_level (s : State) (p : Packet) : (s.arrive p).level = s.level := rfl
@[simp] theorem State.arrive_floor (s : State) (p : Packet) : (s.arrive p).floor = s.floor := rfl
@[simp] theorem State.arrive_haltCause (s : State) (p : Packet) : (s.arrive p).haltCause = s.haltCause := rfl
@[simp] theorem State.arrive_haltBeat (s : State) (p : Packet) : (s.arrive p).haltBeat = s.haltBeat := rfl
@[simp] theorem State.arrive_haltTime (s : State) (p : Packet) : (s.arrive p).haltTime = s.haltTime := rfl
@[simp] theorem State.arrive_snapBeat (s : State) (p : Packet) : (s.arrive p).snapBeat = s.snapBeat := rfl
@[simp] theorem State.arrive_snapPhase (s : State) (p : Packet) : (s.arrive p).snapPhase = s.snapPhase := rfl
@[simp] theorem State.arrive_snapStroke (s : State) (p : Packet) : (s.arrive p).snapStroke = s.snapStroke := rfl
@[simp] theorem State.arrive_coord (s : State) (p : Packet) : (s.arrive p).coord = s.coord := rfl
@[simp] theorem State.arrive_shape (s : State) (p : Packet) : (s.arrive p).shape = s.shape := rfl
@[simp] theorem State.arrive_shapeValid (s : State) (p : Packet) : (s.arrive p).shapeValid = s.shapeValid := rfl
@[simp] theorem State.arrive_relay (s : State) (p : Packet) : (s.arrive p).relay = s.relay := rfl
@[simp] theorem State.arrive_ditherSeed (s : State) (p : Packet) : (s.arrive p).ditherSeed = s.ditherSeed := rfl
@[simp] theorem State.arrive_cores (s : State) (p : Packet) : (s.arrive p).cores = s.cores := rfl
@[simp] theorem State.arrive_hbmStacks (s : State) (p : Packet) : (s.arrive p).hbmStacks = s.hbmStacks := rfl
@[simp] theorem State.arrive_ports (s : State) (p : Packet) : (s.arrive p).ports = s.ports := rfl
@[simp] theorem State.arrive_resends (s : State) (p : Packet) : (s.arrive p).resends = s.resends := rfl
@[simp] theorem State.arrive_failedLinks (s : State) (p : Packet) : (s.arrive p).failedLinks = s.failedLinks := rfl
@[simp] theorem State.arrive_deadCopies (s : State) (p : Packet) : (s.arrive p).deadCopies = s.deadCopies := rfl
@[simp] theorem State.arrive_sbOut (s : State) (p : Packet) : (s.arrive p).sbOut = s.sbOut := rfl
@[simp] theorem State.arrive_sbSince (s : State) (p : Packet) : (s.arrive p).sbSince = s.sbSince := rfl
@[simp] theorem State.arrive_tympan (s : State) (p : Packet) : (s.arrive p).tympan = s.tympan := rfl
@[simp] theorem State.arrive_portA (s : State) (p : Packet) : (s.arrive p).portA = s.portA := rfl
@[simp] theorem State.arrive_portB (s : State) (p : Packet) : (s.arrive p).portB = s.portB := rfl
@[simp] theorem State.arrive_sems (s : State) (p : Packet) : (s.arrive p).sems = s.sems := rfl
@[simp] theorem State.arrive_jobCap (s : State) (p : Packet) : (s.arrive p).jobCap = s.jobCap := rfl
@[simp] theorem State.arrive_hostOut (s : State) (p : Packet) : (s.arrive p).hostOut = s.hostOut := rfl
@[simp] theorem State.arrive_heldWrites (s : State) (p : Packet) : (s.arrive p).heldWrites = s.heldWrites := rfl
@[simp] theorem State.arrive_load (s : State) (p : Packet) : (s.arrive p).load = s.load := rfl
@[simp] theorem State.arrive_imageStage (s : State) (p : Packet) : (s.arrive p).imageStage = s.imageStage := rfl
@[simp] theorem State.arrive_image (s : State) (p : Packet) : (s.arrive p).image = s.image := rfl
@[simp] theorem State.arrive_loopTests (s : State) (p : Packet) : (s.arrive p).loopTests = s.loopTests := rfl
@[simp] theorem State.arrive_hostCopies (s : State) (p : Packet) : (s.arrive p).hostCopies = s.hostCopies := rfl
@[simp] theorem State.arrive_control (s : State) (p : Packet) : (s.arrive p).control = s.control := rfl
@[simp] theorem State.arrive_record (s : State) (p : Packet) : (s.arrive p).record = s.record := rfl
@[simp] theorem State.arrive_faults (s : State) (p : Packet) : (s.arrive p).faults = s.faults := rfl
@[simp] theorem State.arrive_trace (s : State) (p : Packet) : (s.arrive p).trace = s.trace := rfl
@[simp] theorem State.arrive_counters (s : State) (p : Packet) : (s.arrive p).counters = s.counters := rfl
@[simp] theorem State.arrive_forever (s : State) (p : Packet) : (s.arrive p).forever = s.forever := rfl
@[simp] theorem State.arrive_capture (s : State) (p : Packet) : (s.arrive p).capture = s.capture := rfl
@[simp] theorem State.arrive_boundary (s : State) (p : Packet) : (s.arrive p).boundary = s.boundary := rfl
@[simp] theorem State.emit_pending (s : State) (o : HostOut) : (s.emit o).pending = s.pending := rfl
@[simp] theorem State.emit_powered (s : State) (o : HostOut) : (s.emit o).powered = s.powered := rfl
@[simp] theorem State.emit_refTime (s : State) (o : HostOut) : (s.emit o).refTime = s.refTime := rfl
@[simp] theorem State.emit_beat (s : State) (o : HostOut) : (s.emit o).beat = s.beat := rfl
@[simp] theorem State.emit_phase (s : State) (o : HostOut) : (s.emit o).phase = s.phase := rfl
@[simp] theorem State.emit_rest (s : State) (o : HostOut) : (s.emit o).rest = s.rest := rfl
@[simp] theorem State.emit_restNext (s : State) (o : HostOut) : (s.emit o).restNext = s.restNext := rfl
@[simp] theorem State.emit_holdSent (s : State) (o : HostOut) : (s.emit o).holdSent = s.holdSent := rfl
@[simp] theorem State.emit_windowDone (s : State) (o : HostOut) : (s.emit o).windowDone = s.windowDone := rfl
@[simp] theorem State.emit_deviceState (s : State) (o : HostOut) : (s.emit o).deviceState = s.deviceState := rfl
@[simp] theorem State.emit_imageValid (s : State) (o : HostOut) : (s.emit o).imageValid = s.imageValid := rfl
@[simp] theorem State.emit_tempo (s : State) (o : HostOut) : (s.emit o).tempo = s.tempo := rfl
@[simp] theorem State.emit_tempoPrev (s : State) (o : HostOut) : (s.emit o).tempoPrev = s.tempoPrev := rfl
@[simp] theorem State.emit_tempoMin (s : State) (o : HostOut) : (s.emit o).tempoMin = s.tempoMin := rfl
@[simp] theorem State.emit_voteSpan (s : State) (o : HostOut) : (s.emit o).voteSpan = s.voteSpan := rfl
@[simp] theorem State.emit_aligned (s : State) (o : HostOut) : (s.emit o).aligned = s.aligned := rfl
@[simp] theorem State.emit_root (s : State) (o : HostOut) : (s.emit o).root = s.root := rfl
@[simp] theorem State.emit_electing (s : State) (o : HostOut) : (s.emit o).electing = s.electing := rfl
@[simp] theorem State.emit_counted (s : State) (o : HostOut) : (s.emit o).counted = s.counted := rfl
@[simp] theorem State.emit_alignLost (s : State) (o : HostOut) : (s.emit o).alignLost = s.alignLost := rfl
@[simp] theorem State.emit_rootHops (s : State) (o : HostOut) : (s.emit o).rootHops = s.rootHops := rfl
@[simp] theorem State.emit_agree (s : State) (o : HostOut) : (s.emit o).agree = s.agree := rfl
@[simp] theorem State.emit_mismatchLast (s : State) (o : HostOut) : (s.emit o).mismatchLast = s.mismatchLast := rfl
@[simp] theorem State.emit_beatLog (s : State) (o : HostOut) : (s.emit o).beatLog = s.beatLog := rfl
@[simp] theorem State.emit_sealedParts (s : State) (o : HostOut) : (s.emit o).sealedParts = s.sealedParts := rfl
@[simp] theorem State.emit_clocksReleased (s : State) (o : HostOut) : (s.emit o).clocksReleased = s.clocksReleased := rfl
@[simp] theorem State.emit_clocksProvisional (s : State) (o : HostOut) : (s.emit o).clocksProvisional = s.clocksProvisional := rfl
@[simp] theorem State.emit_arithStopped (s : State) (o : HostOut) : (s.emit o).arithStopped = s.arithStopped := rfl
@[simp] theorem State.emit_downbeatLo (s : State) (o : HostOut) : (s.emit o).downbeatLo = s.downbeatLo := rfl
@[simp] theorem State.emit_downbeatHi (s : State) (o : HostOut) : (s.emit o).downbeatHi = s.downbeatHi := rfl
@[simp] theorem State.emit_armed (s : State) (o : HostOut) : (s.emit o).armed = s.armed := rfl
@[simp] theorem State.emit_launchCount (s : State) (o : HostOut) : (s.emit o).launchCount = s.launchCount := rfl
@[simp] theorem State.emit_t (s : State) (o : HostOut) : (s.emit o).t = s.t := rfl
@[simp] theorem State.emit_holdSources (s : State) (o : HostOut) : (s.emit o).holdSources = s.holdSources := rfl
@[simp] theorem State.emit_holdForce (s : State) (o : HostOut) : (s.emit o).holdForce = s.holdForce := rfl
@[simp] theorem State.emit_lateMargin (s : State) (o : HostOut) : (s.emit o).lateMargin = s.lateMargin := rfl
@[simp] theorem State.emit_lateMarginNow (s : State) (o : HostOut) : (s.emit o).lateMarginNow = s.lateMarginNow := rfl
@[simp] theorem State.emit_fenceMargin (s : State) (o : HostOut) : (s.emit o).fenceMargin = s.fenceMargin := rfl
@[simp] theorem State.emit_copyLag (s : State) (o : HostOut) : (s.emit o).copyLag = s.copyLag := rfl
@[simp] theorem State.emit_beatMargin (s : State) (o : HostOut) : (s.emit o).beatMargin = s.beatMargin := rfl
@[simp] theorem State.emit_minMargin (s : State) (o : HostOut) : (s.emit o).minMargin = s.minMargin := rfl
@[simp] theorem State.emit_holds (s : State) (o : HostOut) : (s.emit o).holds = s.holds := rfl
@[simp] theorem State.emit_level (s : State) (o : HostOut) : (s.emit o).level = s.level := rfl
@[simp] theorem State.emit_floor (s : State) (o : HostOut) : (s.emit o).floor = s.floor := rfl
@[simp] theorem State.emit_haltCause (s : State) (o : HostOut) : (s.emit o).haltCause = s.haltCause := rfl
@[simp] theorem State.emit_haltBeat (s : State) (o : HostOut) : (s.emit o).haltBeat = s.haltBeat := rfl
@[simp] theorem State.emit_haltTime (s : State) (o : HostOut) : (s.emit o).haltTime = s.haltTime := rfl
@[simp] theorem State.emit_snapBeat (s : State) (o : HostOut) : (s.emit o).snapBeat = s.snapBeat := rfl
@[simp] theorem State.emit_snapPhase (s : State) (o : HostOut) : (s.emit o).snapPhase = s.snapPhase := rfl
@[simp] theorem State.emit_snapStroke (s : State) (o : HostOut) : (s.emit o).snapStroke = s.snapStroke := rfl
@[simp] theorem State.emit_coord (s : State) (o : HostOut) : (s.emit o).coord = s.coord := rfl
@[simp] theorem State.emit_shape (s : State) (o : HostOut) : (s.emit o).shape = s.shape := rfl
@[simp] theorem State.emit_shapeValid (s : State) (o : HostOut) : (s.emit o).shapeValid = s.shapeValid := rfl
@[simp] theorem State.emit_relay (s : State) (o : HostOut) : (s.emit o).relay = s.relay := rfl
@[simp] theorem State.emit_ditherSeed (s : State) (o : HostOut) : (s.emit o).ditherSeed = s.ditherSeed := rfl
@[simp] theorem State.emit_cores (s : State) (o : HostOut) : (s.emit o).cores = s.cores := rfl
@[simp] theorem State.emit_hbmStacks (s : State) (o : HostOut) : (s.emit o).hbmStacks = s.hbmStacks := rfl
@[simp] theorem State.emit_ports (s : State) (o : HostOut) : (s.emit o).ports = s.ports := rfl
@[simp] theorem State.emit_west (s : State) (o : HostOut) : (s.emit o).west = s.west := rfl
@[simp] theorem State.emit_east (s : State) (o : HostOut) : (s.emit o).east = s.east := rfl
@[simp] theorem State.emit_inFlight (s : State) (o : HostOut) : (s.emit o).inFlight = s.inFlight := rfl
@[simp] theorem State.emit_resends (s : State) (o : HostOut) : (s.emit o).resends = s.resends := rfl
@[simp] theorem State.emit_failedLinks (s : State) (o : HostOut) : (s.emit o).failedLinks = s.failedLinks := rfl
@[simp] theorem State.emit_deadCopies (s : State) (o : HostOut) : (s.emit o).deadCopies = s.deadCopies := rfl
@[simp] theorem State.emit_sbOut (s : State) (o : HostOut) : (s.emit o).sbOut = s.sbOut := rfl
@[simp] theorem State.emit_sbSince (s : State) (o : HostOut) : (s.emit o).sbSince = s.sbSince := rfl
@[simp] theorem State.emit_tympan (s : State) (o : HostOut) : (s.emit o).tympan = s.tympan := rfl
@[simp] theorem State.emit_portA (s : State) (o : HostOut) : (s.emit o).portA = s.portA := rfl
@[simp] theorem State.emit_portB (s : State) (o : HostOut) : (s.emit o).portB = s.portB := rfl
@[simp] theorem State.emit_sems (s : State) (o : HostOut) : (s.emit o).sems = s.sems := rfl
@[simp] theorem State.emit_jobCap (s : State) (o : HostOut) : (s.emit o).jobCap = s.jobCap := rfl
@[simp] theorem State.emit_heldWrites (s : State) (o : HostOut) : (s.emit o).heldWrites = s.heldWrites := rfl
@[simp] theorem State.emit_load (s : State) (o : HostOut) : (s.emit o).load = s.load := rfl
@[simp] theorem State.emit_imageStage (s : State) (o : HostOut) : (s.emit o).imageStage = s.imageStage := rfl
@[simp] theorem State.emit_image (s : State) (o : HostOut) : (s.emit o).image = s.image := rfl
@[simp] theorem State.emit_loopTests (s : State) (o : HostOut) : (s.emit o).loopTests = s.loopTests := rfl
@[simp] theorem State.emit_hostCopies (s : State) (o : HostOut) : (s.emit o).hostCopies = s.hostCopies := rfl
@[simp] theorem State.emit_control (s : State) (o : HostOut) : (s.emit o).control = s.control := rfl
@[simp] theorem State.emit_record (s : State) (o : HostOut) : (s.emit o).record = s.record := rfl
@[simp] theorem State.emit_faults (s : State) (o : HostOut) : (s.emit o).faults = s.faults := rfl
@[simp] theorem State.emit_trace (s : State) (o : HostOut) : (s.emit o).trace = s.trace := rfl
@[simp] theorem State.emit_counters (s : State) (o : HostOut) : (s.emit o).counters = s.counters := rfl
@[simp] theorem State.emit_forever (s : State) (o : HostOut) : (s.emit o).forever = s.forever := rfl
@[simp] theorem State.emit_capture (s : State) (o : HostOut) : (s.emit o).capture = s.capture := rfl
@[simp] theorem State.emit_boundary (s : State) (o : HostOut) : (s.emit o).boundary = s.boundary := rfl
@[simp] theorem State.modHost_pending (s : State) (p : HPort) (f : HostPort → HostPort) : (s.modHost p f).pending = s.pending := by cases p <;> rfl
@[simp] theorem State.modDie_pending (s : State) (d : Die) (f : PortDie → PortDie) : (s.modDie d f).pending = s.pending := by cases d <;> rfl
@[simp] theorem State.modHost_powered (s : State) (p : HPort) (f : HostPort → HostPort) : (s.modHost p f).powered = s.powered := by cases p <;> rfl
@[simp] theorem State.modDie_powered (s : State) (d : Die) (f : PortDie → PortDie) : (s.modDie d f).powered = s.powered := by cases d <;> rfl
@[simp] theorem State.modHost_refTime (s : State) (p : HPort) (f : HostPort → HostPort) : (s.modHost p f).refTime = s.refTime := by cases p <;> rfl
@[simp] theorem State.modDie_refTime (s : State) (d : Die) (f : PortDie → PortDie) : (s.modDie d f).refTime = s.refTime := by cases d <;> rfl
@[simp] theorem State.modHost_beat (s : State) (p : HPort) (f : HostPort → HostPort) : (s.modHost p f).beat = s.beat := by cases p <;> rfl
@[simp] theorem State.modDie_beat (s : State) (d : Die) (f : PortDie → PortDie) : (s.modDie d f).beat = s.beat := by cases d <;> rfl
@[simp] theorem State.modHost_phase (s : State) (p : HPort) (f : HostPort → HostPort) : (s.modHost p f).phase = s.phase := by cases p <;> rfl
@[simp] theorem State.modDie_phase (s : State) (d : Die) (f : PortDie → PortDie) : (s.modDie d f).phase = s.phase := by cases d <;> rfl
@[simp] theorem State.modHost_rest (s : State) (p : HPort) (f : HostPort → HostPort) : (s.modHost p f).rest = s.rest := by cases p <;> rfl
@[simp] theorem State.modDie_rest (s : State) (d : Die) (f : PortDie → PortDie) : (s.modDie d f).rest = s.rest := by cases d <;> rfl
@[simp] theorem State.modHost_restNext (s : State) (p : HPort) (f : HostPort → HostPort) : (s.modHost p f).restNext = s.restNext := by cases p <;> rfl
@[simp] theorem State.modDie_restNext (s : State) (d : Die) (f : PortDie → PortDie) : (s.modDie d f).restNext = s.restNext := by cases d <;> rfl
@[simp] theorem State.modHost_holdSent (s : State) (p : HPort) (f : HostPort → HostPort) : (s.modHost p f).holdSent = s.holdSent := by cases p <;> rfl
@[simp] theorem State.modDie_holdSent (s : State) (d : Die) (f : PortDie → PortDie) : (s.modDie d f).holdSent = s.holdSent := by cases d <;> rfl
@[simp] theorem State.modHost_windowDone (s : State) (p : HPort) (f : HostPort → HostPort) : (s.modHost p f).windowDone = s.windowDone := by cases p <;> rfl
@[simp] theorem State.modDie_windowDone (s : State) (d : Die) (f : PortDie → PortDie) : (s.modDie d f).windowDone = s.windowDone := by cases d <;> rfl
@[simp] theorem State.modHost_deviceState (s : State) (p : HPort) (f : HostPort → HostPort) : (s.modHost p f).deviceState = s.deviceState := by cases p <;> rfl
@[simp] theorem State.modDie_deviceState (s : State) (d : Die) (f : PortDie → PortDie) : (s.modDie d f).deviceState = s.deviceState := by cases d <;> rfl
@[simp] theorem State.modHost_imageValid (s : State) (p : HPort) (f : HostPort → HostPort) : (s.modHost p f).imageValid = s.imageValid := by cases p <;> rfl
@[simp] theorem State.modDie_imageValid (s : State) (d : Die) (f : PortDie → PortDie) : (s.modDie d f).imageValid = s.imageValid := by cases d <;> rfl
@[simp] theorem State.modHost_tempo (s : State) (p : HPort) (f : HostPort → HostPort) : (s.modHost p f).tempo = s.tempo := by cases p <;> rfl
@[simp] theorem State.modDie_tempo (s : State) (d : Die) (f : PortDie → PortDie) : (s.modDie d f).tempo = s.tempo := by cases d <;> rfl
@[simp] theorem State.modHost_tempoPrev (s : State) (p : HPort) (f : HostPort → HostPort) : (s.modHost p f).tempoPrev = s.tempoPrev := by cases p <;> rfl
@[simp] theorem State.modDie_tempoPrev (s : State) (d : Die) (f : PortDie → PortDie) : (s.modDie d f).tempoPrev = s.tempoPrev := by cases d <;> rfl
@[simp] theorem State.modHost_tempoMin (s : State) (p : HPort) (f : HostPort → HostPort) : (s.modHost p f).tempoMin = s.tempoMin := by cases p <;> rfl
@[simp] theorem State.modDie_tempoMin (s : State) (d : Die) (f : PortDie → PortDie) : (s.modDie d f).tempoMin = s.tempoMin := by cases d <;> rfl
@[simp] theorem State.modHost_voteSpan (s : State) (p : HPort) (f : HostPort → HostPort) : (s.modHost p f).voteSpan = s.voteSpan := by cases p <;> rfl
@[simp] theorem State.modDie_voteSpan (s : State) (d : Die) (f : PortDie → PortDie) : (s.modDie d f).voteSpan = s.voteSpan := by cases d <;> rfl
@[simp] theorem State.modHost_aligned (s : State) (p : HPort) (f : HostPort → HostPort) : (s.modHost p f).aligned = s.aligned := by cases p <;> rfl
@[simp] theorem State.modDie_aligned (s : State) (d : Die) (f : PortDie → PortDie) : (s.modDie d f).aligned = s.aligned := by cases d <;> rfl
@[simp] theorem State.modHost_root (s : State) (p : HPort) (f : HostPort → HostPort) : (s.modHost p f).root = s.root := by cases p <;> rfl
@[simp] theorem State.modDie_root (s : State) (d : Die) (f : PortDie → PortDie) : (s.modDie d f).root = s.root := by cases d <;> rfl
@[simp] theorem State.modHost_electing (s : State) (p : HPort) (f : HostPort → HostPort) : (s.modHost p f).electing = s.electing := by cases p <;> rfl
@[simp] theorem State.modDie_electing (s : State) (d : Die) (f : PortDie → PortDie) : (s.modDie d f).electing = s.electing := by cases d <;> rfl
@[simp] theorem State.modHost_counted (s : State) (p : HPort) (f : HostPort → HostPort) : (s.modHost p f).counted = s.counted := by cases p <;> rfl
@[simp] theorem State.modDie_counted (s : State) (d : Die) (f : PortDie → PortDie) : (s.modDie d f).counted = s.counted := by cases d <;> rfl
@[simp] theorem State.modHost_alignLost (s : State) (p : HPort) (f : HostPort → HostPort) : (s.modHost p f).alignLost = s.alignLost := by cases p <;> rfl
@[simp] theorem State.modDie_alignLost (s : State) (d : Die) (f : PortDie → PortDie) : (s.modDie d f).alignLost = s.alignLost := by cases d <;> rfl
@[simp] theorem State.modHost_rootHops (s : State) (p : HPort) (f : HostPort → HostPort) : (s.modHost p f).rootHops = s.rootHops := by cases p <;> rfl
@[simp] theorem State.modDie_rootHops (s : State) (d : Die) (f : PortDie → PortDie) : (s.modDie d f).rootHops = s.rootHops := by cases d <;> rfl
@[simp] theorem State.modHost_agree (s : State) (p : HPort) (f : HostPort → HostPort) : (s.modHost p f).agree = s.agree := by cases p <;> rfl
@[simp] theorem State.modDie_agree (s : State) (d : Die) (f : PortDie → PortDie) : (s.modDie d f).agree = s.agree := by cases d <;> rfl
@[simp] theorem State.modHost_mismatchLast (s : State) (p : HPort) (f : HostPort → HostPort) : (s.modHost p f).mismatchLast = s.mismatchLast := by cases p <;> rfl
@[simp] theorem State.modDie_mismatchLast (s : State) (d : Die) (f : PortDie → PortDie) : (s.modDie d f).mismatchLast = s.mismatchLast := by cases d <;> rfl
@[simp] theorem State.modHost_beatLog (s : State) (p : HPort) (f : HostPort → HostPort) : (s.modHost p f).beatLog = s.beatLog := by cases p <;> rfl
@[simp] theorem State.modDie_beatLog (s : State) (d : Die) (f : PortDie → PortDie) : (s.modDie d f).beatLog = s.beatLog := by cases d <;> rfl
@[simp] theorem State.modHost_sealedParts (s : State) (p : HPort) (f : HostPort → HostPort) : (s.modHost p f).sealedParts = s.sealedParts := by cases p <;> rfl
@[simp] theorem State.modDie_sealedParts (s : State) (d : Die) (f : PortDie → PortDie) : (s.modDie d f).sealedParts = s.sealedParts := by cases d <;> rfl
@[simp] theorem State.modHost_clocksReleased (s : State) (p : HPort) (f : HostPort → HostPort) : (s.modHost p f).clocksReleased = s.clocksReleased := by cases p <;> rfl
@[simp] theorem State.modDie_clocksReleased (s : State) (d : Die) (f : PortDie → PortDie) : (s.modDie d f).clocksReleased = s.clocksReleased := by cases d <;> rfl
@[simp] theorem State.modHost_clocksProvisional (s : State) (p : HPort) (f : HostPort → HostPort) : (s.modHost p f).clocksProvisional = s.clocksProvisional := by cases p <;> rfl
@[simp] theorem State.modDie_clocksProvisional (s : State) (d : Die) (f : PortDie → PortDie) : (s.modDie d f).clocksProvisional = s.clocksProvisional := by cases d <;> rfl
@[simp] theorem State.modHost_arithStopped (s : State) (p : HPort) (f : HostPort → HostPort) : (s.modHost p f).arithStopped = s.arithStopped := by cases p <;> rfl
@[simp] theorem State.modDie_arithStopped (s : State) (d : Die) (f : PortDie → PortDie) : (s.modDie d f).arithStopped = s.arithStopped := by cases d <;> rfl
@[simp] theorem State.modHost_downbeatLo (s : State) (p : HPort) (f : HostPort → HostPort) : (s.modHost p f).downbeatLo = s.downbeatLo := by cases p <;> rfl
@[simp] theorem State.modDie_downbeatLo (s : State) (d : Die) (f : PortDie → PortDie) : (s.modDie d f).downbeatLo = s.downbeatLo := by cases d <;> rfl
@[simp] theorem State.modHost_downbeatHi (s : State) (p : HPort) (f : HostPort → HostPort) : (s.modHost p f).downbeatHi = s.downbeatHi := by cases p <;> rfl
@[simp] theorem State.modDie_downbeatHi (s : State) (d : Die) (f : PortDie → PortDie) : (s.modDie d f).downbeatHi = s.downbeatHi := by cases d <;> rfl
@[simp] theorem State.modHost_armed (s : State) (p : HPort) (f : HostPort → HostPort) : (s.modHost p f).armed = s.armed := by cases p <;> rfl
@[simp] theorem State.modDie_armed (s : State) (d : Die) (f : PortDie → PortDie) : (s.modDie d f).armed = s.armed := by cases d <;> rfl
@[simp] theorem State.modHost_launchCount (s : State) (p : HPort) (f : HostPort → HostPort) : (s.modHost p f).launchCount = s.launchCount := by cases p <;> rfl
@[simp] theorem State.modDie_launchCount (s : State) (d : Die) (f : PortDie → PortDie) : (s.modDie d f).launchCount = s.launchCount := by cases d <;> rfl
@[simp] theorem State.modHost_t (s : State) (p : HPort) (f : HostPort → HostPort) : (s.modHost p f).t = s.t := by cases p <;> rfl
@[simp] theorem State.modDie_t (s : State) (d : Die) (f : PortDie → PortDie) : (s.modDie d f).t = s.t := by cases d <;> rfl
@[simp] theorem State.modHost_holdSources (s : State) (p : HPort) (f : HostPort → HostPort) : (s.modHost p f).holdSources = s.holdSources := by cases p <;> rfl
@[simp] theorem State.modDie_holdSources (s : State) (d : Die) (f : PortDie → PortDie) : (s.modDie d f).holdSources = s.holdSources := by cases d <;> rfl
@[simp] theorem State.modHost_holdForce (s : State) (p : HPort) (f : HostPort → HostPort) : (s.modHost p f).holdForce = s.holdForce := by cases p <;> rfl
@[simp] theorem State.modDie_holdForce (s : State) (d : Die) (f : PortDie → PortDie) : (s.modDie d f).holdForce = s.holdForce := by cases d <;> rfl
@[simp] theorem State.modHost_lateMargin (s : State) (p : HPort) (f : HostPort → HostPort) : (s.modHost p f).lateMargin = s.lateMargin := by cases p <;> rfl
@[simp] theorem State.modDie_lateMargin (s : State) (d : Die) (f : PortDie → PortDie) : (s.modDie d f).lateMargin = s.lateMargin := by cases d <;> rfl
@[simp] theorem State.modHost_lateMarginNow (s : State) (p : HPort) (f : HostPort → HostPort) : (s.modHost p f).lateMarginNow = s.lateMarginNow := by cases p <;> rfl
@[simp] theorem State.modDie_lateMarginNow (s : State) (d : Die) (f : PortDie → PortDie) : (s.modDie d f).lateMarginNow = s.lateMarginNow := by cases d <;> rfl
@[simp] theorem State.modHost_fenceMargin (s : State) (p : HPort) (f : HostPort → HostPort) : (s.modHost p f).fenceMargin = s.fenceMargin := by cases p <;> rfl
@[simp] theorem State.modDie_fenceMargin (s : State) (d : Die) (f : PortDie → PortDie) : (s.modDie d f).fenceMargin = s.fenceMargin := by cases d <;> rfl
@[simp] theorem State.modHost_copyLag (s : State) (p : HPort) (f : HostPort → HostPort) : (s.modHost p f).copyLag = s.copyLag := by cases p <;> rfl
@[simp] theorem State.modDie_copyLag (s : State) (d : Die) (f : PortDie → PortDie) : (s.modDie d f).copyLag = s.copyLag := by cases d <;> rfl
@[simp] theorem State.modHost_beatMargin (s : State) (p : HPort) (f : HostPort → HostPort) : (s.modHost p f).beatMargin = s.beatMargin := by cases p <;> rfl
@[simp] theorem State.modDie_beatMargin (s : State) (d : Die) (f : PortDie → PortDie) : (s.modDie d f).beatMargin = s.beatMargin := by cases d <;> rfl
@[simp] theorem State.modHost_minMargin (s : State) (p : HPort) (f : HostPort → HostPort) : (s.modHost p f).minMargin = s.minMargin := by cases p <;> rfl
@[simp] theorem State.modDie_minMargin (s : State) (d : Die) (f : PortDie → PortDie) : (s.modDie d f).minMargin = s.minMargin := by cases d <;> rfl
@[simp] theorem State.modHost_holds (s : State) (p : HPort) (f : HostPort → HostPort) : (s.modHost p f).holds = s.holds := by cases p <;> rfl
@[simp] theorem State.modDie_holds (s : State) (d : Die) (f : PortDie → PortDie) : (s.modDie d f).holds = s.holds := by cases d <;> rfl
@[simp] theorem State.modHost_level (s : State) (p : HPort) (f : HostPort → HostPort) : (s.modHost p f).level = s.level := by cases p <;> rfl
@[simp] theorem State.modDie_level (s : State) (d : Die) (f : PortDie → PortDie) : (s.modDie d f).level = s.level := by cases d <;> rfl
@[simp] theorem State.modHost_floor (s : State) (p : HPort) (f : HostPort → HostPort) : (s.modHost p f).floor = s.floor := by cases p <;> rfl
@[simp] theorem State.modDie_floor (s : State) (d : Die) (f : PortDie → PortDie) : (s.modDie d f).floor = s.floor := by cases d <;> rfl
@[simp] theorem State.modHost_haltCause (s : State) (p : HPort) (f : HostPort → HostPort) : (s.modHost p f).haltCause = s.haltCause := by cases p <;> rfl
@[simp] theorem State.modDie_haltCause (s : State) (d : Die) (f : PortDie → PortDie) : (s.modDie d f).haltCause = s.haltCause := by cases d <;> rfl
@[simp] theorem State.modHost_haltBeat (s : State) (p : HPort) (f : HostPort → HostPort) : (s.modHost p f).haltBeat = s.haltBeat := by cases p <;> rfl
@[simp] theorem State.modDie_haltBeat (s : State) (d : Die) (f : PortDie → PortDie) : (s.modDie d f).haltBeat = s.haltBeat := by cases d <;> rfl
@[simp] theorem State.modHost_haltTime (s : State) (p : HPort) (f : HostPort → HostPort) : (s.modHost p f).haltTime = s.haltTime := by cases p <;> rfl
@[simp] theorem State.modDie_haltTime (s : State) (d : Die) (f : PortDie → PortDie) : (s.modDie d f).haltTime = s.haltTime := by cases d <;> rfl
@[simp] theorem State.modHost_snapBeat (s : State) (p : HPort) (f : HostPort → HostPort) : (s.modHost p f).snapBeat = s.snapBeat := by cases p <;> rfl
@[simp] theorem State.modDie_snapBeat (s : State) (d : Die) (f : PortDie → PortDie) : (s.modDie d f).snapBeat = s.snapBeat := by cases d <;> rfl
@[simp] theorem State.modHost_snapPhase (s : State) (p : HPort) (f : HostPort → HostPort) : (s.modHost p f).snapPhase = s.snapPhase := by cases p <;> rfl
@[simp] theorem State.modDie_snapPhase (s : State) (d : Die) (f : PortDie → PortDie) : (s.modDie d f).snapPhase = s.snapPhase := by cases d <;> rfl
@[simp] theorem State.modHost_snapStroke (s : State) (p : HPort) (f : HostPort → HostPort) : (s.modHost p f).snapStroke = s.snapStroke := by cases p <;> rfl
@[simp] theorem State.modDie_snapStroke (s : State) (d : Die) (f : PortDie → PortDie) : (s.modDie d f).snapStroke = s.snapStroke := by cases d <;> rfl
@[simp] theorem State.modHost_coord (s : State) (p : HPort) (f : HostPort → HostPort) : (s.modHost p f).coord = s.coord := by cases p <;> rfl
@[simp] theorem State.modDie_coord (s : State) (d : Die) (f : PortDie → PortDie) : (s.modDie d f).coord = s.coord := by cases d <;> rfl
@[simp] theorem State.modHost_shape (s : State) (p : HPort) (f : HostPort → HostPort) : (s.modHost p f).shape = s.shape := by cases p <;> rfl
@[simp] theorem State.modDie_shape (s : State) (d : Die) (f : PortDie → PortDie) : (s.modDie d f).shape = s.shape := by cases d <;> rfl
@[simp] theorem State.modHost_shapeValid (s : State) (p : HPort) (f : HostPort → HostPort) : (s.modHost p f).shapeValid = s.shapeValid := by cases p <;> rfl
@[simp] theorem State.modDie_shapeValid (s : State) (d : Die) (f : PortDie → PortDie) : (s.modDie d f).shapeValid = s.shapeValid := by cases d <;> rfl
@[simp] theorem State.modHost_relay (s : State) (p : HPort) (f : HostPort → HostPort) : (s.modHost p f).relay = s.relay := by cases p <;> rfl
@[simp] theorem State.modDie_relay (s : State) (d : Die) (f : PortDie → PortDie) : (s.modDie d f).relay = s.relay := by cases d <;> rfl
@[simp] theorem State.modHost_ditherSeed (s : State) (p : HPort) (f : HostPort → HostPort) : (s.modHost p f).ditherSeed = s.ditherSeed := by cases p <;> rfl
@[simp] theorem State.modDie_ditherSeed (s : State) (d : Die) (f : PortDie → PortDie) : (s.modDie d f).ditherSeed = s.ditherSeed := by cases d <;> rfl
@[simp] theorem State.modHost_cores (s : State) (p : HPort) (f : HostPort → HostPort) : (s.modHost p f).cores = s.cores := by cases p <;> rfl
@[simp] theorem State.modDie_cores (s : State) (d : Die) (f : PortDie → PortDie) : (s.modDie d f).cores = s.cores := by cases d <;> rfl
@[simp] theorem State.modHost_hbmStacks (s : State) (p : HPort) (f : HostPort → HostPort) : (s.modHost p f).hbmStacks = s.hbmStacks := by cases p <;> rfl
@[simp] theorem State.modDie_hbmStacks (s : State) (d : Die) (f : PortDie → PortDie) : (s.modDie d f).hbmStacks = s.hbmStacks := by cases d <;> rfl
@[simp] theorem State.modHost_ports (s : State) (p : HPort) (f : HostPort → HostPort) : (s.modHost p f).ports = s.ports := by cases p <;> rfl
@[simp] theorem State.modDie_ports (s : State) (d : Die) (f : PortDie → PortDie) : (s.modDie d f).ports = s.ports := by cases d <;> rfl
@[simp] theorem State.modHost_west (s : State) (p : HPort) (f : HostPort → HostPort) : (s.modHost p f).west = s.west := by cases p <;> rfl
@[simp] theorem State.modHost_east (s : State) (p : HPort) (f : HostPort → HostPort) : (s.modHost p f).east = s.east := by cases p <;> rfl
@[simp] theorem State.modHost_inFlight (s : State) (p : HPort) (f : HostPort → HostPort) : (s.modHost p f).inFlight = s.inFlight := by cases p <;> rfl
@[simp] theorem State.modDie_inFlight (s : State) (d : Die) (f : PortDie → PortDie) : (s.modDie d f).inFlight = s.inFlight := by cases d <;> rfl
@[simp] theorem State.modHost_resends (s : State) (p : HPort) (f : HostPort → HostPort) : (s.modHost p f).resends = s.resends := by cases p <;> rfl
@[simp] theorem State.modDie_resends (s : State) (d : Die) (f : PortDie → PortDie) : (s.modDie d f).resends = s.resends := by cases d <;> rfl
@[simp] theorem State.modHost_failedLinks (s : State) (p : HPort) (f : HostPort → HostPort) : (s.modHost p f).failedLinks = s.failedLinks := by cases p <;> rfl
@[simp] theorem State.modDie_failedLinks (s : State) (d : Die) (f : PortDie → PortDie) : (s.modDie d f).failedLinks = s.failedLinks := by cases d <;> rfl
@[simp] theorem State.modHost_deadCopies (s : State) (p : HPort) (f : HostPort → HostPort) : (s.modHost p f).deadCopies = s.deadCopies := by cases p <;> rfl
@[simp] theorem State.modDie_deadCopies (s : State) (d : Die) (f : PortDie → PortDie) : (s.modDie d f).deadCopies = s.deadCopies := by cases d <;> rfl
@[simp] theorem State.modHost_sbOut (s : State) (p : HPort) (f : HostPort → HostPort) : (s.modHost p f).sbOut = s.sbOut := by cases p <;> rfl
@[simp] theorem State.modDie_sbOut (s : State) (d : Die) (f : PortDie → PortDie) : (s.modDie d f).sbOut = s.sbOut := by cases d <;> rfl
@[simp] theorem State.modHost_sbSince (s : State) (p : HPort) (f : HostPort → HostPort) : (s.modHost p f).sbSince = s.sbSince := by cases p <;> rfl
@[simp] theorem State.modDie_sbSince (s : State) (d : Die) (f : PortDie → PortDie) : (s.modDie d f).sbSince = s.sbSince := by cases d <;> rfl
@[simp] theorem State.modHost_tympan (s : State) (p : HPort) (f : HostPort → HostPort) : (s.modHost p f).tympan = s.tympan := by cases p <;> rfl
@[simp] theorem State.modDie_tympan (s : State) (d : Die) (f : PortDie → PortDie) : (s.modDie d f).tympan = s.tympan := by cases d <;> rfl
@[simp] theorem State.modDie_portA (s : State) (d : Die) (f : PortDie → PortDie) : (s.modDie d f).portA = s.portA := by cases d <;> rfl
@[simp] theorem State.modDie_portB (s : State) (d : Die) (f : PortDie → PortDie) : (s.modDie d f).portB = s.portB := by cases d <;> rfl
@[simp] theorem State.modHost_sems (s : State) (p : HPort) (f : HostPort → HostPort) : (s.modHost p f).sems = s.sems := by cases p <;> rfl
@[simp] theorem State.modDie_sems (s : State) (d : Die) (f : PortDie → PortDie) : (s.modDie d f).sems = s.sems := by cases d <;> rfl
@[simp] theorem State.modHost_jobCap (s : State) (p : HPort) (f : HostPort → HostPort) : (s.modHost p f).jobCap = s.jobCap := by cases p <;> rfl
@[simp] theorem State.modDie_jobCap (s : State) (d : Die) (f : PortDie → PortDie) : (s.modDie d f).jobCap = s.jobCap := by cases d <;> rfl
@[simp] theorem State.modHost_hostOut (s : State) (p : HPort) (f : HostPort → HostPort) : (s.modHost p f).hostOut = s.hostOut := by cases p <;> rfl
@[simp] theorem State.modDie_hostOut (s : State) (d : Die) (f : PortDie → PortDie) : (s.modDie d f).hostOut = s.hostOut := by cases d <;> rfl
@[simp] theorem State.modHost_heldWrites (s : State) (p : HPort) (f : HostPort → HostPort) : (s.modHost p f).heldWrites = s.heldWrites := by cases p <;> rfl
@[simp] theorem State.modDie_heldWrites (s : State) (d : Die) (f : PortDie → PortDie) : (s.modDie d f).heldWrites = s.heldWrites := by cases d <;> rfl
@[simp] theorem State.modHost_load (s : State) (p : HPort) (f : HostPort → HostPort) : (s.modHost p f).load = s.load := by cases p <;> rfl
@[simp] theorem State.modDie_load (s : State) (d : Die) (f : PortDie → PortDie) : (s.modDie d f).load = s.load := by cases d <;> rfl
@[simp] theorem State.modHost_imageStage (s : State) (p : HPort) (f : HostPort → HostPort) : (s.modHost p f).imageStage = s.imageStage := by cases p <;> rfl
@[simp] theorem State.modDie_imageStage (s : State) (d : Die) (f : PortDie → PortDie) : (s.modDie d f).imageStage = s.imageStage := by cases d <;> rfl
@[simp] theorem State.modHost_image (s : State) (p : HPort) (f : HostPort → HostPort) : (s.modHost p f).image = s.image := by cases p <;> rfl
@[simp] theorem State.modDie_image (s : State) (d : Die) (f : PortDie → PortDie) : (s.modDie d f).image = s.image := by cases d <;> rfl
@[simp] theorem State.modHost_loopTests (s : State) (p : HPort) (f : HostPort → HostPort) : (s.modHost p f).loopTests = s.loopTests := by cases p <;> rfl
@[simp] theorem State.modDie_loopTests (s : State) (d : Die) (f : PortDie → PortDie) : (s.modDie d f).loopTests = s.loopTests := by cases d <;> rfl
@[simp] theorem State.modHost_hostCopies (s : State) (p : HPort) (f : HostPort → HostPort) : (s.modHost p f).hostCopies = s.hostCopies := by cases p <;> rfl
@[simp] theorem State.modDie_hostCopies (s : State) (d : Die) (f : PortDie → PortDie) : (s.modDie d f).hostCopies = s.hostCopies := by cases d <;> rfl
@[simp] theorem State.modHost_control (s : State) (p : HPort) (f : HostPort → HostPort) : (s.modHost p f).control = s.control := by cases p <;> rfl
@[simp] theorem State.modDie_control (s : State) (d : Die) (f : PortDie → PortDie) : (s.modDie d f).control = s.control := by cases d <;> rfl
@[simp] theorem State.modHost_record (s : State) (p : HPort) (f : HostPort → HostPort) : (s.modHost p f).record = s.record := by cases p <;> rfl
@[simp] theorem State.modDie_record (s : State) (d : Die) (f : PortDie → PortDie) : (s.modDie d f).record = s.record := by cases d <;> rfl
@[simp] theorem State.modHost_faults (s : State) (p : HPort) (f : HostPort → HostPort) : (s.modHost p f).faults = s.faults := by cases p <;> rfl
@[simp] theorem State.modDie_faults (s : State) (d : Die) (f : PortDie → PortDie) : (s.modDie d f).faults = s.faults := by cases d <;> rfl
@[simp] theorem State.modHost_trace (s : State) (p : HPort) (f : HostPort → HostPort) : (s.modHost p f).trace = s.trace := by cases p <;> rfl
@[simp] theorem State.modDie_trace (s : State) (d : Die) (f : PortDie → PortDie) : (s.modDie d f).trace = s.trace := by cases d <;> rfl
@[simp] theorem State.modHost_counters (s : State) (p : HPort) (f : HostPort → HostPort) : (s.modHost p f).counters = s.counters := by cases p <;> rfl
@[simp] theorem State.modDie_counters (s : State) (d : Die) (f : PortDie → PortDie) : (s.modDie d f).counters = s.counters := by cases d <;> rfl
@[simp] theorem State.modHost_forever (s : State) (p : HPort) (f : HostPort → HostPort) : (s.modHost p f).forever = s.forever := by cases p <;> rfl
@[simp] theorem State.modDie_forever (s : State) (d : Die) (f : PortDie → PortDie) : (s.modDie d f).forever = s.forever := by cases d <;> rfl
@[simp] theorem State.modHost_capture (s : State) (p : HPort) (f : HostPort → HostPort) : (s.modHost p f).capture = s.capture := by cases p <;> rfl
@[simp] theorem State.modDie_capture (s : State) (d : Die) (f : PortDie → PortDie) : (s.modDie d f).capture = s.capture := by cases d <;> rfl
@[simp] theorem State.modHost_boundary (s : State) (p : HPort) (f : HostPort → HostPort) : (s.modHost p f).boundary = s.boundary := by cases p <;> rfl
@[simp] theorem State.modDie_boundary (s : State) (d : Die) (f : PortDie → PortDie) : (s.modDie d f).boundary = s.boundary := by cases d <;> rfl

theorem coreKey_inj {c d : CoreId} (h : coreKey c = coreKey d) : c = d := by
  obtain ⟨⟨cx, hcx⟩, ⟨cy, hcy⟩⟩ := c
  obtain ⟨⟨dx, hdx⟩, ⟨dy, hdy⟩⟩ := d
  simp only [coreKey] at h
  have h1 : cy = dy := by omega
  have h2 : cx = dx := by omega
  subst h1; subst h2; rfl

@[simp] theorem State.core_setCore_same (s : State) (c : CoreId) (x : Core) : (s.setCore c x).core c = x := by
  simp [State.core, State.setCore]

theorem State.core_setCore_other (s : State) (x : Core) {c d : CoreId} (h : d ≠ c) : (s.setCore c x).core d = s.core d := by
  simp only [State.core, State.setCore]
  exact Sparse.look_put_other _ _ _ fun e => h (coreKey_inj e)

@[simp] theorem State.setCore_setCore (s : State) (c : CoreId) (x y : Core) : (s.setCore c x).setCore c y = s.setCore c y := by
  simp [State.setCore]

/-- A core changed twice is changed once, by both changes in order. -/
@[simp] theorem State.modCore_modCore (s : State) (c : CoreId) (f g : Core → Core) :
    (s.modCore c f).modCore c g = s.modCore c fun x => g (f x) := by
  simp [State.modCore]

@[simp] theorem State.core_modCore_same (s : State) (c : CoreId) (f : Core → Core) : (s.modCore c f).core c = f (s.core c) := by
  simp [State.modCore]

theorem State.core_modCore_other (s : State) (f : Core → Core) {c d : CoreId} (h : d ≠ c) :
    (s.modCore c f).core d = s.core d := State.core_setCore_other s _ h

@[simp] theorem State.stack_modStack_same (s : State) (h : StackId) (f : Stack → Stack) : (s.modStack h f).stack h = f (s.stack h) := by
  simp [State.stack, State.modStack]

theorem State.stack_modStack_other (s : State) (f : Stack → Stack) {g h : StackId} (ne : g ≠ h) :
    (s.modStack h f).stack g = s.stack g := by
  simp only [State.stack, State.modStack]
  exact Sparse.look_put_other _ _ _ fun e => ne (Fin.ext e)

/-- A stack changed twice is changed once. -/
@[simp] theorem State.modStack_modStack (s : State) (h : StackId) (f g : Stack → Stack) :
    (s.modStack h f).modStack h g = s.modStack h fun t => g (f t) := by
  simp [State.modStack, State.stack]

@[simp] theorem State.port_modPort_same (s : State) (p : RPort) (f : ReduitPort → ReduitPort) :
    (s.modPort p f).port p = f (s.port p) := by
  simp [State.port, State.modPort]

theorem State.port_modPort_other (s : State) (f : ReduitPort → ReduitPort) {p q : RPort} (h : q ≠ p) :
    (s.modPort p f).port q = s.port q := by
  simp only [State.port, State.modPort]
  exact Sparse.look_put_other _ _ _ fun e => h (Fin.ext e)

/-- A Reduit port changed twice is changed once. -/
@[simp] theorem State.modPort_modPort (s : State) (p : RPort) (f g : ReduitPort → ReduitPort) :
    (s.modPort p f).modPort p g = s.modPort p fun q => g (f q) := by
  simp [State.modPort, State.port]

@[simp] theorem State.host_modHost_same (s : State) (p : HPort) (f : HostPort → HostPort) : (s.modHost p f).host p = f (s.host p) := by
  cases p <;> rfl

theorem State.host_modHost_other (s : State) (f : HostPort → HostPort) {p q : HPort} (h : q ≠ p) :
    (s.modHost p f).host q = s.host q := by
  cases p <;> cases q <;> first | rfl | exact absurd rfl h

@[simp] theorem State.modTympan_tympan (s : State) (f : Tympan → Tympan) : (s.modTympan f).tympan = f s.tympan := rfl

/-- An error counter reads the events added. -/
@[simp] theorem State.look_count_same (s : State) (i n : Nat) :
    Sparse.look {} (s.count i n).counters i = (Sparse.look {} s.counters i).add n := by
  simp [State.count]

theorem State.look_count_other (s : State) (n : Nat) {i j : Nat} (h : j ≠ i) :
    Sparse.look {} (s.count i n).counters j = Sparse.look {} s.counters j := Sparse.look_put_other _ _ _ h

@[simp] theorem State.look_countForever_same (s : State) (i n : Nat) :
    Sparse.look 0 (s.countForever i n).forever i = Sparse.look 0 s.forever i + BitVec.ofNat 64 n := by
  simp [State.countForever]

theorem State.look_countForever_other (s : State) (n : Nat) {i j : Nat} (h : j ≠ i) :
    Sparse.look 0 (s.countForever i n).forever j = Sparse.look 0 s.forever j := Sparse.look_put_other _ _ _ h

@[simp] theorem State.core_modStack (s : State) (h : StackId) (f : Stack → Stack) (d : CoreId) : (s.modStack h f).core d = s.core d := rfl
@[simp] theorem State.core_modPort (s : State) (p : RPort) (f : ReduitPort → ReduitPort) (d : CoreId) : (s.modPort p f).core d = s.core d := rfl
@[simp] theorem State.core_modTympan (s : State) (f : Tympan → Tympan) (d : CoreId) : (s.modTympan f).core d = s.core d := rfl
@[simp] theorem State.core_count (s : State) (i n : Nat) (d : CoreId) : (s.count i n).core d = s.core d := rfl
@[simp] theorem State.core_countForever (s : State) (i n : Nat) (d : CoreId) : (s.countForever i n).core d = s.core d := rfl
@[simp] theorem State.core_send (s : State) (p : Packet) (d : CoreId) : (s.send p).core d = s.core d := rfl
@[simp] theorem State.core_sendAll (s : State) (ps : List Packet) (d : CoreId) : (s.sendAll ps).core d = s.core d := rfl
@[simp] theorem State.core_arrive (s : State) (p : Packet) (d : CoreId) : (s.arrive p).core d = s.core d := rfl
@[simp] theorem State.core_emit (s : State) (o : HostOut) (d : CoreId) : (s.emit o).core d = s.core d := rfl
@[simp] theorem State.core_modHost (s : State) (p : HPort) (f : HostPort → HostPort) (d : CoreId) : (s.modHost p f).core d = s.core d := by cases p <;> rfl
@[simp] theorem State.core_modDie (s : State) (e : Die) (f : PortDie → PortDie) (d : CoreId) : (s.modDie e f).core d = s.core d := by cases e <;> rfl
@[simp] theorem State.stack_setCore (s : State) (c : CoreId) (x : Core) (g : StackId) : (s.setCore c x).stack g = s.stack g := rfl
@[simp] theorem State.stack_modPort (s : State) (p : RPort) (f : ReduitPort → ReduitPort) (g : StackId) : (s.modPort p f).stack g = s.stack g := rfl
@[simp] theorem State.stack_modTympan (s : State) (f : Tympan → Tympan) (g : StackId) : (s.modTympan f).stack g = s.stack g := rfl
@[simp] theorem State.stack_count (s : State) (i n : Nat) (g : StackId) : (s.count i n).stack g = s.stack g := rfl
@[simp] theorem State.stack_countForever (s : State) (i n : Nat) (g : StackId) : (s.countForever i n).stack g = s.stack g := rfl
@[simp] theorem State.stack_send (s : State) (p : Packet) (g : StackId) : (s.send p).stack g = s.stack g := rfl
@[simp] theorem State.stack_sendAll (s : State) (ps : List Packet) (g : StackId) : (s.sendAll ps).stack g = s.stack g := rfl
@[simp] theorem State.stack_arrive (s : State) (p : Packet) (g : StackId) : (s.arrive p).stack g = s.stack g := rfl
@[simp] theorem State.stack_emit (s : State) (o : HostOut) (g : StackId) : (s.emit o).stack g = s.stack g := rfl
@[simp] theorem State.stack_modHost (s : State) (p : HPort) (f : HostPort → HostPort) (g : StackId) : (s.modHost p f).stack g = s.stack g := by cases p <;> rfl
@[simp] theorem State.stack_modDie (s : State) (e : Die) (f : PortDie → PortDie) (g : StackId) : (s.modDie e f).stack g = s.stack g := by cases e <;> rfl
@[simp] theorem State.port_setCore (s : State) (c : CoreId) (x : Core) (q : RPort) : (s.setCore c x).port q = s.port q := rfl
@[simp] theorem State.port_modStack (s : State) (h : StackId) (f : Stack → Stack) (q : RPort) : (s.modStack h f).port q = s.port q := rfl
@[simp] theorem State.port_modTympan (s : State) (f : Tympan → Tympan) (q : RPort) : (s.modTympan f).port q = s.port q := rfl
@[simp] theorem State.port_count (s : State) (i n : Nat) (q : RPort) : (s.count i n).port q = s.port q := rfl
@[simp] theorem State.port_countForever (s : State) (i n : Nat) (q : RPort) : (s.countForever i n).port q = s.port q := rfl
@[simp] theorem State.port_send (s : State) (p : Packet) (q : RPort) : (s.send p).port q = s.port q := rfl
@[simp] theorem State.port_sendAll (s : State) (ps : List Packet) (q : RPort) : (s.sendAll ps).port q = s.port q := rfl
@[simp] theorem State.port_arrive (s : State) (p : Packet) (q : RPort) : (s.arrive p).port q = s.port q := rfl
@[simp] theorem State.port_emit (s : State) (o : HostOut) (q : RPort) : (s.emit o).port q = s.port q := rfl
@[simp] theorem State.port_modHost (s : State) (p : HPort) (f : HostPort → HostPort) (q : RPort) : (s.modHost p f).port q = s.port q := by cases p <;> rfl
@[simp] theorem State.port_modDie (s : State) (e : Die) (f : PortDie → PortDie) (q : RPort) : (s.modDie e f).port q = s.port q := by cases e <;> rfl
@[simp] theorem State.host_setCore (s : State) (c : CoreId) (x : Core) (hp : HPort) : (s.setCore c x).host hp = s.host hp := by cases hp <;> rfl
@[simp] theorem State.host_modStack (s : State) (h : StackId) (f : Stack → Stack) (hp : HPort) : (s.modStack h f).host hp = s.host hp := by cases hp <;> rfl
@[simp] theorem State.host_modPort (s : State) (p : RPort) (f : ReduitPort → ReduitPort) (hp : HPort) : (s.modPort p f).host hp = s.host hp := by cases hp <;> rfl
@[simp] theorem State.host_modTympan (s : State) (f : Tympan → Tympan) (hp : HPort) : (s.modTympan f).host hp = s.host hp := by cases hp <;> rfl
@[simp] theorem State.host_count (s : State) (i n : Nat) (hp : HPort) : (s.count i n).host hp = s.host hp := by cases hp <;> rfl
@[simp] theorem State.host_countForever (s : State) (i n : Nat) (hp : HPort) : (s.countForever i n).host hp = s.host hp := by cases hp <;> rfl
@[simp] theorem State.host_send (s : State) (p : Packet) (hp : HPort) : (s.send p).host hp = s.host hp := by cases hp <;> rfl
@[simp] theorem State.host_sendAll (s : State) (ps : List Packet) (hp : HPort) : (s.sendAll ps).host hp = s.host hp := by cases hp <;> rfl
@[simp] theorem State.host_arrive (s : State) (p : Packet) (hp : HPort) : (s.arrive p).host hp = s.host hp := by cases hp <;> rfl
@[simp] theorem State.host_emit (s : State) (o : HostOut) (hp : HPort) : (s.emit o).host hp = s.host hp := by cases hp <;> rfl
@[simp] theorem State.dev_setCore (s : State) (c : CoreId) (x : Core) : (s.setCore c x).dev = s.dev := rfl
@[simp] theorem State.dev_modStack (s : State) (h : StackId) (f : Stack → Stack) : (s.modStack h f).dev = s.dev := rfl
@[simp] theorem State.dev_modPort (s : State) (p : RPort) (f : ReduitPort → ReduitPort) : (s.modPort p f).dev = s.dev := rfl
@[simp] theorem State.dev_modTympan (s : State) (f : Tympan → Tympan) : (s.modTympan f).dev = s.dev := rfl
@[simp] theorem State.dev_count (s : State) (i n : Nat) : (s.count i n).dev = s.dev := rfl
@[simp] theorem State.dev_countForever (s : State) (i n : Nat) : (s.countForever i n).dev = s.dev := rfl
@[simp] theorem State.dev_send (s : State) (p : Packet) : (s.send p).dev = s.dev := rfl
@[simp] theorem State.dev_sendAll (s : State) (ps : List Packet) : (s.sendAll ps).dev = s.dev := rfl
@[simp] theorem State.dev_arrive (s : State) (p : Packet) : (s.arrive p).dev = s.dev := rfl
@[simp] theorem State.dev_emit (s : State) (o : HostOut) : (s.emit o).dev = s.dev := rfl
@[simp] theorem State.dev_modHost (s : State) (p : HPort) (f : HostPort → HostPort) : (s.modHost p f).dev = s.dev := by cases p <;> rfl
@[simp] theorem State.tempoNow_setCore (s : State) (c : CoreId) (x : Core) : (s.setCore c x).tempoNow = s.tempoNow := rfl
@[simp] theorem State.tempoNow_modStack (s : State) (h : StackId) (f : Stack → Stack) : (s.modStack h f).tempoNow = s.tempoNow := rfl
@[simp] theorem State.tempoNow_modPort (s : State) (p : RPort) (f : ReduitPort → ReduitPort) : (s.modPort p f).tempoNow = s.tempoNow := rfl
@[simp] theorem State.tempoNow_modTympan (s : State) (f : Tympan → Tympan) : (s.modTympan f).tempoNow = s.tempoNow := rfl
@[simp] theorem State.tempoNow_count (s : State) (i n : Nat) : (s.count i n).tempoNow = s.tempoNow := rfl
@[simp] theorem State.tempoNow_countForever (s : State) (i n : Nat) : (s.countForever i n).tempoNow = s.tempoNow := rfl
@[simp] theorem State.tempoNow_send (s : State) (p : Packet) : (s.send p).tempoNow = s.tempoNow := rfl
@[simp] theorem State.tempoNow_sendAll (s : State) (ps : List Packet) : (s.sendAll ps).tempoNow = s.tempoNow := rfl
@[simp] theorem State.tempoNow_arrive (s : State) (p : Packet) : (s.arrive p).tempoNow = s.tempoNow := rfl
@[simp] theorem State.tempoNow_emit (s : State) (o : HostOut) : (s.emit o).tempoNow = s.tempoNow := rfl
@[simp] theorem State.tempoNow_modHost (s : State) (p : HPort) (f : HostPort → HostPort) : (s.modHost p f).tempoNow = s.tempoNow := by cases p <;> rfl
@[simp] theorem State.windowAt_setCore (s : State) (c : CoreId) (x : Core) : (s.setCore c x).windowAt = s.windowAt := rfl
@[simp] theorem State.windowAt_modStack (s : State) (h : StackId) (f : Stack → Stack) : (s.modStack h f).windowAt = s.windowAt := rfl
@[simp] theorem State.windowAt_modPort (s : State) (p : RPort) (f : ReduitPort → ReduitPort) : (s.modPort p f).windowAt = s.windowAt := rfl
@[simp] theorem State.windowAt_modTympan (s : State) (f : Tympan → Tympan) : (s.modTympan f).windowAt = s.windowAt := rfl
@[simp] theorem State.windowAt_count (s : State) (i n : Nat) : (s.count i n).windowAt = s.windowAt := rfl
@[simp] theorem State.windowAt_countForever (s : State) (i n : Nat) : (s.countForever i n).windowAt = s.windowAt := rfl
@[simp] theorem State.windowAt_send (s : State) (p : Packet) : (s.send p).windowAt = s.windowAt := rfl
@[simp] theorem State.windowAt_sendAll (s : State) (ps : List Packet) : (s.sendAll ps).windowAt = s.windowAt := rfl
@[simp] theorem State.windowAt_arrive (s : State) (p : Packet) : (s.arrive p).windowAt = s.windowAt := rfl
@[simp] theorem State.windowAt_emit (s : State) (o : HostOut) : (s.emit o).windowAt = s.windowAt := rfl
@[simp] theorem State.windowAt_modHost (s : State) (p : HPort) (f : HostPort → HostPort) : (s.modHost p f).windowAt = s.windowAt := by cases p <;> rfl
@[simp] theorem State.inWork_setCore (s : State) (c : CoreId) (x : Core) : (s.setCore c x).inWork = s.inWork := rfl
@[simp] theorem State.inWork_modStack (s : State) (h : StackId) (f : Stack → Stack) : (s.modStack h f).inWork = s.inWork := rfl
@[simp] theorem State.inWork_modPort (s : State) (p : RPort) (f : ReduitPort → ReduitPort) : (s.modPort p f).inWork = s.inWork := rfl
@[simp] theorem State.inWork_modTympan (s : State) (f : Tympan → Tympan) : (s.modTympan f).inWork = s.inWork := rfl
@[simp] theorem State.inWork_count (s : State) (i n : Nat) : (s.count i n).inWork = s.inWork := rfl
@[simp] theorem State.inWork_countForever (s : State) (i n : Nat) : (s.countForever i n).inWork = s.inWork := rfl
@[simp] theorem State.inWork_send (s : State) (p : Packet) : (s.send p).inWork = s.inWork := rfl
@[simp] theorem State.inWork_sendAll (s : State) (ps : List Packet) : (s.sendAll ps).inWork = s.inWork := rfl
@[simp] theorem State.inWork_arrive (s : State) (p : Packet) : (s.arrive p).inWork = s.inWork := rfl
@[simp] theorem State.inWork_emit (s : State) (o : HostOut) : (s.emit o).inWork = s.inWork := rfl
@[simp] theorem State.inWork_modHost (s : State) (p : HPort) (f : HostPort → HostPort) : (s.modHost p f).inWork = s.inWork := by cases p <;> rfl

/-! ## A core -/

@[simp] theorem Core.modCtx_last (x : Core) (k : Ctx) (f : CtxState → CtxState) : (x.modCtx k f).last = x.last := rfl
@[simp] theorem Core.modCtx_pace (x : Core) (k : Ctx) (f : CtxState → CtxState) : (x.modCtx k f).pace = x.pace := rfl
@[simp] theorem Core.modCtx_ls (x : Core) (k : Ctx) (f : CtxState → CtxState) : (x.modCtx k f).ls = x.ls := rfl
@[simp] theorem Core.modCtx_lsBad (x : Core) (k : Ctx) (f : CtxState → CtxState) : (x.modCtx k f).lsBad = x.lsBad := rfl
@[simp] theorem Core.modCtx_landed (x : Core) (k : Ctx) (f : CtxState → CtxState) : (x.modCtx k f).landed = x.landed := rfl
@[simp] theorem Core.modCtx_af (x : Core) (k : Ctx) (f : CtxState → CtxState) : (x.modCtx k f).af = x.af := rfl
@[simp] theorem Core.modCtx_afBad (x : Core) (k : Ctx) (f : CtxState → CtxState) : (x.modCtx k f).afBad = x.afBad := rfl
@[simp] theorem Core.modCtx_banks (x : Core) (k : Ctx) (f : CtxState → CtxState) : (x.modCtx k f).banks = x.banks := rfl
@[simp] theorem Core.modCtx_stat (x : Core) (k : Ctx) (f : CtxState → CtxState) : (x.modCtx k f).stat = x.stat := rfl
@[simp] theorem Core.modCtx_statBad (x : Core) (k : Ctx) (f : CtxState → CtxState) : (x.modCtx k f).statBad = x.statBad := rfl
@[simp] theorem Core.modCtx_instr (x : Core) (k : Ctx) (f : CtxState → CtxState) : (x.modCtx k f).instr = x.instr := rfl
@[simp] theorem Core.modCtx_instrBad (x : Core) (k : Ctx) (f : CtxState → CtxState) : (x.modCtx k f).instrBad = x.instrBad := rfl
@[simp] theorem Core.modCtx_program (x : Core) (k : Ctx) (f : CtxState → CtxState) : (x.modCtx k f).program = x.program := rfl
@[simp] theorem Core.modCtx_ctrs (x : Core) (k : Ctx) (f : CtxState → CtxState) : (x.modCtx k f).ctrs = x.ctrs := rfl
@[simp] theorem Core.modCtx_slots (x : Core) (k : Ctx) (f : CtxState → CtxState) : (x.modCtx k f).slots = x.slots := rfl
@[simp] theorem Core.modCtx_cpys (x : Core) (k : Ctx) (f : CtxState → CtxState) : (x.modCtx k f).cpys = x.cpys := rfl
@[simp] theorem Core.modCtx_served (x : Core) (k : Ctx) (f : CtxState → CtxState) : (x.modCtx k f).served = x.served := rfl
@[simp] theorem Core.modCtx_landing (x : Core) (k : Ctx) (f : CtxState → CtxState) : (x.modCtx k f).landing = x.landing := rfl
@[simp] theorem Core.modCtx_landingPeak (x : Core) (k : Ctx) (f : CtxState → CtxState) : (x.modCtx k f).landingPeak = x.landingPeak := rfl
@[simp] theorem Core.modCtx_arrayQ (x : Core) (k : Ctx) (f : CtxState → CtxState) : (x.modCtx k f).arrayQ = x.arrayQ := rfl
@[simp] theorem Core.modCtx_check (x : Core) (k : Ctx) (f : CtxState → CtxState) : (x.modCtx k f).check = x.check := rfl
@[simp] theorem Core.modCtx_errs (x : Core) (k : Ctx) (f : CtxState → CtxState) : (x.modCtx k f).errs = x.errs := rfl
@[simp] theorem Core.modCtx_arrayBusy (x : Core) (k : Ctx) (f : CtxState → CtxState) : (x.modCtx k f).arrayBusy = x.arrayBusy := rfl
@[simp] theorem Core.modCtx_vectorBusy (x : Core) (k : Ctx) (f : CtxState → CtxState) : (x.modCtx k f).vectorBusy = x.vectorBusy := rfl
@[simp] theorem Core.modCtx_rowBusy (x : Core) (k : Ctx) (f : CtxState → CtxState) : (x.modCtx k f).rowBusy = x.rowBusy := rfl
@[simp] theorem Core.modCtx_copyBlocks (x : Core) (k : Ctx) (f : CtxState → CtxState) : (x.modCtx k f).copyBlocks = x.copyBlocks := rfl
@[simp] theorem Core.modCtx_ckptSeq (x : Core) (k : Ctx) (f : CtxState → CtxState) : (x.modCtx k f).ckptSeq = x.ckptSeq := rfl
@[simp] theorem Core.modCtx_checkpoints (x : Core) (k : Ctx) (f : CtxState → CtxState) : (x.modCtx k f).checkpoints = x.checkpoints := rfl
@[simp] theorem Core.modCtx_records (x : Core) (k : Ctx) (f : CtxState → CtxState) : (x.modCtx k f).records = x.records := rfl
@[simp] theorem Core.modCtx_landLog (x : Core) (k : Ctx) (f : CtxState → CtxState) : (x.modCtx k f).landLog = x.landLog := rfl
@[simp] theorem Core.modCtx_logFull (x : Core) (k : Ctx) (f : CtxState → CtxState) : (x.modCtx k f).logFull = x.logFull := rfl
@[simp] theorem Core.modCtx_saves (x : Core) (k : Ctx) (f : CtxState → CtxState) : (x.modCtx k f).saves = x.saves := rfl
@[simp] theorem Core.modCtx_roll (x : Core) (k : Ctx) (f : CtxState → CtxState) : (x.modCtx k f).roll = x.roll := rfl
@[simp] theorem Core.modCtx_rolling (x : Core) (k : Ctx) (f : CtxState → CtxState) : (x.modCtx k f).rolling = x.rolling := rfl
@[simp] theorem Core.modCtx_rollMore (x : Core) (k : Ctx) (f : CtxState → CtxState) : (x.modCtx k f).rollMore = x.rollMore := rfl
@[simp] theorem Core.modCtx_rollFound (x : Core) (k : Ctx) (f : CtxState → CtxState) : (x.modCtx k f).rollFound = x.rollFound := rfl
@[simp] theorem Core.modCtx_rollSeq (x : Core) (k : Ctx) (f : CtxState → CtxState) : (x.modCtx k f).rollSeq = x.rollSeq := rfl
@[simp] theorem Core.modCtx_unrepaired (x : Core) (k : Ctx) (f : CtxState → CtxState) : (x.modCtx k f).unrepaired = x.unrepaired := rfl
@[simp] theorem Core.modCtx_unrepairedStat (x : Core) (k : Ctx) (f : CtxState → CtxState) : (x.modCtx k f).unrepairedStat = x.unrepairedStat := rfl
@[simp] theorem Core.modCtx_lost (x : Core) (k : Ctx) (f : CtxState → CtxState) : (x.modCtx k f).lost = x.lost := rfl
@[simp] theorem Core.modCtx_repairs (x : Core) (k : Ctx) (f : CtxState → CtxState) : (x.modCtx k f).repairs = x.repairs := rfl
@[simp] theorem Core.modCtx_shadow (x : Core) (k : Ctx) (f : CtxState → CtxState) : (x.modCtx k f).shadow = x.shadow := rfl
@[simp] theorem Core.modCtx_shadowLog (x : Core) (k : Ctx) (f : CtxState → CtxState) : (x.modCtx k f).shadowLog = x.shadowLog := rfl
@[simp] theorem Core.modCtx_routes (x : Core) (k : Ctx) (f : CtxState → CtxState) : (x.modCtx k f).routes = x.routes := rfl
@[simp] theorem Core.count_ctxs (x : Core) (j n : Nat) : (x.count j n).ctxs = x.ctxs := rfl
@[simp] theorem Core.count_last (x : Core) (j n : Nat) : (x.count j n).last = x.last := rfl
@[simp] theorem Core.count_pace (x : Core) (j n : Nat) : (x.count j n).pace = x.pace := rfl
@[simp] theorem Core.count_ls (x : Core) (j n : Nat) : (x.count j n).ls = x.ls := rfl
@[simp] theorem Core.count_lsBad (x : Core) (j n : Nat) : (x.count j n).lsBad = x.lsBad := rfl
@[simp] theorem Core.count_landed (x : Core) (j n : Nat) : (x.count j n).landed = x.landed := rfl
@[simp] theorem Core.count_af (x : Core) (j n : Nat) : (x.count j n).af = x.af := rfl
@[simp] theorem Core.count_afBad (x : Core) (j n : Nat) : (x.count j n).afBad = x.afBad := rfl
@[simp] theorem Core.count_banks (x : Core) (j n : Nat) : (x.count j n).banks = x.banks := rfl
@[simp] theorem Core.count_stat (x : Core) (j n : Nat) : (x.count j n).stat = x.stat := rfl
@[simp] theorem Core.count_statBad (x : Core) (j n : Nat) : (x.count j n).statBad = x.statBad := rfl
@[simp] theorem Core.count_instr (x : Core) (j n : Nat) : (x.count j n).instr = x.instr := rfl
@[simp] theorem Core.count_instrBad (x : Core) (j n : Nat) : (x.count j n).instrBad = x.instrBad := rfl
@[simp] theorem Core.count_program (x : Core) (j n : Nat) : (x.count j n).program = x.program := rfl
@[simp] theorem Core.count_ctrs (x : Core) (j n : Nat) : (x.count j n).ctrs = x.ctrs := rfl
@[simp] theorem Core.count_slots (x : Core) (j n : Nat) : (x.count j n).slots = x.slots := rfl
@[simp] theorem Core.count_cpys (x : Core) (j n : Nat) : (x.count j n).cpys = x.cpys := rfl
@[simp] theorem Core.count_served (x : Core) (j n : Nat) : (x.count j n).served = x.served := rfl
@[simp] theorem Core.count_landing (x : Core) (j n : Nat) : (x.count j n).landing = x.landing := rfl
@[simp] theorem Core.count_landingPeak (x : Core) (j n : Nat) : (x.count j n).landingPeak = x.landingPeak := rfl
@[simp] theorem Core.count_arrayQ (x : Core) (j n : Nat) : (x.count j n).arrayQ = x.arrayQ := rfl
@[simp] theorem Core.count_check (x : Core) (j n : Nat) : (x.count j n).check = x.check := rfl
@[simp] theorem Core.count_arrayBusy (x : Core) (j n : Nat) : (x.count j n).arrayBusy = x.arrayBusy := rfl
@[simp] theorem Core.count_vectorBusy (x : Core) (j n : Nat) : (x.count j n).vectorBusy = x.vectorBusy := rfl
@[simp] theorem Core.count_rowBusy (x : Core) (j n : Nat) : (x.count j n).rowBusy = x.rowBusy := rfl
@[simp] theorem Core.count_copyBlocks (x : Core) (j n : Nat) : (x.count j n).copyBlocks = x.copyBlocks := rfl
@[simp] theorem Core.count_ckptSeq (x : Core) (j n : Nat) : (x.count j n).ckptSeq = x.ckptSeq := rfl
@[simp] theorem Core.count_checkpoints (x : Core) (j n : Nat) : (x.count j n).checkpoints = x.checkpoints := rfl
@[simp] theorem Core.count_records (x : Core) (j n : Nat) : (x.count j n).records = x.records := rfl
@[simp] theorem Core.count_landLog (x : Core) (j n : Nat) : (x.count j n).landLog = x.landLog := rfl
@[simp] theorem Core.count_logFull (x : Core) (j n : Nat) : (x.count j n).logFull = x.logFull := rfl
@[simp] theorem Core.count_saves (x : Core) (j n : Nat) : (x.count j n).saves = x.saves := rfl
@[simp] theorem Core.count_roll (x : Core) (j n : Nat) : (x.count j n).roll = x.roll := rfl
@[simp] theorem Core.count_rolling (x : Core) (j n : Nat) : (x.count j n).rolling = x.rolling := rfl
@[simp] theorem Core.count_rollMore (x : Core) (j n : Nat) : (x.count j n).rollMore = x.rollMore := rfl
@[simp] theorem Core.count_rollFound (x : Core) (j n : Nat) : (x.count j n).rollFound = x.rollFound := rfl
@[simp] theorem Core.count_rollSeq (x : Core) (j n : Nat) : (x.count j n).rollSeq = x.rollSeq := rfl
@[simp] theorem Core.count_unrepaired (x : Core) (j n : Nat) : (x.count j n).unrepaired = x.unrepaired := rfl
@[simp] theorem Core.count_unrepairedStat (x : Core) (j n : Nat) : (x.count j n).unrepairedStat = x.unrepairedStat := rfl
@[simp] theorem Core.count_lost (x : Core) (j n : Nat) : (x.count j n).lost = x.lost := rfl
@[simp] theorem Core.count_repairs (x : Core) (j n : Nat) : (x.count j n).repairs = x.repairs := rfl
@[simp] theorem Core.count_shadow (x : Core) (j n : Nat) : (x.count j n).shadow = x.shadow := rfl
@[simp] theorem Core.count_shadowLog (x : Core) (j n : Nat) : (x.count j n).shadowLog = x.shadowLog := rfl
@[simp] theorem Core.count_routes (x : Core) (j n : Nat) : (x.count j n).routes = x.routes := rfl
@[simp] theorem Core.lsWrite_ctxs (x : Core) (landing : Bool) (a : Nat) (bs : List Byte) : (x.lsWrite landing a bs).ctxs = x.ctxs := rfl
@[simp] theorem Core.lsWrite_last (x : Core) (landing : Bool) (a : Nat) (bs : List Byte) : (x.lsWrite landing a bs).last = x.last := rfl
@[simp] theorem Core.lsWrite_pace (x : Core) (landing : Bool) (a : Nat) (bs : List Byte) : (x.lsWrite landing a bs).pace = x.pace := rfl
@[simp] theorem Core.lsWrite_af (x : Core) (landing : Bool) (a : Nat) (bs : List Byte) : (x.lsWrite landing a bs).af = x.af := rfl
@[simp] theorem Core.lsWrite_afBad (x : Core) (landing : Bool) (a : Nat) (bs : List Byte) : (x.lsWrite landing a bs).afBad = x.afBad := rfl
@[simp] theorem Core.lsWrite_banks (x : Core) (landing : Bool) (a : Nat) (bs : List Byte) : (x.lsWrite landing a bs).banks = x.banks := rfl
@[simp] theorem Core.lsWrite_stat (x : Core) (landing : Bool) (a : Nat) (bs : List Byte) : (x.lsWrite landing a bs).stat = x.stat := rfl
@[simp] theorem Core.lsWrite_statBad (x : Core) (landing : Bool) (a : Nat) (bs : List Byte) : (x.lsWrite landing a bs).statBad = x.statBad := rfl
@[simp] theorem Core.lsWrite_instr (x : Core) (landing : Bool) (a : Nat) (bs : List Byte) : (x.lsWrite landing a bs).instr = x.instr := rfl
@[simp] theorem Core.lsWrite_instrBad (x : Core) (landing : Bool) (a : Nat) (bs : List Byte) : (x.lsWrite landing a bs).instrBad = x.instrBad := rfl
@[simp] theorem Core.lsWrite_program (x : Core) (landing : Bool) (a : Nat) (bs : List Byte) : (x.lsWrite landing a bs).program = x.program := rfl
@[simp] theorem Core.lsWrite_ctrs (x : Core) (landing : Bool) (a : Nat) (bs : List Byte) : (x.lsWrite landing a bs).ctrs = x.ctrs := rfl
@[simp] theorem Core.lsWrite_slots (x : Core) (landing : Bool) (a : Nat) (bs : List Byte) : (x.lsWrite landing a bs).slots = x.slots := rfl
@[simp] theorem Core.lsWrite_cpys (x : Core) (landing : Bool) (a : Nat) (bs : List Byte) : (x.lsWrite landing a bs).cpys = x.cpys := rfl
@[simp] theorem Core.lsWrite_served (x : Core) (landing : Bool) (a : Nat) (bs : List Byte) : (x.lsWrite landing a bs).served = x.served := rfl
@[simp] theorem Core.lsWrite_landing (x : Core) (landing : Bool) (a : Nat) (bs : List Byte) : (x.lsWrite landing a bs).landing = x.landing := rfl
@[simp] theorem Core.lsWrite_landingPeak (x : Core) (landing : Bool) (a : Nat) (bs : List Byte) : (x.lsWrite landing a bs).landingPeak = x.landingPeak := rfl
@[simp] theorem Core.lsWrite_arrayQ (x : Core) (landing : Bool) (a : Nat) (bs : List Byte) : (x.lsWrite landing a bs).arrayQ = x.arrayQ := rfl
@[simp] theorem Core.lsWrite_check (x : Core) (landing : Bool) (a : Nat) (bs : List Byte) : (x.lsWrite landing a bs).check = x.check := rfl
@[simp] theorem Core.lsWrite_errs (x : Core) (landing : Bool) (a : Nat) (bs : List Byte) : (x.lsWrite landing a bs).errs = x.errs := rfl
@[simp] theorem Core.lsWrite_arrayBusy (x : Core) (landing : Bool) (a : Nat) (bs : List Byte) : (x.lsWrite landing a bs).arrayBusy = x.arrayBusy := rfl
@[simp] theorem Core.lsWrite_vectorBusy (x : Core) (landing : Bool) (a : Nat) (bs : List Byte) : (x.lsWrite landing a bs).vectorBusy = x.vectorBusy := rfl
@[simp] theorem Core.lsWrite_rowBusy (x : Core) (landing : Bool) (a : Nat) (bs : List Byte) : (x.lsWrite landing a bs).rowBusy = x.rowBusy := rfl
@[simp] theorem Core.lsWrite_copyBlocks (x : Core) (landing : Bool) (a : Nat) (bs : List Byte) : (x.lsWrite landing a bs).copyBlocks = x.copyBlocks := rfl
@[simp] theorem Core.lsWrite_ckptSeq (x : Core) (landing : Bool) (a : Nat) (bs : List Byte) : (x.lsWrite landing a bs).ckptSeq = x.ckptSeq := rfl
@[simp] theorem Core.lsWrite_checkpoints (x : Core) (landing : Bool) (a : Nat) (bs : List Byte) : (x.lsWrite landing a bs).checkpoints = x.checkpoints := rfl
@[simp] theorem Core.lsWrite_records (x : Core) (landing : Bool) (a : Nat) (bs : List Byte) : (x.lsWrite landing a bs).records = x.records := rfl
@[simp] theorem Core.lsWrite_landLog (x : Core) (landing : Bool) (a : Nat) (bs : List Byte) : (x.lsWrite landing a bs).landLog = x.landLog := rfl
@[simp] theorem Core.lsWrite_logFull (x : Core) (landing : Bool) (a : Nat) (bs : List Byte) : (x.lsWrite landing a bs).logFull = x.logFull := rfl
@[simp] theorem Core.lsWrite_saves (x : Core) (landing : Bool) (a : Nat) (bs : List Byte) : (x.lsWrite landing a bs).saves = x.saves := rfl
@[simp] theorem Core.lsWrite_roll (x : Core) (landing : Bool) (a : Nat) (bs : List Byte) : (x.lsWrite landing a bs).roll = x.roll := rfl
@[simp] theorem Core.lsWrite_rolling (x : Core) (landing : Bool) (a : Nat) (bs : List Byte) : (x.lsWrite landing a bs).rolling = x.rolling := rfl
@[simp] theorem Core.lsWrite_rollMore (x : Core) (landing : Bool) (a : Nat) (bs : List Byte) : (x.lsWrite landing a bs).rollMore = x.rollMore := rfl
@[simp] theorem Core.lsWrite_rollSeq (x : Core) (landing : Bool) (a : Nat) (bs : List Byte) : (x.lsWrite landing a bs).rollSeq = x.rollSeq := rfl
@[simp] theorem Core.lsWrite_unrepairedStat (x : Core) (landing : Bool) (a : Nat) (bs : List Byte) : (x.lsWrite landing a bs).unrepairedStat = x.unrepairedStat := rfl
@[simp] theorem Core.lsWrite_repairs (x : Core) (landing : Bool) (a : Nat) (bs : List Byte) : (x.lsWrite landing a bs).repairs = x.repairs := rfl
@[simp] theorem Core.lsWrite_shadow (x : Core) (landing : Bool) (a : Nat) (bs : List Byte) : (x.lsWrite landing a bs).shadow = x.shadow := rfl
@[simp] theorem Core.lsWrite_shadowLog (x : Core) (landing : Bool) (a : Nat) (bs : List Byte) : (x.lsWrite landing a bs).shadowLog = x.shadowLog := rfl
@[simp] theorem Core.lsWrite_routes (x : Core) (landing : Bool) (a : Nat) (bs : List Byte) : (x.lsWrite landing a bs).routes = x.routes := rfl
@[simp] theorem Core.setAf_ctxs (x : Core) (e c : Nat) (v : AfCol) : (x.setAf e c v).ctxs = x.ctxs := rfl
@[simp] theorem Core.setAf_last (x : Core) (e c : Nat) (v : AfCol) : (x.setAf e c v).last = x.last := rfl
@[simp] theorem Core.setAf_pace (x : Core) (e c : Nat) (v : AfCol) : (x.setAf e c v).pace = x.pace := rfl
@[simp] theorem Core.setAf_ls (x : Core) (e c : Nat) (v : AfCol) : (x.setAf e c v).ls = x.ls := rfl
@[simp] theorem Core.setAf_lsBad (x : Core) (e c : Nat) (v : AfCol) : (x.setAf e c v).lsBad = x.lsBad := rfl
@[simp] theorem Core.setAf_landed (x : Core) (e c : Nat) (v : AfCol) : (x.setAf e c v).landed = x.landed := rfl
@[simp] theorem Core.setAf_afBad (x : Core) (e c : Nat) (v : AfCol) : (x.setAf e c v).afBad = x.afBad := rfl
@[simp] theorem Core.setAf_banks (x : Core) (e c : Nat) (v : AfCol) : (x.setAf e c v).banks = x.banks := rfl
@[simp] theorem Core.setAf_stat (x : Core) (e c : Nat) (v : AfCol) : (x.setAf e c v).stat = x.stat := rfl
@[simp] theorem Core.setAf_statBad (x : Core) (e c : Nat) (v : AfCol) : (x.setAf e c v).statBad = x.statBad := rfl
@[simp] theorem Core.setAf_instr (x : Core) (e c : Nat) (v : AfCol) : (x.setAf e c v).instr = x.instr := rfl
@[simp] theorem Core.setAf_instrBad (x : Core) (e c : Nat) (v : AfCol) : (x.setAf e c v).instrBad = x.instrBad := rfl
@[simp] theorem Core.setAf_program (x : Core) (e c : Nat) (v : AfCol) : (x.setAf e c v).program = x.program := rfl
@[simp] theorem Core.setAf_ctrs (x : Core) (e c : Nat) (v : AfCol) : (x.setAf e c v).ctrs = x.ctrs := rfl
@[simp] theorem Core.setAf_slots (x : Core) (e c : Nat) (v : AfCol) : (x.setAf e c v).slots = x.slots := rfl
@[simp] theorem Core.setAf_cpys (x : Core) (e c : Nat) (v : AfCol) : (x.setAf e c v).cpys = x.cpys := rfl
@[simp] theorem Core.setAf_served (x : Core) (e c : Nat) (v : AfCol) : (x.setAf e c v).served = x.served := rfl
@[simp] theorem Core.setAf_landing (x : Core) (e c : Nat) (v : AfCol) : (x.setAf e c v).landing = x.landing := rfl
@[simp] theorem Core.setAf_landingPeak (x : Core) (e c : Nat) (v : AfCol) : (x.setAf e c v).landingPeak = x.landingPeak := rfl
@[simp] theorem Core.setAf_arrayQ (x : Core) (e c : Nat) (v : AfCol) : (x.setAf e c v).arrayQ = x.arrayQ := rfl
@[simp] theorem Core.setAf_check (x : Core) (e c : Nat) (v : AfCol) : (x.setAf e c v).check = x.check := rfl
@[simp] theorem Core.setAf_errs (x : Core) (e c : Nat) (v : AfCol) : (x.setAf e c v).errs = x.errs := rfl
@[simp] theorem Core.setAf_arrayBusy (x : Core) (e c : Nat) (v : AfCol) : (x.setAf e c v).arrayBusy = x.arrayBusy := rfl
@[simp] theorem Core.setAf_vectorBusy (x : Core) (e c : Nat) (v : AfCol) : (x.setAf e c v).vectorBusy = x.vectorBusy := rfl
@[simp] theorem Core.setAf_rowBusy (x : Core) (e c : Nat) (v : AfCol) : (x.setAf e c v).rowBusy = x.rowBusy := rfl
@[simp] theorem Core.setAf_copyBlocks (x : Core) (e c : Nat) (v : AfCol) : (x.setAf e c v).copyBlocks = x.copyBlocks := rfl
@[simp] theorem Core.setAf_ckptSeq (x : Core) (e c : Nat) (v : AfCol) : (x.setAf e c v).ckptSeq = x.ckptSeq := rfl
@[simp] theorem Core.setAf_checkpoints (x : Core) (e c : Nat) (v : AfCol) : (x.setAf e c v).checkpoints = x.checkpoints := rfl
@[simp] theorem Core.setAf_records (x : Core) (e c : Nat) (v : AfCol) : (x.setAf e c v).records = x.records := rfl
@[simp] theorem Core.setAf_landLog (x : Core) (e c : Nat) (v : AfCol) : (x.setAf e c v).landLog = x.landLog := rfl
@[simp] theorem Core.setAf_logFull (x : Core) (e c : Nat) (v : AfCol) : (x.setAf e c v).logFull = x.logFull := rfl
@[simp] theorem Core.setAf_saves (x : Core) (e c : Nat) (v : AfCol) : (x.setAf e c v).saves = x.saves := rfl
@[simp] theorem Core.setAf_roll (x : Core) (e c : Nat) (v : AfCol) : (x.setAf e c v).roll = x.roll := rfl
@[simp] theorem Core.setAf_rolling (x : Core) (e c : Nat) (v : AfCol) : (x.setAf e c v).rolling = x.rolling := rfl
@[simp] theorem Core.setAf_rollMore (x : Core) (e c : Nat) (v : AfCol) : (x.setAf e c v).rollMore = x.rollMore := rfl
@[simp] theorem Core.setAf_rollFound (x : Core) (e c : Nat) (v : AfCol) : (x.setAf e c v).rollFound = x.rollFound := rfl
@[simp] theorem Core.setAf_rollSeq (x : Core) (e c : Nat) (v : AfCol) : (x.setAf e c v).rollSeq = x.rollSeq := rfl
@[simp] theorem Core.setAf_unrepaired (x : Core) (e c : Nat) (v : AfCol) : (x.setAf e c v).unrepaired = x.unrepaired := rfl
@[simp] theorem Core.setAf_unrepairedStat (x : Core) (e c : Nat) (v : AfCol) : (x.setAf e c v).unrepairedStat = x.unrepairedStat := rfl
@[simp] theorem Core.setAf_lost (x : Core) (e c : Nat) (v : AfCol) : (x.setAf e c v).lost = x.lost := rfl
@[simp] theorem Core.setAf_repairs (x : Core) (e c : Nat) (v : AfCol) : (x.setAf e c v).repairs = x.repairs := rfl
@[simp] theorem Core.setAf_shadow (x : Core) (e c : Nat) (v : AfCol) : (x.setAf e c v).shadow = x.shadow := rfl
@[simp] theorem Core.setAf_shadowLog (x : Core) (e c : Nat) (v : AfCol) : (x.setAf e c v).shadowLog = x.shadowLog := rfl
@[simp] theorem Core.setAf_routes (x : Core) (e c : Nat) (v : AfCol) : (x.setAf e c v).routes = x.routes := rfl
@[simp] theorem Core.setStat_ctxs (x : Core) (i : Nat) (a b : Word) : (x.setStat i a b).ctxs = x.ctxs := rfl
@[simp] theorem Core.setStat_last (x : Core) (i : Nat) (a b : Word) : (x.setStat i a b).last = x.last := rfl
@[simp] theorem Core.setStat_pace (x : Core) (i : Nat) (a b : Word) : (x.setStat i a b).pace = x.pace := rfl
@[simp] theorem Core.setStat_ls (x : Core) (i : Nat) (a b : Word) : (x.setStat i a b).ls = x.ls := rfl
@[simp] theorem Core.setStat_lsBad (x : Core) (i : Nat) (a b : Word) : (x.setStat i a b).lsBad = x.lsBad := rfl
@[simp] theorem Core.setStat_landed (x : Core) (i : Nat) (a b : Word) : (x.setStat i a b).landed = x.landed := rfl
@[simp] theorem Core.setStat_af (x : Core) (i : Nat) (a b : Word) : (x.setStat i a b).af = x.af := rfl
@[simp] theorem Core.setStat_afBad (x : Core) (i : Nat) (a b : Word) : (x.setStat i a b).afBad = x.afBad := rfl
@[simp] theorem Core.setStat_banks (x : Core) (i : Nat) (a b : Word) : (x.setStat i a b).banks = x.banks := rfl
@[simp] theorem Core.setStat_instr (x : Core) (i : Nat) (a b : Word) : (x.setStat i a b).instr = x.instr := rfl
@[simp] theorem Core.setStat_instrBad (x : Core) (i : Nat) (a b : Word) : (x.setStat i a b).instrBad = x.instrBad := rfl
@[simp] theorem Core.setStat_program (x : Core) (i : Nat) (a b : Word) : (x.setStat i a b).program = x.program := rfl
@[simp] theorem Core.setStat_ctrs (x : Core) (i : Nat) (a b : Word) : (x.setStat i a b).ctrs = x.ctrs := rfl
@[simp] theorem Core.setStat_slots (x : Core) (i : Nat) (a b : Word) : (x.setStat i a b).slots = x.slots := rfl
@[simp] theorem Core.setStat_cpys (x : Core) (i : Nat) (a b : Word) : (x.setStat i a b).cpys = x.cpys := rfl
@[simp] theorem Core.setStat_served (x : Core) (i : Nat) (a b : Word) : (x.setStat i a b).served = x.served := rfl
@[simp] theorem Core.setStat_landing (x : Core) (i : Nat) (a b : Word) : (x.setStat i a b).landing = x.landing := rfl
@[simp] theorem Core.setStat_landingPeak (x : Core) (i : Nat) (a b : Word) : (x.setStat i a b).landingPeak = x.landingPeak := rfl
@[simp] theorem Core.setStat_arrayQ (x : Core) (i : Nat) (a b : Word) : (x.setStat i a b).arrayQ = x.arrayQ := rfl
@[simp] theorem Core.setStat_check (x : Core) (i : Nat) (a b : Word) : (x.setStat i a b).check = x.check := rfl
@[simp] theorem Core.setStat_errs (x : Core) (i : Nat) (a b : Word) : (x.setStat i a b).errs = x.errs := rfl
@[simp] theorem Core.setStat_arrayBusy (x : Core) (i : Nat) (a b : Word) : (x.setStat i a b).arrayBusy = x.arrayBusy := rfl
@[simp] theorem Core.setStat_vectorBusy (x : Core) (i : Nat) (a b : Word) : (x.setStat i a b).vectorBusy = x.vectorBusy := rfl
@[simp] theorem Core.setStat_rowBusy (x : Core) (i : Nat) (a b : Word) : (x.setStat i a b).rowBusy = x.rowBusy := rfl
@[simp] theorem Core.setStat_copyBlocks (x : Core) (i : Nat) (a b : Word) : (x.setStat i a b).copyBlocks = x.copyBlocks := rfl
@[simp] theorem Core.setStat_ckptSeq (x : Core) (i : Nat) (a b : Word) : (x.setStat i a b).ckptSeq = x.ckptSeq := rfl
@[simp] theorem Core.setStat_checkpoints (x : Core) (i : Nat) (a b : Word) : (x.setStat i a b).checkpoints = x.checkpoints := rfl
@[simp] theorem Core.setStat_records (x : Core) (i : Nat) (a b : Word) : (x.setStat i a b).records = x.records := rfl
@[simp] theorem Core.setStat_landLog (x : Core) (i : Nat) (a b : Word) : (x.setStat i a b).landLog = x.landLog := rfl
@[simp] theorem Core.setStat_logFull (x : Core) (i : Nat) (a b : Word) : (x.setStat i a b).logFull = x.logFull := rfl
@[simp] theorem Core.setStat_saves (x : Core) (i : Nat) (a b : Word) : (x.setStat i a b).saves = x.saves := rfl
@[simp] theorem Core.setStat_roll (x : Core) (i : Nat) (a b : Word) : (x.setStat i a b).roll = x.roll := rfl
@[simp] theorem Core.setStat_rolling (x : Core) (i : Nat) (a b : Word) : (x.setStat i a b).rolling = x.rolling := rfl
@[simp] theorem Core.setStat_rollMore (x : Core) (i : Nat) (a b : Word) : (x.setStat i a b).rollMore = x.rollMore := rfl
@[simp] theorem Core.setStat_rollSeq (x : Core) (i : Nat) (a b : Word) : (x.setStat i a b).rollSeq = x.rollSeq := rfl
@[simp] theorem Core.setStat_unrepaired (x : Core) (i : Nat) (a b : Word) : (x.setStat i a b).unrepaired = x.unrepaired := rfl
@[simp] theorem Core.setStat_repairs (x : Core) (i : Nat) (a b : Word) : (x.setStat i a b).repairs = x.repairs := rfl
@[simp] theorem Core.setStat_shadow (x : Core) (i : Nat) (a b : Word) : (x.setStat i a b).shadow = x.shadow := rfl
@[simp] theorem Core.setStat_shadowLog (x : Core) (i : Nat) (a b : Word) : (x.setStat i a b).shadowLog = x.shadowLog := rfl
@[simp] theorem Core.setStat_routes (x : Core) (i : Nat) (a b : Word) : (x.setStat i a b).routes = x.routes := rfl
@[simp] theorem Core.setSync_ctxs (x : Core) (i : Fin 64) (v : SyncCtr) : (x.setSync i v).ctxs = x.ctxs := rfl
@[simp] theorem Core.setSync_last (x : Core) (i : Fin 64) (v : SyncCtr) : (x.setSync i v).last = x.last := rfl
@[simp] theorem Core.setSync_ls (x : Core) (i : Fin 64) (v : SyncCtr) : (x.setSync i v).ls = x.ls := rfl
@[simp] theorem Core.setSync_lsBad (x : Core) (i : Fin 64) (v : SyncCtr) : (x.setSync i v).lsBad = x.lsBad := rfl
@[simp] theorem Core.setSync_landed (x : Core) (i : Fin 64) (v : SyncCtr) : (x.setSync i v).landed = x.landed := rfl
@[simp] theorem Core.setSync_af (x : Core) (i : Fin 64) (v : SyncCtr) : (x.setSync i v).af = x.af := rfl
@[simp] theorem Core.setSync_afBad (x : Core) (i : Fin 64) (v : SyncCtr) : (x.setSync i v).afBad = x.afBad := rfl
@[simp] theorem Core.setSync_banks (x : Core) (i : Fin 64) (v : SyncCtr) : (x.setSync i v).banks = x.banks := rfl
@[simp] theorem Core.setSync_stat (x : Core) (i : Fin 64) (v : SyncCtr) : (x.setSync i v).stat = x.stat := rfl
@[simp] theorem Core.setSync_statBad (x : Core) (i : Fin 64) (v : SyncCtr) : (x.setSync i v).statBad = x.statBad := rfl
@[simp] theorem Core.setSync_instr (x : Core) (i : Fin 64) (v : SyncCtr) : (x.setSync i v).instr = x.instr := rfl
@[simp] theorem Core.setSync_instrBad (x : Core) (i : Fin 64) (v : SyncCtr) : (x.setSync i v).instrBad = x.instrBad := rfl
@[simp] theorem Core.setSync_program (x : Core) (i : Fin 64) (v : SyncCtr) : (x.setSync i v).program = x.program := rfl
@[simp] theorem Core.setSync_slots (x : Core) (i : Fin 64) (v : SyncCtr) : (x.setSync i v).slots = x.slots := rfl
@[simp] theorem Core.setSync_cpys (x : Core) (i : Fin 64) (v : SyncCtr) : (x.setSync i v).cpys = x.cpys := rfl
@[simp] theorem Core.setSync_served (x : Core) (i : Fin 64) (v : SyncCtr) : (x.setSync i v).served = x.served := rfl
@[simp] theorem Core.setSync_landing (x : Core) (i : Fin 64) (v : SyncCtr) : (x.setSync i v).landing = x.landing := rfl
@[simp] theorem Core.setSync_landingPeak (x : Core) (i : Fin 64) (v : SyncCtr) : (x.setSync i v).landingPeak = x.landingPeak := rfl
@[simp] theorem Core.setSync_arrayQ (x : Core) (i : Fin 64) (v : SyncCtr) : (x.setSync i v).arrayQ = x.arrayQ := rfl
@[simp] theorem Core.setSync_check (x : Core) (i : Fin 64) (v : SyncCtr) : (x.setSync i v).check = x.check := rfl
@[simp] theorem Core.setSync_errs (x : Core) (i : Fin 64) (v : SyncCtr) : (x.setSync i v).errs = x.errs := rfl
@[simp] theorem Core.setSync_arrayBusy (x : Core) (i : Fin 64) (v : SyncCtr) : (x.setSync i v).arrayBusy = x.arrayBusy := rfl
@[simp] theorem Core.setSync_vectorBusy (x : Core) (i : Fin 64) (v : SyncCtr) : (x.setSync i v).vectorBusy = x.vectorBusy := rfl
@[simp] theorem Core.setSync_rowBusy (x : Core) (i : Fin 64) (v : SyncCtr) : (x.setSync i v).rowBusy = x.rowBusy := rfl
@[simp] theorem Core.setSync_copyBlocks (x : Core) (i : Fin 64) (v : SyncCtr) : (x.setSync i v).copyBlocks = x.copyBlocks := rfl
@[simp] theorem Core.setSync_ckptSeq (x : Core) (i : Fin 64) (v : SyncCtr) : (x.setSync i v).ckptSeq = x.ckptSeq := rfl
@[simp] theorem Core.setSync_checkpoints (x : Core) (i : Fin 64) (v : SyncCtr) : (x.setSync i v).checkpoints = x.checkpoints := rfl
@[simp] theorem Core.setSync_records (x : Core) (i : Fin 64) (v : SyncCtr) : (x.setSync i v).records = x.records := rfl
@[simp] theorem Core.setSync_landLog (x : Core) (i : Fin 64) (v : SyncCtr) : (x.setSync i v).landLog = x.landLog := rfl
@[simp] theorem Core.setSync_logFull (x : Core) (i : Fin 64) (v : SyncCtr) : (x.setSync i v).logFull = x.logFull := rfl
@[simp] theorem Core.setSync_saves (x : Core) (i : Fin 64) (v : SyncCtr) : (x.setSync i v).saves = x.saves := rfl
@[simp] theorem Core.setSync_roll (x : Core) (i : Fin 64) (v : SyncCtr) : (x.setSync i v).roll = x.roll := rfl
@[simp] theorem Core.setSync_rolling (x : Core) (i : Fin 64) (v : SyncCtr) : (x.setSync i v).rolling = x.rolling := rfl
@[simp] theorem Core.setSync_rollMore (x : Core) (i : Fin 64) (v : SyncCtr) : (x.setSync i v).rollMore = x.rollMore := rfl
@[simp] theorem Core.setSync_rollFound (x : Core) (i : Fin 64) (v : SyncCtr) : (x.setSync i v).rollFound = x.rollFound := rfl
@[simp] theorem Core.setSync_rollSeq (x : Core) (i : Fin 64) (v : SyncCtr) : (x.setSync i v).rollSeq = x.rollSeq := rfl
@[simp] theorem Core.setSync_unrepaired (x : Core) (i : Fin 64) (v : SyncCtr) : (x.setSync i v).unrepaired = x.unrepaired := rfl
@[simp] theorem Core.setSync_unrepairedStat (x : Core) (i : Fin 64) (v : SyncCtr) : (x.setSync i v).unrepairedStat = x.unrepairedStat := rfl
@[simp] theorem Core.setSync_lost (x : Core) (i : Fin 64) (v : SyncCtr) : (x.setSync i v).lost = x.lost := rfl
@[simp] theorem Core.setSync_repairs (x : Core) (i : Fin 64) (v : SyncCtr) : (x.setSync i v).repairs = x.repairs := rfl
@[simp] theorem Core.setSync_shadow (x : Core) (i : Fin 64) (v : SyncCtr) : (x.setSync i v).shadow = x.shadow := rfl
@[simp] theorem Core.setSync_shadowLog (x : Core) (i : Fin 64) (v : SyncCtr) : (x.setSync i v).shadowLog = x.shadowLog := rfl
@[simp] theorem Core.setSync_routes (x : Core) (i : Fin 64) (v : SyncCtr) : (x.setSync i v).routes = x.routes := rfl

@[simp] theorem Core.ctx_modCtx_same (x : Core) (k : Ctx) (f : CtxState → CtxState) : (x.modCtx k f).ctx k = f (x.ctx k) := by
  simp [Core.ctx, Core.modCtx, Quad.get_set_same]

theorem Core.ctx_modCtx_other (x : Core) (f : CtxState → CtxState) {j k : Ctx} (h : j ≠ k) : (x.modCtx k f).ctx j = x.ctx j := by
  simp only [Core.ctx, Core.modCtx]
  exact Quad.get_set_other _ _ h

theorem Quad.set_set {α : Type} (q : Quad α) (k : Fin 4) (v w : α) : (q.set k v).set k w = q.set k w := by
  match k with
  | 0 => rfl
  | 1 => rfl
  | 2 => rfl
  | 3 => rfl

/-- A context changed twice is changed once. -/
@[simp] theorem Core.modCtx_modCtx (x : Core) (k : Ctx) (f g : CtxState → CtxState) :
    (x.modCtx k f).modCtx k g = x.modCtx k fun t => g (f t) := by
  simp [Core.modCtx, Core.ctx, Quad.get_set_same, Quad.set_set]

@[simp] theorem Core.look_count_same (x : Core) (j n : Nat) :
    Sparse.look {} (x.count j n).errs j = (Sparse.look {} x.errs j).add n := by
  simp [Core.count]

theorem Core.look_count_other (x : Core) (n : Nat) {i j : Nat} (h : i ≠ j) :
    Sparse.look {} (x.count j n).errs i = Sparse.look {} x.errs i := Sparse.look_put_other _ _ _ h

@[simp] theorem Core.syncCtr_setSync_same (x : Core) (i : Fin 64) (v : SyncCtr) : (x.setSync i v).syncCtr i = v := by
  simp [Core.syncCtr, Core.setSync]

theorem Core.syncCtr_setSync_other (x : Core) (v : SyncCtr) {i j : Fin 64} (h : j ≠ i) : (x.setSync i v).syncCtr j = x.syncCtr j :=
  Sparse.look_put_other _ _ _ fun e => h (Fin.ext e)

/-- A byte of the LS outside what is written reads as before. -/
theorem Core.lsWrite_byte_outside (x : Core) (landing : Bool) (a b : Nat) (bs : List Byte) (h : b < a ∨ a + bs.length ≤ b) :
    Memory.byte (x.lsWrite landing a bs).ls b = Memory.byte x.ls b := Memory.byte_write_outside bs x.ls a b h

/-- A byte of the LS that is written reads what was written. -/
theorem Core.lsWrite_byte_inside (x : Core) (landing : Bool) (a i : Nat) (bs : List Byte) (h : i < bs.length) :
    Memory.byte (x.lsWrite landing a bs).ls (a + i) = bs.getD i 0 := Memory.byte_write_inside bs x.ls a i h


/-! ## A context -/

@[simp] theorem CtxState.setReg_enabled (t : CtxState) (r : Nat) (v : Word) : (t.setReg r v).enabled = t.enabled := by unfold CtxState.setReg; split <;> rfl
@[simp] theorem CtxState.setReg_entry (t : CtxState) (r : Nat) (v : Word) : (t.setReg r v).entry = t.entry := by unfold CtxState.setReg; split <;> rfl
@[simp] theorem CtxState.setReg_pc (t : CtxState) (r : Nat) (v : Word) : (t.setReg r v).pc = t.pc := by unfold CtxState.setReg; split <;> rfl
@[simp] theorem CtxState.setReg_running (t : CtxState) (r : Nat) (v : Word) : (t.setReg r v).running = t.running := by unfold CtxState.setReg; split <;> rfl
@[simp] theorem CtxState.setReg_resume (t : CtxState) (r : Nat) (v : Word) : (t.setReg r v).resume = t.resume := by unfold CtxState.setReg; split <;> rfl
@[simp] theorem CtxState.setReg_ended (t : CtxState) (r : Nat) (v : Word) : (t.setReg r v).ended = t.ended := by unfold CtxState.setReg; split <;> rfl
@[simp] theorem CtxState.setReg_stopped (t : CtxState) (r : Nat) (v : Word) : (t.setReg r v).stopped = t.stopped := by unfold CtxState.setReg; split <;> rfl
@[simp] theorem CtxState.setReg_heldSince (t : CtxState) (r : Nat) (v : Word) : (t.setReg r v).heldSince = t.heldSince := by unfold CtxState.setReg; split <;> rfl
@[simp] theorem CtxState.setReg_dither (t : CtxState) (r : Nat) (v : Word) : (t.setReg r v).dither = t.dither := by unfold CtxState.setReg; split <;> rfl
@[simp] theorem CtxState.setReg_n (t : CtxState) (r : Nat) (v : Word) : (t.setReg r v).n = t.n := by unfold CtxState.setReg; split <;> rfl
@[simp] theorem CtxState.setReg_stat0 (t : CtxState) (r : Nat) (v : Word) : (t.setReg r v).stat0 = t.stat0 := by unfold CtxState.setReg; split <;> rfl
@[simp] theorem CtxState.setReg_stat1 (t : CtxState) (r : Nat) (v : Word) : (t.setReg r v).stat1 = t.stat1 := by unfold CtxState.setReg; split <;> rfl
@[simp] theorem CtxState.setReg_newest (t : CtxState) (r : Nat) (v : Word) : (t.setReg r v).newest = t.newest := by unfold CtxState.setReg; split <;> rfl
@[simp] theorem CtxState.setReg_passUsed (t : CtxState) (r : Nat) (v : Word) : (t.setReg r v).passUsed = t.passUsed := by unfold CtxState.setReg; split <;> rfl
@[simp] theorem CtxState.setReg_skipCpy (t : CtxState) (r : Nat) (v : Word) : (t.setReg r v).skipCpy = t.skipCpy := by unfold CtxState.setReg; split <;> rfl
@[simp] theorem CtxState.setReg_skipSig (t : CtxState) (r : Nat) (v : Word) : (t.setReg r v).skipSig = t.skipSig := by unfold CtxState.setReg; split <;> rfl
@[simp] theorem CtxState.setReg_marks (t : CtxState) (r : Nat) (v : Word) : (t.setReg r v).marks = t.marks := by unfold CtxState.setReg; split <;> rfl
@[simp] theorem CtxState.setReg_lostGroup (t : CtxState) (r : Nat) (v : Word) : (t.setReg r v).lostGroup = t.lostGroup := by unfold CtxState.setReg; split <;> rfl
@[simp] theorem CtxState.setReg_statAtStart (t : CtxState) (r : Nat) (v : Word) : (t.setReg r v).statAtStart = t.statAtStart := by unfold CtxState.setReg; split <;> rfl
@[simp] theorem CtxState.setReg_waiting (t : CtxState) (r : Nat) (v : Word) : (t.setReg r v).waiting = t.waiting := by unfold CtxState.setReg; split <;> rfl
@[simp] theorem CtxState.setReg_chain (t : CtxState) (r : Nat) (v : Word) : (t.setReg r v).chain = t.chain := by unfold CtxState.setReg; split <;> rfl
@[simp] theorem CtxState.setReg_overran (t : CtxState) (r : Nat) (v : Word) : (t.setReg r v).overran = t.overran := by unfold CtxState.setReg; split <;> rfl

/-- Registers after a write: s0 reads 0 and keeps nothing, the written one its value, every other as before (spec/03 R64). -/
theorem CtxState.reg_setReg (t : CtxState) (r i : Nat) (v : Word) :
    (t.setReg r v).reg i = if i = r ∧ r ≠ 0 then v else t.reg i := by
  unfold CtxState.setReg CtxState.reg
  by_cases hr : r = 0
  · simp [hr]
  · by_cases hi : i = r
    · subst hi; simp [hr]
    · have h := Sparse.look_put_other (0 : Word) t.regs v hi
      by_cases h0 : i = 0
      · simp [h0, hr, Ne.symm hr]
      · simp only [if_neg h0, if_neg hr, hi, false_and, if_false]
        exact h

@[simp] theorem CtxState.reg_zero (t : CtxState) : t.reg 0 = 0 := by simp [CtxState.reg]

end Sys2Proof.Machine
end

