-- ==== Sys2Proof/Laws/Issue.lean ====
section
/-! SUPPORT. Laws of issue: the opcode that a word spells, when a context's next instruction takes effect, when it stops
its context, and everything issue can answer. -/

namespace Sys2Proof.Machine

open Sys2Proof

/-! ## Opcodes of words -/

theorem append_div {n m : Nat} (x : BitVec n) (y : BitVec m) (j : Nat) :
    (x ++ y).toNat / 2 ^ (m + j) = x.toNat / 2 ^ j := by
  have hy : y.toNat < 2 ^ m := y.isLt
  rw [BitVec.toNat_append, ← Nat.shiftLeft_add_eq_or_of_lt hy, Nat.shiftLeft_eq, Nat.pow_add, ← Nat.div_div_eq_div_mul]
  congr 1
  rw [Nat.mul_comm, Nat.mul_add_div (Nat.two_pow_pos m), Nat.div_eq_of_lt hy, Nat.add_zero]

theorem opcodeOf_encS (op : BitVec 6) (f : FmtS) : opcodeOf (encS op f) = op.toNat := by
  have h : (encS op f).toNat / 2 ^ 58 = op.toNat := by
    unfold encS
    refine (append_div (n := 32) (m := 32) _ f.imm 26).trans ?_
    refine (append_div (n := 25) (m := 7) _ f.rsv 19).trans ?_
    refine (append_div (n := 22) (m := 3) _ f.cond 16).trans ?_
    refine (append_div (n := 21) (m := 1) _ f.immsel 15).trans ?_
    refine (append_div (n := 16) (m := 5) _ f.srcb 10).trans ?_
    refine (append_div (n := 11) (m := 5) _ f.srca 5).trans ?_
    refine (append_div (n := 6) (m := 5) op f.dst 0).trans ?_
    simp
  have h2 : op.toNat < 2 ^ 6 := op.isLt
  simp only [opcodeOf, bitsOf, h]
  exact Nat.mod_eq_of_lt h2

theorem opcodeOf_encM (op : BitVec 6) (f : FmtM) : opcodeOf (encM op f) = op.toNat := by
  have h : (encM op f).toNat / 2 ^ 58 = op.toNat := by
    unfold encM
    refine (append_div (n := 60) (m := 4) _ f.flags 54).trans ?_
    refine (append_div (n := 56) (m := 4) _ f.fmt 50).trans ?_
    refine (append_div (n := 51) (m := 5) _ f.sub 45).trans ?_
    refine (append_div (n := 43) (m := 8) _ f.len 37).trans ?_
    refine (append_div (n := 32) (m := 11) _ f.aoff 26).trans ?_
    refine (append_div (n := 21) (m := 11) _ f.doff 15).trans ?_
    refine (append_div (n := 16) (m := 5) _ f.bbase 10).trans ?_
    refine (append_div (n := 11) (m := 5) _ f.abase 5).trans ?_
    refine (append_div (n := 6) (m := 5) op f.dbase 0).trans ?_
    simp
  have h2 : op.toNat < 2 ^ 6 := op.isLt
  simp only [opcodeOf, bitsOf, h]
  exact Nat.mod_eq_of_lt h2

theorem opcodeOf_encY (op : BitVec 6) (f : FmtY) : opcodeOf (encY op f) = op.toNat := by
  have h : (encY op f).toNat / 2 ^ 58 = op.toNat := by
    unfold encY
    refine (append_div (n := 48) (m := 16) _ f.value 42).trans ?_
    refine (append_div (n := 19) (m := 29) _ f.rsv 13).trans ?_
    refine (append_div (n := 18) (m := 1) _ f.remote 12).trans ?_
    refine (append_div (n := 17) (m := 1) _ f.consume 11).trans ?_
    refine (append_div (n := 11) (m := 6) _ f.ctr 5).trans ?_
    refine (append_div (n := 6) (m := 5) op f.abase 0).trans ?_
    simp
  have h2 : op.toNat < 2 ^ 6 := op.isLt
  simp only [opcodeOf, bitsOf, h]
  exact Nat.mod_eq_of_lt h2

/-! ## Checks -/

/-- When every check passes there is no code. -/
theorem firstFail_none (l : List (Nat × Bool)) (h : ∀ p ∈ l, p.2 = false) : firstFail l = 0 := by
  have : ∀ m, l.foldl (fun m p => if p.2 && (m = 0 || decide (p.1 < m)) then p.1 else m) m = m := by
    induction l with
    | nil => intro m; rfl
    | cons p l ih =>
      intro m
      simp only [List.foldl_cons, h p (by simp), Bool.false_and, Bool.false_eq_true, ↓reduceIte]
      exact ih (fun q hq => h q (by simp [hq])) m
  exact this 0

/-- An instruction that names nothing in a store is held by no range and finds no failing guard. -/
@[simp] theorem rangeHeld_empty (s : State) (c : CoreId) (k : Ctx) : s.rangeHeld c k {} = false := by
  have h : ∀ o : Option (Nat × Nat), meetsAny [] o = false := by intro o; cases o <;> rfl
  simp [State.rangeHeld, h]

@[simp] theorem badRead_empty (x : Core) : x.badRead {} = none := rfl

@[simp] theorem badHdr_empty (x : Core) : x.badHdr {} = none := rfl

/-! ## Issue -/

/-- Everything issue can answer: nothing (a context that may not issue, another word, a hazard), a guard failure, a
check stop, or the instruction's effect with the context moved on. -/
theorem issue_cases (s : State) (c : CoreId) (k : Ctx) (word : DWord) (u : Use) (fails : List (Nat × Bool)) (held : Bool)
    (next : Next) (act : State → State) :
    issue s c k word u fails held next act = .next s ∨
    (∃ cls item, issue s c k word u fails held next act = .next (s.guardFail c k cls item)) ∨
    (∃ code, issue s c k word u fails held next act = .next (s.checkStop c k code ((s.core c).ctx k).pc.toNat)) ∨
    issue s c k word u fails held next act =
      .next ((act s).moveOn c k (s.workOf c k word) next ((s.core c).ctx k).pc.toNat) := by
  unfold issue
  split
  · exact .inl rfl
  · dsimp only
    split
    · exact .inr (.inl ⟨_, _, rfl⟩)
    · split
      · exact .inr (.inr (.inl ⟨_, rfl⟩))
      · split
        · exact .inl rfl
        · split
          · exact .inl rfl
          · split
            · exact .inr (.inl ⟨_, _, rfl⟩)
            · split
              · exact .inr (.inr (.inl ⟨_, rfl⟩))
              · split
                · exact .inr (.inl ⟨_, _, rfl⟩)
                · exact .inr (.inr (.inr rfl))

/-- A ready instruction that nothing holds and whose checks pass takes effect, and its context moves on. -/
theorem issue_done {s : State} {c : CoreId} {k : Ctx} {word : DWord} {u : Use} {fails : List (Nat × Bool)} {held : Bool}
    {next : Next} {act : State → State} (sel : s.selectable c k = true)
    (guard : (s.core c).instrBad.contains ((s.core c).ctx k).pc.toNat = false) (fetch : (s.core c).fetch k = word)
    (op : opcodeDefined (opcodeOf word) = true) (hh : held = false) (range : s.rangeHeld c k u = false)
    (hdr : (s.core c).badHdr u = none) (checks : ∀ p ∈ fails, p.2 = false)
    (pc : next.pc ((s.core c).ctx k).pc.toNat ≤ 1023) (read : (s.core c).badRead u = none) :
    issue s c k word u fails held next act = .next ((act s).moveOn c k (s.workOf c k word) next ((s.core c).ctx k).pc.toNat) := by
  have hf : firstFail (fails ++ [(ckPc, decide (1023 < next.pc ((s.core c).ctx k).pc.toNat))]) = 0 := by
    apply firstFail_none
    intro p hp
    rcases List.mem_append.mp hp with h | h
    · exact checks p h
    · simp only [List.mem_singleton] at h
      subst h
      simp only [decide_eq_false_iff_not]
      omega
  unfold issue
  simp only [sel, guard, fetch, op, hh, range, hdr, hf, read, Bool.not_true, Bool.false_eq_true, ↓reduceIte, ne_eq,
    not_true_eq_false, Bool.or_self]

/-- A ready instruction that nothing holds and that fails a check stops its context with the first code. -/
theorem issue_stop {s : State} {c : CoreId} {k : Ctx} {word : DWord} {u : Use} {fails : List (Nat × Bool)} {held : Bool}
    {next : Next} {act : State → State} {code : Nat} (sel : s.selectable c k = true)
    (guard : (s.core c).instrBad.contains ((s.core c).ctx k).pc.toNat = false) (fetch : (s.core c).fetch k = word)
    (op : opcodeDefined (opcodeOf word) = true) (hh : held = false) (range : s.rangeHeld c k u = false)
    (hdr : (s.core c).badHdr u = none)
    (first : firstFail (fails ++ [(ckPc, decide (1023 < next.pc ((s.core c).ctx k).pc.toNat))]) = code) (hc : code ≠ 0) :
    issue s c k word u fails held next act = .next (s.checkStop c k code ((s.core c).ctx k).pc.toNat) := by
  unfold issue
  simp only [sel, guard, fetch, op, hh, range, hdr, first, hc, Bool.not_true, Bool.false_eq_true, ↓reduceIte, ne_eq,
    not_true_eq_false, not_false_eq_true, Bool.or_self]

end Sys2Proof.Machine
end

