-- ==== Sys2Proof/Laws/Frames.lean ====
section
/-! SUPPORT. Laws of the frames: what the shared operations leave alone, in the words of Safety: one core, one stack, one
counter, a byte range; every listed unit changed at once; the device state, faults and halts. -/

namespace Sys2Proof.Machine

open Sys2Proof

/-! ## Every listed entry of a map changed -/

theorem Sparse.look_below {α : Type} [DecidableEq α] (d : α) (m : Sparse α) :
    ∀ b k, Sparse.wfFrom d b m = true → k < b → Sparse.look d m k = d := by
  induction m with
  | nil => intro b k _ _; rfl
  | cons p m ih =>
    obtain ⟨i, v⟩ := p
    intro b k hw hk
    simp only [Sparse.wfFrom, Bool.and_eq_true, decide_eq_true_eq] at hw
    have hi : i ≠ k := by omega
    simp only [Sparse.look, hi, if_false]
    exact ih _ k hw.2 (by omega)

theorem Sparse.wfFrom_mapAll {α : Type} [DecidableEq α] (d : α) (f : Nat → α → α) (m : Sparse α) :
    ∀ b, Sparse.wfFrom d b m = true → Sparse.wfFrom d b (Sparse.mapAll d f m) = true := by
  induction m with
  | nil => intro b _; rfl
  | cons p m ih =>
    obtain ⟨i, v⟩ := p
    intro b hw
    simp only [Sparse.wfFrom, Bool.and_eq_true, decide_eq_true_eq] at hw
    by_cases hv : f i v = d
    · have e : Sparse.mapAll d f ((i, v) :: m) = Sparse.mapAll d f m := by simp [Sparse.mapAll, hv]
      rw [e]
      exact Sparse.wfFrom_mono d _ (by omega) (ih _ hw.2)
    · have e : Sparse.mapAll d f ((i, v) :: m) = (i, f i v) :: Sparse.mapAll d f m := by simp [Sparse.mapAll, hv]
      rw [e]
      simp only [Sparse.wfFrom, Bool.and_eq_true, decide_eq_true_eq]
      exact ⟨⟨hw.1.1, hv⟩, ih _ hw.2⟩

/-- Changing every listed entry keeps the canonical form. -/
theorem Sparse.mapAll_wf {α : Type} [DecidableEq α] (d : α) (f : Nat → α → α) (m : Sparse α) (h : Sparse.wf d m = true) :
    Sparse.wf d (Sparse.mapAll d f m) = true := Sparse.wfFrom_mapAll d f m 0 h

theorem Sparse.look_mapAll_from {α : Type} [DecidableEq α] (d : α) (f : Nat → α → α) (k : Nat) (hf : f k d = d) (m : Sparse α) :
    ∀ b, Sparse.wfFrom d b m = true → Sparse.look d (Sparse.mapAll d f m) k = f k (Sparse.look d m k) := by
  induction m with
  | nil => intro b _; exact hf.symm
  | cons p m ih =>
    obtain ⟨i, v⟩ := p
    intro b hw
    simp only [Sparse.wfFrom, Bool.and_eq_true, decide_eq_true_eq] at hw
    by_cases hv : f i v = d
    · have e : Sparse.mapAll d f ((i, v) :: m) = Sparse.mapAll d f m := by simp [Sparse.mapAll, hv]
      rw [e]
      by_cases hi : i = k
      · subst hi
        simp only [Sparse.look, if_true, hv]
        exact Sparse.look_below d _ (i + 1) i (Sparse.wfFrom_mapAll d f m _ hw.2) (by omega)
      · simp only [Sparse.look, hi, if_false]
        exact ih _ hw.2
    · have e : Sparse.mapAll d f ((i, v) :: m) = (i, f i v) :: Sparse.mapAll d f m := by simp [Sparse.mapAll, hv]
      rw [e]
      by_cases hi : i = k
      · subst hi; simp [Sparse.look]
      · simp only [Sparse.look, hi, if_false]
        exact ih _ hw.2

/-- Of a map in its canonical form, every entry reads as changed; f must leave a fresh value fresh. -/
theorem Sparse.look_mapAll {α : Type} [DecidableEq α] (d : α) (f : Nat → α → α) (m : Sparse α) (k : Nat) (hf : f k d = d)
    (h : Sparse.wf d m = true) : Sparse.look d (Sparse.mapAll d f m) k = f k (Sparse.look d m k) :=
  Sparse.look_mapAll_from d f k hf m 0 h

/-- Every core reads as changed. -/
theorem State.core_mapCores (s : State) (f : Nat → Core → Core) (c : CoreId) (hf : f (coreKey c) Core.fresh = Core.fresh)
    (h : Sparse.wf Core.fresh s.cores = true) : (s.mapCores f).core c = f (coreKey c) (s.core c) :=
  Sparse.look_mapAll Core.fresh f s.cores (coreKey c) hf h

/-! ## One core, one stack, one port -/

theorem onlyCore_refl (c : CoreId) (s : State) : onlyCore c s s := ⟨rfl, fun _ _ => rfl⟩

theorem onlyCore_trans {c : CoreId} {s t u : State} (h : onlyCore c s t) (g : onlyCore c t u) : onlyCore c s u := by
  refine ⟨?_, fun d hd => (g.2 d hd).trans (h.2 d hd)⟩
  have hs := h.1
  have gs := g.1
  rw [gs, hs]

theorem setCore_only (s : State) (c : CoreId) (x : Core) : onlyCore c s (s.setCore c x) :=
  ⟨rfl, fun _ hd => State.core_setCore_other s x hd⟩

theorem modCore_only (s : State) (c : CoreId) (f : Core → Core) : onlyCore c s (s.modCore c f) := setCore_only s c _

theorem modStack_only (s : State) (h : StackId) (f : Stack → Stack) : onlyStack h s (s.modStack h f) :=
  ⟨rfl, fun _ hg => State.stack_modStack_other s f hg⟩

theorem onlyStack_trans {h : StackId} {s t u : State} (a : onlyStack h s t) (b : onlyStack h t u) : onlyStack h s u := by
  refine ⟨?_, fun g hg => (b.2 g hg).trans (a.2 g hg)⟩
  have ha := a.1
  have hb := b.1
  rw [hb, ha]

/-! ## Counters -/

theorem counted_count (s : State) (i n : Nat) : counted s (s.count i n) i n := by
  intro j
  by_cases h : j = i
  · rw [if_pos h, h]; exact State.look_count_same s i n
  · rw [if_neg h]; exact State.look_count_other s n h

theorem coreCounted_count (x : Core) (j n : Nat) : coreCounted x (x.count j n) j n := by
  intro i
  by_cases h : i = j
  · rw [if_pos h, h]; exact Core.look_count_same x j n
  · rw [if_neg h]; exact Core.look_count_other x n h

/-! ## Byte ranges -/

/-- Writing a range leaves exactly its bytes there and every other byte. -/
theorem bytesAfter_write (m : Mem) (a : Nat) (bs : List Byte) : bytesAfter m (Memory.write m a bs) a bs := by
  intro i
  split
  · rename_i h
    have := Memory.byte_write_inside bs m a (i - a) (by omega)
    rwa [show a + (i - a) = i by omega] at this
  · rename_i h
    exact Memory.byte_write_outside bs m a i (by omega)

/-- A range written in two parts, the second right after the first. -/
theorem bytesAfter_append {m m₁ m₂ : Mem} {a : Nat} {x y : List Byte} (h : bytesAfter m m₁ a x)
    (g : bytesAfter m₁ m₂ (a + x.length) y) : bytesAfter m m₂ a (x ++ y) := by
  intro i
  rw [g i]
  by_cases hy : a + x.length ≤ i ∧ i < a + x.length + y.length
  · have hi : ¬ i - a < x.length := by omega
    rw [if_pos hy, if_pos (by simp only [List.length_append]; omega)]
    simp only [List.getD_eq_getElem?_getD, List.getElem?_append, hi, if_false]
    rw [show i - a - x.length = i - (a + x.length) by omega]
  · rw [if_neg hy, h i]
    by_cases hx : a ≤ i ∧ i < a + x.length
    · rw [if_pos hx, if_pos (by simp only [List.length_append]; omega)]
      simp only [List.getD_eq_getElem?_getD, List.getElem?_append, show i - a < x.length by omega, if_true]
    · rw [if_neg hx, if_neg (by simp only [List.length_append]; omega)]

/-! ## The stores keep their canonical form -/

/-- The four byte stores of a core and a stack start empty, hence in canonical form. -/
theorem fresh_wf : Memory.wf Core.fresh.ls = true ∧ Memory.wf Core.fresh.stat = true ∧ Memory.wf ({} : Stack).hbm = true ∧
    Memory.wf ({} : Stack).sc = true := ⟨rfl, rfl, rfl, rfl⟩

theorem Core.lsWrite_wf (x : Core) (landing : Bool) (a : Nat) (bs : List Byte) (h : Memory.wf x.ls = true) :
    Memory.wf (x.lsWrite landing a bs).ls = true := Memory.write_wf bs x.ls a h

theorem Core.setStat_wf (x : Core) (i : Nat) (a b : Word) (h : Memory.wf x.stat = true) :
    Memory.wf (x.setStat i a b).stat = true := Memory.write_wf _ x.stat _ h

/-- Lines given up change no byte of HBM. -/
theorem Stack.invalidateAll_hbm (bs : List Nat) (t : Stack) : (bs.foldl (fun t b => t.invalidate (b / 16)) t).hbm = t.hbm := by
  induction bs generalizing t with
  | nil => rfl
  | cons b bs ih => simp only [List.foldl_cons]; exact ih _

theorem Stack.hbmPut_hbm (t : Stack) (a : Nat) (bs : List Byte) : (t.hbmPut a bs).hbm = Memory.write t.hbm a bs := by
  unfold Stack.hbmPut
  dsimp only
  rw [Stack.invalidateAll_hbm]

theorem Stack.hbmPut_wf (t : Stack) (a : Nat) (bs : List Byte) (h : Memory.wf t.hbm = true) :
    Memory.wf (t.hbmPut a bs).hbm = true := by
  rw [Stack.hbmPut_hbm]
  exact Memory.write_wf bs t.hbm a h

theorem Stack.scPut_wf (t : Stack) (a : Nat) (bs : List Byte) (h : Memory.wf t.sc = true) : Memory.wf (t.scPut a bs).sc = true :=
  Memory.write_wf bs t.sc a h

/-! ## Issue -/

/-- A ready instruction that nothing holds and whose checks pass takes effect. -/
theorem issue_ready {s : State} {c : CoreId} {k : Ctx} {word : DWord} {u : Use} {fails : List (Nat × Bool)} {held : Bool}
    {next : Next} {act : State → State} (ready : s.ready c k word) (op : opcodeDefined (opcodeOf word) = true)
    (hh : held = false) (range : s.rangeHeld c k u = false) (hdr : (s.core c).badHdr u = none)
    (checks : ∀ p ∈ fails, p.2 = false) (pc : next.pc ((s.core c).ctx k).pc.toNat ≤ 1023)
    (read : (s.core c).badRead u = none) :
    issue s c k word u fails held next act = .next ((act s).moveOn c k (s.workOf c k word) next ((s.core c).ctx k).pc.toNat) :=
  issue_done ready.1 ready.2.1 ready.2.2 op hh range hdr checks pc read

theorem pc_seq (p : BitVec 10) : BitVec.ofNat 10 (Next.seq.pc p.toNat) = p + 1 := by
  simp only [Next.pc]
  apply BitVec.eq_of_toNat_eq
  simp

theorem pc_seq_le {p : BitVec 10} (h : p.toNat < 1023) : Next.seq.pc p.toNat ≤ 1023 := by
  show p.toNat + 1 ≤ 1023
  omega

theorem core_moveOn_same (s : State) (c : CoreId) (k : Ctx) (q : Work) (next : Next) (pc : Nat) :
    (s.moveOn c k q next pc).core c =
      { (s.core c).modCtx k fun t => { t with pc := BitVec.ofNat 10 (next.pc pc), waiting := none } with
        last := some k, pace := (s.core c).pace.issued q next } := by
  simp [State.moveOn]

theorem moveOn_only (s : State) (c : CoreId) (k : Ctx) (q : Work) (next : Next) (pc : Nat) :
    onlyCore c s (s.moveOn c k q next pc) := modCore_only s c _

/-- A register written and the context moved on: only the register, the index, the last context and what the issues tell of
readiness differ. -/
theorem moveOn_wrote (s : State) (c : CoreId) (k : Ctx) (r : Nat) (v : Word) (q : Work) (next : Next) (pc : Nat) :
    wroteReg c k r v (BitVec.ofNat 10 (next.pc pc)) s (.next ((s.writeReg c k r v).moveOn c k q next pc)) := by
  refine ⟨_, rfl, onlyCore_trans (modCore_only s c _) (moveOn_only _ c k q next pc), ?_, ?_, ?_, ?_⟩
  · intro j hj
    simp [State.moveOn, State.writeReg, State.modCtx, Core.modCtx, Core.ctx, Quad.get_set_other _ _ hj]
  · simp [State.moveOn, State.writeReg, State.modCtx, Core.modCtx, Core.ctx]
  · simp only [State.moveOn, State.writeReg, State.modCtx, State.core_modCore_same, Core.modCtx, Core.ctx, Quad.get_set_same]
    simp [CtxState.setReg]
    split <;> simp
  · intro i
    have h := CtxState.reg_setReg ((s.core c).ctx k) r i v
    simpa [State.moveOn, State.writeReg, State.modCtx, Core.modCtx, Core.ctx, Quad.get_set_same, CtxState.reg] using h

/-- With no copy outstanding and no failing guard nothing holds an instruction back or spoils what it reads. -/
theorem calm_range {s : State} {c : CoreId} {k : Ctx} (h : s.calm c k) (u : Use) : s.rangeHeld c k u = false := by
  obtain ⟨h1, h2, _⟩ := h
  simp only [State.rangeHeld, Bool.or_eq_false_iff, List.any_eq_false]
  constructor
  · intro sl hs
    by_cases hk : sl.ctx = k
    · simp [h1 sl hs hk]
    · simp [hk]
  · intro q hq
    simp [h2 q hq]

theorem calm_read {s : State} {c : CoreId} {k : Ctx} (h : s.calm c k) (u : Use) : (s.core c).badRead u = none := by
  obtain ⟨_, _, h1, h2, h3⟩ := h
  have e (l : List Nat) : l.find? (([] : List Nat).contains ·) = none := by simp
  simp only [Core.badRead, h1, h2, h3, e]

theorem calm_hdr {s : State} {c : CoreId} {k : Ctx} (h : s.calm c k) (u : Use) : (s.core c).badHdr u = none := by
  obtain ⟨_, _, h1, _, _⟩ := h
  unfold Core.badHdr
  split <;> simp [h1]

/-! ## The device state, faults, halts -/

@[simp] theorem State.disarm_cores (s : State) : s.disarm.cores = s.cores := by unfold State.disarm; split <;> rfl
@[simp] theorem State.disarm_deviceState (s : State) : s.disarm.deviceState = s.deviceState := by unfold State.disarm; split <;> rfl
@[simp] theorem State.disarm_armed (s : State) : s.disarm.armed = false := by
  unfold State.disarm
  split
  · rfl
  · rename_i h; simpa using h

/-- A change of the device state writes all three copies. -/
@[simp] theorem State.setDev_deviceState (s : State) (n : Nat) : (s.setDev n).deviceState = Triple.all (BitVec.ofNat 3 n) := rfl

@[simp] theorem State.setDev_cores (s : State) (n : Nat) : (s.setDev n).cores = s.cores := by
  unfold State.setDev
  dsimp only
  split <;> split <;> simp

@[simp] theorem State.setDev_core (s : State) (n : Nat) (c : CoreId) : (s.setDev n).core c = s.core c := by simp [State.core]

@[simp] theorem State.note_cores (s : State) (k : Nat) (p : Charged) : (s.note k p).cores = s.cores := rfl
@[simp] theorem State.note_stacks (s : State) (k : Nat) (p : Charged) : (s.note k p).hbmStacks = s.hbmStacks := rfl
@[simp] theorem State.note_deviceState (s : State) (k : Nat) (p : Charged) : (s.note k p).deviceState = s.deviceState := rfl
@[simp] theorem State.note_counters (s : State) (k : Nat) (p : Charged) : (s.note k p).counters = s.counters := rfl

theorem State.traceMarks_frame (hs : List StackId) (m : BitVec 128) (s : State) :
    let t := hs.foldl (fun s h => s.modStack h fun t => { t with trace := { t.trace with queue := m :: t.trace.queue } }) s
    t = { s with hbmStacks := t.hbmStacks } ∧ ∀ h, t.stack h = { s.stack h with trace := (t.stack h).trace } := by
  induction hs generalizing s with
  | nil => exact ⟨rfl, fun _ => rfl⟩
  | cons h hs ih =>
    have i := ih (s.modStack h fun t => { t with trace := { t.trace with queue := m :: t.trace.queue } })
    refine ⟨?_, fun g => ?_⟩
    · simp only [List.foldl_cons]
      rw [i.1]
      rfl
    · have ig := i.2 g
      simp only [List.foldl_cons]
      rw [ig]
      by_cases hg : g = h
      · subst hg; simp
      · rw [State.stack_modStack_other s _ hg]

/-- A trigger source changes the trace and the trace parts of the stacks, and nothing else. -/
theorem State.traceSource_frame (s : State) (i : Nat) :
    s.traceSource i = { s with hbmStacks := (s.traceSource i).hbmStacks, trace := (s.traceSource i).trace } ∧
      ∀ h, (s.traceSource i).stack h = { s.stack h with trace := ((s.traceSource i).stack h).trace } := by
  unfold State.traceSource
  split
  · have f := State.traceMarks_frame s.tracedSlabs (triggerMark s.beat s.phase) s
    dsimp only at f
    refine ⟨?_, fun h => f.2 h⟩
    unfold State.traceTrigger
    dsimp only
    rw [f.1]
  · exact ⟨rfl, fun _ => rfl⟩

/-- A halt changes no core; it ends the job where there is one. -/
theorem State.halt_cores (s : State) (cause ctx x y : Nat) : (s.halt cause ctx x y).cores = s.cores := by
  unfold State.halt
  split
  · dsimp only
    rw [(State.traceSource_frame _ 0).1]
    simp
  · split <;> rfl

/-- A halt in RUNNING enters HALTED with its cause, place and beat. -/
theorem State.halt_running (s : State) (cause ctx x y : Nat) (h : s.dev = 4) :
    (s.halt cause ctx x y).deviceState = Triple.all 5 ∧ (s.halt cause ctx x y).haltCause = haltWord cause ctx x y ∧
      (s.halt cause ctx x y).haltBeat = BitVec.ofNat 64 (s.setDev 5).beat := by
  unfold State.halt
  simp only [h, devRunning, decide_true, Bool.true_or, if_true]
  rw [(State.traceSource_frame _ 0).1]
  exact ⟨rfl, rfl, rfl⟩

end Sys2Proof.Machine
end

