-- ==== Sys2Proof/Laws/Request.lean ====
section
/-! SUPPORT. Laws of request entries: what letting beat records in changes, and that no more come in than entries are
free. -/

namespace Sys2Proof.Machine

open Sys2Proof

/-- No more of a run are named than asked for. -/
theorem RecordRun.first_length (r : RecordRun) (n : Nat) : (r.first n).length ≤ n := by
  simp only [RecordRun.first, List.length_take]
  exact Nat.min_le_left _ _

/-- No more records are taken than asked for. -/
theorem takeRecords_length (rs : List RecordRun) : ∀ n, (takeRecords n rs).1.length ≤ n := by
  induction rs with
  | nil => intro n; simp [takeRecords]
  | cons r rest ih =>
    intro n
    have h1 := RecordRun.first_length r n
    have h2 := ih (n - (r.first n).length)
    simp only [takeRecords, List.length_append, List.length_map]
    omega

/-- Beat records come in by entries of the write class, no more than are free, and change nothing else of the stack. -/
theorem Stack.letRecords_frame (t : Stack) :
    ∃ new, new.length ≤ t.writeFree ∧ (∀ e ∈ new, e.cls = .write ∧ e.blocks = 1) ∧
      t.letRecords = { t with
        reqs := t.reqs ++ new, reqPeak := max t.reqPeak (t.reqs.length + new.length), unlisted := t.letRecords.unlisted } := by
  refine ⟨_, ?_, ?_, by simp only [Stack.letRecords, List.length_append]; rfl⟩
  · simp only [List.length_map, List.length_zipIdx]
    exact takeRecords_length _ _
  · intro e he
    simp only [List.mem_map] at he
    obtain ⟨_, _, rfl⟩ := he
    exact ⟨rfl, rfl⟩

/-- With no record waiting nothing comes in. -/
theorem Stack.letRecords_none (t : Stack) (h : t.unlisted = []) : t.letRecords.reqs = t.reqs ∧ t.letRecords.unlisted = [] := by
  have g : takeRecords t.writeFree t.unlisted = ([], []) := by rw [h]; simp [takeRecords]
  simp [Stack.letRecords, g]

/-- Letting records in changes one stack. -/
theorem State.letRecords_onlyStack (s : State) (h : StackId) : onlyStack h s (s.letRecords h) :=
  ⟨rfl, fun _ hg => State.stack_modStack_other s _ hg⟩

/-- A stack that never came up gives no entry. -/
@[simp] theorem Stack.entryFor_down (t : Stack) (running : Bool) (c : ReqClass) (h : t.up = false) : t.entryFor running c = none := by
  simp [Stack.entryFor, h]

end Sys2Proof.Machine
end

