-- ==== Sys2Proof/Tests/Slice0.lean ====
section
/-! SUPPORT. The model's own tests: the WellFormed smoke, single steps on small states with results taken from the
manual's rules, and for every claim with hypotheses a state and operands that meet all of them, clause by clause. -/

namespace Sys2Proof.Tests

open Sys2Proof Sys2Proof.Machine

set_option Elab.async false

/-! ## Helpers -/

/-- The core at (0, 0), the core beside it, and the last core. -/
def c0 : CoreId := ⟨0, 0⟩
def c1 : CoreId := ⟨1, 0⟩
def cLast : CoreId := ⟨959, 319⟩

/-- A packet of a kind between two cores of module 0. -/
def pkt (kind : PKind) (blocks : Nat) : Packet :=
  { kind, blocks, tag := EndPt.core 0 c0, src := EndPt.core 0 c1
    data := if kind.hasData then List.replicate (64 * blocks) 0xA5 else [] }

/-- A powered module in a device state. -/
def inState (dev : BitVec 3) : State :=
  { State.reset with powered := true, deviceState := Triple.all dev, aligned := true, clocksReleased := true }

/-- A running module whose core (0, 0) is this one. -/
def running (x : Core) : State := { inState 4 with t := 5, cores := [(0, x)] }

/-- A core whose contexts all run and stand at index pc, which holds the word w; each waits for a result, as far as the issues
tell, so that none goes before another. -/
def at1 (pc : BitVec 10) (w : DWord) : Core :=
  { Core.fresh with
    ctxs := Quad.all { enabled := true, running := true, pc, regs := [(1, 0x100), (2, 7), (3, 1024), (4, 98240), (5, 0xFFFFFFFF)] }
    instr := [(pc.toNat, w)], pace := { wait := Quad.all 1 } }

/-- Formats by their fields. -/
def fS (dst a b : BitVec 5) (sel : BitVec 1) (cond : BitVec 3) (imm : BitVec 32) : FmtS := ⟨dst, a, b, sel, cond, 0, imm⟩
def fM (d a b : BitVec 5) (doff aoff : BitVec 11) (len : BitVec 8) (sub : BitVec 5) (fmt flags : BitVec 4) : FmtM :=
  ⟨d, a, b, doff, aoff, len, sub, fmt, flags⟩
def fY (a : BitVec 5) (ctr : BitVec 6) (consume remote : BitVec 1) (v : BitVec 16) : FmtY := ⟨a, ctr, consume, remote, 0, v⟩

/-- The state a command answers. -/
def after (i : Instr) (s : State) : State :=
  match exec i s with
  | .next s' => s'
  | _ => s

/-! ## WellFormed: one ill-formed command for each check, and its well-formed neighbour -/

theorem test_wf_packet :
    [pkt .write 16, pkt .write 17, { pkt .write 2 with data := [] }, { pkt .read 2 with data := [0] },
      { pkt .write 1 with count := 1024 }, { pkt .write 1 with route := 3 }, pkt .loop 0, pkt .loop 9, pkt .loop 8].map Packet.wf =
      [true, false, false, false, false, false, false, false, true] := by decide +kernel

theorem test_wf_endpoint :
    ([⟨0, 0, 959, 319⟩, ⟨0, 0, 960, 0⟩, ⟨0, 0, 0, 320⟩, ⟨0, 1, 16, 0⟩, ⟨0, 1, 15, 1⟩, ⟨0, 2, 2, 0⟩, ⟨0, 2, 1, 1⟩, ⟨0, 3, 0, 0⟩].map
      EndPt.wf) ++ [Packet.wf { pkt .ack 0 with src := ⟨0, 3, 0, 0⟩ }] =
      [true, false, false, false, false, false, false, false, false] := by decide +kernel

theorem test_wf_request :
    [Request.wf (.packet (pkt .read 17)), Request.wf (.host true 64 16), Request.wf (.host true 32 1), Request.wf (.own false 0 17),
      Request.wf (.own false 0 0)] = [false, true, false, false, false] := by decide +kernel

theorem test_wf_tempo : [1000, 1001, 498, 4002, 4000].map tempoWf =
    [true, false, false, false, true] := by decide +kernel

/-- A measure of n slabs and m stacks: 800 V and 6.25 A, 100 W a slab, 50 W a stack, 60 W a port die. -/
def measure (n m : Nat) : Measure :=
  { busV := 8000, busI := 6250, kettleV := 8000, kettleE := 60000, slabs := List.replicate n ⟨125000, 800⟩
    hbmStacks := List.replicate m [⟨50000, 1000⟩], west := [⟨60000, 1000⟩], east := [⟨60000, 1000⟩] }

/-- Temperatures: n slabs of k sensors, m stacks, all at v. -/
def temps (n k m : Nat) (v : BitVec 12) : Temps :=
  { slabs := List.replicate n (List.replicate k v), hbmStacks := List.replicate m v, inlet := 200, outlet := 240 }

theorem test_wf_measures :
    [Instr.wf (.powerStep (measure 16 16)), Instr.wf (.powerStep (measure 15 16)), Instr.wf (.powerStep (measure 16 17)),
      Instr.wf (.slabTempRead (temps 16 8 16 300)), Instr.wf (.slabTempRead (temps 16 7 16 300)),
      Instr.wf (.slabTempRead (temps 15 8 16 300)), Instr.wf (.slabTempRead (temps 16 8 15 300))] =
      [true, false, false, true, false, false, false] := by decide +kernel

/-- A frame of the sideband. -/
def frame (beatLo : BitVec 8) (holdNew : BitVec 4) (msgType : BitVec 8) : SbFrame := ⟨beatLo, 0, true, holdNew, msgType, 0⟩

/-- A copy of a flit of n bytes, with the CRC that its bytes have, or with another. -/
def flitTry (n : Nat) (good : Bool) : FlitTry :=
  { flit := List.replicate n 0x5A, crc := if good then crc16 (List.replicate n 0x5A) else ~~~ crc16 (List.replicate n 0x5A) }

theorem test_wf_links :
    [Instr.wf (.sidebandFrame 0 (frame 0 0 7)), Instr.wf (.sidebandFrame 0 (frame 0 0 8)),
      Instr.wf (.alignMessage 0 0 999 1000 0), Instr.wf (.alignMessage 0 0 1000 1000 0),
      Instr.wf (.linkFrame 0 (List.replicate 1071 0) 0 0 0 0), Instr.wf (.meshFlit c0 0 (List.replicate 5 (flitTry 32 true)) (pkt .ack 0)),
      Instr.wf (.meshFlit c0 0 [flitTry 31 true] (pkt .ack 0)), Instr.wf (.meshFlit c0 0 (List.replicate 4 (flitTry 32 true)) (pkt .ack 0)), Instr.wf (.torusRoute .east .mesh (pkt .read 17)),
      Instr.wf (.escapeMove .east (pkt .read 17)), Instr.wf (.loopPacket .east .mesh (pkt .loop 9))] =
      [true, false, true, false, false, false, false, true, false, false, false] := by decide +kernel

theorem test_wf_kinds :
    [Instr.wf (.readPacket (pkt .read 2) (some 1)), Instr.wf (.writePacket (pkt .write 2)), Instr.wf (.signalPacket (pkt .signal 0)),
      Instr.wf (.ack (pkt .ack 0)), Instr.wf (.refuseNotice (pkt .refuse 0)), Instr.wf (.failNotice (pkt .fail 0)),
      Instr.wf (.carillonData (pkt .carillon 2)), Instr.wf (.dualCopy ⟨pkt .carillon 2, false⟩)] = List.replicate 8 true ∧
    [Instr.wf (.readPacket (pkt .read 2) (some 2)), Instr.wf (.readPacket (pkt .write 2) none), Instr.wf (.writePacket (pkt .read 2)),
      Instr.wf (.pealForward c0 (pkt .read 2)), Instr.wf (.pealFinal c0 (pkt .ack 0)), Instr.wf (.signalPacket (pkt .ack 0)),
      Instr.wf (.ack (pkt .signal 0)), Instr.wf (.refuseNotice (pkt .ack 0)), Instr.wf (.failNotice (pkt .ack 0)),
      Instr.wf (.carillonData (pkt .write 2)), Instr.wf (.dualCopy ⟨pkt .write 2, false⟩), Instr.wf (.dualResult (pkt .write 2)),
      Instr.wf (.normPartial (pkt .write 2)), Instr.wf (.normRecord (pkt .write 2))] = List.replicate 14 false := by decide +kernel

theorem test_wf_faults :
    [Instr.wf (.hbmRead 0 64 3), Instr.wf (.coreRoll c0 (some (.ls 1535 0))), Instr.wf (.coreRoll c0 none), Instr.wf (.knellEntry 9 .module),
      Instr.wf (.busSag 7199 1), Instr.wf (.busSwell 8801 1)] = List.replicate 6 true ∧
    [Instr.wf (.hbmRead 0 32 0), Instr.wf (.hbmRead 0 64 4), Instr.wf (.coreRoll c0 (some (.ls 1536 0))),
      Instr.wf (.coreRoll c0 (some (.af 256 0))), Instr.wf (.coreRoll c0 (some (.stat 512 0))),
      Instr.wf (.coreRoll c0 (some (.instr 1024 0))), Instr.wf (.knellEntry 0 .module), Instr.wf (.knellEntry 10 .module),
      Instr.wf (.busSag 7200 1), Instr.wf (.busSag 7199 0), Instr.wf (.busSwell 8800 1), Instr.wf (.busSwell 8801 0)] =
      List.replicate 12 false := by decide +kernel

/-- A start-up with everything passing, aligned as a root. -/
def boot : BootRun :=
  { fails := [], noFarEnd := [0, 1, 2, 3, 4, 5], far := [], align := some ⟨[], none, []⟩, interrupted := none, times := [], bootTime := 900 }

theorem test_wf_host :
    [Instr.wf (.powerUp boot), Instr.wf (.loadImage .a 0 [(0, 64)] (List.replicate 64 0)), Instr.wf (.copy .a 0 ⟨List.replicate 64 0, [0]⟩ (some 64) false),
      Instr.wf (.bar2Read .a 0 4096 { fails := [64] }), Instr.wf (.bar2Write .a 0 [1] {})] = List.replicate 5 true ∧
    [Instr.wf (.powerUp { boot with fails := [⟨false, 8, 0, false, 0⟩] }), Instr.wf (.powerUp { boot with interrupted := some 0x19 }),
      Instr.wf (.powerUp { boot with align := some ⟨[], some (0, 0, 1000, 1000, 0), []⟩ }), Instr.wf (.loadImage .a 0 [] []),
      Instr.wf (.loadImage .a 0 [(0, 64)] []), Instr.wf (.copy .a 0 ⟨[0], []⟩ none false), Instr.wf (.copy .a 0 ⟨[], []⟩ (some 32) false),
      Instr.wf (.copy .a 0 ⟨List.replicate 64 0, [2]⟩ none false),
      Instr.wf (.bar2Read .a 0 4097 {}), Instr.wf (.bar2Read .a 0 0 {}), Instr.wf (.bar2Read .a 0 64 { fails := [2] }), Instr.wf (.bar2Write .a 0 [] {}),
      Instr.wf (.bar2Write .a 0 [1] { fails := [2] })] = List.replicate 13 false := by decide +kernel


/-! ## The step and its invariants

In the witnesses below a hypothesis that only names a value (`s.core c = x`) is met by taking that value, and is not
repeated. -/

/-- StepRunsFrontCommand: a command in front; an empty queue on an unpowered module, and on a powered one before and in
the last cycle of its beat. -/
theorem witness_StepRunsFrontCommand :
    ({ inState 2 with pending := [.beatStart, .hintExpire] }.pending = .beatStart :: [.hintExpire]) ∧
    (State.reset.pending = [] ∧ State.reset.powered = false) ∧
    ((inState 2).pending = [] ∧ (inState 2).powered = true ∧
      { inState 2 with phase := 998 }.phase + 1 < (inState 2).tempo.vote.toNat ∧
      (inState 2).tempo.vote.toNat ≤ { inState 2 with phase := 999 }.phase + 1) := by decide +kernel

/-- ModeStaysLegal: a step in READY, and one in KNELL that leaves the module powered. -/
theorem witness_ModeStaysLegal :
    (inState 2).modeOk ∧ step (inState 2) = .next { inState 2 with refTime := 1, phase := 1 } ∧
    (inState 6).modeOk ∧ (inState 6).powered = true ∧ (inState 6).deviceState.vote.toNat = 6 ∧
    step (inState 6) = .next { inState 6 with refTime := 1, phase := 1 } := by
  refine ⟨?_, rfl, ?_, rfl, rfl, rfl⟩ <;> (unfold State.modeOk; decide +kernel)

/-- MapsStayCanonical: a map that lists one core. -/
theorem witness_MapsStayCanonical :
    (running (at1 0 1)).mapsOk ∧
    step (running (at1 0 1)) = .next { running (at1 0 1) with refTime := 1, phase := 1 } :=
  ⟨by unfold State.mapsOk; decide +kernel, rfl⟩

/-! ## Scalar instructions -/

/-- ArithmeticWritesDestination: each of the eleven opcodes with B a register and with B = IMM, at the last but one
index. -/
theorem witness_ArithmeticWritesDestination :
    ∀ o ∈ [0, 1, 2, 3, 4, 5, 6, 7, 8, 9, 10], ∀ f ∈ [fS 31 1 2 0 0 0, fS 0 1 0 1 0 0xFFFFFFFF],
      let op := BitVec.ofNat 6 o
      (running (at1 1022 (encS op f))).ready c0 3 (encS op f) ∧ f.cond = 0 ∧ f.rsv = 0 ∧ (f.immsel = 1 → f.srcb = 0) ∧
        (f.immsel = 0 → f.imm = 0) ∧ (((at1 1022 (encS op f))).ctx 3).pc.toNat < 1023 := by
  unfold State.ready; decide +kernel

/-- The word that register 6 of context 0 holds after a command of format S on registers 5 (all ones) and 2 (seven). -/
def result (op : BitVec 6) (i : CoreId → Ctx → FmtS → Instr) : Word :=
  (((after (i c0 0 (fS 6 5 2 0 0 0)) (running (at1 0 (encS op (fS 6 5 2 0 0 0))))).core c0).ctx 0).reg 6

/-- spec/03 R82: wrapping sum and difference, logical and arithmetic shift of a negative word, both halves of −1 × 7, −1 < 7. -/
theorem test_scalar_results :
    [result 0 .add, result 1 .sub, result 2 .and, result 3 .or, result 4 .xor, result 5 .shl, result 6 .shr, result 7 .sra,
      result 8 .mul, result 9 .mulh, result 10 .slt] =
      [6, 0xFFFFFFF8, 7, 0xFFFFFFFF, 0xFFFFFFF8, 0xFFFFFF80, 0x01FFFFFF, 0xFFFFFFFF, 0xFFFFFFF9, 0xFFFFFFFF, 1] := by
  decide +kernel

/-- SpecialValuesAndBranches: RDSPEC at its first and last IMM, BRC of each condition taken and not, at the highest target,
JMP both ways, NOP. -/
theorem witness_SpecialValuesAndBranches :
    (∀ f ∈ [fS 7 0 0 0 0 0, fS 7 0 0 0 0 6], (running (at1 1022 (encS 0x0D f))).ready c0 0 (encS 0x0D f)) ∧
    (∀ n ∈ [0, 1, 2, 3, 4, 5], ∀ b ∈ [1, 2],
      let f := fS 0 1 (BitVec.ofNat 5 b) 0 (BitVec.ofNat 3 n) 1023
      (running (at1 1022 (encS 0x0E f))).ready c0 1 (encS 0x0E f)) ∧
    ((running (at1 1023 (encS 0x0F (fS 7 0 0 1 0 1023)))).ready c0 2 (encS 0x0F (fS 7 0 0 1 0 1023))) ∧
    ((running (at1 1023 (encS 0x0F (fS 7 0 2 0 0 0)))).ready c0 2 (encS 0x0F (fS 7 0 2 0 0 0)) ∧
      (((at1 1023 1).ctx 2).reg 2).toNat ≤ 1023) ∧
    ((running (at1 1022 (encY 0x3C (fY 0 0 0 0 0)))).ready c0 3 (encY 0x3C (fY 0 0 0 0 0))) := by
  unfold State.ready; decide +kernel

/-- LoadAndStoreWord: the first and the last word of the LS. -/
theorem witness_LoadAndStoreWord :
    ∀ o ∈ [0x0B, 0x0C], ∀ f ∈ [fS 0 0 0 0 0 0, fS 0 4 0 0 0 60],
      let op := BitVec.ofNat 6 o
      let s := running (at1 1022 (encS op f))
      let t := (at1 1022 (encS op f)).ctx 0
      let a := (t.reg f.srca.toNat).toNat + f.imm.toNat
      s.ready c0 0 (encS op f) ∧ a % 4 = 0 ∧ a + 4 ≤ 98304 ∧ s.unheld c0 0 { lsR := [(a, 4)] } ∧ s.unheld c0 0 { lsW := [(a, 4)] } := by
  unfold State.ready State.unheld; decide +kernel

/-- spec/03 R82: STW then LDW at the last word of the LS. -/
theorem test_store_then_load :
    let f := fS 0 4 5 0 0 60
    let s := after (.stw c0 0 f) (running (at1 0 (encS 0x0C f)))
    (Memory.word (s.core c0).ls 98300, Memory.word (s.core c0).ls 98296) = (0xFFFFFFFF, 0) := by decide +kernel

/-- FailedChecksStopTheContext: a COND field that is not 0; the last index; each reserved opcode; the first misaligned
address and the first word beyond the LS; a jump to 1,024. -/
theorem witness_FailedChecksStopTheContext :
    (running (at1 0 (encS 0 (fS 1 1 2 0 1 0)))).ready c0 0 (encS 0 (fS 1 1 2 0 1 0)) ∧
    (running (at1 1023 (encS 0 (fS 1 1 2 0 0 0)))).ready c0 0 (encS 0 (fS 1 1 2 0 0 0)) ∧
    (∀ o ∈ [0x13, 0x17, 0x1C, 0x1F, 0x25, 0x27, 0x2D, 0x2F, 0x32, 0x37, 0x3D, 0x3F],
      let op := BitVec.ofNat 6 o
      (running (at1 0 (encY op (fY 0 0 0 0 0)))).ready c0 0 (encY op (fY 0 0 0 0 0)) ∧
        opcodeOf (encY op (fY 0 0 0 0 0)) = op.toNat) ∧
    (∀ i ∈ ([1, 64] : List Nat),
      let s := fun op : BitVec 6 => running (at1 0 (encS op (fS 0 4 0 0 0 (BitVec.ofNat 32 i))))
      (s 0x0B).ready c0 0 (encS 0x0B (fS 0 4 0 0 0 (BitVec.ofNat 32 i))) ∧ (s 0x0C).ready c0 0 (encS 0x0C (fS 0 4 0 0 0 (BitVec.ofNat 32 i))) ∧
        (s 0x0B).rangeHeld c0 0 { lsR := [(98240 + i, 4)] } = false ∧
        (s 0x0C).rangeHeld c0 0 { lsW := [(98240 + i, 4)] } = false ∧
        (i % 4 ≠ 0 ∨ 98304 < 98240 + i + 4)) ∧
    ((running (at1 0 (encS 0x0F (fS 0 0 3 0 0 0)))).ready c0 0 (encS 0x0F (fS 0 0 3 0 0 0)) ∧
      1023 < (((at1 0 1).ctx 0).reg 3).toNat) := by
  unfold State.ready; decide +kernel

/-- spec/03 R85: CHECK of ADD with a reserved field at context 2, index 5; of LDW beyond the LS. -/
theorem test_check_stops :
    (((after (.add c0 2 (fS 1 1 2 0 1 0)) (running (at1 5 (encS 0 (fS 1 1 2 0 1 0))))).core c0).check,
      ((after (.ldw c0 0 (fS 1 4 0 0 0 64)) (running (at1 0 (encS 0x0B (fS 1 4 0 0 0 64))))).core c0).check) =
      (0x1601, 0x2) := by decide +kernel


/-! ## The array and the accumulation file -/

/-- All four banks open, by context 0. -/
def ownBanks : Quad Bank := Quad.all { isOpen := true, owner := 0, age := 1 }

/-- A stationary operand of a format. -/
def station (fmt : BitVec 4) : Station := { fmt, codes := [], scales := [] }

/-- The word's core with a stationary operand, open banks, and a descriptor block with three coarse scales of 1 at 0. -/
def arrayCore (pc : BitVec 10) (w : DWord) (fmt : BitVec 4) : Core :=
  { at1 pc w with
    ctxs := Quad.all { (at1 pc w).ctxs.q0 with stat0 := some (station fmt) }
    banks := ownBanks
    ls := [(2, 0x80), (3, 0x3F), (6, 0x80), (7, 0x3F), (10, 0x80), (11, 0x3F)] }

/-- StationaryLoadAndPass: ALOAD and ALOADT of each block-scaled format, the scales in the last block of the LS; APASS of
256 columns of one format, of F4 with F4, and of a limb. -/
theorem witness_StationaryLoadAndPass :
    (∀ fmt ∈ [0, 1, 2, 3, 4], ∀ o ∈ [0x10, 0x11],
      let op := BitVec.ofNat 6 o
      let f := fM 0 0 4 0 0 0 0 (BitVec.ofNat 4 fmt) 0
      let s := running (at1 1022 (encM op f))
      isBlock f.fmt = true ∧ s.calm c0 0 ∧ s.ready c0 0 (encM op f) ∧
        blockOperand (addrA ((at1 0 1).ctx 0) f) (columnRun f.fmt 8) ∧ blockOperand (addrB ((at1 0 1).ctx 0) f) 64) ∧
    (∀ p ∈ [(0, 0), (3, 0), (4, 2)],
      let fmt := BitVec.ofNat 4 p.1
      let f := fM 0 0 1 0 8 255 (BitVec.ofNat 5 p.2) fmt 0
      let x := arrayCore 1022 (encM 0x12 f) fmt
      let t := x.ctx 0
      t.station = some (station fmt) ∧ (running x).calm c0 0 ∧ (running x).ready c0 0 (encM 0x12 f) ∧ f.sub.toNat ≤ 2 ∧
        (f.sub = 0 ∨ (fmt = 4 ∧ f.fmt = 4)) ∧ (fmt = 3 ↔ f.fmt = 3) ∧ blockOperand (addrA t f) (columnRun f.fmt (countOf f)) ∧
        blockOperand (addrB t f) (columnScales f.fmt (countOf f)) ∧ indexD t f + countOf f ≤ 256 ∧
        ∀ b ∈ banksOf (indexD t f) (countOf f), (x.banks.get b).isOpen = true ∧ (x.banks.get b).owner.toNat = 0) := by
  unfold State.ready State.calm blockOperand; exact ⟨by decide +kernel, by decide +kernel⟩

/-- A column of one group sum s · 2^l on its way to entry 63, whose column 0 holds the largest sum. -/
def columnCore (s l : Int) : Core :=
  { Core.fresh with
    banks := ownBanks
    af := [(8 * 63, ⟨BitVec.ofInt 128 (2 ^ 127 - 1), .none⟩)]
    arrayQ := [{ ctx := 0, entry := 63, sums := [⟨s, l, .none⟩] }] }

/-- AccumulateAddsGroupSums: a sum that stays in the range (−1/2, floored to −1), and one that leaves it by 1. -/
theorem witness_AccumulateAddsGroupSums :
    (∀ s ∈ [(-1, -65), (1, -64)], (columnCore s.1 s.2).arrayQ = { ctx := 0, entry := 63, sums := [⟨s.1, s.2, .none⟩] } :: [] ∧
      (columnCore s.1 s.2).afBad.contains 63 = false ∧ (running (columnCore s.1 s.2)).arithStopped = false) ∧
    ((2 ^ 127 - 1 : Int) + (((-1 : Int) : Rat) * (2 : Rat) ^ ((-65 : Int) + 64)).floor < 2 ^ 127) ∧
    (2 ^ 127 ≤ (2 ^ 127 - 1 : Int) + (((1 : Int) : Rat) * (2 : Rat) ^ ((-64 : Int) + 64)).floor) :=
  ⟨by decide +kernel, by decide +kernel, by decide +kernel⟩

/-- spec/06 R140, R149: the sum −1/2 takes 1 off the largest one; the sum 1 leaves it, sets REPEAT and makes a roll due. -/
theorem test_accumulate :
    let r := fun s l => (after (.accumulate c0) (running (columnCore s l))).core c0
    ((r (-1) (-65)).afCol 63 0).a = BitVec.ofInt 128 (2 ^ 127 - 2) ∧ (r (-1) (-65)).roll.isNone = true ∧
      ((r 1 (-64)).afCol 63 0).a = BitVec.ofInt 128 (2 ^ 127 - 1) ∧ (r 1 (-64)).banks.q0.rep = true ∧ (r 1 (-64)).roll.isSome = true := by
  decide +kernel

/-- AclrClearsAdropCloses: all 256 entries, banks closed and banks the context's own. -/
theorem witness_AclrClearsAdropCloses :
    ∀ own ∈ [true, false], ∀ o ∈ [0x18, 0x1B],
      let op := BitVec.ofNat 6 o
      let f := fM 0 0 0 0 0 255 0 0 0
      let x := { at1 1022 (encM op f) with banks := if own then ownBanks else Quad.all {} }
      (running x).ready c0 0 (encM op f) ∧ indexD (x.ctx 0) f + countOf f ≤ 256 ∧ indexA (x.ctx 0) f + countOf f ≤ 256 ∧
        banksFree x 0 0 256 ∧ noneAwaited x 0 0 256 := by
  unfold State.ready banksFree noneAwaited; decide +kernel

/-- PreloadAndReadout: APRE of the last entry from the last tile of the LS (FP32 zeros) and of 32 entries of a block-scaled
format; AREAD of the last entry to the last block, plain and dithered, kept and closed. -/
theorem witness_PreloadAndReadout :
    (∀ p ∈ [(6, 0, 1534, 255), (0, 31, 0, 224)],
      let f := fM 0 0 0 (BitVec.ofNat 11 p.2.2.2) (BitVec.ofNat 11 p.2.2.1) (BitVec.ofNat 8 p.2.1) 0 (BitVec.ofNat 4 p.1) 0
      let x := at1 1022 (encM 0x19 f)
      let h := (x.block (addrA (x.ctx 0) f)).toNat
      (running x).calm c0 0 ∧ f.fmt.toNat ≤ 6 ∧ (isBlock f.fmt = true → countOf f % 32 = 0) ∧ (running x).ready c0 0 (encM 0x19 f) ∧
        bitsOf h 511 33 = 0 ∧ (fp32 (BitVec.ofNat 32 h)).isFinite = true ∧
        blockOperand (addrA (x.ctx 0) f) (64 + tileBytes f.fmt (countOf f)) ∧ indexD (x.ctx 0) f + countOf f ≤ 256 ∧
        banksFree x 0 (indexD (x.ctx 0) f) (countOf f) ∧ noneAwaited x 0 (indexD (x.ctx 0) f) (countOf f) ∧
        ∀ i < countOf f, ∀ j < 8, ((preloadCol (openedBank (x.banks.get (bankOf (indexD (x.ctx 0) f + i))) 0 x.ckptSeq).upper
          (fp32 (BitVec.ofNat 32 h)) (tileElem x.ls f.fmt (bitOf h 32) (addrA (x.ctx 0) f + 64) (countOf f) i j)).1).isSome = true) ∧
    (∀ p ∈ [0, 1],
      let f := fM 0 0 0 1535 255 0 (BitVec.ofNat 5 p) 6 (BitVec.ofNat 4 p)
      let x := arrayCore 1022 (encM 0x1A f) 0
      let h := (x.block (addrB (x.ctx 0) f)).toNat
      (running x).calm c0 0 ∧ (running x).ready c0 0 (encM 0x1A f) ∧ f.sub.toNat ≤ 1 ∧ f.flags.toNat ≤ 1 ∧ bitsOf h 255 97 = 0 ∧
        coarseOk h = true ∧ coarseOk (bitsOf h 63 32) = true ∧ coarseOk (bitsOf h 95 64) = true ∧
        blockOperand (addrD (x.ctx 0) f) (tileBytes f.fmt (countOf f)) ∧ blockOperand (addrB (x.ctx 0) f) 64 ∧
        indexA (x.ctx 0) f + countOf f ≤ 256 ∧ banksFree x 0 (indexA (x.ctx 0) f) (countOf f) ∧
        noneAwaited x 0 (indexA (x.ctx 0) f) (countOf f) ∧
        ∀ b ∈ banksOf (indexA (x.ctx 0) f) (countOf f), (x.banks.get b).rep = false) := by
  unfold State.ready State.calm blockOperand banksFree noneAwaited; exact ⟨by decide +kernel, by decide +kernel⟩

/-! ## The vector and the row unit -/

/-- VectorFramesAndOccupancy: each unit's first and last SUB, wide formats and I32, two vectors at the end of the LS, a VCVT
of each kind of pair and the limb split. -/
theorem witness_VectorFramesAndOccupancy :
    (∀ p ∈ [(0x20, 0, 5), (0x20, 4, 7), (0x21, 0, 6), (0x22, 0, 5), (0x22, 4, 6), (0x22, 5, 7), (0x24, 0, 5)],
      let op := BitVec.ofNat 6 p.1
      let f := fM 0 0 0 (if p.2.2 = 5 then 1534 else 1532) 0 1 (BitVec.ofNat 5 p.2.1) (BitVec.ofNat 4 p.2.2) 0
      let x := at1 1022 (encM op f)
      (running x).calm c0 0 ∧ (running x).ready c0 0 (encM op f) ∧ blockOperand (addrD (x.ctx 0) f) (vecBytes f.fmt 2) ∧
        blockOperand (addrA (x.ctx 0) f) (vecBytes f.fmt 2) ∧ blockOperand (addrB (x.ctx 0) f) (vecBytes f.fmt 2)) ∧
    (∀ p ∈ [(0, 1), (4, 6), (6, 3), (5, 7), (7, 4), (0x16, 2)],
      let f := fM 0 0 0 0 1024 255 (BitVec.ofNat 5 p.1) (BitVec.ofNat 4 p.2) 0
      let x := at1 1022 (encM 0x23 f)
      let src := f.sub.extractLsb' 0 4
      (running x).calm c0 0 ∧ (running x).ready c0 0 (encM 0x23 f) ∧ cvtPair src f.fmt = true ∧
        blockOperand (addrA (x.ctx 0) f) (convRun src 256) ∧
        blockOperand (addrD (x.ctx 0) f) (if src = 7 ∧ f.fmt = 4 then limbRun 256 else convRun f.fmt 256)) := by
  unfold State.ready State.calm blockOperand; exact ⟨by decide +kernel, by decide +kernel⟩

/-- IntegerVectorsWrap: two vectors, the destination equal to the source and after it. -/
theorem witness_IntegerVectorsWrap :
    (∀ sub ∈ [0, 1, 2, 3, 4], ∀ d ∈ [0, 1532],
      let f := fM 0 0 0 (BitVec.ofNat 11 d) 0 1 (BitVec.ofNat 5 sub) 7 0
      let x := at1 1022 (encM 0x20 f)
      (running x).calm c0 0 ∧ (running x).ready c0 0 (encM 0x20 f) ∧ blockOperand 0 256 ∧ blockOperand (64 * d) 256 ∧
        addrD (x.ctx 0) f = 64 * d ∧ (64 * d = 0 ∨ 64 * d + 256 ≤ 0 ∨ 256 ≤ 64 * d) ∧ f.sub.toNat < 5) ∧
    (∀ sub ∈ [0, 1, 5],
      let f := fM 0 0 0 1532 0 1 (BitVec.ofNat 5 sub) 7 0
      let x := at1 1022 (encM 0x22 f)
      (running x).calm c0 0 ∧ (running x).ready c0 0 (encM 0x22 f)) := by
  unfold State.ready State.calm blockOperand; exact ⟨by decide +kernel, by decide +kernel⟩

/-- spec/07 R165: the absolute value of −2^31 wraps; the sum of the largest word and itself is −2. -/
theorem test_integer_vector :
    let f := fun sub => fM 0 0 0 4 0 0 sub 7 0
    let x := fun op sub => { at1 0 (encM op (f sub)) with ls := [(3, 0x80), (4, 0xFF), (5, 0xFF), (6, 0xFF), (7, 0x7F)] }
    let r := fun (i : CoreId → Ctx → FmtM → Instr) op sub => ((after (i c0 0 (f sub)) (running (x op sub))).core c0).ls
    [Memory.word (r .vun 0x22 1) 256, Memory.word (r .vbin 0x20 0) 260] = [0x80000000, 0xFFFFFFFE] := by decide +kernel

/-- The word's core with a row header at 0: rows of W elements, a mode. -/
def rowCore (w : DWord) (width mode : Byte) : Core := { at1 1022 w with ls := [(0, width), (2, mode)].filter (·.2 != 0) }

/-- RowFramesAndOccupancy: each of the five, two rows of 32 elements, the last statistics entries; RSMAX also merging. -/
theorem witness_RowFramesAndOccupancy :
    ∀ p ∈ ([(.stat, 0x28, 0), (.smax, 0x29, 0), (.smax, 0x29, 1), (.norm, 0x2A, 1), (.smaxb, 0x2B, 0), (.normb, 0x2C, 0)] :
        List (RowOp × Nat × Nat)),
      let op := BitVec.ofNat 6 p.2.1
      let f := fM 0 0 (if p.1 = .stat then 0 else 1) 510 0 1 0 6 0
      let s := running (rowCore (encM op f) 32 (BitVec.ofNat 8 p.2.2))
      rowFits p.1 c0 0 f s ∧ s.ready c0 0 (encM op f) := by
  simp only [rowFits, State.ready, State.calm, blockOperand]; decide +kernel

/-- spec/07 R176: RSTAT of a row of 32 ones (FP32), pass 1: the mean 1 in the entry's first word. -/
theorem test_rstat_mean :
    let f := fM 0 0 0 0 0 0 0 6 0
    let x := { rowCore (encM 0x28 f) 32 0 with
      ls := (0, 32) :: (List.range 32).flatMap fun i => [(64 + 4 * i + 2, (0x80 : Byte)), (64 + 4 * i + 3, 0x3F)] }
    (((after (.rstat c0 0 f) (running x)).core c0).statEntry 0).1 = 0x3F800000 := by decide +kernel


/-! ## Copies, signals, waits, fences -/

/-- A copy of one block from the LS of core (0, 0) at 0 to that of core (1, 0) at 64. -/
def descriptor : BitVec 512 := BitVec.ofNat 512 ((coreAddr 1 0 c0 0).toNat + (coreAddr 1 0 c1 64).toNat * 2 ^ 64)

/-- A copy of context 3 in slot i; a CPY of context 1 not read yet, its descriptor at 0. -/
def slotOf (i : Nat) : CopySlot :=
  { id := i, ctx := 3, desc := descriptor, due := false, idle := false, issuedT := 5, group := 0, sent := 0, reads := 0
    aborted := false, rolling := false, tracked := true }
def issued : CpyIssue := { ctx := 1, block := 0, due := false, idle := false, pc := 9, issuedT := 5, group := 0 }

/-- The bytes of a descriptor block in the LS at 0. -/
def lsOf (d : BitVec 512) : Mem := Memory.write [] 0 (leBytes 64 d.toNat)

/-- CopyIssueAndDescriptor: CPY with 15 copies outstanding, in a replay and not; CMARK; DESCRIPTOR_READ of a good
descriptor with slots 0 to 14 taken, and of one with a reserved bit set, its context running and check-stopped. -/
theorem witness_CopyIssueAndDescriptor :
    (∀ skip ∈ [0, 1], ∀ flags ∈ [0, 2],
      let f := fM 4 0 0 0 0 0 0 0 (BitVec.ofNat 4 flags)
      let x := { at1 1022 (encM 0x30 f) with
        ctxs := Quad.all { (at1 1022 0).ctxs.q0 with skipCpy := skip }, slots := (List.range 15).map slotOf }
      (running x).ready c0 0 (encM 0x30 f) ∧ f.flags.toNat ≤ 2 ∧ blockOperand (addrD (x.ctx 0) f) 64 ∧ (running x).calm c0 0 ∧
        x.slots.length + x.cpys.length < 16) ∧
    ((running (at1 1022 (encM 0x31 (fM 0 0 0 0 0 0 0 0 0)))).ready c0 0 (encM 0x31 (fM 0 0 0 0 0 0 0 0 0))) ∧
    (∀ b ∈ [false, true],
      let x := { at1 0 0 with ls := lsOf (if b then descriptor ||| 1 <<< 143 else descriptor), cpys := [issued], slots := (List.range 15).map slotOf }
      x.cpys = issued :: [] ∧ (running x).powered = true ∧ x.slots.length < 16 ∧
        x.lsBad.contains (issued.block / 64) = false ∧ (running x).descBad (x.block issued.block) = b) ∧
    (((at1 0 0).ctx 1).stopped = false ∧ { (at1 0 0).ctx 1 with stopped := true }.stopped = true) := by
  unfold State.ready State.calm blockOperand; exact ⟨by decide +kernel, by decide +kernel, by decide +kernel, by decide +kernel⟩

/-- DueIdleCopyIsIllegal: FLAGS 3. -/
theorem witness_DueIdleCopyIsIllegal :
    let f := fM 4 0 0 0 0 0 0 0 3
    let s := running (at1 0 (encM 0x30 f))
    s.ready c0 0 (encM 0x30 f) ∧ f.flags.getLsbD 0 = true ∧ f.flags.getLsbD 1 = true ∧ s.calm c0 0 ∧
      (s.core c0).slots.length + (s.core c0).cpys.length < 16 := by
  unfold State.ready State.calm; decide +kernel

/-- The word's core with an address pair in registers 8 and 9 that names counter 63 of core (1, 0), and a count in counter
63. -/
def syncCore (pc : BitVec 10) (w : DWord) (v : BitVec 16) (skip : Nat) : Core :=
  { at1 pc w with
    ctxs := Quad.all { (at1 pc w).ctxs.q0 with
      skipSig := skip
      regs := [(8, (coreAddr 6 0 c1 63).extractLsb' 0 32), (9, (coreAddr 6 0 c1 63).extractLsb' 32 32)] }
    ctrs := [(63, { value := v })] }

/-- SignalsAndWaits: a local SIG that reaches 65,535 and one that passes it; a remote SIG, sent and suppressed; a WAIT that
is just met, consuming and not, and one that lacks 1. -/
theorem witness_SignalsAndWaits :
    (∀ v ∈ ([65280, 65281] : List Nat),
      let f := fY 0 63 0 0 255
      let x := syncCore 1022 (encY 0x38 f) (BitVec.ofNat 16 v) 0
      (running x).ready c0 0 (encY 0x38 f) ∧ (∀ g ∈ x.arrayQ, g.ctx ≠ 0) ∧ (63 : Fin 64).val = f.ctr.toNat ∧ 1 ≤ f.value.toNat ∧ f.value.toNat ≤ 255) ∧
    (∀ skip ∈ [0, 1],
      let f := fY 8 0 0 1 255
      let x := syncCore 1022 (encY 0x38 f) 0 skip
      (running x).ready c0 0 (encY 0x38 f) ∧ (0 : Fin 64).val = f.ctr.toNat ∧ f.abase.toNat % 2 = 0 ∧
        (running x).ctrTarget (pairAddr (x.ctx 0) f) = some (c1, 63) ∧ ¬(c1 = c0 ∧ addrModule (pairAddr (x.ctx 0) f) = (running x).coord)) ∧
    (∀ v ∈ ([8, 9] : List Nat), ∀ consume ∈ [0, 1],
      let f := fY 0 63 (BitVec.ofNat 1 consume) 0 9
      let x := syncCore 1022 (encY 0x39 f) (BitVec.ofNat 16 v) 0
      (running x).ready c0 0 (encY 0x39 f) ∧
        (if v = 9 then f.value.toNat ≤ (x.syncCtr 63).value.toNat else (x.syncCtr 63).value.toNat < f.value.toNat)) := by
  unfold State.ready; exact ⟨by decide +kernel, by decide +kernel, by decide +kernel⟩

/-- spec/09 R225: 65,281 + 255 clamps at 65,535 and sets SAT; a consuming WAIT of 9 leaves 0. -/
theorem test_sync :
    let f := fY 0 63 0 0 255
    let g := fY 0 63 1 0 9
    (((after (.sig c0 0 f) (running (syncCore 0 (encY 0x38 f) 65281 0))).core c0).syncCtr 63).value = 65535 ∧
      (((after (.sig c0 0 f) (running (syncCore 0 (encY 0x38 f) 65281 0))).core c0).syncCtr 63).sat = true ∧
      (((after (.wait c0 0 g { held := 0 }) (running (syncCore 0 (encY 0x39 g) 9 0))).core c0).syncCtr 63).value = 0 := by decide +kernel

/-- FencesEndStrokes: BEAT at the last but one index, 1 cycle before the window; END. -/
theorem witness_FencesEndStrokes :
    let f := fY 0 0 0 0 0
    let s := { running (at1 1022 (encY 0x3A f)) with phase := 959 }
    (s.ready c0 0 (encY 0x3A f) ∧ s.windowAt - s.phase = 1 ∧ (∀ g ∈ (s.core c0).arrayQ, g.ctx ≠ 0)) ∧
      (running (at1 1023 (encY 0x3B f))).ready c0 0 (encY 0x3B f) ∧
      ∀ b, ((at1 1023 0).banks.get b).isOpen = true → ((at1 1023 0).banks.get b).owner.toNat ≠ 0 := by
  unfold State.ready; decide +kernel

/-! ## The beat -/

/-- A core whose four contexts wait for their next stroke at N = 5, its banks open for context 2 at this age. -/
def strokeCore (age : BitVec 2) : Core :=
  { Core.fresh with ctxs := Quad.all { enabled := true, n := 5 }, banks := Quad.all { isOpen := true, owner := 2, age } }

/-- BeatStartAdvances: a running module whose contexts start a stroke, their banks of age 2 and, with CHAIN_AGE for context
2 alone, of age 3; one in HALTED; a core with no stroke due; a context that resumes. -/
theorem witness_BeatStartAdvances :
    ∀ age ∈ ([2, 3] : List Nat),
      let x := strokeCore (BitVec.ofNat 2 age)
      (running x).powered = true ∧ Sparse.wf Core.fresh (running x).cores = true ∧ (running x).deviceState.vote.toNat = 4 ∧
        (inState 5).deviceState.vote.toNat ≠ 4 ∧ strokeDue x 2 6 ∧ ¬strokeDue x 2 5 ∧ (chainTooOld x 2 ↔ age = 3) ∧
        (∀ j : Ctx, 2 < j → ¬(strokeDue x j 6 ∧ chainTooOld x j)) ∧
        (∀ b : Fin 4, (x.banks.get b).isOpen = true ∧ Fin.ofNat 4 (x.banks.get b).owner.toNat = (2 : Ctx)) ∧
        (Core.fresh.banks.get 0).isOpen = false ∧
        (let y := { x with ctxs := Quad.all { enabled := true, n := 5, resume := true } }
         y.roll.isNone = true ∧ (y.ctx 0).resume = true ∧ ¬strokeDue y 0 6 ∧ (x.ctx 0).resume = false) := by
  unfold strokeDue chainTooOld; decide +kernel

/-- spec/02 R26, R44: a beat later the count and T are one higher; a context with N below T starts its stroke. -/
theorem test_beat_start :
    let x := { Core.fresh with ctxs := Quad.all { enabled := true, n := 5 } }
    let s := after .beatStart (running x)
    s.beat = 1 ∧ s.t = 6 ∧ s.phase = 0 ∧ ((s.core c0).ctx 3).running = true := by decide +kernel

/-- spec/13 R344: a context that a roll restored inside its stroke goes on, and its open banks do not age. -/
theorem test_resume :
    let x := { strokeCore 3 with ctxs := Quad.all { enabled := true, n := 5, resume := true } }
    let y := (after .beatStart (running x)).core c0
    ((y.ctx 2).running, (y.ctx 2).resume, (y.ctx 2).stopped, (y.banks.get 0).age) = (true, false, false, 3) := by decide +kernel

/-- spec/03 R69: with every context ready for a NOP the context after the one that issued last issues: context 0 after context
3, and after it context 1. -/
theorem test_rotation :
    let f := fY 0 0 0 0 0
    let x := { at1 0 (encY 0x3C f) with instr := [(0, encY 0x3C f), (1, encY 0x3C f)], last := some 3, pace := {} }
    let pcs (k : Ctx) (s : State) := ((after (.nop c0 k f) s).core c0 |>.ctx k).pc
    (pcs 0 (running x), pcs 1 (running x)) = (1, 0) ∧
    (pcs 0 (after (.nop c0 0 f) (running x)), pcs 1 (after (.nop c0 0 f) (running x))) = (1, 1) := by decide +kernel

/-- IssueCloseFindsOverruns: no context in a stroke; one that overruns. -/
theorem witness_IssueCloseFindsOverruns :
    (running Core.fresh).dueIn 0 .close ∧ Sparse.wf Core.fresh (running (at1 0 1)).cores = true ∧ (inState 4).overruns = [] ∧
    { running (at1 0 1) with phase := 960 }.dueIn 0 .close ∧
    (running (at1 0 1)).overruns = (0, 0) :: [(0, 1), (0, 2), (0, 3)] ∧ (running (at1 0 1)).deviceState.vote.toNat = 4 := by
  unfold State.dueIn; decide +kernel

/-- JournalCommitAndSeal: both due at their cycles; a record of the beat. -/
theorem witness_JournalCommitAndSeal :
    { running (at1 0 1) with phase := 960 }.dueIn 0 .commit ∧ { running (at1 0 1) with phase := 984 }.dueIn 24 .sealing ∧
    (running (at1 0 1)).core c0 ≠ Core.fresh ∧ (stackAt (slabOf c0)).isSome = true ∧
    (let s := { running (at1 0 1) with hbmStacks := [(0, { up := true })] }
     (s.stack 0).up = true ∧ (s.stack 1).up = false ∧ (s.stack 0).unlisted = [] ∧ s.core (c1) = Core.fresh ∧
       stackAt (slabOf (c1)) = some 0) ∧
    (let r := { noRecord with entries := [], beat := 0, t := 5 }
     Sparse.wf noRecord [(0, r)] = true ∧ r ≠ noRecord) := by
  unfold State.dueIn; decide +kernel

/-- A run of beat records: with two cores listed, three entries go to the cores 0, 2 and 4; the last of a slab ends it. -/
theorem test_header_runs :
    takeRecords 3 [⟨5, 0, [1, 3]⟩] = ([0, 2, 4].map (headerWrite 5), [⟨5, 5, [1, 3]⟩]) ∧
    takeRecords 3 [⟨5, 19198, [19198]⟩, ⟨6, 7, []⟩] = ([headerWrite 5 19199, headerWrite 6 7, headerWrite 6 8], [⟨6, 9, []⟩]) ∧
    (let t : Stack := { up := true, unlisted := [⟨2, 19197, []⟩], reqs := List.replicate 31 ⟨.write, true, headerWrite 1 0, 1, 0, 0⟩ }
     (t.letRecords.reqs.drop 31).map (fun e => (e.kept, e.req)) =
         [(true, headerWrite 2 19197), (false, headerWrite 2 19198), (false, headerWrite 2 19199)] ∧
       t.letRecords.unlisted = []) := by
  decide +kernel

/-- HoldsAndVerdict: both due; in beat d + 1 a port that brought no downbeat, and none that lacks it. -/
theorem witness_HoldsAndVerdict :
    { inState 4 with phase := 964 }.dueIn 4 .hold ∧ { inState 4 with phase := 996 }.dueIn 36 .verdict ∧
    (let s := { inState 4 with beat := 17, downbeatLo := Triple.all 16, downbeatHi := Triple.all 0 }
     s.dev = 4 ∧ s.beat = s.downbeat + 1 ∧
       ∃ p, (s.port p).unused = false ∧ (s.port p).downbeat ≠ some (BitVec.ofNat 64 s.downbeat, s.ownDigest)) ∧
    ¬((inState 2).dev = 4 ∨ (inState 2).dev = 5) := by
  unfold State.dueIn; decide +kernel

/-- SnapshotLagTemperatures: the two steps due; a slab at 105 °C with TRIP clear and set; all slabs below. -/
theorem witness_SnapshotLagTemperatures :
    { inState 4 with phase := 968 }.dueIn 8 .snap ∧ { inState 4 with phase := 999 }.dueIn 39 .lag ∧
    (∀ v ∈ ([840, 839] : List Nat),
      let m := temps 16 8 16 (BitVec.ofNat 12 v)
      m.slabs.length = 16 ∧ m.hbmStacks.length = 16 ∧ (∀ l ∈ m.slabs, l.length = 8) ∧
        (v = 840 → ∃ l ∈ m.slabs, (l.any fun a => decide (840 ≤ a.toNat)) = true) ∧
        (v = 839 → ∀ l ∈ m.slabs, (l.all fun a => decide (a.toNat < 840)) = true)) := by
  unfold State.dueIn; decide +kernel

/-- SetpointKeepsItsLimits: a setpoint of 0 with the bus there, in soft start, with 39.99 J and 40 J in Kettle; under
support with 33.35 J left and with 600 J. -/
theorem witness_SetpointKeepsItsLimits :
    { inState 4 with phase := 972 }.dueIn 12 .power ∧ 0 < (inState 4).tempoNow ∧
    ((inState 4).tympan.busLost = false ∧ (inState 4).tympan.support = false ∧ 0 ≤ (inState 4).tympan.busSet ∧
      0 ≤ (measure 16 16).busI) ∧
    ((inState 4).tympan.charged = false ∧ ¬(4000 ≤ { measure 16 16 with kettleE := 3999 }.kettleE.toNat)) ∧
    ({ (inState 4).tympan with support := true }.support = true ∧
      2150 * (100 * (((inState 4).tempoNow : Rat) / 100000000)) + 312 / 10 < ((measure 16 16).kettleE.toNat : Rat) / 100 ∧
      ¬(2150 * (100 * (((inState 4).tempoNow : Rat) / 100000000)) + 312 / 10 < (3335 : Rat) / 100)) ∧
    { (inState 4).tympan with softStart := true }.softStart = true := by
  unfold State.dueIn; decide +kernel

/-- BarsAndArithmeticClock: the clock step due in the last beat of a bar; the boundary of bar 1 in RUNNING, HALTED, and with
a slab stretched 5,001 cycles. -/
theorem witness_BarsAndArithmeticClock :
    { inState 4 with phase := 976, beat := 99 }.dueIn 16 .clock ∧
    (let s := fun d => { inState d with beat := 100 }
     (s 4).powered = true ∧ (s 4).phase = 0 ∧ WinStep.bar ∉ (s 4).windowDone ∧ (s 4).beat % 100 = 0 ∧ (s 4).tympan.rideRetain = false ∧
       (s 4).dev = 4 ∧ (s 5).dev = 5 ∧ (s 5).load = none) ∧
    ({ (inState 4).tympan with rideRetain := true, rideRest := true }.rideRetain = true ∧ (inState 4).dev = 4) ∧
    Sparse.wf 0 ([(3, 5001)] : Sparse Nat) = true ∧ 5000 < Sparse.look 0 ([(3, 5001)] : Sparse Nat) 3 := by
  unfold State.dueIn; decide +kernel

/-- ScrubRepairsEveryTriple: nothing differs; one copy of the tempo differs. -/
theorem witness_ScrubRepairsEveryTriple :
    (inState 2).powered = true ∧ Sparse.wf (Triple.all 0) (inState 2).sems = true ∧ (inState 2).rtDiffer = 0 ∧
    { inState 2 with tempo := ⟨1000, 1000, 1008⟩ }.rtDiffer = 1 := by decide +kernel

/-- A small image. -/
def anImage : Image :=
  { digest := 0, keyDigest := 0, ranks := [(0, 0)], rank := 0, dimX := 1, dimY := 1, dimZ := 1, tempo := 1200, floor := 0, split := 0
    fenced := false, scCache := 2, dseed := 7, carSeed := 0, shadowSeed := 0, shadowK := 0, shadowLs := 0, routes := [] }

/-- DownbeatStartsTheJob: LOADED, armed for the beat whose first edge it is. -/
theorem witness_DownbeatStartsTheJob :
    let s := { inState 3 with
      armed := true, beat := 16, downbeatLo := Triple.all 16, downbeatHi := Triple.all 0, image := some anImage, cores := [(0, at1 0 1)] }
    s.powered = true ∧ s.dev = 3 ∧ s.armed = true ∧ s.phase = 0 ∧ s.beat = s.downbeat ∧ s.image = some anImage ∧
      Sparse.wf Core.fresh s.cores = true := by decide +kernel


/-! ## Sideband, links, torus -/

/-- A module in a state, with port 0 trained and this port 2. -/
def withPorts (dev : BitVec 3) (p q : ReduitPort) : State := { inState dev with ports := [(0, p), (2, q)] }

/-- A trained port with credits. -/
def up : ReduitPort := { trained := true, adaptive := 64, escape := 4 }

/-- A port at which the four fragments of this sideband frame have arrived. -/
def ReduitPort.bringing (q : ReduitPort) (f : SbFrame) : ReduitPort :=
  { q with frags := (List.range 4).map fun i => ((sbBytes f).drop (16 * i)).take 16 }

/-- SidebandFramesCarryHolds: a tag known, a new one before its verdict, one that is late by a beat, and one whose verdict
was carried out in this beat; the sender's beat 128 behind and 127 ahead of the own. -/
theorem witness_SidebandFramesCarryHolds :
    (∀ p ∈ ([(300, [300]), (300, []), (298, []), (299, []), (427, []), (172, [])] : List (Nat × List Nat)),
      let f := frame (BitVec.ofNat 8 p.1) 1 0
      let s := { withPorts 4 (ReduitPort.bringing up f) {} with beat := 300, holds := p.2, windowDone := [.verdict] }
      s.powered = true ∧ s.aligned = true ∧ (s.port 0).trained = true ∧ (s.port 0).loopback = false ∧ (s.port 0).brought f = true ∧ f.aligned = true ∧ f.msgType.toNat ≤ 7 ∧ (s.port 0).delay = 0 ∧
        f.holdNew = 1 ∧ p.1 % 256 = f.beatLo.toNat ∧ p.1 ≤ s.beat + 128 ∧ (s.beat + 128 < p.1 + 256 ∨ p.1 = 172) ∧ s.dev = 4) ∧
    (300 + 128 < 173 + 256) := by decide +kernel

/-- spec/02 R47: the tag of beat 299, new after the verdict of beat 300, is counted and halts the job with cause 3. -/
theorem test_hold_late :
    let f := frame 43 1 0
    let s := after (.sidebandFrame 0 f) { withPorts 4 (ReduitPort.bringing up f) up with beat := 300, windowDone := [.verdict] }
    s.deviceState.vote = 5 ∧ s.haltCause = 3 ∧ s.holds = [299] ∧ s.sbOut = [.hold 2 299] := by decide +kernel

/-- A module whose start-up waits for its alignment. -/
def waiting (s : State) : State :=
  { s with aligned := false, control := { s.control with bootStep := 0x22, booting := some (boot, false, false, []) } }

/-- AlignmentCommands: the four commands before ALIGNED, each with what it asks. -/
theorem witness_AlignmentCommands :
    (let s := waiting (withPorts 1 { up with delay := 8 } {})
     s.powered = true ∧ s.control.booting.isSome = true ∧ (s.port 0).trained = true ∧ s.aligned = false ∧ s.counted = false ∧ (s.port 0).delay ≠ 0 ∧
       (1000 : BitVec 12) ≠ 0 ∧ (999 : BitVec 12).toNat + ((s.port 0).delay.toNat + 8) / 16 = 1000) ∧
    (let s := waiting (withPorts 1 { up with electRun := 64 } {})
     s.control.booting.isSome = true ∧ s.aligned = false ∧ s.counted = false ∧ ∀ q, (s.port q).trained = true → 64 ≤ (s.port q).electRun ∧ (s.port q).farAligned = false) ∧
    (let s := { waiting (inState 1) with counted := true, agree := 16 }
     s.control.booting.isSome = true ∧ s.aligned = false ∧ s.counted = true ∧ 16 ≤ s.agree) := by decide +kernel

/-- spec/02 R49: over a line of three modules with cables of 20 and 30 cycles a flood takes 71 + 101 cycles; TEMPO_MIN stays at
its least value. -/
theorem test_flood_span :
    let links : List TorusLink := [⟨5, 6, 320⟩, ⟨6, 7, 480⟩]
    floodSpan links = 172 ∧
      (after (.alignConfirm links) { waiting (inState 1) with counted := true, agree := 16 }).voteSpan = 172 ∧
      (after (.alignConfirm links) { waiting (inState 1) with counted := true, agree := 16 }).tempoMin = 500 := by decide +kernel

/-- spec/16 R415, R422: the step after the alignment is 0x23, and a bus lost then cuts that step short, 0x22 having passed. -/
theorem test_step_after_alignment :
    (let s := after (.alignConfirm []) { waiting (inState 1) with counted := true, agree := 16 }
     s.control.bootStep = 0x23 ∧ s.cutRecord.cut.map (fun v => (v.1, v.2.2.2.map fun e => (e.step, e.result))) = some (0x23, [(0x22, 0)])) := by
  decide +kernel

/-- Every 64-bit number has another one. -/
theorem serial_differs : Config.serial + 1 ≠ Config.serial := by
  intro h
  have h := congrArg (fun v : BitVec 64 => v - Config.serial) h
  simp only [BitVec.sub_self] at h
  rw [BitVec.add_comm, BitVec.add_sub_cancel] at h
  exact absurd h (by decide)

/-- SidebandMessages: a port with no downbeat, with another's and with the own one; a module and a rank not known; a port
silent for 3 beats; a working relay path. -/
theorem witness_SidebandMessages :
    ((withPorts 4 up {}).port 0).downbeat = none ∧ ((withPorts 4 { up with downbeat := some (1, 0) } {}).port 0).downbeat = some (1, 0) ∧
    ((1 : DWord), (0 : BitVec 128)) ≠ (BitVec.ofNat 64 (inState 4).downbeat, 0) ∧
    ((0 : BitVec 10), Config.serial + 1, (1 : BitVec 4)) ∉ (inState 4).faults.knells ∧ Config.serial + 1 ≠ Config.serial ∧
    (((inState 4).image.isSome = true → (Slack.of 1).rank ≠ (inState 4).rank) ∧
      ∀ o ∈ (inState 4).tympan.slacks, ¬(o.rank = (Slack.of 1).rank ∧ (o.bar = (Slack.of 1).bar ∨ o.bar = (Slack.of 1).bar + 1))) ∧
    (let s := { withPorts 4 { up with heard := 7 } {} with beat := 10 }
     (s.port 0).trained = true ∧ (s.port 0).unused = false ∧ (s.port 0).heard + 2 < s.beat) ∧
    { inState 4 with relay := 2 }.relay.getLsbD 1 = true :=
  ⟨by decide +kernel, by decide +kernel, by decide +kernel, by decide +kernel, serial_differs, by decide +kernel, by decide +kernel, by decide +kernel⟩

/-- A frame of zeros with its CRC. -/
def goodFrame : List Byte := List.replicate 1068 0 ++ leBytes 4 (crc32c (List.replicate 1068 0)).toNat

theorem goodFrame_crc : frameCrc goodFrame = true := by
  have h : ∀ a : List Byte, a.length = 1068 → ∀ v : Word, frameCrc (a ++ leBytes 4 v.toNat) = (v == crc32c a) := by
    intro a ha v
    have hv : v.toNat % 256 ^ 4 = v.toNat := Nat.mod_eq_of_lt v.isLt
    simp only [frameCrc, List.length_append, ha, List.drop_left' ha, List.take_left' ha, leNat_leBytes, hv]
    rw [Bool.eq_iff_iff]
    simp [leBytes, BitVec.toNat_inj]
  rw [goodFrame, h _ (List.length_replicate ..)]
  exact beq_self_eq_true _

/-- ReduitLinkFrames: the next good frame and one out of turn; the second and the third retrain; a port that trains, and
one that failed the start-up. -/
theorem witness_ReduitLinkFrames :
    (let s := withPorts 4 up { up with seqNext := 1 }
     (s.port 0).trained = true ∧ (s.port 0).loopback = false ∧ frameSeq goodFrame = (s.port 0).seqNext.toNat ∧
       frameSeq goodFrame ≠ (s.port 2).seqNext.toNat ∧ (s.port 2).trained = true) ∧
    (let s := withPorts 4 { up with retrains := 1 } { up with retrains := 2 }
     (s.port 0).retrains < 2 ∧ 2 ≤ (s.port 2).retrains) ∧
    (let s := waiting (inState 4)
     (s.port 5).trained = false ∧ (s.port 5).failed = false ∧ s.control.stopped = false ∧ 0x20 ≤ s.control.bootStep.toNat) ∧
    (let s := { inState 1 with control := { (inState 1).control with bootStep := 0x1F } }
     (s.port 5).trained = false ∧ s.control.bootStep.toNat < 0x20 ∧ s.mapsOk) ∧
    (((withPorts 4 { failed := true } {}).port 0).trained = false ∧ ((withPorts 4 { failed := true } {}).port 0).failed = true) ∧
    frameCrc goodFrame = true := by
  exact ⟨by decide +kernel, by decide +kernel, by decide +kernel, by unfold State.mapsOk; decide +kernel, by decide +kernel, goodFrame_crc⟩

/-- MeshFlitRetries: a working link with no, one, three and four failures, on each plane; the link once failed. -/
theorem witness_MeshFlitRetries :
    (∀ p ∈ [pkt .read 1, pkt .write 1],
      let link := linkNo (meshLink cLast.x.val cLast.y.val 3 (if p.kind = .read then 0 else 1))
      (inState 4).powered = true ∧ Sparse.wf Core.fresh (inState 4).cores = true ∧
        (∀ f ∈ List.replicate 4 (flitTry 32 false), f.yx ≠ (inState 4).onXY p) ∧ link ∉ (inState 4).failedLinks ∧ link ∈ { inState 4 with failedLinks := [link] }.failedLinks) ∧
    ((List.range 5).map fun n => ((List.replicate n (flitTry 32 false) ++ [flitTry 32 true]).takeWhile
      fun f => !(f.flit.length == 32 && crc16 f.flit == f.crc)).length) = [0, 1, 2, 3, 4] := by decide +kernel

/-- A torus of 4 × 1 × 1 modules; a READ of 1 block, and a WRITE, for module (m, 0, 0). -/
def torus (s : State) : State := { s with shape := 3, image := some { anImage with dimX := 4 } }
def readTo (m : BitVec 10) : Packet := { pkt .read 1 with addr := stackAddr 5 m 0 0 }
def writeTo (m : BitVec 10) : Packet := { pkt .write 1 with addr := stackAddr 5 m 0 0 }

/-- A port that has received these packets. -/
def ReduitPort.received (q : ReduitPort) (ps : List Packet) : ReduitPort := { q with rx := ps.map Packet.wire }

/-- TorusRouting: home with 63 and 64 packets in the ejection buffer; port X+ with one credit, X− with none; the escape
move with two buffers; a LOOP packet after one link and after two. -/
theorem witness_TorusRouting :
    (∀ n ∈ [63, 64], ∀ p ∈ [readTo 0, writeTo 0],
      let s := { torus (withPorts 4 (ReduitPort.received {} [p]) {}) with east := { eject := List.replicate n (readTo 0) } }
      s.powered = true ∧ s.atDie .east (.port 0) p = true ∧ s.sigTurn (.port 0) p = true ∧ p.kind ≠ .loop ∧ s.minimal (targetOf p) = [] ∧ (s.die .east).eject.length = n) ∧
    (let s := torus (withPorts 4 (ReduitPort.received { up with adaptive := 1 } [readTo 1]) {})
     s.atDie .east (.port 0) (readTo 1) = true ∧ s.sigTurn (.port 0) (readTo 1) = true ∧ (readTo 1).kind ≠ .loop ∧ (readTo 1).escape = false ∧
       ∃ q ∈ s.minimal (targetOf (readTo 1)), dieOf q = .east ∧ (s.port q).sends = true ∧ 0 < (s.port q).adaptive) ∧
    (let s := { torus (withPorts 4 { up with adaptive := 0, escape := 2 } {}) with east := { blocked := [(readTo 1, .port 2)] } }
     (readTo 1).escape = false ∧ (s.die .east).blocked.find? (fun b => b.1 == readTo 1) = some (readTo 1, .port 2) ∧ (s.minimal (targetOf (readTo 1))).head? = some 0 ∧ dieOf 0 = .east ∧
       (∀ o ∈ s.minimal (targetOf (readTo 1)), dieOf o = .east → (s.port o).down = false → (s.port o).adaptive = 0) ∧ (s.port 0).sends = true ∧ 2 ≤ (s.port 0).escape) ∧
    (∀ n ∈ [1, 2],
      let p := { pkt .loop 1 with loopDepth := 4, loopPort := 0, hops := n }
      let s := withPorts 4 (ReduitPort.received { up with escape := 2 } [p]) {}
      s.atDie .east (.port 0) p = true ∧ p.kind = .loop ∧ p.loopDepth = 4 ∧ p.loopPort.toNat < 6 ∧
        p.loopPort.toNat = (0 : RPort).val ∧ (s.port 0).sends = true ∧ 2 ≤ (s.port 0).escape) := by
  exact ⟨by decide +kernel, by decide +kernel, by decide +kernel, by decide +kernel⟩

/-- spec/09 R215: a SIG that a port received behind an earlier one of its core to its counter waits. -/
theorem test_sig_turn :
    let g (v : BitVec 8) : Packet := { pkt .signal 0 with slot := 31, sigVal := v }
    let s := torus (withPorts 4 (ReduitPort.received {} [g 1, g 2]) {})
    s.sigTurn (.port 0) (g 1) = true ∧ s.sigTurn (.port 0) (g 2) = false := by decide +kernel

/-! ## Copies under way, stacks, landings -/

/-- A core with a copy of one block in slot 0. -/
def copying (sl : CopySlot) : State := running { Core.fresh with slots := [sl] }

/-- CopyRequestsAndReads: a copy with a request ready, idle and not; a READ of the last two blocks of an LS; a READ of a
failing HBM block. -/
theorem witness_CopyRequestsAndReads :
    (∀ idle ∈ [true, false],
      let sl := { slotOf 0 with idle }
      (copying sl).powered = true ∧ sl ∈ ((copying sl).core c0).slots ∧ (copying sl).slotReady ((copying sl).core c0) sl = true) ∧
    (let p := { pkt .read 2 with addr := coreAddr 1 0 c0 98176 }
     placeOf p.addr = some (.ls c0 98176) ∧ p.blocks ≤ 16 ∧ p.addr2.toNat % 64 = 0 ∧ addrModule p.addr = (inState 4).coord ∧
       (inState 4).inStore (.ls c0 98176) (64 * p.blocks) = true ∧ (inState 4).served (.ls c0 98176) p = true ∧
       (inState 4).cutOff (.ls c0 98176) p = false ∧
       (inState 4).readFails (.ls c0 98176) p.blocks none = none) ∧
    (let p := { pkt .read 16 with addr := stackAddr 5 0 15 64 }
     let s := { inState 4 with hbmStacks := [(15, { hbmBad := [2] })] }
     placeOf p.addr = some (.hbm 15 64) ∧ s.inStore (.hbm 15 64) (64 * p.blocks) = true ∧ s.served (.hbm 15 64) p = true ∧ s.cutOff (.hbm 15 64) p = false ∧
       (s.stack 15).waiting = [] ∧ s.readFails (.hbm 15 64) p.blocks none = some (6, 2)) :=
  ⟨by decide +kernel, by decide +kernel, by decide +kernel⟩

/-- A request of a class at stack 3: a remote READ. -/
def asks : Request := .packet { pkt .read 4 with addr := stackAddr 5 0 3 0, src := EndPt.core 1 c0, tag := EndPt.core 1 c0 }
/-- An entry of a host request. -/
def hostEntry (kept : Bool) (i : Nat) : ReqEntry := ⟨.host, kept, .host false (64 * i) 1, 1, i, 1⟩
/-- Stack 3 with this many kept and shared entries of host requests. -/
def withReqs (dev : BitVec 3) (n m : Nat) : State :=
  { inState dev with hbmStacks := [(3, { up := true, slot := 256, reqs := (List.range n).map (hostEntry true) ++ (List.range m).map (hostEntry false) })] }

/-- BaseDieAndRegulator: a packet with a kept entry free, and behind a READ of its column; a host request with the kept
ones taken and 911 or 912 shared ones, in RUNNING and not; slot 256 with a host request in its last block, slot 255 with
its owner's, an idle stack. -/
theorem witness_BaseDieAndRegulator :
    (let s := { inState 4 with hbmStacks := [(3, { up := true })] }
     s.powered = true ∧ s.forStack 3 asks = true ∧ (s.stack 3).has asks = false ∧ s.cutOffReq asks = false ∧
       (s.stack 3).up = true ∧ (s.stack 4).up = false ∧
       firstInColumn (s.stack 3).waiting asks = true ∧ firstInColumn [.own false 0 1] asks = false ∧
       s.requestPlace asks = some (.hbm 3 0, none) ∧ (s.stack 3).keptUsed (s.classOf asks) < keptOf (s.classOf asks)) ∧
    (let r : Request := .host true 0x100000 1
     ∀ p ∈ ([(5, 911), (5, 912), (4, 0)] : List (Nat × Nat)),
       let s := withReqs (BitVec.ofNat 3 p.1) (keptOf .host) p.2
       s.forStack 3 r = true ∧ (s.stack 3).has r = false ∧ s.cutOffReq r = false ∧ firstInColumn (s.stack 3).waiting r = true ∧ s.classOf r = .host ∧
         s.requestPlace r = none ∧ keptOf .host ≤ (s.stack 3).keptUsed .host ∧ (s.stack 3).sharedUsed = p.2 ∧
         s.dev = p.1) ∧
    ((inState 4).slotServes ((inState 4).stack 3) 0 = none ∧
      (let t := (withReqs 4 1 0).stack 3
       let e := hostEntry true 0
       (withReqs 4 1 0).slotServes t 256 = some e ∧ e.blocks = 1 ∧ t.entryOf e.req = some e ∧ t.waiting = [] ∧ t.unlisted = []) ∧
      (let t : Stack := { slot := 255, reqs := [⟨.remote, true, asks, 4, 0, 4⟩, ⟨.read, true, asks, 4, 0, 4⟩, ⟨.write, true, asks, 4, 0, 4⟩] }
       ∃ e ∈ t.reqs, 1 < e.blocks ∧ t.oldest ((inState 4).slotOwner t.slot) = some e ∧ (inState 4).slotServes t t.slot = some e)) := by
  exact ⟨by decide +kernel, by decide +kernel, by decide +kernel⟩

/-- A fill of kilobyte 5 of stack 3 with one READ waiting. -/
def aFill : Fill := ⟨5, false, [{ pkt .read 16 with addr := stackAddr 5 0 3 5120 }]⟩
def halfFill : Fill := ⟨5, false, [{ pkt .read 8 with addr := stackAddr 5 0 3 5120 }]⟩

/-- HbmReadsAndFills: the last block of an HBM failing once, twice and three times; a clean fill with its waiting READ; one
whose last block fails and is not read. -/
theorem witness_HbmReadsAndFills :
    (0x1FFFFFFFC0 < 0x2000000000 ∧ ((inState 4).stack 15).waiting = [] ∧ Sparse.wf Core.fresh (inState 4).cores = true ∧
      Sparse.wf {} (inState 4).hbmStacks = true ∧ Sparse.wf {} (inState 4).ports = true) ∧
    (let s := { inState 4 with image := some anImage, hbmStacks := [(3, { fills := [aFill] })] }
     (s.stack 3).fills.find? (fun f => f.kb == 5) = some aFill ∧ aFill.dirty = false ∧ s.scUnits ≠ 0 ∧ (s.stack 3).waiting = [] ∧
       (∀ p ∈ aFill.waiting, (s.stack 3).entryOf (.packet p) = none) ∧ (∀ i < 16, 16 * 5 + i ∉ (s.stack 3).hbmBad) ∧
       ∀ p ∈ aFill.waiting, placeOf p.addr = some (.hbm 3 5120)) ∧
    (let s := { inState 4 with image := some anImage, hbmStacks := [(3, { fills := [halfFill] })] }
     (s.stack 3).fills.find? (fun f => f.kb == 5) = some halfFill ∧ halfFill.reads (16 * 5 + 15) = false ∧ (s.stack 3).waiting = [] ∧
       (∀ i < 16, 16 * 5 + i ∉ (s.stack 3).hbmBad) ∧ ∀ p ∈ halfFill.waiting, (s.stack 3).entryOf (.packet p) = none) := by
  decide +kernel

/-- spec/09 R234: a block of a fill that no request reads is not lost when it fails; one that is read halts the job. -/
theorem test_line_fill :
    let s := { inState 4 with image := some anImage, hbmStacks := [(3, { fills := [halfFill] })] }
    (after (.lineFill 3 5 [15]) s).deviceState.vote = 4 ∧ (after (.lineFill 3 5 [7]) s).deviceState.vote = 5 := by decide +kernel

/-- spec/13 R350: a block that fails three times halts the job with cause 5, and the stack shows LOST. -/
theorem test_hbm_lost :
    let s := after (.hbmRead 3 64 3) (inState 4)
    s.deviceState.vote = 5 ∧ s.haltCause = 5 ∧ (s.stack 3).lost = true ∧ (s.stack 3).hbmBad = [1] := by decide +kernel

/-- A WRITE to the last blocks of the LS of core (0, 0); the landing entry of its transfer; other transfers' entries. -/
def landing (final : Bool) (sig : BitVec 8) : Packet :=
  { pkt .write 2 with final, count := 1, addr := coreAddr 1 0 c0 98176, addr2 := if sig = 0 then 0 else coreAddr 6 0 c0 5, sigVal := sig }
def entryOfIt (n : Nat) (final : Option Packet) : Landing := ⟨EndPt.core 0 c0, 0, n, final, false⟩
def others (n : Nat) : List Landing := (List.range n).map fun i => ⟨EndPt.core 1 c0, BitVec.ofNat 5 i, 0, none, false⟩

/-- WritesLandInTheStore: an entry there, the last free entry, none free; the final write with and without a signal. -/
theorem witness_WritesLandInTheStore :
    (∀ final ∈ [true, false], let p := landing final 0
      placeOf p.addr = some (.ls c0 98176) ∧ addrModule p.addr = (inState 4).coord ∧ 98176 + p.data.length ≤ 98304 ∧ p.peal = false ∧ p.pos = 0 ∧
        p.kind = .write ∧ (inState 4).stranded p = false ∧
        entryIn (entryOfIt 0 none :: others 31) p.tag p.slot = some (entryOfIt 0 none) ∧
        entryIn (others 31) p.tag p.slot = none ∧ (others 31).length < 32 ∧
        entryIn (others 32) p.tag p.slot = none ∧ 32 ≤ (others 32).length) ∧
    (∀ sig ∈ ([0, 255] : List Nat), let p := landing true (BitVec.ofNat 8 sig)
      let e := entryOfIt 1 (some p)
      entryIn [e] p.tag p.slot = some e ∧ e.final = some p ∧ e.aborted = false ∧ e.applied = p.count ∧
        (p.sigVal = 0 ∨ (placeOf p.addr2 = some (.ctr c0 5) ∧ addrModule p.addr2 = (inState 4).coord))) := by
  exact ⟨by decide +kernel, by decide +kernel⟩

/-- A module whose peal route 1 runs along row 0 from (0, 0) to (2, 0); a peal packet at a place of the route. -/
def routed : State := { inState 4 with image := some { anImage with routes := [(false, 0, 0, 2)] } }
def peal (pos : Nat) (final sig : Bool) : Packet :=
  { pkt .write 2 with
    peal := true, route := 1, pos, final, addr := coreAddr 1 0 c0 98176
    desc := if sig then BitVec.ofNat 512 (1 <<< 320 + 1 <<< 328 + 1 <<< 334) else 0 }

/-- PealsAlongTheRoute: the core in the middle and the tail, the last blocks of the LS, with and without a signal, of a
copy under way and of one that its issuing core aborted. -/
theorem witness_PealsAlongTheRoute :
    ∀ pos ∈ [1, 2], ∀ final ∈ [true, false], ∀ sig ∈ [true, false],
      let p := peal pos final sig
      routed.powered = true ∧ p.kind = .write ∧ p.peal = true ∧ p.pos ≠ 0 ∧ (routed.routeCore p p.pos).isSome = true ∧
        placeOf p.addr = some (.ls c0 98176) ∧ 98176 + p.data.length ≤ 98304 ∧ (Desc.of p.desc).pealSig = sig ∧
        { routed with inFlight := [p] }.pealTurn p = true ∧ routed.stranded p = false ∧ routed.copyDead p = false ∧
        { routed with cores := [(0, { Core.fresh with slots := [{ slotOf 0 with aborted := true }] })] }.copyDead p = true := by decide +kernel

/-- SignalsAndNotices: a signal for counter 63, an ACK and FAILs (a discard and another) of the core's copy, a REFUSE of this
module's packet, a resend that is due, its source whole and in a failing HBM block. -/
theorem witness_SignalsAndNotices :
    placeOf (coreAddr 6 0 c1 63) = some (.ctr c1 63) ∧ addrModule (coreAddr 6 0 c1 63) = (inState 4).coord ∧
    (let p := { pkt .signal 0 with addr := coreAddr 6 0 c1 63, slot := 31 }
     (inState 4).stranded p = false ∧ { inState 4 with inFlight := [p] }.signalTurn p = true) ∧
    (pkt .ack 0).tag = (inState 4).coreEnd c0 ∧ (pkt .refuse 0).src.module = (inState 4).coord ∧
    (let q : Resend := ⟨{ pkt .write 1 with origin := coreAddr 1 0 c0 0 }, 6⟩
     { inState 4 with refTime := 6, resends := [q] }.resends.find? (fun r => decide (r.due ≤ 6)) = some q ∧ q.packet.origin ≠ 0 ∧
       (inState 4).rereadFails q.packet = none) ∧
    (let s := { inState 4 with hbmStacks := [(15, { hbmBad := [2] })], cores := [(0, { Core.fresh with lsBad := [1535] })] }
     let p := { pkt .write 1 with origin := stackAddr 5 0 15 128 }
     s.rereadFails p = some (.hbm 15 128, 6, 2) ∧ s.rereadLost p (.hbm 15 128) = [2] ∧ (EndPt.coreOf p.tag).isSome = true ∧
       s.rereadFails { p with origin := coreAddr 1 0 c0 98240 } = some (.ls c0 98240, 1, 1535)) ∧
    (∀ i ∈ ([16, 30] : List Nat), let p := { pkt .fail 0 with slot := BitVec.ofNat 5 i }
      let x : Core := { Core.fresh with lsBad := [1535], repairs := [(i, 1535)] }
      p.tag = (running x).coreEnd c0 ∧ 16 ≤ p.slot.toNat ∧ p.slot.toNat ≤ 30 ∧
        ((running x).core c0).repairs.find? (·.1 == p.slot.toNat) = some (p.slot.toNat, 1535)) ∧
    (∀ i ∈ ([0, 15] : List Nat), let p := { pkt .fail 0 with slot := BitVec.ofNat 5 i }
      p.tag = (copying (slotOf i)).coreEnd c0 ∧ p.slot.toNat ≤ 15 ∧
        ((copying (slotOf i)).core c0).slots.find? (fun sl => sl.id == p.slot.toNat) = some (slotOf i) ∧ (slotOf i).aborted = false ∧
        Sparse.wf Core.fresh (copying (slotOf i)).cores = true) := by
  refine ⟨?_, ?_, ?_, ?_, ?_, ?_, ?_, ?_, ?_⟩ <;> decide +kernel

/-! ## Rolls, shadows, the knell -/

/-- A sealed checkpoint after seq earlier ones. -/
def checkpoint (seq : Nat) : Checkpoint :=
  { seq, beat := 0, ctxs := Quad.all ⟨7, [], true, false, none, none, 4, 0, false, []⟩, banks := Quad.all {}, cpys := Quad.all 1, sigs := Quad.all 0
    tallies := [], landed := [], stat := [], isSealed := true }

/-- A core with a roll due, banks opened after one checkpoint was taken, and these checkpoints. -/
def rolled (cks : List Checkpoint) : Core :=
  { at1 9 1 with
    roll := some ⟨1, 0, 0, none, 0⟩, checkpoints := cks, banks := Quad.all { isOpen := true, owner := 0, age := 1, opened := 1 } }

/-- CoreRollRestoresCheckpoint: two checkpoints, of which the older is the restart one; none that is sealed and old enough; no
roll due; an overflow and a fault during a replay. -/
theorem witness_CoreRollRestoresCheckpoint :
    (rolled [checkpoint 1, checkpoint 2]).roll.isSome = true ∧
    (rolled [checkpoint 1, checkpoint 2]).restart = some (checkpoint 1, 1) ∧
    (rolled [checkpoint 2]).roll.isSome = true ∧ (rolled [checkpoint 2]).restart = none ∧ (at1 9 1).roll = none ∧
    ({ rolled [checkpoint 1, checkpoint 2, checkpoint 3] with
        rolling := true, rollSeq := 2, roll := some ⟨0, 0, 0, none, 0⟩ } : Core).restart = some (checkpoint 2, 1) ∧
    (rolled [{ checkpoint 1 with isSealed := false }]).restart = none ∧
    ({ rolled [checkpoint 1, checkpoint 2] with rolling := true, rollSeq := 2 } : Core).restart = some (checkpoint 1, 1) := by decide +kernel

/-- spec/13 R342: a landed block that fails its guard, read again while its repair copy is under way, is one fault and gets one
repair copy; the copy's FAIL notice leaves the block lost (R350), and the ACK of a copy that landed ends it. -/
theorem test_repair_once :
    let e : LandEntry := ⟨coreAddr 1 0 c1 0, 64, 0, 0, 64, 64, EndPt.core 0 c1, false, 0⟩
    let s := running { Core.fresh with landed := [1], landLog := [e] }
    let s1 := s.copyGuard c0 1 1
    let s2 := s1.copyGuard c0 1 1
    let s3 := after (.failNotice { pkt .fail 0 with slot := 16, cls := 6 }) s2
    ((s1.core c0).repairs = [(16, 1)] ∧ s2 = s1) ∧
      ((s3.core c0).lost = [(1, 1)] ∧ s3.deviceState.vote = 5 ∧ s3.copyGuard c0 1 1 = s3) := by decide +kernel

/-- spec/17 R446: block 1535 found failing in beat 7 triggers a trace armed for faults there, before the roll. -/
theorem test_fault_triggers :
    (let s := { running Core.fresh with beat := 7, trace := { phase := .armed, armTrig := 4 } }
     let x := s.core c0
     x.roll = none ∧ x.lost.contains (1, 1535) = false ∧ x.losesAgain 1 1535 = false ∧ x.foundAgain 1 1535 = false ∧ x.mends 1 1535 = false ∧
       s.trace.armTrig.getLsbD 2 = true ∧
       (s.detect c0 (.ls 1535 3)).trace.phase = .triggered ∧ (s.detect c0 (.ls 1535 3)).trace.trigBeat = 7 ∧
       (s.detect c0 (.ls 1535 3)).faults.lastFault = 0) := by decide +kernel

/-- spec/13 R341, R343: the roll takes context 2 back to index 7 of the checkpoint and suppresses one CPY. -/
theorem test_core_roll :
    let t := ((after (.coreRoll c0 none) (running (rolled [checkpoint 1, checkpoint 2]))).core c0).ctx 2
    (t.pc, t.n, t.running, t.skipCpy) = (7, 4, false, 1) := by decide +kernel

/-- CopyRollStartsAgain: an aborted copy, its packets drained, by a guard failure and by lost data; one not aborted. -/
theorem witness_CopyRollStartsAgain :
    ∀ ab ∈ [true, false], ∀ rolling ∈ [true, false],
      let sl := { slotOf 15 with aborted := ab, rolling }
      let s := copying sl
      Sparse.wf Core.fresh s.cores = true ∧ (s.core c0).slots.find? (fun sl => sl.id == 15) = some sl ∧ sl.aborted = ab ∧
        s.drained (s.coreEnd c0) (BitVec.ofNat 5 15) = true ∧ s.sourceWhole (Desc.of sl.desc) = true := by decide +kernel

/-- A shadow record of core (0, 0): the signature of these bytes. -/
def record (partner : Option Word) : ShadowRec := ⟨0, 4, 0, 0, [], crc32c [1, 2, 3], partner⟩

/-- A running module whose image gives cores a shadow area of 16 KiB, and whose core
(0, 0) has a record of one such load, its first input block failing here. -/
def badShadow : State :=
  { running { Core.fresh with shadow := some { record none with steps := [⟨encM 0x10 (fM 0 0 0 0 0 0 0 0 0), 0, 8192, 0⟩] }, lsBad := [0] } with
    image := some { anImage with shadowLs := 1 } }

/-- ShadowAndReferee: a record its partner can run, with sound inputs and a failing one, one that is late, one the referee
runs, its area free and held; outputs that match the core, the partner, neither. -/
theorem witness_ShadowAndReferee :
    (∀ b ∈ [true, false],
      let p := if b then none else some (crc32c [4])
      let s := running { Core.fresh with shadow := some (record p) }
      s.powered = true ∧ (s.core c0).shadow = some (record p) ∧ s.canShadow (partnerOf c0) (record p) = true ∧ s.shadowLate (record p) = false ∧
        (s.core (partnerOf c0)).idle = true ∧ s.canShadow (refereeOf c0) (record p) = true ∧ (s.core (refereeOf c0)).idle = true ∧
        s.badInput c0 true (record p) = none ∧ s.badInput (partnerOf c0) false (record p) = none ∧ s.areaHeld (refereeOf c0) = false) ∧
    (badShadow.badInput c0 true { record none with steps := [⟨encM 0x10 (fM 0 0 0 0 0 0 0 0 0), 0, 8192, 0⟩] } = some 0 ∧
      badShadow.canShadow (partnerOf c0) { record none with steps := [⟨encM 0x10 (fM 0 0 0 0 0 0 0 0 0), 0, 8192, 0⟩] } = true) ∧
    ({ inState 4 with cores := [(coreKey (partnerOf (refereeOf c0)), { Core.fresh with shadow := some (record (some 0)) })] }.areaHeld
      (refereeOf c0) = true) ∧
    { inState 4 with beat := 3 }.shadowLate (record none) = true ∧
    (crc32c [1, 2, 3] = (record none).signature ∧ crc32c [4] ≠ (record none).signature ∧ crc32c [5] ≠ (record none).signature ∧
      crc32c [5] ≠ crc32c [4]) := by
  exact ⟨by decide +kernel, by decide +kernel, by decide +kernel, by decide +kernel, by decide +kernel⟩

/-- A running module with these charged events. -/
def withFaults (es : List FaultEvent) : State := { inState 4 with faults := { history := es } }

/-- KnellEntryRecordsAndNotifies: a core's second fault of the day, and its first. -/
theorem witness_KnellEntryRecordsAndNotifies :
    (withFaults []).powered = true ∧ (withFaults []).dev ≠ 6 ∧ (withFaults []).dev ≠ 1 ∧
    (withFaults [⟨0, 1, .core c0⟩, ⟨0, 1, .core c0⟩]).limitReached (1 : BitVec 4).toNat (.core c0) = true ∧
    (withFaults [⟨0, 1, .core c0⟩, ⟨0, 1, .core c1⟩]).limitReached (1 : BitVec 4).toNat (.core c0) = false := by decide +kernel


/-! ## Carillon -/

/-- A word of fields: value and lowest bit. -/
def bitsAt (fs : List (Nat × Nat)) : Nat := fs.foldl (fun a f => a + f.1 * 2 ^ f.2) 0

/-- An operation: kind, format, count, regions at 0x10000, 0x20000 and 0x30000, one member module of one core, rank 0 owning at
stack 3. -/
def anOp (kind fmt count : Nat) : BitVec 512 :=
  BitVec.ofNat 512 (bitsAt [(kind, 0), (fmt, 4), (count, 32), (0x10000, 64), (0x20000, 128), (1, 274), (1, 307), (1, 317), (3, 362),
    (0x30000, 448)])

/-- Stack 3 of a module with operation 63, its progress and its block 0. -/
def carilloning (kind fmt count : Nat) (r : OpRun) (v : RBlock) : State :=
  { inState 4 with
    beat := 20, image := some anImage
    hbmStacks := [(3, { car := { ops := [(63, anOp kind fmt count)], runs := [(63, r)], blocks := [(blockKey 63 0, v)] } })] }

/-- The 16 pieces of rank 0. -/
def pieces : List Piece := (List.range 16).map fun i => ⟨0, i, List.replicate 64 0⟩

/-- ReduceAddsInRankOrder: the last rank's 16 pieces; a block with a second rank to come; blocks DONE for 16 and 15 beats. -/
theorem witness_ReduceAddsInRankOrder :
    (let s := carilloning 1 5 1 {} { state := .filling, pieces }
     let e := (s.stack 3).op 63
     let v := (s.stack 3).rblock 63 0
     s.powered = true ∧ e.kind = 1 ∧ v.state = .filling ∧ (rankData v.pieces v.next).isSome = true ∧ v.next + 1 = e.ranks) ∧
    (OpEntry.of (anOp 1 6 1 + BitVec.ofNat 512 (1 <<< 307))).ranks = 2 ∧
    (∀ n ∈ [4, 5], let s := carilloning 1 5 1 {} { state := .done, doneBeat := n }
      ((s.stack 3).rblock 63 0).state = .done ∧ (n = 4 → ((s.stack 3).rblock 63 0).doneBeat + 16 ≤ s.beat) ∧
        (n = 5 → s.beat < ((s.stack 3).rblock 63 0).doneBeat + 16)) := by
  exact ⟨by decide +kernel, by decide +kernel, by decide +kernel⟩

/-- A CARILLON packet of operation 63 at an HBM offset of stack h with data blocks of zeros. -/
def carPacket (h : StackId) (off subop : Nat) (gen : BitVec 16) (blocks : Nat) : Packet :=
  { pkt .carillon (blocks + 1) with
    addr := stackAddr 5 0 h off
    data := CarTag.bytes { op := 63, gen, subop, stack := 3, sender := 0, unit := 0, step := 0 } ++ List.replicate (64 * blocks) 0 }

/-- The tag of such a packet. -/
def carTag (subop : Nat) (gen : BitVec 16) : CarTag := { op := 63, gen, subop, stack := 3, sender := 0, unit := 0, step := 0 }

/-- DualPathCompares: copies at the shadow (stack 2) with no piece new, short of a whole block, and the last of it, with space
for the block and with both areas full; a result at the owner, short of 16 blocks and the last one. -/
theorem witness_DualPathCompares :
    (∀ n ∈ [15, 14, 16],
      let s := carilloning 1 5 1 {} { state := .filling }
      let d : DualStage := ⟨63, 0, stackAddr 5 0 3 0x10000, pieces.take n, [(2, false), (1, false)]⟩
      let s := s.modStack 2 fun t => { t with car := { t.car with duals := [d] } }
      let p := carPacket 2 (0x10000 + 960) 2 0 1
      s.carMet p 2 2 (0x10000 + 960) (carTag 2 0) ∧ ((s.stack (shadowOwner (carTag 2 0))).op 63).kind = 1 ∧
        (piecesAt (0x10000 + 960) (p.data.drop 64)).map Prod.fst = [15] ∧ (pieces.take n).length = n ∧
        (dualAlloc ((s.stack (shadowOwner (carTag 2 0))).op 63) (s.stack 2).car (some d) 0).isSome = true ∧
        dualAlloc ((s.stack (shadowOwner (carTag 2 0))).op 63) { stageUse := stageSize, spillUse := spillSize } none 0 = none) ∧
    (∀ n ∈ [14, 15],
      let v : RBlock := { state := .done, dual := (List.range n).map fun i => (i, List.replicate 64 (0 : Byte)) }
      let s := carilloning 1 5 1 {} v
      let p := carPacket 3 (0x10000 + 960) 3 0 1
      s.carMet p 3 3 (0x10000 + 960) (carTag 3 0) ∧ judgeDual (s.stack 3) (0x10000 + 960) (carTag 3 0) = .take ∧
        (v.dual ++ piecesAt (0x10000 + 960) (p.data.drop 64)).length = n + 1) := by
  unfold State.carMet; exact ⟨by decide +kernel, by decide +kernel⟩

/-- Stack 3 of such a module with these blocks of its HBM lost. -/
def failing (s : State) (bs : List Nat) : State := s.modStack 3 fun t => { t with hbmBad := bs }

/-- GradientNormExchange: a SUMSQ that is due, its records whole and one lost; the first and the last partial of 16; a record for a running SUMSQ. -/
theorem witness_GradientNormExchange :
    (let s := carilloning 2 0 0 { running := true } {}
     s.powered = true ∧ (s.stack 3).due 63 2 = true ∧ s.rankCoord ((s.stack 3).op 63).ownerRank = some 0 ∧
       (s.stack 3).lostIn (recordRanges (s.stack 3).hbm ((s.stack 3).op 63).region ((s.stack 3).op 63).count [0]) = []) ∧
    (let s := failing (carilloning 2 0 1 { running := true } {}) [0x400]
     (s.stack 3).due 63 2 = true ∧
       (s.stack 3).lostIn (recordRanges (s.stack 3).hbm ((s.stack 3).op 63).region ((s.stack 3).op 63).count [0]) = [0x400]) ∧
    (∀ n ∈ [0, 15],
      let r : OpRun := { running := true, partials := (List.range n).map fun i => (i + 4, 0, false) }
      let s := carilloning 2 0 0 r {}
      let p := carPacket 3 0x20000 4 0 2
      s.carMet p 4 3 0x20000 (carTag 4 0) ∧ ((s.stack 3).op 63).kind = 2 ∧ (carTag 4 0).gen = r.gen ∧
        (∀ q ∈ r.partials, q.1 ≠ 16 * ((carTag 4 0).sender - ((s.stack 3).op 63).mr0) + (carTag 4 0).stack) ∧
        16 * ((s.stack 3).op 63).mcount = 16) ∧
    (let s := carilloning 2 0 0 { running := true } {}
     let p := carPacket 3 0x20000 5 0 1
     s.carMet p 5 3 0x20000 (carTag 5 0) ∧ (carTag 5 0).gen = ((s.stack 3).opRun 63).gen ∧ ((s.stack 3).opRun 63).running = true ∧
       (s.stack 3).offTriggers 0x20000 (p.data.length - 64) ∧ ((s.stack 3).op 63).doneAddr = 0) := by
  unfold State.carMet Stack.offTriggers; exact ⟨by decide +kernel, by decide +kernel, by decide +kernel, by decide +kernel⟩

/-- CollectivesMoveData: the three starts due, their data whole and lost; a data packet of the present generation, of the farthest one ahead, of the
nearest one behind, and one for no such operation. -/
theorem witness_CollectivesMoveData :
    (∀ k ∈ [3, 4, 5], ∀ bs ∈ ([[], [0x400, 0xC00]] : List (List Nat)),
      let t := (failing (carilloning k 0 1 { running := true } {}) bs).stack 3
      let e := t.op 63
      t.due 63 k = true ∧ t.lostIn [(e.region, 1024 * e.count)] = bs.take 1 ∧
        t.lostIn [(e.region, 1024 * e.unit * e.count), (e.region3, 4 * e.count)] = bs.drop 1 ∧
        t.offTriggers (e.region2 + 1024 * e.count * (0 - e.mr0)) (1024 * e.count)) ∧
    ((carilloning 3 0 1 { running := true } {}).stack 3).opRun 63 = { running := true } ∧
    (∀ g ∈ ([0, 0x7FFF, 0x8000] : List Nat),
      let s := carilloning 3 0 1 { running := true } {}
      let gen : BitVec 16 := BitVec.ofNat 16 g
      s.carMet (carPacket 3 0x20000 1 gen 15) 1 3 0x20000 (carTag 1 gen) ∧ ((s.stack 3).op 63).kind = 3 ∧
        (g = 0 → judgeData 0x20000 (s.stack 3) (carTag 1 gen) = .take ∧ (s.stack 3).offTriggers 0x20000 (64 * 15) ∧
          0 + 15 ≠ 16 * ((s.stack 3).op 63).count * ((s.stack 3).op 63).mcount) ∧
        (g = 0x7FFF → gen ≠ ((s.stack 3).opRun 63).gen ∧ (gen - ((s.stack 3).opRun 63).gen).toNat < 2 ^ 15) ∧
        (g = 0x8000 → 2 ^ 15 ≤ (gen - ((s.stack 3).opRun 63).gen).toNat)) ∧
    ((carilloning 2 0 1 { running := true } {}).stack 3 |>.op 63).kind ∉ [3, 4, 5] := by
  unfold State.carMet Stack.offTriggers; exact ⟨by decide +kernel, by decide +kernel, by decide +kernel, by decide +kernel⟩

/-- OptimizerStepEnds: a step that is due, with an empty list and with one record, its data whole and lost; the record's
FREEZE 0 and 1; NONFINITE. -/
theorem witness_OptimizerStepEnds :
    (∀ n ∈ [0, 1], ∀ bs ∈ ([[], [0x400]] : List (List Nat)), let s := failing (carilloning 6 0 n { running := true } {}) bs
      (s.stack 3).lostIn (recordRanges (s.stack 3).hbm ((s.stack 3).op 63).region ((s.stack 3).op 63).count (List.range 4)) = (if n = 0 then [] else bs) ∧
      (s.stack 3).lostIn [(((s.stack 3).op 63).region2, 64)] ++
        (s.stack 3).lostIn [((OptStep.of (s.stack 3).hbm ((s.stack 3).op 63).region2).normRec, 64)] = [] ∧
      (s.stack 3).car.loaded = false ∧ s.powered = true ∧ (s.stack 3).due 63 6 = true ∧ ((s.stack 3).op 63).count = n ∧
        bitOf (leNat (Memory.read (s.stack 3).hbm (OptStep.of (s.stack 3).hbm ((s.stack 3).op 63).region2).normRec 64)) 64 = false ∧
        (recordBits (s.stack 3).hbm ((s.stack 3).op 63).region).1 = false) ∧
    ((failing (carilloning 6 0 0 { running := true } {}) [0x800]).stack 3).lostIn [(0x20000, 64)] = [0x800] ∧
    (recordBits [(0x10000 + 192, 1)] 0x10000).1 = true ∧ bitOf (leNat (Memory.read [(8, 1)] 0 64)) 64 = true := by
  exact ⟨by decide +kernel, by decide +kernel, by decide +kernel, by decide +kernel⟩

/-! ## Power, host -/

/-- BusEventsAndRides: the bus there; a ride in its work part, ended in RUNNING and in a start-up that waits; support enabled below SUPPORT_V, and under way; sags and
swells at the edges of their classes. -/
theorem witness_BusEventsAndRides :
    (inState 4).powered = true ∧ (inState 4).tympan.busLost = false ∧
    (let t : Tympan := { busLost := true, rideWork := true }
     t.busLost = true ∧ t.rideWork = true ∧ (inState 4).control.booting = none ∧
       (waiting (inState 1)).control.booting.isSome = true ∧ (waiting (inState 1)).aligned = false ∧ (inState 1).aligned = true) ∧
    (let t : Tympan := { supportCfg := 3 }
     t.supportCfg.getLsbD 0 = true ∧ t.support = false ∧ t.busLost = false ∧ (7399 : BitVec 14).toNat < t.supportV.toNat) ∧
    { (inState 4).tympan with support := true }.support = true ∧ 0 < 1 ∧ 7199 < 7200 ∧ 8800 < 8801 := by decide +kernel

/-- spec/17, table of sag classes: a sag to 559.9 V of 9,999 samples counts in the deepest class, duration class 3. -/
theorem test_sag_class :
    (after (.busSag 5599 9999) (inState 4)).counters = [(0x1D, { value := 1 })] ∧
    (after (.busSwell 9200 10000) (inState 4)).counters = [(0x24, { value := 1 })] := by decide +kernel

/-- spec/16 R423: slot 0 fails its signature at step 0x03; slot 1 boots, and FW_SLOT shows slot 0 as not valid. -/
theorem test_slot_signature :
    (let s := after (.powerUp { boot with flash := { slots := [false] } }) { State.reset with tympan := { State.reset.tympan with refclk := true } }
     s.fwSlot = 5 ∧ s.control.altTaken = true) := by decide +kernel

/-- PowerComesAndGoes: an unpowered module with REFCLK; a start-up that waits for its alignment; a powered and an unpowered
module. -/
theorem witness_PowerComesAndGoes :
    (let s := { State.reset with tympan := { State.reset.tympan with refclk := true } }
     s.powered = false ∧ s.tympan.refclk = true ∧ boot.fails = [] ∧ boot.align = some ⟨[], none, []⟩ ∧ boot.interrupted = none ∧
       boot.flash.journal = [] ∧ boot.flash.preferred = false ∧ boot.flash.knell = false ∧ boot.flash.part = none ∧
       (∀ p : RPort, boot.noFarEnd.contains p = true) ∧
       s.control.booting = none ∧ s.record.cut = none ∧ s.record.preferredOk = true ∧ s.record.knellSet = false ∧
       s.record.preferred ∉ boot.flash.slots ∧ s.record.journal = []) ∧
    (let s := { inState 1 with clocksReleased := false, control := { State.reset.control with booting := some (boot, false, true, []) } }
     s.powered = true ∧ s.control.booting = some (boot, false, true, []) ∧ s.aligned = true ∧ s.clocksReleased = false ∧ s.phase = 0 ∧
       s.record.knellSet = false) ∧
    (let r : BootRun := { boot with noFarEnd := [1, 2, 3, 4, 5], align := some ⟨[(0, 8)], some (0, 7, 0, 1000, 0), []⟩ }
     (∀ p : RPort, r.noFarEnd.contains p = false → p = 0) ∧ (8 : BitVec 16) ≠ 0 ∧ (1000 : BitVec 12) ≠ 0) ∧
    (inState 4).powered = true ∧ State.reset.powered = false := by
  exact ⟨⟨by decide +kernel, by decide +kernel, rfl, rfl, rfl, rfl, rfl, rfl, rfl, by decide +kernel, rfl, rfl, rfl, by decide +kernel, by decide +kernel, rfl⟩,
    ⟨rfl, rfl, rfl, rfl, rfl, by decide +kernel⟩, by decide +kernel, rfl, rfl⟩

/-- A module reached by port A, which holds every semaphore but the last; this entry in progress on ring 7. -/
def onPort (dev : BitVec 3) (e : BitVec 512) : State :=
  { inState dev with
    image := some anImage
    portA := { linkUp := true, sqs := [(7, { cfg := 0x104, active := some e })], cqs := [(0, { cfg := 0x104, phase := true, reserved := 1 })] }
    sems := (List.range 15).map fun k => (k, Triple.all 1) }

/-- An entry of fields. -/
def entry (fs : List (Nat × Nat)) : BitVec 512 := BitVec.ofNat 512 (bitsAt fs)

/-- SemaphoresHaveOneHolder: owners 0, the port and the other port, in an even and an odd beat. -/
theorem witness_SemaphoresHaveOneHolder :
    ∀ o ∈ ([0, 1, 2] : List Nat),
      let s := { onPort 2 0 with sems := [(15, Triple.all (BitVec.ofNat 2 o))].filter fun q => q.2 != Triple.all 0 }
      s.reached .a = true ∧ (s.host .a).d3hot = false ∧ s.noFirmware = false ∧ s.dev ≠ 1 ∧ (s.sem 15).vote = BitVec.ofNat 2 o ∧
        (s.sem 15).differs = false := by decide +kernel

/-- spec/14 R388: both ports claim a free semaphore in beat 0 and in beat 1; port A reads 1, then 0. -/
theorem test_flam :
    ∀ b ∈ [0, 1], (after (.semAcquire .a 15 true) { onPort 2 0 with beat := b }).hostOut = [.value .a (if b = 0 then 1 else 0)] := by
  decide +kernel

/-- RingsFetchInOrder: rings of 16 entries; index 15 and 16; a completion ring with no entry held, and a disabled one that
holds one; a known and an unknown opcode, fetched at the last entry, alone and in the cycle of the port that won. -/
theorem witness_RingsFetchInOrder :
    (let s := onPort 2 0
     s.reached .a = true ∧ (s.host .a).d3hot = false ∧ s.noFirmware = false ∧ s.dev ≠ 1 ∧
       15 % 4096 < 2 ^ (((s.host .a).sq 7).cfg.toNat % 16) ∧ ¬16 % 4096 < 2 ^ (((s.host .a).sq 7).cfg.toNat % 16) ∧ ((s.host .a).cq 0).held = []) ∧
    (let c : CompRing := { cfg := 0x04, held := [⟨7, 1, 0, 0, none⟩] }
     c.cfg.getLsbD 8 = false ∧ c.held = ⟨7, 1, 0, 0, none⟩ :: [] ∧ (0x104 : Word).getLsbD 8 = true ∧ 4 ≤ (0x104 : Word).toNat % 16) ∧
    (let h : HostPort := { sqs := [(7, { cfg := 0x104, head := 15, tail := 0 })], cqs := [(0, { cfg := 0x104 })] }
     h.fetches 7 = true ∧ { inState 2 with beat := 1 }.flam ≠ .a ∧ (h.sq 7).cfg.toNat / 16 % 8 = 0 ∧ knownCommand 10 = true ∧ knownCommand 11 = false) := by decide +kernel

/-- PortEventsAndTests: a powered module with no test and with one; the page out of D3hot; a LOOPBACK of stack 15, depth 3,
of the other host port, depth 2, and of port 0, depth 4, one block of which came back wrong. -/
theorem witness_PortEventsAndTests :
    (let s := onPort 2 0
     s.powered = true ∧ s.loopTests = [] ∧ Sparse.wf (Triple.all 0) s.sems = true ∧ (s.host .a).enabled = true ∧ (s.host .a).loopOut = false ∧
       (2 : BitVec 2) ≠ 3 ∧ (s.host .a).linkUp = true) ∧
    { (onPort 2 0).portA with d3hot := true }.d3hot = true ∧
    (let e := entry [(9, 0), (2, 64), (15, 68), (3, 72), (64, 96)]
     let s := onPort 2 e
     let t := LoopTest.of .a 7 e.toNat
     s.command .a 7 9 = some e ∧ badEntry e [(74, 64), (95, 80), (127, 96), (191, 128)] = false ∧ bitsOf e.toNat 127 96 % 64 = 0 ∧
       t.valid = true ∧ s.owns .a 4 = true ∧ s.loopOk t = true ∧ t.target = 2 ∧
       { s with loopTests := [t] }.loopTests.find? (fun t => t.port == HPort.a && t.ring == 7) = some t) ∧
    (let e := entry [(9, 0), (0, 64), (1, 68), (2, 72), (64, 96)]
     let s := { onPort 2 e with portB := { linkUp := true } }
     let t := LoopTest.of .a 7 e.toNat
     s.command .a 7 9 = some e ∧ badEntry e [(74, 64), (95, 80), (127, 96), (191, 128)] = false ∧ t.valid = true ∧
       s.loopOk t = true ∧ t.target = 0 ∧ t.depth = 2 ∧ (s.host .b).linkUp = true) ∧
    (let t : LoopTest := { port := .a, ring := 7, target := 1, unit := 0, depth := 4, seed := 1, len := 512, back := 1, wrong := 1, hops := 2 }
     t.target = 1 ∧ 4 ≤ t.depth.toNat ∧ 1 ≤ t.wrong + ((loopData t.seed t.len).length - t.back)) := by decide +kernel

/-- RingCommandsAct: for each of the five a reserved header bit; LAUNCH without RUN, too early, and at the earliest beat;
HALT of a job and of a launch; a hint set, removed and past eight; the cap; DRAIN; a quiet module. -/
theorem witness_RingCommandsAct :
    (∀ op ∈ [2, 3, 4, 5, 10], let e := entry [(op, 0), (1, 31)]
      (onPort 4 e).command .a 7 op = some e ∧ bitsOf e.toNat 31 15 ≠ 0) ∧
    (∀ d ∈ [15, 16], let e := entry [(2, 0), (d, 64)]
      (onPort 3 e).command .a 7 2 = some e ∧ badEntry e [(127, 64)] = false ∧ (onPort 3 e).owns .a 1 = true ∧
        { onPort 3 e with sems := [] }.owns .a 1 = false ∧ (onPort 3 e).launchOk (bitsOf e.toNat 127 64) = (d == 16)) ∧
    (let e := entry [(3, 0)]
     (onPort 4 e).command .a 7 3 = some e ∧ badEntry e [] = false ∧ (onPort 4 e).owns .a 1 = true ∧ (onPort 4 e).dev = 4 ∧
       (onPort 3 e).dev = 3 ∧ { onPort 3 e with armed := true }.armed = true) ∧
    (∀ w ∈ [0, 11501], ∀ n ∈ [7, 8], let e := entry [(4, 0), (90, 64), (w, 128), (1, 144)]
      let s := { onPort 4 e with tympan := { hints := (List.range n).map fun i => ⟨i, 1, 1⟩ } }
      s.command .a 7 4 = some e ∧ badEntry e [(175, 64)] = false ∧ s.owns .a 2 = true ∧ s.dev = 4 ∧
        (s.tympan.hints.filter (fun o => o.beat != 90)).length = n ∧ bitsOf e.toNat 143 128 = w ∧ bitsOf e.toNat 175 144 ≠ 0) ∧
    (let e := entry [(5, 0), (9000, 64)]
     (onPort 2 e).command .a 7 5 = some e ∧ badEntry e [(95, 64)] = false ∧ (onPort 2 e).owns .a 2 = true ∧ 2 ≤ (onPort 2 e).dev) ∧
    (let e := entry [(10, 0)]
     (onPort 5 e).command .a 7 10 = some e ∧ badEntry e [] = false ∧ (onPort 5 e).owns .a 6 = true ∧ (onPort 5 e).dev = 5) ∧
    ((inState 5).quiet = true ∧ Sparse.wf {} (onPort 5 0).portA.sqs = true ∧ Sparse.wf {} (onPort 5 0).portB.sqs = true) := by
  refine ⟨?_, ?_, ?_, ?_, ?_, ?_, ?_⟩ <;> decide +kernel

/-- An aligned window request of n bytes at offset 0 lies inside every window. -/
theorem window_takes (p : HPort) (n : Nat) (h : n ≤ 4096) : inWindow2 p 0 n = true := by
  have hs : 2 ^ 30 ≤ windowSize p := Nat.pow_le_pow_right (by decide) (Nat.le_add_right 30 _)
  simp only [inWindow2, Nat.zero_mod, Nat.zero_add, Bool.and_eq_true, decide_eq_true_eq]
  exact ⟨by omega, h⟩

/-- The window of a port with base 0 begins at stack 0, offset 0. -/
theorem window_zero (s : State) (p : HPort) (h : (s.host p).bar2Base = 0) : s.window p 0 = (0, 0) := by
  simp [State.window, h, bitsOf]

/-- A COPY of 64 bytes between host address 0x1000 and the last block of HBM 15. -/
def copyEntry (toHost sig : Nat) : BitVec 512 :=
  entry [(6, 0), (toHost, 64), (0x1000, 128), ((stackAddr 5 0 15 0x1FFFFFFFC0).toNat, 192), (64, 256),
    (sig * (coreAddr 6 0 c0 9).toNat, 288), (sig, 352)]

/-- A state with the last stack in service. -/
def lastUp (s : State) : State := { s with hbmStacks := [(0, { up := true }), (15, { up := true })] }

/-- CopiesAndWindows: COPY from the host with and without a signal, to the host; a load whose read fails, before and after the
load is taken; a whole window request of 4,096 bytes, all good and with a failing block; a write alone, one that waits for the
other port's of its cycle, and that other port's, which reaches the block first. -/
theorem witness_CopiesAndWindows :
    (∀ q ∈ [(0, 0), (0, 1), (1, 0)], let e := copyEntry q.1 q.2
      let s := lastUp (onPort 2 e)
      s.command .a 7 6 = some e ∧ badEntry e [(64, 64), (191, 128), (255, 192), (287, 256), (351, 288), (359, 352)] = false ∧
        (s.stack 15).up = true ∧ (∀ w ∈ s.heldWrites, w.1 ≠ otherPort .a) ∧ s.loadOf .a 7 = false ∧
        s.copyParamsOk (CopyParams.of e.toNat) = true ∧ s.mayReach (CopyParams.of e.toNat) = true ∧
        addrModule (CopyParams.of e.toNat).dev = s.coord ∧ placeOf (CopyParams.of e.toNat).dev = some (.hbm 15 0x1FFFFFFFC0) ∧
        (s.stack 15).plain 0x1FFFFFFFC0 (CopyParams.of e.toNat).len ∧ (CopyParams.of e.toNat).toHost = (q.1 == 1) ∧
        (⟨List.replicate 64 0, []⟩ : CopyIn).bytes.length = (CopyParams.of e.toNat).len ∧ (s.stack 15).hbmBad = [] ∧ s.loopTests = [] ∧
        s.flam = .a ∧ { s with beat := 1 }.flam ≠ .a) ∧
    (∀ q ∈ [0, 1], let e := entry [(6, 0), (q, 64), (0x1000, 128), ((stackAddr 4 0 15 ((onPort 2 0).scProgram - 64)).toNat, 192), (64, 256)]
      let s := lastUp (onPort 2 e)
      s.command .a 7 6 = some e ∧ badEntry e [(64, 64), (191, 128), (255, 192), (287, 256), (351, 288), (359, 352)] = false ∧
        (s.stack 15).up = true ∧ s.heldWrites = [] ∧ s.copyParamsOk (CopyParams.of e.toNat) = true ∧
        s.mayReach (CopyParams.of e.toNat) = true ∧ addrModule (CopyParams.of e.toNat).dev = s.coord ∧
        placeOf (CopyParams.of e.toNat).dev = some (.sc 15 ((onPort 2 0).scProgram - 64)) ∧ (CopyParams.of e.toNat).toHost = (q == 1) ∧
        (CopyParams.of e.toNat).len = 64 ∧ (s.stack 15).scBad = []) ∧
    (let s := { inState 2 with load := some ⟨.a, 7, [], []⟩ }
     s.load = some ⟨.a, 7, [], []⟩ ∧ s.powered = true) ∧
    (let e := entry [(6, 0), ((stackAddr 5 1 0 0).toNat, 192), (64, 256)]
     let s : State := { onPort 4 e with image := some { anImage with dimX := 2 } }
     let q := CopyParams.of e.toNat
     s.command .a 7 6 = some e ∧ badEntry e [(64, 64), (191, 128), (255, 192), (287, 256), (351, 288), (359, 352)] = false ∧
       s.copyParamsOk q = true ∧ s.mayReach q = true ∧ addrModule q.dev ≠ s.coord ∧ q.toHost = false ∧ q.len = 64) ∧
    (∀ n ∈ [0, 1],
      let w : Packet := { kind := .ack, tag := EndPt.die 0 .west, slot := 7, src := EndPt.die 1 .west }
      let c : HostCopy := { port := .a, ring := 7, under := 64, moved := 0, rest := List.replicate n [w] }
      let s : State := { inState 4 with hostCopies := [c] }
      s.powered = true ∧ w.tag.module = s.coord ∧ EndPt.coreOf w.tag = none ∧ s.copyTagged w = some c ∧
        s.copyTagged { w with kind := .fail } = some c ∧ c.failed = false ∧ s.stranded w = false) ∧
    (let e := entry [(1, 0), (0x1000, 64)]
     let s := onPort 2 e
     s.command .a 7 1 = some e ∧ loadBad e = false ∧ s.owns .a 0 = true ∧ s.loadOk = true ∧ s.loopTests = [] ∧ s.loadOf .a 7 = false) ∧
    (((lastUp (onPort 2 0)).stack 0).plain 0 64 ∧ ((lastUp (onPort 2 0)).stack 0).up = true ∧
      (let s := { lastUp (onPort 2 0) with heldWrites := [(.b, .block 0 63 [1] false)] }
       s.heldWrites = [(otherPort .a, .block 0 63 [1] false)] ∧ 63 % 64 + 1 ≤ 64 ∧ 63 / 64 ∉ (s.stack 0).hbmBad ∧ 4032 % 64 + 64 ≤ 64)) ∧
    (({ atomic := true } : Bar2How).atomic = true ∧ ({} : Bar2How).atomic = false ∧ 4096 < 4092 % 4096 + 8) ∧
    ((onPort 2 0).reached .a = true ∧ inWindow2 .a 0 4096 = true ∧ (onPort 2 0).window .a 0 = (0, 0) ∧
      ((onPort 2 0).stack 0).hbmBad = [] ∧ 63 ∈ blocksOf 0 4096 ∧ 63 ∈ ({ hbmBad := [63] } : Stack).hbmBad) :=
  ⟨by unfold Stack.plain Stack.offTriggers; decide +kernel, by decide +kernel, by decide +kernel, by decide +kernel, by decide +kernel,
    by decide +kernel, by unfold Stack.plain Stack.offTriggers; decide +kernel, by decide +kernel, by decide +kernel,
    window_takes .a 4096 (by decide),
    window_zero _ .a rfl, by decide +kernel, by decide +kernel, by decide +kernel⟩

/-- TraceAndSnapshot: the five actions in the states they take, a trigger in the cycle of a stop too; a trigger one beat past
its post count; a queued event, with a request entry free and with none; the epoch at beat 2^32; a build; SNAPSHOT. -/
theorem witness_TraceAndSnapshot :
    (∀ a ∈ [1, 2, 3, 4, 5], let e := entry [(8, 0), (a, 64)]
      let s := onPort 2 e
      s.owns .a 3 = true ∧ 2 ≤ s.dev ∧ s.traceAction .a 7 a = some e ∧ badEntry e [(71, 64)] = false ∧
        badEntry e [(71, 64), (72, 72), (127, 96)] = false ∧ badEntry e [(71, 64), (191, 128), (223, 192)] = false ∧ s.trace.phase = .idle ∧
        { s.trace with phase := .armed }.phase = .armed ∧
        ({ s.trace with phase := .frozen, stopTime := some s.refTime }.stopTime = some s.refTime)) ∧
    (({ up := true } : Stack).entryFor true .write ≠ none ∧ ({} : Stack).entryFor true .write = none ∧
      ({ up := true, reqs := List.replicate 32 ⟨.write, true, .own true 0 1, 1, 0, 1⟩ ++ List.replicate 912 ⟨.read, false, .own false 0 1, 1, 0, 1⟩ } :
        Stack).entryFor true .write = none) ∧
    (let s := { inState 4 with beat := 2 ^ 32, trace := { phase := .triggered, trigBeat := 2 ^ 32 - 1, building := true }
                               hbmStacks := [(3, { trace := { queue := [1] } })] }
     s.powered = true ∧ s.trace.phase = .triggered ∧ s.trace.trigBeat.toNat + s.trace.armPost.toNat < s.beat ∧
       (s.stack 3).trace.queue = 1 :: [] ∧ s.traceOn = true ∧ (s.stack 3).trace.full = false ∧ (s.stack 3).trace.records.length < 67108864 ∧
       s.phase = 0 ∧ WinStep.epoch ∉ s.windowDone ∧ s.beat % 2 ^ 32 = 0 ∧ s.trace.building = true) ∧
    (let e := entry [(7, 0), (0x40, 64), (0xFFFF, 128)]
     let s := onPort 2 e
     s.command .a 7 7 = some e ∧ badEntry e [(127, 64), (159, 128)] = false ∧ bitsOf e.toNat 127 64 % 64 = 0 ∧ s.owns .a 5 = true ∧ 2 ≤ s.dev) := by
  exact ⟨by decide +kernel, by decide +kernel, by decide +kernel, by decide +kernel⟩

/-- RegisterAccesses: a register with a value and a location with none; a read of 8 bytes, one of 2 in BAR4, one of part of a
word, one not aligned, an AtomicOp; a debug word; two copies apart; the groups held and
not; SCRATCH_7. -/
theorem witness_RegisterAccesses :
    (let s := onPort 2 0
     s.reached .a = true ∧ (s.host .a).d3hot = false ∧ s.noFirmware = false ∧ s.dev ≠ 1 ∧ s.reg .a 0x5C = some 0 ∧ semAt 0x5C = none ∧
       isRt (actualOff 0x5C) = false ∧ s.reg .a 2 = none ∧ (s.debugReg .a 0).isSome = true ∧ (s.host .a).latch4 = none ∧
       (s.host .a).latch = none ∧ s.owns .a 7 = true ∧ s.owns .a 1 = true ∧ s.owns .a 2 = true ∧ s.owns .a 5 = true ∧
       { s with sems := [] }.owns .a 7 = false) ∧
    (∀ h ∈ ([{ len := 8 }, { bar4 := true, len := 2 }, { enables := 3 }, { atomic := true }] : List Access),
      ¬(h.len = 4 ∧ h.enables = 15 ∧ 0x40 % 4 = 0 ∧ h.atomic = false) ∧ (h.bar4 = true ∨ twoWords h 0x40 = false)) ∧
    ¬(0x41 % 4 = 0) ∧ twoWords {} 0x41 = false ∧
    ({ inState 2 with deviceState := ⟨2, 2, 4⟩ }.deviceState.differs = true ∧ (inState 2).deviceState.differs = false) ∧
    (0x40 + 4 * 7 = 0x5C ∧ (200 : Word).toNat % 2 ^ 13 = 200 ∧ (5000 : Word).toNat % 2 ^ 13 = 5000) := by decide +kernel

/-- LoadsAndMailbox: a load that passes its checks; one under way at M7, and one rejected for its extents; the three
operations, FW_STAGE with a stack whose HBM holds the firmware. -/
theorem witness_LoadsAndMailbox :
    (let e := entry [(1, 0), (0x1000, 64)]
     let s := onPort 2 e
     s.command .a 7 1 = some e ∧ loadBad e = false ∧ s.owns .a 0 = true ∧ s.loadOk = true ∧
       [((0 : DWord), (64 : DWord))].length = bitsOf e.toNat 143 128 + 1 ∧
       (List.replicate 64 (0 : Byte)).length = extentBytes [(0, 64)]) ∧
    (let s := { inState 2 with load := some ⟨.a, 7, [(1, 64)], List.replicate 64 0⟩ }
     s.load.isSome = true ∧ s.powered = true ∧ s.dev ≠ 6 ∧ s.level ≠ 7 ∧ { s with level := 7 }.level = 7 ∧
       (headChecks [(1, 64)] (List.replicate 64 0)).isSome = true ∧
       { s with deviceState := Triple.all 6 }.dev = 6) ∧
    (∀ op ∈ ([1, 2, 3] : List Nat),
      let r : MbxRun := ⟨BitVec.ofNat 8 op, 15, 0xFFFFF000, 31, 4096⟩
      let s := { inState 2 with control := { State.reset.control with mbxRun := some r } }
      s.powered = true ∧ s.control.mbxRun = some r ∧ r.op.toNat = op ∧ r.valid = true ∧ (s.stack (Fin.ofNat 16 r.a0.toNat)).hbmBad = []) := by
  exact ⟨by decide +kernel, by decide +kernel, by decide +kernel⟩


/-! ## A whole image -/

/-- A small image for this module: a header, a rank table of one rank, n bytes of peal routes, key block and signature. -/
def smallImage (n : Nat) : List Byte :=
  leBytes 256 (bitsAt [(0x4D495455, 0), (0x7001, 32), (0xA1, 48), (1, 56), (1984, 64), (2, 128), (1000, 192), (0x32, 224), (8, 256),
    (4, 260), (4, 264)]) ++ leBytes 16 (bitsAt [(1, 0), (320, 32), (16, 96)]) ++ leBytes 16 (bitsAt [(2, 0), (384, 32), (n, 96)]) ++
    List.replicate 32 0 ++ leBytes 8 Config.serial.toNat ++ List.replicate 120 0 ++ (List.replicate 512 0 ++ [0, 1, 0, 1] ++ List.replicate 508 0) ++
    List.replicate 512 0

/-- The module loading it. -/
def loadingSmall (n : Nat) : State := { inState 2 with load := some ⟨.a, 7, [(0, 4096)], smallImage n⟩ }

theorem smallImage_own (n : Nat) (h : n = 8 ∨ n = 12) : badOwn (smallImage n) = none := by
  have hr : rankTable (smallImage n) = [(BitVec.ofNat 64 (field (smallImage n) 320 8), 0)] := by
    have hx : sectOf (smallImage n) 1 = some ⟨1, false, 0, 320, 16, 256⟩ := by rcases h with rfl | rfl <;> decide +kernel
    have hc : BitVec.ofNat 10 (field (smallImage n) 328 2) = 0 := by rcases h with rfl | rfl <;> decide +kernel
    have hi : items ⟨1, false, 0, 320, 16, 256⟩ 16 = [320] := by decide
    rw [rankTable, hx]
    simp only [hi, List.map_cons, List.map_nil, hc]
  have hs : field (smallImage n) 320 8 = leNat (leBytes 8 Config.serial.toNat) := rfl
  have hv : BitVec.ofNat 64 (field (smallImage n) 320 8) = Config.serial := by
    rw [hs, leNat_leBytes]
    have := Config.serial.isLt
    rw [Nat.mod_eq_of_lt (by simpa using this), BitVec.ofNat_toNat, BitVec.setWidth_eq]
  have ho : ownRank (smallImage n) = some 0 := by
    rw [ownRank, hr, hv]
    simp
  simp [badOwn, ho, failsAt]

/-- LoadsAndMailbox, the clauses of an image that passes every check (a route of 8 bytes) and of one that fails a later one
(12 bytes: 0x0060 at the section): these images, if their signature verifies (the one thing that a value of Config
decides). -/
theorem witness_LoadsAndMailbox_image (n : Nat) (hn : n = 8 ∨ n = 12)
    (h : Config.pssVerify (keyBlock (smallImage n)) ((smallImage n).take 1472) (signatureOf (smallImage n)) = true) :
    headChecks [(0, 4096)] (smallImage n) = none ∧ (loadingSmall n).level ≠ 7 ∧ Sparse.wf Core.fresh (loadingSmall n).cores = true ∧
      (((loadingSmall n).stage (smallImage n)).compareCables (smallImage n)).bodyChecks (smallImage n) = if n = 8 then none else some (0x60, 384) := by
  have hl : imgLength (smallImage n) = 1984 := by rcases hn with rfl | rfl <;> decide +kernel
  have hk : keyOk (keyBlock (smallImage n)) = true := by rcases hn with rfl | rfl <;> decide +kernel
  have h1 : badExtents [(0#64, 4096#64)] (smallImage n) = none := by rcases hn with rfl | rfl <;> decide +kernel
  have h2 : badHeader (smallImage n) = none := by rcases hn with rfl | rfl <;> decide +kernel
  have h3 : badPart (smallImage n) = none := by rcases hn with rfl | rfl <;> decide +kernel
  have h4 : badSignature (smallImage n) = none := by simp [badSignature, hl, hk, h, failsAt]
  have h5 : badTable (smallImage n) = none := by rcases hn with rfl | rfl <;> decide +kernel
  have h6 : badTypes (smallImage n) = none := by rcases hn with rfl | rfl <;> decide +kernel
  have h7 : badCounts (smallImage n) = none := by rcases hn with rfl | rfl <;> decide +kernel
  have h8 : badRanges (smallImage n) = none := by rcases hn with rfl | rfl <;> decide +kernel
  have h9 : badRankTable (smallImage n) = none := by rcases hn with rfl | rfl <;> decide +kernel
  have hb : ((loadingSmall n).stage (smallImage n)).bodyChecks (smallImage n) = if n = 8 then none else some (0x60, 384) := by
    rcases hn with rfl | rfl <;> decide +kernel
  refine ⟨?_, (by decide : (0 : BitVec 3) ≠ 7), rfl, ?_⟩
  · simp [headChecks, firstReject, h1, h2, h3, h4, h5, h6, h7, h8, h9, smallImage_own n hn]
  · have hc : ((loadingSmall n).stage (smallImage n)).compareCables (smallImage n) = (loadingSmall n).stage (smallImage n) := by
      have hu : usedBy (smallImage n) = [] := by rcases hn with rfl | rfl <;> decide +kernel
      simp [State.compareCables, hu]
    rw [hc, hb]


/-! ## Further clauses, at the boundaries of their ranges -/

/-- The code in CHECK after a command of context 0 of core (0, 0), with this core. -/
def codeOf (i : Instr) (x : Core) : Nat := ((after i (running x)).core c0).check.toNat % 256

/-- A core that runs a format M word. -/
def coreM (pc : BitVec 10) (op : BitVec 6) (f : FmtM) : Core := { at1 pc (encM op f) with banks := ownBanks }

/-- FailedChecksStopTheContext, ACLR: a reserved field, a 257th entry, a foreign bank, the last index. -/
theorem witness_FailedChecks_aclr :
    ∀ p ∈ ([(fM 0 0 0 0 0 255 1 0 0, 1022, 0, 1), (fM 0 0 0 1 0 255 0 0 0, 1022, 0, 3), (fM 0 0 0 255 0 0 0 0 0, 1022, 1, 7),
        (fM 0 0 0 255 0 0 0 0 0, 1023, 0, 9)] : List (FmtM × BitVec 10 × BitVec 2 × Nat)),
      let x := { coreM p.2.1 0x18 p.1 with banks := Quad.all { isOpen := true, owner := p.2.2.1, age := 1 } }
      (running x).ready c0 0 (encM 0x18 p.1) ∧ (running x).calm c0 0 ∧ noneAwaited x 0 (indexD (x.ctx 0) p.1) (countOf p.1) ∧
        codeOf (.aclr c0 0 p.1) x = p.2.2.2 := by
  unfold State.ready State.calm noneAwaited; decide +kernel

/-- APASS: SUB 3; an A run not aligned; entries to 257; a pair of formats that does not go; no stationary operand; banks
closed; the last index. -/
theorem witness_FailedChecks_apass :
    ∀ p ∈ ([(fM 0 0 0 0 0 255 3 0 0, 1022, true, true, 1), (fM 0 2 0 0 0 255 0 0 0, 1022, true, true, 2), (fM 0 0 0 1 0 255 0 0 0, 1022, true, true, 3),
        (fM 0 0 0 0 0 255 0 3 0, 1022, true, true, 5), (fM 0 0 0 0 0 255 0 0 0, 1022, false, true, 6), (fM 0 0 0 0 0 255 0 0 0, 1022, true, false, 7),
        (fM 0 0 0 0 0 255 0 0 0, 1023, true, true, 9)] : List (FmtM × BitVec 10 × Bool × Bool × Nat)),
      let x := { at1 p.2.1 (encM 0x12 p.1) with
        ctxs := Quad.all { (at1 p.2.1 0).ctxs.q0 with stat0 := if p.2.2.1 then some (station 0) else none }
        banks := if p.2.2.2.1 then ownBanks else Quad.all {} }
      (running x).ready c0 0 (encM 0x12 p.1) ∧ (running x).calm c0 0 ∧ codeOf (.apass c0 0 p.1) x = p.2.2.2.2 := by
  unfold State.ready State.calm; decide +kernel

/-- VBIN: SUB 5; two vectors of which one passes the end of the LS; a format of blocks; the last index. -/
theorem witness_FailedChecks_vbin :
    ∀ p ∈ ([(fM 0 0 0 0 0 0 5 6 0, 1022, 1), (fM 4 0 0 2 0 0 0 6 0, 1022, 2), (fM 0 0 0 0 0 0 0 0 0, 1022, 5), (fM 0 0 0 0 0 0 0 6 0, 1023, 9)] :
        List (FmtM × BitVec 10 × Nat)),
      (running (at1 p.2.1 (encM 0x20 p.1))).ready c0 0 (encM 0x20 p.1) ∧ (running (at1 p.2.1 (encM 0x20 p.1))).calm c0 0 ∧
        codeOf (.vbin c0 0 p.1) (at1 p.2.1 (encM 0x20 p.1)) = p.2.2 := by
  unfold State.ready State.calm; decide +kernel

/-- RSTAT: a reserved field; a header with MODE 1; a header not aligned, whose fields are not judged; entries to 513; a header
of width 0; the last index. -/
theorem witness_FailedChecks_rstat :
    ∀ p ∈ ([(fM 0 0 0 0 0 0 1 6 0, 1022, 32, 0, 1), (fM 0 0 0 0 0 0 0 6 0, 1022, 32, 1, 1), (fM 0 2 0 0 0 0 0 6 0, 1022, 32, 1, 2),
        (fM 0 0 0 512 0 0 0 6 0, 1022, 32, 0, 4), (fM 0 0 0 0 0 0 0 6 0, 1022, 0, 0, 5), (fM 0 0 0 0 0 0 0 6 0, 1023, 32, 0, 9)] :
        List (FmtM × BitVec 10 × Byte × Byte × Nat)),
      let x := { rowCore (encM 0x28 p.1) p.2.2.1 p.2.2.2.1 with
        ctxs := Quad.all { (at1 0 0).ctxs.q0 with pc := p.2.1 }, instr := [(p.2.1.toNat, encM 0x28 p.1)] }
      (running x).ready c0 0 (encM 0x28 p.1) ∧ (running x).calm c0 0 ∧ codeOf (.rstat c0 0 p.1) x = p.2.2.2.2 := by
  unfold State.ready State.calm; decide +kernel

/-- END with a reserved field and with an open bank; SIG of 0, of 256, with CONSUME, remote with CTR 1, local with ABASE 1, in
the last index, and to an address that names no counter. -/
theorem witness_FailedChecks_control :
    (∀ p ∈ ([(fY 1 0 0 0 0, 1), (fY 0 0 0 0 0, 8)] : List (FmtY × Nat)),
      let x := { at1 1023 (encY 0x3B p.1) with banks := ownBanks }
      (running x).ready c0 0 (encY 0x3B p.1) ∧ (∀ q ∈ x.arrayQ, q.ctx ≠ 0) ∧ x.ownsOpen 0 = true ∧ codeOf (.endCtx c0 0 p.1) x = p.2) ∧
    (∀ p ∈ ([(fY 0 1 0 0 0, 1022, 1), (fY 0 1 0 0 256, 1022, 1), (fY 0 1 1 0 1, 1022, 1), (fY 8 1 0 1 1, 1022, 1), (fY 1 1 0 0 1, 1022, 1),
        (fY 0 63 0 0 255, 1023, 9), (fY 4 0 0 1 1, 1022, 11)] : List (FmtY × BitVec 10 × Nat)),
      (running (at1 p.2.1 (encY 0x38 p.1))).ready c0 0 (encY 0x38 p.1) ∧
        codeOf (.sig c0 0 p.1) (at1 p.2.1 (encY 0x38 p.1)) = p.2.2) := by
  unfold State.ready; exact ⟨by decide +kernel, by decide +kernel⟩

/-- SpecialValuesAndBranches, the turn: context 1 when context 0 is ready and comes first. -/
theorem witness_SpecialValuesAndBranches_turn :
    let x := { at1 0 (encY 0x3C (fY 0 0 0 0 0)) with last := some 3, pace := {} }
    (running x).surelyReady c0 0 = true ∧ ((running x).core c0).turnAt 0 < ((running x).core c0).turnAt 1 := by decide +kernel

/-- BeatStartAdvances, the checkpoint: a core with a stroke due and three checkpoints held; one with none due; in HALTED. -/
theorem witness_BeatStartAdvances_checkpoint :
    (strokeDue (strokeCore 1) 0 6 ∧ (∀ k, ¬strokeDue Core.fresh k 6) ∧ (running (strokeCore 1)).deviceState.vote.toNat = 4 ∧
      (inState 5).deviceState.vote.toNat ≠ 4 ∧ (strokeCore 1).rolling = false) ∧
    (let x := { strokeCore 1 with checkpoints := [checkpoint 1, checkpoint 2, checkpoint 3], ckptSeq := 3 }
     (((after .beatStart { running x with windowDone := [.sealing] }).core c0).checkpoints.map fun o => (o.seq, o.isSealed)) =
       [(2, true), (3, true), (4, true)]) := by
  unfold strokeDue; decide +kernel

/-- HoldsAndVerdict: beat d + 1 of a job that halted in the verdict's cycle with cause 5, the downbeat missing; one that halted
earlier. -/
theorem witness_HoldsAndVerdict_halted :
    let s := { inState 5 with beat := 17, phase := 996, downbeatLo := Triple.all 16, downbeatHi := Triple.all 0, haltCause := 5 }
    s.dueIn 36 .verdict ∧ s.dev = 5 ∧ s.beat = s.downbeat + 1 ∧ (s.port 0).unused = false ∧
      (s.port 0).downbeat ≠ some (BitVec.ofNat 64 s.downbeat, s.ownDigest) ∧ s.haltTime = s.refTime + (s.windowAt + 36 - s.phase) ∧
      4 < s.haltCause.toNat % 16 ∧ ¬(4 < (3 : Word).toNat % 16) ∧
      { s with refTime := 1 }.haltTime ≠ { s with refTime := 1 }.refTime + (s.windowAt + 36 - s.phase) := by
  unfold State.dueIn; decide +kernel

/-- BarsAndArithmeticClock: a bar outside RUNNING with and without a trip, stage 1 and a load. -/
theorem witness_BarsAndArithmeticClock_levels :
    ∀ d ∈ [1, 2, 3, 5, 6], let s := { inState d with beat := 100 }
      s.powered = true ∧ s.phase = 0 ∧ WinStep.bar ∉ s.windowDone ∧ s.beat % 100 = 0 ∧ s.tympan.rideRetain = false ∧ s.dev ≠ 4 ∧
        s.tympan.trip = false ∧ s.tympan.stage1 = false ∧ { s.tympan with trip := true }.trip = true ∧
        { s.tympan with stage1 := true }.stage1 = true ∧
        { s with load := some ⟨.a, 7, [], []⟩ }.load.isSome = true := by decide +kernel

/-- DownbeatStartsTheJob: stage 1, and retention after a rest beat. -/
theorem witness_DownbeatStartsTheJob_level :
    ({ stage1 := true } : Tympan).stage1 = true ∧
    ({ rideRetain := true, rideRest := true } : Tympan).rideRetain = true ∧ (({} : Tympan).stage1 = false ∧ ({} : Tympan).rideRetain = false) := by
  decide +kernel

/-- AlignmentCommands and SidebandMessages: a port under test and one that is not. -/
theorem witness_SidebandMessages_loopback :
    (inState 4).powered = true ∧ ((withPorts 4 { up with loopback := true } {}).port 0).loopback = true ∧
    ((withPorts 4 up {}).port 0).loopback = false ∧ ((withPorts 4 up {}).port 0).trained = true := by decide +kernel

/-- A torus in which port X+ has e escape buffers and port r has received p. -/
def ring4 (e : Nat) (r : RPort) (p : Packet) : State :=
  torus { inState 4 with ports := [(0, { up with escape := e }), (r.val, ReduitPort.received up [p])] }

/-- TorusRouting, the escape channel: on along the ring (from X−, one buffer) and a turn (from Y+ on the same die, from Y− on the
other: two), with enough and with too few; a packet that crossed the die. -/
theorem witness_TorusRouting_escape :
    let p := { readTo 1 with escape := true }
    (∀ r ∈ ([1, 2, 3] : List RPort), ∀ e ∈ ([0, 1, 2] : List Nat),
      let s := ring4 e r p
      s.powered = true ∧ s.atDie (dieOf r) (.port r) p = true ∧ s.sigTurn (.port r) p = true ∧ p.kind ≠ .loop ∧ p.escape = true ∧
        (s.minimal (targetOf p)).head? = some 0 ∧ (s.port 0).sends = true ∧ (s.port 0).escape = e) ∧
    ((1 : RPort) = opposite 0 ∧ (2 : RPort) ≠ opposite 0 ∧ dieOf 2 = dieOf 0 ∧ dieOf 3 ≠ dieOf 0 ∧ dieOf 1 ≠ dieOf 0) ∧
    (let s := { torus (withPorts 4 up {}) with east := { transit := [p] } }
     (s.die .east).transit.contains p = true ∧ s.strandedCross p = false ∧ (p, .transit) ∉ (s.die .east).blocked ∧
       s.sigTurn .transit p = true ∧ (s.minimal (targetOf p)).head? = some 0 ∧ (s.port 0).sends = true) := by decide +kernel

/-- TorusRouting, the adaptive channel: a packet whose only minimal port stands on the other die; one whose minimal ports are all
DOWN, from a port and from the mesh, a READ and a FAIL. -/
theorem witness_TorusRouting_discards :
    (let s := torus { inState 4 with ports := [(1, up), (2, ReduitPort.received up [readTo 3])] }
     s.atDie .east (.port 2) (readTo 3) = true ∧ s.sigTurn (.port 2) (readTo 3) = true ∧ (readTo 3).kind ≠ .loop ∧ (readTo 3).escape = false ∧
       s.minimal (targetOf (readTo 3)) = [1] ∧ (s.port 1).down = false ∧ dieOf 1 ≠ .east) ∧
    (∀ p ∈ [readTo 1, { pkt .fail 0 with tag := EndPt.core 1 c0 }], ∀ f ∈ [Arrival.port 2, .mesh],
      let s := torus { inState 4 with ports := [(0, { down := true }), (2, ReduitPort.received up [p])], inFlight := [p] }
      s.atDie .east f p = true ∧ s.sigTurn f p = true ∧ p.kind ≠ .loop ∧ p.escape = false ∧ s.minimal (targetOf p) = [0] ∧
        (s.port 0).down = true) := by decide +kernel

/-- TorusRouting, LOOP packets at depth 5: home by X−, passing through by X− and from Y+. -/
theorem witness_TorusRouting_loop5 :
    let t : LoopTest := { port := .a, ring := 0, target := 1, unit := 0, depth := 5 }
    ∀ m ∈ ([0, 1] : List (BitVec 10)), ∀ r ∈ ([1, 2] : List RPort),
      let p := { pkt .loop 1 with loopDepth := 5, loopPort := 0, src := EndPt.die m .east }
      let s := { ring4 2 r p with loopTests := [t] }
      s.atDie (dieOf r) (.port r) p = true ∧ p.loopPort.toNat = (0 : RPort).val ∧
        (p.src.module = s.coord ↔ m = 0) ∧ (r = opposite 0 ↔ r = 1) ∧ (s.port 0).sends = true ∧ 2 ≤ (s.port 0).escape := by decide +kernel

/-- WritesLandInTheStore: WRITE to the last block of the statistics store, of an SC program part and of an HBM, with an entry there,
the last free one, and an aborted copy's; a final write whose signal goes to another core. -/
theorem witness_WritesLandInTheStore_stores :
    (∀ p ∈ [coreAddr 3 0 c0 4032, stackAddr 4 0 15 ((inState 4).scProgram - 64), stackAddr 5 0 15 (hbmSize - 64)].map fun a =>
        { pkt .write 1 with addr := a },
      addrModule p.addr = (inState 4).coord ∧ p.kind = .write ∧ p.final = false ∧ p.peal = false ∧ p.pos = 0 ∧ p.data.length = 64 ∧
        (inState 4).stranded p = false ∧ ((inState 4).stack 15).waiting = [] ∧ ((inState 4).stack 15).landing = [] ∧
        entryIn [entryOfIt 0 none] p.tag p.slot = some (entryOfIt 0 none) ∧ entryIn (others 255) p.tag p.slot = none ∧
        (others 255).length < 256 ∧ ((placeOf p.addr).map fun pl => (inState 4).served pl p) = some true ∧
        { inState 4 with deadCopies := [(p.tag, p.slot)] }.deadCopies.contains (p.tag, p.slot) = true) ∧
    (placeOf (coreAddr 3 0 c0 4032) = some (.stat c0 4032) ∧
      placeOf (stackAddr 4 0 15 ((inState 4).scProgram - 64)) = some (.sc 15 ((inState 4).scProgram - 64)) ∧
      placeOf (stackAddr 5 0 15 (hbmSize - 64)) = some (.hbm 15 (hbmSize - 64))) ∧
    ((inState 4).stack 15).plain (hbmSize - 64) 64 ∧
    (∀ p ∈ [{ landing true 255 with addr2 := coreAddr 6 0 c1 5 }, { landing true 255 with addr2 := coreAddr 6 1 c0 5 }],
      p.sigVal ≠ 0 ∧ ((placeOf p.addr2 = some (.ctr c1 5) ∧ c1 ≠ c0) ∨
        (placeOf p.addr2 = some (.ctr c0 5) ∧ addrModule p.addr2 ≠ (inState 4).coord)) ∧
        entryIn [entryOfIt 1 (some p)] p.tag p.slot = some (entryOfIt 1 (some p)) ∧ (entryOfIt 1 (some p)).applied = p.count) := by
  exact ⟨by decide +kernel, by decide +kernel, by unfold Stack.plain Stack.offTriggers; decide +kernel, by decide +kernel⟩

/-- PealsAlongTheRoute: the head core, with an entry there and with the last free one. -/
theorem witness_PealsAlongTheRoute_head :
    ∀ final ∈ [true, false],
      let p := peal 0 final true
      p.kind = .write ∧ p.peal = true ∧ p.pos = 0 ∧ routed.routeCore p p.pos = some c0 ∧ placeOf p.addr = some (.ls c0 98176) ∧
        98176 + p.data.length ≤ 98304 ∧ { routed with inFlight := [p] }.pealTurn p = true ∧ routed.stranded p = false ∧
        entryIn (entryOfIt 0 none :: others 31) p.tag p.slot = some (entryOfIt 0 none) ∧ entryIn (others 31) p.tag p.slot = none ∧
        (others 31).length < 32 := by decide +kernel

/-- CoreRollRestoresCheckpoint: a counter with a tally; a replayed save, and one of a stroke held over at the checkpoint; an LS block
that failed and landed with a landing found and with none (LOG_FULL), that did not land, and that was left to the replay before; a
fault of class 4 beside another. -/
theorem witness_CoreRollRestoresCheckpoint_steps :
    (let ck := { checkpoint 1 with tallies := [(63, -3)] }
     Sparse.wf 0 ck.tallies = true ∧ (∀ p ∈ ck.tallies, p.1 < 64) ∧ Sparse.look 0 ck.tallies 63 = -3) ∧
    (∀ within ∈ [true, false], let ck := { checkpoint 1 with ctxs := Quad.all ⟨7, [], true, false, none, none, 4, 0, within, []⟩ }
      let v : EntrySave := ⟨0, 4, 511, List.replicate 8 1, 1⟩
      v.replayed ck = true ∧ v.bytes.length = 8 ∧ (ck.ctxs.get v.ctx).within = within ∧ (ck.ctxs.get v.ctx).n = v.n) ∧
    (let e : LandEntry := ⟨coreAddr 1 0 c1 0, 98240, 0, 0, 64, 64, EndPt.core 0 c1, false, 0⟩
     let x := { rolled [checkpoint 1] with
      roll := some ⟨1, 0, 0, some 1535, 0⟩, lsBad := [1535], landed := [1535], landLog := [e] }
     x.restart = some (checkpoint 1, 0) ∧ x.rollMore = [] ∧ x.mends 1 1535 = false ∧ 1535 ∈ x.landed ∧ 1535 ∉ x.unrepaired ∧
       findLanding 1535 x.recordsNewest = some e ∧ findLanding 1535 { x with logFull := true }.recordsNewest = none ∧
       1535 ∉ { x with landed := [] }.landed ∧ 1535 ∈ { x with unrepaired := [1535] }.unrepaired ∧
       ([⟨1, 0, 0, some 1535, 0⟩, ⟨4, 0, 0, some 0, 0⟩] : List RollCause).any (fun o => o.cls == 4) = true) := by decide +kernel

/-- A chain of one load: its blocks. -/
def oneLoad : List ChainStep := [⟨encM 0x10 (fM 0 0 0 0 0 0 0 0 0), 0, 8192, 0⟩]

theorem oneLoad_order : chainOrder oneLoad = [0, 1, 2, 3, 128] := by
  have h : (((oneLoad.flatMap ChainStep.ranges).flatMap fun r => blocksOf r.1 r.2).eraseDups) = [0, 1, 2, 3, 128] := by decide +kernel
  rw [chainOrder, h]
  exact List.mergeSort_of_pairwise (by decide)

/-- ShadowAndReferee: a failing input block of the partner when the referee runs: the first block of its shadow area. -/
theorem witness_ShadowAndReferee_input :
    let r := { record (some 0) with steps := oneLoad }
    let s := { badShadow with cores := [(0, { Core.fresh with shadow := some r }), (coreKey (partnerOf c0), { Core.fresh with lsBad := [1280] })] }
    (s.core c0).shadow = some r ∧ r.partner = some 0 ∧ s.canShadow (refereeOf c0) r = true ∧ s.areaHeld (refereeOf c0) = false ∧
      (s.core (refereeOf c0)).idle = true ∧ s.badInput (partnerOf c0) false r = some 1280 := by
  refine ⟨by decide +kernel, by decide +kernel, by decide +kernel, by decide +kernel, by decide +kernel, ?_⟩
  simp only [State.badInput, State.runAt, RunAt.ls, oneLoad_order]
  decide +kernel

/-- ReduceAddsInRankOrder, the segment: an operation of two blocks in a segment of two, block 1 written and not; a sum that is not
finite. -/
theorem witness_ReduceAddsInRankOrder_segment :
    (∀ b ∈ [true, false],
      let s := carilloning 1 5 2 {} { state := .filling, pieces }
      let s := s.modStack 3 fun t => { t with car := { t.car with
        ops := [(63, anOp 1 5 2 + BitVec.ofNat 512 (bitsAt [(1, 16)]))]
        blocks := t.car.blocks ++ if b then [(blockKey 63 1, { state := .done, result := List.replicate 1024 0 })] else [] } }
      let e := (s.stack 3).op 63
      e.kind = 1 ∧ e.count = 2 ∧ e.segLog2 = 1 ∧ ((s.stack 3).rblock 63 0).next + 1 = e.ranks ∧
        (s.stack 3).written 63 1 ((s.stack 3).rblock 63 0).gen = b) ∧
    (nonFinite 5 [0x7F800000] = 1 ∧ nonFinite 5 [0] = 0) := by decide +kernel

/-- ReduceAddsInRankOrder, a contribution of one piece: of the one rank and of a core that is none; its block DONE, filling with the piece
there and without it, armed with room and with both areas full; a second rank's piece with no room. -/
theorem witness_ReduceAddsInRankOrder_contribution :
    let p := { pkt .write 1 with addr := stackAddr 5 0 3 (0x10000 + 960) }
    let s := carilloning 1 5 1 {} {}
    let s := s.modStack 3 fun t => { t with car := { t.car with loaded := true } }
    let t := s.stack 3
    let e := t.op 63
    let full : Car := { stageUse := stageSize, spillUse := spillSize }
    (s.powered = true ∧ addrModule p.addr = s.coord ∧ p.kind = .write ∧ p.final = false ∧ p.peal = false ∧ p.pos = 0 ∧
      placeOf p.addr = some (.hbm 3 (0x10000 + 960)) ∧ t.waiting = [] ∧ s.served (.hbm 3 (0x10000 + 960)) p = true ∧
      t.landing.length < 256 ∧ t.reduceAt (0x10000 + 960) = some 63 ∧ (0x10000 + 960 - e.region) / 1024 = 0 ∧
      (piecesAt (0x10000 + 960) p.data).map Prod.fst = [15]) ∧
    (s.contribRank e p.tag = some 0 ∧ s.contribRank e (EndPt.core 0 c1) = none ∧ e.ranks = 1) ∧
    (([BlockState.done, .filling, .armed].map fun st => (carilloning 1 5 1 {} { state := st }).stack 3 |>.rblock 63 0 |>.state) =
      [.done, .filling, .armed]) ∧
    ((armAlloc e t.car {} 20).isSome = true ∧ armAlloc e full {} 20 = none) ∧
    ((pieces.drop 15).any (fun w => w.rank == 0 && w.index == 15) = true ∧ (pieces.take 15).any (fun w => w.rank == 0 && w.index == 15) = false) ∧
    ((stageAlloc t.car {} 0).isSome = true ∧ stageAlloc full {} 1 = none ∧ (stageAlloc t.car {} 1).isSome = true) := by decide +kernel

/-- OptimizerStepEnds: two records, the second frozen. -/
theorem witness_OptimizerStepEnds_records :
    let s := (carilloning 6 0 2 { running := true } {}).modStack 3 fun t => { t with hbm := [(0x10000 + 256 + 192, 1)] }
    s.powered = true ∧ (s.stack 3).due 63 6 = true ∧ ((s.stack 3).op 63).count = 2 ∧
      (recordBits (s.stack 3).hbm 0x10000).1 = false ∧ (recordBits (s.stack 3).hbm 0x10100).1 = true ∧
      (s.stack 3).lostIn (recordRanges (s.stack 3).hbm 0x10000 2 (List.range 4)) = [] := by decide +kernel

/-- SemaphoresHaveOneHolder: a release alone, in the cycle of the other port's in an even beat, and after that one. -/
theorem witness_SemaphoresHaveOneHolder_release :
    (∀ b ∈ [0, 1], decide (({ onPort 2 0 with beat := b }.beat % 2 = 0 ∧ HPort.a = .a) ∨
      ({ onPort 2 0 with beat := b }.beat % 2 = 1 ∧ HPort.a = .b)) = decide (b = 0)) ∧
    (∀ w ∈ (onPort 2 0).heldWrites, w.1 ≠ otherPort .a) ∧
    (let s := { onPort 2 0 with heldWrites := [(.b, .word (0x10000 + 4 * 15) 0)] }
     s.heldWrites = [(otherPort .a, .word (0x10000 + 4 * (15 : Fin 16).val) 0)]) := by decide +kernel

/-- RingsFetchInOrder: seventeen entries held in a completion ring of 16 that is enabled again. -/
theorem witness_RingsFetchInOrder_held :
    let c : CompRing := { cfg := 0x04, held := (List.range 17).map fun i => ⟨7, BitVec.ofNat 32 i, 0, 0, none⟩ }
    let s := { onPort 2 0 with portA := { (onPort 2 0).portA with cqs := [(0, c)] } }
    (s.host .a).cq 0 = c ∧ c.cfg.getLsbD 8 = false ∧ (0x104 : Word).getLsbD 8 = true ∧ 2 ^ ((0x104 : Word).toNat % 16) = 16 ∧
      c.held.length % 16 = 1 := by decide +kernel

/-- RegisterAccesses: HOLD_FORCE with the other port's write before it, and from the port that claims first and second; MBX_GO with
an operation that starts, one that is not valid, one from a port without CONTROL, one in a state that does not take it, and BUSY;
the last word of the MSI-X table, its vector pending and not, masked and not. -/
theorem witness_RegisterAccesses_writes :
    (let s := { onPort 2 0 with heldWrites := [(.b, .word 0x30038 1)] }
     s.heldWrites = [(otherPort .a, .word 0x30038 1)] ∧ (onPort 2 0).flam = .a ∧ { onPort 2 0 with beat := 1 }.flam ≠ .a) ∧
    (let r (op : BitVec 8) : MbxRun := ⟨op, 0, 0, 0, 4096⟩
     (r 1).valid = true ∧ (r 0).valid = false ∧ (onPort 2 0).owns .a 7 = true ∧ (onPort 2 0).owns .b 7 = false ∧
       (∀ op ∈ [1, 2, 3], mbxAccepted op 2 = true) ∧ (∃ op ∈ [1, 2, 3], mbxAccepted op 4 = false) ∧
       (onPort 2 0).control.mbxRun = none ∧ { (onPort 2 0).control with mbxRun := some (r 1) }.mbxRun.isSome = true) ∧
    (∀ on ∈ [true, false], let h : HostPort := { linkUp := true, pendingBits := if on then BitVec.ofNat 64 (2 ^ 63) else 0 }
      h.pendingBits.getLsbD 63 = on ∧ (h.msixEntry 63).getLsbD 96 = true ∧ 0x58000 + 16 * 63 + 4 * 3 = 0x583FC) ∧
    ((onPort 2 0).owns .a 3 = true ∧ (onPort 2 0).owns .b 3 = false) ∧
    (((onPort 2 0).debugReg .a 0).isSome = true ∧ (onPort 2 0).debugReg .a 0xFFFFFC = none ∧ (onPort 2 0).debugReg .a 1 = none) := by
  decide +kernel

/-! ## Readiness, joined signals, renewed transfers, rotations, the bubble rule, rails -/

/-- A core whose context 0 stands at a word, with what its issues tell and its copies. -/
def paced (w : DWord) (work : List Work) (slots : List CopySlot) : State :=
  running { at1 0 w with pace := { work }, slots }

/-- spec/03 R68, R70, R73: while a vector instruction of context 0 still writes LS bytes 0 to 127, an LDW of byte 256 and an
RSTAT elsewhere are ready, an LDW of byte 64, a vector instruction and a SIG are not; of a copy out of bytes 0 to 63, an STW to
byte 256 is not held and one to byte 60 is. -/
theorem test_ready_beside_work :
    let v : Work := { ctx := 0, op := 0x20, use := { lsW := [(0, 128)] }, busy := 8, lat := 12 }
    let ldw (a : BitVec 5) (i : BitVec 32) : DWord := encS 0x0B (fS 6 a 0 0 0 i)
    let stw (a : BitVec 5) (i : BitVec 32) : DWord := encS 0x0C (fS 0 a 2 0 0 i)
    let sl := { slotOf 0 with ctx := 0 }
    ((paced (ldw 1 0) [v] []).surelyReady c0 0, (paced (ldw 0 64) [v] []).surelyReady c0 0,
      (paced (encM 0x28 (fM 0 3 3 0 0 0 0 6 0)) [v] []).surelyReady c0 0,
      (paced (encM 0x20 (fM 3 3 3 0 0 0 0 6 0)) [v] []).surelyReady c0 0, (paced (encY 0x38 (fY 0 1 0 0 1)) [v] []).surelyReady c0 0) = (true, false, true, false, false) ∧
    ((paced (stw 1 0) [] [sl]).surelyReady c0 0, (paced (stw 0 60) [] [sl]).surelyReady c0 0) = (true, false) := by decide +kernel

/-- spec/09 R225: at 65,530, SIG 10 in the cycle before a consuming WAIT 10: the sum is 65,530 and nothing is lost where the WAIT
joins the change; 65,525 with a clamp where it comes a cycle later. -/
def sigThenWait (joined : Bool) : Core :=
  let x := { syncCore 0 (encY 0x38 (fY 0 63 0 0 10)) 65530 0 with
    ctxs := (Quad.all {}).set 0 (syncCore 0 0 0 0).ctxs.q0, instr := [(0, encY 0x38 (fY 0 63 0 0 10)), (1, encY 0x39 (fY 0 63 1 0 10))] }
  (after (.wait c0 0 (fY 0 63 1 0 10) { held := 0, joined }) (after (.sig c0 0 (fY 0 63 0 0 10)) (running x))).core c0
theorem test_wait_joins :
    ((sigThenWait true).syncCtr 63).value = 65530 ∧ ((sigThenWait true).syncCtr 63).sat = false ∧
      Sparse.look {} (sigThenWait true).errs jSyncClamp = {} ∧
    ((sigThenWait false).syncCtr 63).value = 65525 ∧ ((sigThenWait false).syncCtr 63).sat = true := by decide +kernel

/-- SignalsAndWaits, the joined WAIT: met by the value before the SIG, consuming and not; not met by it. -/
theorem witness_SignalsAndWaits_joined :
    let f := fY 0 63 0 0 10
    let g (consume : BitVec 1) (v : BitVec 16) := fY 0 63 consume 0 v
    ∀ q ∈ ([(0, 65530), (1, 65530), (1, 65531)] : List (Nat × Nat)),
      let w := encY 0x39 (g (BitVec.ofNat 1 q.1) (BitVec.ofNat 16 q.2))
      let s := after (.sig c0 0 f) (running { syncCore 0 (encY 0x38 f) 65530 0 with instr := [(0, encY 0x38 f), (1, w)] })
      let s := { s with cores := [(0, { s.core c0 with pace := { (s.core c0).pace with wait := Quad.all 1 } })] }
      s.ready c0 0 w ∧ ((s.core c0).ctx 0).pc.toNat < 1023 ∧ ((s.core c0).sigJoined 63 true).map (·.before.value) = some 65530 ∧
        (q.2 = 65530 → q.2 ≤ (s.core c0).waitValue 63 true) ∧ (q.2 = 65531 → (s.core c0).waitValue 63 true < q.2) ∧
        Sparse.look {} (s.core c0).errs jSyncClamp = ({} : ErrCtr).add 1 := by
  unfold State.ready; decide +kernel

/-- spec/08 R207: an aborted transfer of module 1 keeps its entry until a WRITE begins it anew, which is counted from 0. -/
theorem test_renewed_write :
    let p := { pkt .write 1 with addr := coreAddr 1 0 c0 0, tag := EndPt.core 1 c1, src := EndPt.core 1 c1, count := 3 }
    let e : Landing := ⟨EndPt.core 1 c1, 0, 2, none, true⟩
    let s := { running { Core.fresh with landing := [e] } with inFlight := [p] }
    let applied (renewed : Bool) := entryIn ((after (.writePacket { p with renewed }) s).core c0).landing p.tag p.slot
    s.entriesFor (.ls c0 0) { p with renewed := true } = [] ∧ applied false = some { e with applied := 3 } ∧
      applied true = some { e with applied := 1, aborted := false } := by decide +kernel

/-- spec/10 R248: packets that base die 3 sends toward a port die go by rows 1, 2, 3 in the order sent; what is lost turns the
rotation too. -/
theorem test_rows_as_sent :
    let p (i : BitVec 5) := { pkt .ack 0 with src := (inState 4).stackEnd 3, tag := EndPt.core 1 c0, slot := i }
    let s := torus { inState 4 with inFlight := [p 0, p 1, p 2] }
    (s.giveRows.inFlight.map (·.row), (s.giveRows.stack 3).rotRep, (s.leftMesh (p 1)).inFlight.map (·.row)) = ([1, 2, 3], 3, [1, 3]) := by
  decide +kernel

/-- spec/10 R256: a packet past its 64 cycles that the bubble rule refuses has left the adaptive channel: with credit back it still
waits for the second escape buffer, and takes it. -/
theorem test_bubble_refuses :
    let s := fun (a e : Nat) (b : List (Packet × Arrival)) =>
      { torus (withPorts 4 { up with adaptive := a, escape := e } {}) with east := { blocked := b } }
    let p' := { readTo 1 with escape := true, escDim := 3 }
    ((after (.escapeMove .east (readTo 1)) (s 0 1 [(readTo 1, .port 2)])).die .east).blocked = [(p', .port 2)] ∧
    (let t := after (.torusRoute .east (.port 2) p') (s 64 1 [(p', .port 2)])
     (t.die .east).blocked = [(p', .port 2)] ∧ (t.port 0).tx = []) ∧
    (let t := after (.torusRoute .east (.port 2) p') (s 64 2 [(p', .port 2)])
     (t.die .east).blocked = [] ∧ (t.port 0).tx.map (fun v => (v.escape, v.escDim)) = [(true, 0)] ∧ (t.port 0).escape = 1) := by
  decide +kernel

/-- TorusRouting, the bubble rule: one buffer left, and a packet that it refused; a turn and a straight way need two. -/
theorem witness_TorusRouting_bubble :
    (let s := { torus (withPorts 4 { up with adaptive := 0, escape := 1 } {}) with east := { blocked := [(readTo 1, .port 2)] } }
     (s.die .east).blocked.find? (fun b => b.1 == readTo 1) = some (readTo 1, .port 2) ∧ (s.minimal (targetOf (readTo 1))).head? = some 0 ∧
       dieOf 0 = .east ∧ (s.port 0).down = false ∧ (s.port 0).escape < 2) ∧
    (∀ r ∈ ([1, 2] : List RPort), let p := { readTo 1 with escape := true, escDim := 3 }
      let s := ring4 1 r p
      s.atDie (dieOf r) (.port r) p = true ∧ s.sigTurn (.port r) p = true ∧ p.escDim = 3 ∧
        (s.port 0).escape < if r = opposite 0 ∧ p.escDim ≠ 3 then 1 else 2) := by decide +kernel

/-- spec/10 R248: a COPY of two KiB to the host turns the port die's request rotation and the base die's reply rotation by two. -/
theorem test_copy_turns :
    let e := entry [(6, 0), (1, 64), (0x1000, 128), ((stackAddr 5 0 15 0).toNat, 192), (2048, 256)]
    let s := after (.copy .a 7 ⟨[], []⟩ none false) (lastUp (onPort 2 e))
    ((s.die (hostDie .a)).rotReq, (s.stack 15).rotRep) = (2, 2) := by decide +kernel

/-- spec/12 R303: with no rail up the draw is 2.0 A in the soft start (1,600 W at 800 V), then 1,500 W, and stays once the Kettle holds
40 J. -/
theorem test_start_draw :
    let s (soft : Bool) : State := { State.reset with tympan := { State.reset.tympan with refclk := true, softStart := soft } }
    let m := { measure 16 16 with kettleE := 3999 }
    (after (.powerStep m) (s true)).tympan.busSet = 1600 ∧ (after (.powerStep m) (s false)).tympan.busSet = 1500 ∧
      (after (.powerStep { m with kettleE := 4000 }) { s false with tympan := { (s false).tympan with busSet := 1500 } }).tympan.charged = true ∧
      (after (.powerStep m) { State.reset with tympan := { State.reset.tympan with refclk := false } }).tympan.busSet = 0 := by
  decide +kernel

/-- spec/12 R307: in retention READY, LOADED and HALTED stand at M6, and at M7 under a trip. -/
theorem test_retention_level :
    ∀ d ∈ [2, 3, 5], ∀ trip ∈ [false, true],
      let s := inState (BitVec.ofNat 3 d)
      (after .barBoundary { s with beat := 100, tympan := { s.tympan with rideRetain := true, rideRest := true, trip } }).level =
        if trip then 7 else 6 := by decide +kernel

end Sys2Proof.Tests
end

section
/-! SUPPORT. The maps stay canonical (O4): the updates of the state. -/

namespace Sys2Proof.Machine

open Sys2Proof

/-! ## Branches and folds -/

theorem State.mapsOk.ite {c : Prop} [Decidable c] {a b : State} (ha : a.mapsOk) (hb : b.mapsOk) :
    (if c then a else b).mapsOk := by split <;> assumption

/-- A fold keeps the maps canonical when each of its steps does. -/
theorem State.mapsOk.foldl {α : Type} {f : State → α → State} (hf : ∀ {s a}, s.mapsOk → (f s a).mapsOk)
    {l : List α} {s : State} (h : s.mapsOk) : (l.foldl f s).mapsOk := by
  induction l generalizing s with
  | nil => exact h
  | cons a l ih => exact ih (hf h)

section
variable {s : State} (h : s.mapsOk)
include h

/-! ## The updates that write a map -/

theorem State.mapsOk.setCore {c x} : (s.setCore c x).mapsOk := by
  obtain ⟨hc, hs, hp⟩ := h
  exact ⟨Sparse.put_wf _ _ _ _ hc, hs, hp⟩

theorem State.mapsOk.modCore {c f} : (s.modCore c f).mapsOk := h.setCore

theorem State.mapsOk.modCtx {c k f} : (s.modCtx c k f).mapsOk := h.modCore

theorem State.mapsOk.mapCores {f} : (s.mapCores f).mapsOk := by
  obtain ⟨hc, hs, hp⟩ := h
  exact ⟨Sparse.mapAll_wf _ _ _ hc, hs, hp⟩

theorem State.mapsOk.modStack {g f} : (s.modStack g f).mapsOk := by
  obtain ⟨hc, hs, hp⟩ := h
  exact ⟨hc, Sparse.put_wf _ _ _ _ hs, hp⟩

theorem State.mapsOk.mapStacks {f} : (s.mapStacks f).mapsOk := .foldl (fun h => h.modStack) h

theorem State.mapsOk.modPort {p f} : (s.modPort p f).mapsOk := by
  obtain ⟨hc, hs, hp⟩ := h
  exact ⟨hc, hs, Sparse.put_wf _ _ _ _ hp⟩

theorem State.mapsOk.mapPorts {f} : (s.mapPorts f).mapsOk := .foldl (fun h => h.modPort) h

/-! ## Updates of other parts -/

theorem State.mapsOk.modHost {p f} : (s.modHost p f).mapsOk := by cases p <;> exact h

theorem State.mapsOk.modDie {d f} : (s.modDie d f).mapsOk := by cases d <;> exact h

theorem State.mapsOk.count {i n} : (s.count i n).mapsOk := h

theorem State.mapsOk.countForever {i n} : (s.countForever i n).mapsOk := h

theorem State.mapsOk.countStack {g k n} : (s.countStack g k n).mapsOk := h

theorem State.mapsOk.countPort {p k n} : (s.countPort p k n).mapsOk := h

theorem State.mapsOk.countHost {p k n} : (s.countHost p k n).mapsOk := h

theorem State.mapsOk.disarm : s.disarm.mapsOk := .ite h h

/-- Leaving HALTED takes LOST off every listed stack. -/
theorem State.mapsOk.setDev {n} : (s.setDev n).mapsOk := by
  have ht : (if n = devLoaded || n = devRunning then s else s.disarm).mapsOk := .ite h h.disarm
  unfold State.setDev
  generalize (if n = devLoaded || n = devRunning then s else s.disarm) = t at ht ⊢
  obtain ⟨hc, hs, hp⟩ := ht
  have hl := Sparse.mapAll_wf ({} : Stack) (fun _ x => { x with lost := false }) t.hbmStacks hs
  by_cases hd : (t.dev = devHalted && n != devHalted) = true
  · simp only [hd, if_true]
    exact ⟨hc, hl, hp⟩
  · simp only [hd]
    exact ⟨hc, hs, hp⟩

theorem State.mapsOk.tick : (tick s).mapsOk := .ite h h

theorem State.mapsOk.toPhase {p} : (s.toPhase p).mapsOk := .ite h h

theorem State.mapsOk.send {p} : (s.send p).mapsOk := h

theorem State.mapsOk.sendAll {ps} : (s.sendAll ps).mapsOk := h

theorem State.mapsOk.arrive {p} : (s.arrive p).mapsOk := h

theorem State.mapsOk.emit {o} : (s.emit o).mapsOk := h

theorem State.mapsOk.post {p type body} : (s.post p type body).mapsOk := .ite h h

theorem State.mapsOk.flood {type body from_} : (s.flood type body from_).mapsOk := .foldl (fun h => h.post) h

theorem State.mapsOk.traceEvent {g r} : (s.traceEvent g r).mapsOk := .ite h.countForever h.modStack

theorem State.mapsOk.traceTrigger : s.traceTrigger.mapsOk := .foldl (fun h => h.modStack) h

theorem State.mapsOk.traceSource {i} : (s.traceSource i).mapsOk := .ite h.traceTrigger h

theorem State.mapsOk.halt {cause ctx x y} : (s.halt cause ctx x y).mapsOk := by
  have hs := h.setDev (n := devHalted)
  unfold State.halt
  refine .ite (.traceSource ?_) (.ite ?_ h)
  · exact ⟨hs.1, hs.2⟩
  · exact ⟨h.1, h.2⟩

theorem State.mapsOk.note {kind place} : (s.note kind place).mapsOk := h

theorem State.mapsOk.faultIn {beat cls place ctx depth addr} : (s.faultIn beat cls place ctx depth addr).mapsOk := by
  refine .foldl (fun h => h.note) ?_
  exact ⟨h.1, h.2⟩

theorem State.mapsOk.fault {cls place ctx depth addr} : (s.fault cls place ctx depth addr).mapsOk := h.faultIn.traceSource

theorem State.mapsOk.stackLost {cls g addr} : (s.stackLost cls g addr).mapsOk := by
  refine .ite (.modStack ?_) ?_ <;> exact h.fault.countStack.halt

theorem State.mapsOk.coreLost {c k addr} : (s.coreLost c k addr).mapsOk := h.fault.modCore.halt

theorem State.mapsOk.checkStop {c k code pc} : (s.checkStop c k code pc).mapsOk := .ite h h.modCore

theorem State.mapsOk.pendRoll {c cause} : (s.pendRoll c cause).mapsOk := h.modCore

theorem State.mapsOk.itemLost {c k cls item} : (s.itemLost c k cls item).mapsOk := h.coreLost.modCore

theorem State.mapsOk.guardFail {c k cls item} : (s.guardFail c k cls item).mapsOk := by
  refine .ite h (.ite h.itemLost ?_)
  split
  · exact .ite h h.modCore.traceSource
  · exact .ite h.pendRoll h.modCore.pendRoll.traceSource

end
end Sys2Proof.Machine
end

section
/-! SUPPORT. The maps stay canonical: instructions of a context, the power stage and the fabric. -/

namespace Sys2Proof.Machine

open Sys2Proof

/-! ## Outcomes -/

/-- The next state of an outcome, where there is one, has its maps in their canonical form. -/
def Out.mapsOk : Out → Prop
  | .next s => s.mapsOk
  | .fault _ => True
  | .refused _ => True

theorem Out.mapsOk.next {o : Out} (h : Out.mapsOk o) {t : State} (e : o = .next t) : t.mapsOk := by
  rw [e] at h; exact h

theorem Out.mapsOk.ite {c : Prop} [Decidable c] {a b : Out} (ha : Out.mapsOk a) (hb : Out.mapsOk b) :
    Out.mapsOk (if c then a else b) := by split <;> assumption

section
variable {s : State} (h : s.mapsOk)
include h

/-! ## Instructions of a context -/

theorem State.mapsOk.moveOn {c k q next pc} : (s.moveOn c k q next pc).mapsOk := h.modCore

theorem State.mapsOk.issue {c k word u fails held next} {act : State → State} (hact : (act s).mapsOk) :
    Out.mapsOk (issue s c k word u fails held next act) := by
  rcases issue_cases s c k word u fails held next act with e | ⟨_, _, e⟩ | ⟨_, e⟩ | e <;> rw [e]
  · exact h
  · exact h.guardFail
  · exact h.checkStop
  · exact hact.moveOn

theorem State.mapsOk.writeReg {c k r v} : (s.writeReg c k r v).mapsOk := h.modCtx

theorem State.mapsOk.execArith {op fn c k f} : Out.mapsOk (execArith op fn c k f s) := by
  unfold Machine.execArith
  refine h.issue ?_
  exact h.writeReg

theorem State.mapsOk.execLdw {c k f} : Out.mapsOk (execLdw c k f s) := by
  unfold Machine.execLdw
  refine h.issue ?_
  exact h.writeReg

theorem State.mapsOk.execStw {c k f} : Out.mapsOk (execStw c k f s) := by
  unfold Machine.execStw
  refine h.issue ?_
  exact h.modCore

theorem State.mapsOk.execRdspec {c k f} : Out.mapsOk (execRdspec c k f s) := by
  unfold Machine.execRdspec
  refine h.issue ?_
  exact h.writeReg

theorem State.mapsOk.execBrc {c k f} : Out.mapsOk (execBrc c k f s) := by
  unfold Machine.execBrc
  refine h.issue ?_
  exact h

theorem State.mapsOk.execJmp {c k f} : Out.mapsOk (execJmp c k f s) := by
  unfold Machine.execJmp
  refine h.issue ?_
  exact h.writeReg

theorem State.mapsOk.execLoad {transpose op c k f} : Out.mapsOk (execLoad transpose op c k f s) := by
  unfold Machine.execLoad
  refine h.issue ?_
  exact h.modCore

theorem State.mapsOk.execApass {c k f} : Out.mapsOk (execApass c k f s) := by
  unfold Machine.execApass
  refine h.issue ?_
  exact h.modCore

theorem State.mapsOk.windowRepeat {c b k opens opened} : (s.windowRepeat c b k opens opened).mapsOk := h.modCore.pendRoll

theorem State.mapsOk.execAccumulate {c} : Out.mapsOk (execAccumulate c s) := by
  unfold Machine.execAccumulate
  dsimp only
  split
  · exact h
  · exact .ite h (.ite h.guardFail (State.mapsOk.ite h.modCore.windowRepeat h.modCore))

theorem State.mapsOk.execAclr {c k f} : Out.mapsOk (execAclr c k f s) := by
  unfold Machine.execAclr
  refine h.issue ?_
  exact h.modCore

theorem State.mapsOk.execAdrop {c k f} : Out.mapsOk (execAdrop c k f s) := by
  unfold Machine.execAdrop
  refine h.issue ?_
  exact h.modCore

theorem State.mapsOk.execApre {c k f} : Out.mapsOk (execApre c k f s) := by
  unfold Machine.execApre
  refine h.issue ?_
  dsimp only
  split
  · exact h.setCore.windowRepeat
  · exact h.setCore

theorem State.mapsOk.sampleChain {c k before aread d tile bytes record} :
    (s.sampleChain c k before aread d tile bytes record).mapsOk := by
  unfold State.sampleChain
  dsimp only
  split
  · split
    · exact h
    · exact .ite h.modCtx.modCore h.modCtx
  · exact h

theorem State.mapsOk.execAread {c k f} : Out.mapsOk (execAread c k f s) := by
  unfold Machine.execAread
  refine h.issue ?_
  exact h.modCore.sampleChain

theorem State.mapsOk.execVector {op srcs fails lane c k f} : Out.mapsOk (execVector op srcs fails lane c k f s) := by
  unfold Machine.execVector
  refine h.issue ?_
  exact h.modCore

theorem State.mapsOk.execVcvt {c k f} : Out.mapsOk (execVcvt c k f s) := by
  unfold Machine.execVcvt
  refine h.issue ?_
  exact h.modCore

theorem State.mapsOk.execRow {o c k f} : Out.mapsOk (execRow o c k f s) := by
  unfold Machine.execRow
  refine h.issue ?_
  exact h.setCore

theorem State.mapsOk.localSig {c i v} : (s.localSig c i v).mapsOk := h.modCore

theorem State.mapsOk.execSig {c k f} : Out.mapsOk (execSig c k f s) := by
  unfold Machine.execSig
  refine h.issue (.ite h.localSig ?_)
  split
  · exact h
  · exact .ite h.localSig (.ite h.modCtx h.modCore.send)

theorem State.mapsOk.waitEvent {c k f held} : (s.waitEvent c k f held).mapsOk := by
  unfold State.waitEvent
  split
  · exact h
  · exact .ite h.traceEvent h

theorem State.mapsOk.execWait {c k f held} : Out.mapsOk (execWait c k f held s) := by
  unfold Machine.execWait
  refine .ite (State.mapsOk.ite h h.modCtx) (h.issue ?_)
  exact .ite h.waitEvent.modCore h.waitEvent

theorem State.mapsOk.execBeat {c k f} : Out.mapsOk (execBeat c k f s) := by
  unfold Machine.execBeat
  refine h.issue (.modCore ?_)
  exact ⟨h.1, h.2⟩

theorem State.mapsOk.execEndCtx {c k f} : Out.mapsOk (execEndCtx c k f s) := by
  unfold Machine.execEndCtx
  refine h.issue ?_
  exact h.modCore

theorem State.mapsOk.execNop {c k f} : Out.mapsOk (execNop c k f s) := by
  unfold Machine.execNop
  refine h.issue ?_
  exact h

theorem State.mapsOk.execCpy {c k f} : Out.mapsOk (execCpy c k f s) := by
  unfold Machine.execCpy
  refine h.issue ?_
  exact .ite h.modCtx h.modCore

theorem State.mapsOk.execCmark {c k f} : Out.mapsOk (execCmark c k f s) := by
  unfold Machine.execCmark
  refine h.issue ?_
  exact h.modCtx

/-! ## The power stage -/

theorem State.mapsOk.modTympan {f} : (s.modTympan f).mapsOk := h

theorem State.mapsOk.measured {m} : (s.measured m).mapsOk := by
  unfold State.measured
  exact .ite h.modTympan.modTympan h.modTympan.modTympan.countForever

theorem State.mapsOk.chargeStep {m} : (s.chargeStep m).mapsOk := h

theorem State.mapsOk.setpoint : s.setpoint.mapsOk := .ite h (.ite h h)

theorem State.mapsOk.slackSend : s.slackSend.mapsOk := by
  refine .ite ?_ h
  have hs : State.mapsOk (State.flood ((s.modTympan fun t => t.keepSlack s.ownSlack).modTympan fun t =>
      { t with planNeed := BitVec.ofNat 3 s.ownSlack.lneed }) 5 s.ownSlack.body none) := h.modTympan.modTympan.flood
  exact ⟨hs.1, hs.2⟩

theorem State.mapsOk.thermalStage : s.thermalStage.mapsOk := .ite h h

theorem State.mapsOk.levelDecision : s.levelDecision.mapsOk := by
  unfold State.levelDecision
  have ht := h.thermalStage
  generalize s.thermalStage = t at ht ⊢
  refine .ite (.ite (.ite ht.modTympan ?_) ht) h
  split
  · exact ht.modTympan.count
  · exact .ite ht.modTympan.count ht.modTympan

theorem State.mapsOk.raiseRails : s.raiseRails.mapsOk := .ite h.modTympan h

theorem State.mapsOk.execBusLost : Out.mapsOk (execBusLost s) := by
  unfold Machine.execBusLost
  exact .ite h h.modTympan.count

theorem State.mapsOk.execRideRetain : Out.mapsOk (execRideRetain s) := by
  unfold Machine.execRideRetain
  exact .ite h.modTympan h

theorem State.mapsOk.execSupportEntry {v} : Out.mapsOk (execSupportEntry v s) := by
  unfold Machine.execSupportEntry
  exact .ite h.modTympan.count h

theorem State.mapsOk.execSupportEnd : Out.mapsOk (execSupportEnd s) := by
  unfold Machine.execSupportEnd
  exact .ite h.modTympan h

theorem State.mapsOk.execBusSag {lowest samples} : Out.mapsOk (execBusSag lowest samples s) := by
  unfold Machine.execBusSag
  exact .ite h.count h

theorem State.mapsOk.execBusSwell {highest samples} : Out.mapsOk (execBusSwell highest samples s) := by
  unfold Machine.execBusSwell
  exact .ite h.count h

theorem State.mapsOk.execRippleWindow {b0 b1 b2 b3} : Out.mapsOk (execRippleWindow b0 b1 b2 b3 s) := by
  unfold Machine.execRippleWindow
  exact .ite h (State.mapsOk.foldl (fun h => .ite h.count h) (.foldl (fun h => h.modTympan) h))

theorem State.mapsOk.execDroopStretch {slab cycles} : Out.mapsOk (execDroopStretch slab cycles s) := by
  unfold Machine.execDroopStretch
  exact .ite h h.modTympan.countForever

theorem State.mapsOk.execConverterFault : Out.mapsOk (execConverterFault s) := by
  unfold Machine.execConverterFault
  exact .ite h h.modTympan.count

theorem State.mapsOk.execHintExpire : Out.mapsOk (execHintExpire s) := by
  unfold Machine.execHintExpire
  exact h.modTympan

theorem State.mapsOk.execRefclkValid : Out.mapsOk (execRefclkValid s) := by
  unfold Machine.execRefclkValid
  exact h.modTympan

theorem State.mapsOk.execSoftStartEnd : Out.mapsOk (execSoftStartEnd s) := by
  unfold Machine.execSoftStartEnd
  exact h.modTympan

theorem State.mapsOk.execSlabTempRead {m} : Out.mapsOk (execSlabTempRead m s) := by
  unfold Machine.execSlabTempRead
  refine .ite h (State.mapsOk.raiseRails (.ite (.count (.modTympan ?_)) (.modTympan ?_))) <;>
  exact .foldl (fun h => h.modStack) h.modTympan

end

/-- Without power no unit is listed. -/
theorem State.mapsOk_off {s : State} {refclk : Bool} : (s.off refclk).mapsOk := ⟨rfl, rfl, rfl⟩

section
variable {s : State} (h : s.mapsOk)
include h

theorem State.mapsOk.execKettleEmpty : Out.mapsOk (execKettleEmpty s) := by
  unfold Machine.execKettleEmpty
  exact .ite State.mapsOk_off h

theorem State.mapsOk.execRefclkLost : Out.mapsOk (execRefclkLost s) := by
  unfold Machine.execRefclkLost
  exact .ite State.mapsOk_off h.modTympan

/-! ## The fabric -/

theorem State.mapsOk.sendDie {d v} : (s.sendDie d v).mapsOk := .ite h.modDie.send h.send

theorem State.mapsOk.sendAllDie {d ps} : (s.sendAllDie d ps).mapsOk := .foldl (fun h => h.sendDie) h

theorem State.mapsOk.sendAgain {p} : (s.sendAgain p).mapsOk := by
  unfold State.sendAgain
  split
  · exact h.sendDie
  · exact h.send

theorem State.mapsOk.giveRow {v} : (s.giveRow v).1.mapsOk := by
  unfold State.giveRow
  split
  · split
    · exact h.modStack
    · exact h
  · exact h

theorem State.mapsOk.giveRows : s.giveRows.mapsOk := by
  refine .foldl (fun h => ?_) ?_
  · exact ⟨h.giveRow.1, h.giveRow.2⟩
  · exact ⟨h.1, h.2⟩

theorem State.mapsOk.leftMesh {p} : (s.leftMesh p).mapsOk := by
  have hs := h.giveRows
  unfold State.leftMesh
  dsimp only
  split
  · exact ⟨hs.1, hs.2⟩
  · exact hs

/-! ## HBM and Carillon -/

theorem State.mapsOk.failHbm {g b} : (s.failHbm g b).mapsOk := h.countStack.note.note.modStack

theorem State.mapsOk.loseHbm {g b} : (s.loseHbm g b).mapsOk := h.failHbm.stackLost

theorem State.mapsOk.loseAll {g bs} : (s.loseAll g bs).mapsOk := .foldl (fun h => h.loseHbm) h

theorem State.mapsOk.carSignal {g e} : (s.carSignal g e).mapsOk := .ite h h.send

theorem State.mapsOk.release {g i step} : (s.release g i step).mapsOk := by
  unfold State.release
  dsimp only
  split
  · exact h.countStack
  · exact h.modStack

theorem State.mapsOk.trigger {g i block} : (s.trigger g i block).mapsOk :=
  .ite h.countStack (.ite (.ite h.countStack h.release) (.ite h.countStack (.ite h.modStack (.ite h.countStack h.countStack))))

theorem State.mapsOk.hbmBlock {g a bs} : (s.hbmBlock g a bs).mapsOk := .ite h.modStack.trigger h.modStack

theorem State.mapsOk.hbmStore {g a bs} : (s.hbmStore g a bs).mapsOk := .foldl (fun h => h.hbmBlock) h

/-- A Carillon packet that arrives is taken by its operation, sent back, or counted. -/
theorem State.mapsOk.carArrive {p subop judge} {act : StackId → Nat → CarTag → List Byte → State → State}
    (hact : ∀ {g off tag data}, (act g off tag data (s.arrive p)).mapsOk) : Out.mapsOk (s.carArrive p subop judge act) := by
  unfold State.carArrive
  dsimp only
  split
  · refine .ite h ?_
    split
    · exact hact
    · exact h.arrive.send
    · exact h.arrive.countStack
    · exact h.arrive.countStack
  · exact h

theorem State.mapsOk.contribute {g i tag off data t} (e : s.contribute g i tag off data = some t) : t.mapsOk := by
  unfold State.contribute at e
  dsimp only at e
  split at e
  · cases e; exact h.countStack
  · split at e
    · cases e; exact h.countStack
    · split at e
      · cases e
      · split at e
        · cases e; exact h.countStack
        · split at e
          · cases e
          · split at e
            · split at e <;> cases e
              · exact h.modStack.sendAll
              · exact h.modStack
            · split at e <;> cases e
              · exact h.countStack.modStack.sendAll
              · exact h.countStack.modStack

theorem State.mapsOk.reduceDone {g i b v} : (s.reduceDone g i b v).mapsOk := by
  unfold State.reduceDone
  refine .ite (.carSignal ?_) ?_ <;> exact .ite h.hbmStore.modStack h.hbmStore.modStack.countStack

theorem State.mapsOk.execRankEnter {g op block bad} : Out.mapsOk (execRankEnter g op block bad s) := by
  unfold Machine.execRankEnter
  dsimp only
  refine .ite h ?_
  split
  · exact h
  · exact .ite h.stackLost (State.mapsOk.ite h.modStack.reduceDone h.modStack)

theorem State.mapsOk.execBlockRearm {g op block} : Out.mapsOk (execBlockRearm g op block s) := by
  unfold Machine.execBlockRearm
  exact .ite h.modStack h

theorem State.mapsOk.execDualCopy {c} : Out.mapsOk (execDualCopy c s) := by
  unfold Machine.execDualCopy
  refine h.carArrive fun {g off tag data} => ?_
  have ha := h.arrive (p := c.packet)
  generalize s.arrive c.packet = t at ha ⊢
  dsimp only
  refine .ite ha.countStack ?_
  split
  · exact ha.countStack.send
  · exact .ite (.ite ha.modStack.stackLost ha.modStack.sendAll) ha.modStack

theorem State.mapsOk.execDualResult {p} : Out.mapsOk (execDualResult p s) := by
  unfold Machine.execDualResult
  exact h.carArrive fun {_ _ _ _} => .ite h.arrive.modStack.countStack.note h.arrive.modStack

theorem State.mapsOk.begin_ {g i} : (s.begin_ g i).mapsOk := h.modStack

theorem State.mapsOk.opDone {g i} : (s.opDone g i).mapsOk := h.modStack.carSignal

theorem State.mapsOk.execSumsqStart {g op} : Out.mapsOk (execSumsqStart g op s) := by
  unfold Machine.execSumsqStart
  refine .ite h (.ite h.begin_.loseAll ?_)
  split
  · exact h
  · exact h.begin_.send

theorem State.mapsOk.execNormPartial {p} : Out.mapsOk (execNormPartial p s) := by
  unfold Machine.execNormPartial
  exact h.carArrive fun {_ _ _ _} => .ite h.arrive.modStack.sendAll h.arrive.modStack

theorem State.mapsOk.execNormRecord {p} : Out.mapsOk (execNormRecord p s) := by
  unfold Machine.execNormRecord
  exact h.carArrive fun {_ _ _ _} => h.arrive.hbmStore.opDone

theorem State.mapsOk.execAllgatherStart {g op} : Out.mapsOk (execAllgatherStart g op s) := by
  unfold Machine.execAllgatherStart
  exact .ite h (.ite h.begin_.loseAll (State.mapsOk.ite h.hbmStore.modStack.sendAll.opDone h.hbmStore.modStack.sendAll))

theorem State.mapsOk.permuteEnd {g i} : (s.permuteEnd g i).mapsOk := .ite h.loseAll h.hbmStore.opDone

theorem State.mapsOk.execPermuteStart {g c} : Out.mapsOk (execPermuteStart g c s) := by
  unfold Machine.execPermuteStart
  exact .ite h (.ite h.begin_.loseAll (.ite h.modStack.sendAll (State.mapsOk.ite h.permuteEnd h)))

theorem State.mapsOk.execPassroundStart {g op} : Out.mapsOk (execPassroundStart g op s) := by
  unfold Machine.execPassroundStart
  exact .ite h (.ite h.begin_.loseAll h.modStack.sendAll)

theorem State.mapsOk.passData {g tag off data} : (s.passData g tag off data).mapsOk := by
  unfold State.passData
  dsimp only
  refine .ite (.carSignal (.ite ?_ h.modStack)) (.ite ?_ h.modStack) <;> split
  · exact h.modStack
  · exact h.modStack.sendAll
  · exact h.modStack
  · exact h.modStack.sendAll

theorem State.mapsOk.execCarillonData {p} : Out.mapsOk (execCarillonData p s) := by
  unfold Machine.execCarillonData
  refine h.carArrive fun {g off tag data} => ?_
  have hs := (h.arrive (p := p)).hbmStore (g := g) (a := off) (bs := data)
  exact .ite hs.passData (.ite (.ite hs.modStack.opDone hs.modStack) (.ite hs.modStack.permuteEnd hs.modStack))

end
end Sys2Proof.Machine
end

section
/-! SUPPORT. The maps stay canonical: copies, requests and packets. -/

namespace Sys2Proof.Machine

open Sys2Proof

section
variable {s : State} (h : s.mapsOk)
include h

/-! ## Copies and requests -/

theorem State.mapsOk.execDescriptorRead {c} : Out.mapsOk (execDescriptorRead c s) := by
  unfold Machine.execDescriptorRead
  dsimp only
  split
  · exact h
  · exact .ite h (.ite h.modCore.modCore.guardFail (.ite h.modCore.modCore.checkStop h.modCore.modCore))

theorem State.mapsOk.execCopyRequest {c} : Out.mapsOk (execCopyRequest c s) := by
  unfold Machine.execCopyRequest
  dsimp only
  refine .ite h ?_
  split
  · exact h
  · split
    · exact h
    · exact h.modCore.send

theorem State.mapsOk.noteRead {p} : (s.noteRead p).mapsOk := by
  unfold State.noteRead
  split
  · exact h
  · exact .ite h h.modCore

theorem State.mapsOk.serveRead {p pl data} : (s.serveRead p pl data).mapsOk := h.noteRead.sendAll

theorem State.mapsOk.abortLandings {tag slot} : (s.abortLandings tag slot).mapsOk := h.mapCores.mapStacks

theorem State.mapsOk.withDeadCopies {l} : State.mapsOk { s with deadCopies := l } := ⟨h.1, h.2⟩

theorem State.mapsOk.abortForeign {p} : (s.abortForeign p).mapsOk := by
  unfold State.abortForeign
  exact .ite h h.abortLandings.withDeadCopies

theorem State.mapsOk.sendFail {p src cls} : (s.sendFail p src cls).mapsOk := h.abortForeign.send

theorem State.mapsOk.serveLine {g l p pl} : (s.serveLine g l p pl).mapsOk := h.modStack.serveRead

theorem State.mapsOk.letReq {g r kept} : (s.letReq g r kept).mapsOk := by
  unfold State.letReq
  dsimp only
  split
  · exact h.modStack.serveLine
  · exact h.modStack.modStack

theorem State.mapsOk.letRecords {g} : (s.letRecords g).mapsOk := h.modStack

end

theorem State.mapsOk.letIn {g : StackId} {fuel : Nat} : ∀ {s : State}, s.mapsOk → (s.letIn g fuel).mapsOk := by
  induction fuel with
  | zero => exact fun h => h
  | succ n ih =>
    intro s h
    unfold State.letIn
    split
    · exact h
    · exact ih h.letReq

section
variable {s : State} (h : s.mapsOk)
include h

theorem State.mapsOk.freeEntry {g r} : (s.freeEntry g r).mapsOk := h.modStack.letIn.letRecords

theorem State.mapsOk.offer {g r} : (s.offer g r).mapsOk := by
  unfold State.offer
  dsimp only
  refine .ite h ?_
  split
  · exact h.modStack
  · exact h.modStack

theorem State.mapsOk.ownWrites : s.ownWrites.mapsOk := by
  unfold State.ownWrites
  refine .foldl (fun h => ?_) h
  split
  · exact h
  · split
    · exact h
    · exact .foldl (fun h => h.offer) h

theorem State.mapsOk.journalWrites : s.journalWrites.mapsOk := by
  unfold State.journalWrites
  exact .foldl (fun h => .ite h.modStack.letRecords h) h.ownWrites

theorem State.mapsOk.optimizeRecord {g p clip a} : (s.optimizeRecord g p clip a).mapsOk := by
  unfold State.optimizeRecord
  have hw {ws : List (Nat × List Byte)} : (ws.foldl (fun s w => s.hbmStore g w.1 w.2) s).mapsOk := .foldl (fun h => h.hbmStore) h
  refine .ite h (.ite ?_ (.countStack ?_)) <;> exact .ite hw hw.countStack

theorem State.mapsOk.execOptimizeStart {g op} : Out.mapsOk (execOptimizeStart g op s) := by
  unfold Machine.execOptimizeStart
  refine .ite h (.ite h.begin_.loseAll (.ite h.countStack.opDone (.ite h.begin_.loseAll (State.mapsOk.opDone ?_))))
  exact .foldl (fun h => h.optimizeRecord) h

/-! ## Guards and repairs -/

theorem State.mapsOk.repairCopy {c e b} : (s.repairCopy c e b).mapsOk := h.sendAll.modCore

theorem State.mapsOk.repairBlock {c k b} : (s.repairBlock c k b).mapsOk := by
  unfold State.repairBlock
  refine .ite h (.ite ?_ (.ite h.itemLost h.modCore))
  split
  · exact h.modCore.repairCopy
  · exact h.itemLost

theorem State.mapsOk.copyGuard {c cls item} : (s.copyGuard c cls item).mapsOk := by
  unfold State.copyGuard
  exact .ite h (.ite h.modCore.fault.repairBlock h.modCore.guardFail)

theorem State.mapsOk.loseBlock {pl cls b} : (s.loseBlock pl cls b).mapsOk := by
  cases pl with
  | hbm => exact h.loseHbm
  | sc => exact h.modStack.stackLost
  | _ => exact h

theorem State.mapsOk.sourceFault {pl cls item} : (s.sourceFault pl cls item).mapsOk := by
  cases pl with
  | ls | af | stat => exact h.copyGuard
  | _ => exact h.loseBlock

theorem State.mapsOk.doRead {p pl bad} : (s.doRead p pl bad).mapsOk := by
  unfold State.doRead
  split
  · exact h.sourceFault.sendFail
  · exact h.serveRead

theorem State.mapsOk.released {pl p} : (s.released pl p).mapsOk := by
  cases pl with
  | hbm | sc => exact h.freeEntry
  | _ => exact h

theorem State.mapsOk.execReadPacket {p bad} : Out.mapsOk (execReadPacket p bad s) := by
  unfold Machine.execReadPacket
  split
  · exact h
  · exact .ite h h.arrive.released.doRead

/-! ## Landings -/

theorem State.mapsOk.setLandings {pl l} : (s.setLandings pl l).mapsOk := by
  cases pl with
  | hbm | sc => exact h.modStack
  | _ => exact h.modCore

theorem State.mapsOk.countRetry {pl} : (s.countRetry pl).mapsOk := by
  cases pl with
  | hbm | sc => exact h.countStack
  | _ => exact h.modCore

theorem State.mapsOk.applyData {pl tag data t} (e : s.applyData pl tag data = some t) : t.mapsOk := by
  unfold State.applyData at e
  split at e
  · cases e; exact h.modCore
  · cases e; exact h.modCore
  · split at e
    · exact h.contribute e
    · cases e; exact h.hbmStore
  · cases e; exact h.modStack
  · cases e; exact h

theorem State.mapsOk.countCarRefuse {pl} : (s.countCarRefuse pl).mapsOk := by
  cases pl with
  | hbm => exact h.countStack
  | _ => exact h

theorem State.mapsOk.passOn {p} : (s.passOn p).mapsOk := by
  unfold State.passOn
  split
  · exact h.send
  · exact h

theorem State.mapsOk.land {p pl} : (s.land p pl).mapsOk := by
  unfold State.land
  refine .ite h.countRetry.send (.ite h.setLandings ?_)
  split
  · exact h.countCarRefuse.send
  · rename_i e
    have ht := h.applyData e
    exact .ite ht.setLandings.passOn ht.setLandings

theorem State.mapsOk.execWritePacket {p} : Out.mapsOk (execWritePacket p s) := by
  unfold Machine.execWritePacket
  split
  · exact h
  · exact .ite h h.arrive.released.land

theorem State.mapsOk.applyFinal {p pl t} (e : s.applyFinal p pl = some t) : t.mapsOk := by
  unfold State.applyFinal at e
  split at e
  · cases e
  · rename_i ed
    split at e <;> cases e
    · exact (h.applyData ed).modCore
    · exact h.applyData ed

theorem State.mapsOk.attachedSignal {p pl} : (s.attachedSignal p pl).mapsOk := by
  unfold State.attachedSignal
  refine .ite h ?_
  dsimp only
  split
  · exact .ite h.modCore h.send
  · exact h

theorem State.mapsOk.dropRange {p pl} : (s.dropRange p pl).mapsOk := by
  cases pl with
  | ls => exact .ite h.modCore h
  | _ => exact h

theorem State.mapsOk.noteLanded {p} : (s.noteLanded p).mapsOk := by
  unfold State.noteLanded
  split
  · exact h
  · exact .ite h h.modCore

theorem State.mapsOk.pealEnd {p c off} : (s.pealEnd p c off).mapsOk := by
  unfold State.pealEnd
  dsimp only
  split
  · exact h.modCore.dropRange.passOn
  · exact h.modCore.dropRange.noteLanded.send

theorem State.mapsOk.execFinalWriteApply {at_ tag slot} : Out.mapsOk (execFinalWriteApply at_ tag slot s) := by
  unfold Machine.execFinalWriteApply
  split
  · exact h
  refine .ite h ?_
  split
  · exact h
  split
  · exact h
  split
  · exact h
  refine .ite h (.ite ?_ ?_)
  · split
    · exact h.setLandings.pealEnd
    · exact h
  · split
    · exact h.setLandings.countCarRefuse.send
    · rename_i e
      exact (h.applyFinal e).attachedSignal.dropRange.noteLanded.send.setLandings

theorem State.mapsOk.execPealForward {c p} : Out.mapsOk (execPealForward c p s) := by
  unfold Machine.execPealForward
  split
  · exact h
  · exact .ite h (.ite h.arrive.land (.ite h.arrive h.arrive.modCore.passOn))

theorem State.mapsOk.execPealFinal {c p} : Out.mapsOk (execPealFinal c p s) := by
  unfold Machine.execPealFinal
  split
  · exact h
  · exact .ite h (.ite h.arrive.land (.ite h.arrive h.arrive.pealEnd))

theorem State.mapsOk.execSignalPacket {p} : Out.mapsOk (execSignalPacket p s) := by
  unfold Machine.execSignalPacket
  split
  · exact .ite h h.arrive.modCore
  · exact h

theorem State.mapsOk.execRefuseNotice {p} : Out.mapsOk (execRefuseNotice p s) := by
  unfold Machine.execRefuseNotice
  refine .ite h ?_
  exact ⟨h.1, h.2⟩

theorem State.mapsOk.rereadAbort {p pl cls item} : (s.rereadAbort p pl cls item).mapsOk := by
  unfold State.rereadAbort
  cases pl with
  | hbm => exact .ite h.loseAll.sendFail h.loseAll
  | _ => exact .ite h.sourceFault.sendFail h.sourceFault

theorem State.mapsOk.execRefusedResend : Out.mapsOk (execRefusedResend s) := by
  unfold Machine.execRefusedResend
  split
  · exact h
  refine .ite h ?_
  dsimp only
  split
  · refine State.mapsOk.rereadAbort ?_
    exact ⟨h.1, h.2⟩
  · refine State.mapsOk.sendAgain ?_
    exact ⟨h.1, h.2⟩

theorem State.mapsOk.copyAbort {c slot rolls} : (s.copyAbort c slot rolls).mapsOk := h.modCore.abortLandings

theorem State.mapsOk.linkLost {tag} : (s.linkLost tag).mapsOk := h.count.fault

theorem State.mapsOk.freeForeign : s.freeForeign.mapsOk := by
  unfold State.freeForeign
  exact h.mapCores.mapStacks.withDeadCopies

theorem State.mapsOk.freeLandings {tag slot} : (s.freeLandings tag slot).mapsOk := h.mapCores.mapStacks

theorem State.mapsOk.execCopyRoll {c slot} : Out.mapsOk (execCopyRoll c slot s) := by
  unfold Machine.execCopyRoll
  dsimp only
  split
  · exact h
  · exact .ite h (.ite h.freeLandings.modCore (.ite h h.freeLandings.modCore))

/-! ## Rolls -/

theorem State.mapsOk.rollRepair {c q} : (s.rollRepair c q).mapsOk := by
  unfold State.rollRepair
  split
  · exact h.repairBlock
  · exact h.modCore
  · exact h

theorem State.mapsOk.rollCounted {c q depth} : (s.rollCounted c q depth).mapsOk := by
  unfold State.rollCounted
  exact .ite h (.ite h.modCore.modCore (State.mapsOk.ite h.modCore h.modCore.faultIn).note)

theorem State.mapsOk.rollFurther {c depth qs} : (s.rollFurther c depth qs).mapsOk := .foldl (fun h => h.faultIn.rollRepair) h

theorem State.mapsOk.lostFaults {c qs} : (s.lostFaults c qs).mapsOk := .foldl (fun h => h.faultIn) h

theorem State.mapsOk.rollLost {c q} : (s.rollLost c q).mapsOk := h.lostFaults.coreLost.modCore

theorem State.mapsOk.doRoll {c} : (s.doRoll c).mapsOk := by
  unfold State.doRoll
  dsimp only
  split
  · exact h
  · split
    · exact h.rollLost
    · exact h.rollCounted.rollRepair.rollFurther.modCore

theorem State.mapsOk.detect {c d} : (s.detect c d).mapsOk := by
  cases d <;> exact .ite h.guardFail h

theorem State.mapsOk.execCoreRoll {c found} : Out.mapsOk (execCoreRoll c found s) := by
  unfold Machine.execCoreRoll
  refine .ite h ?_
  cases found with
  | none => exact h.doRoll
  | some d => exact h.detect.doRoll

end
end Sys2Proof.Machine
end

section
/-! SUPPORT. The maps stay canonical: rolls, the beat, the sideband, links and the torus. -/

namespace Sys2Proof.Machine

open Sys2Proof

section
variable {s : State} (h : s.mapsOk)
include h

/-! ## The beat -/

/-- A window step acts on the state at its cycle, marked done. -/
theorem State.mapsOk.inWindow {c w} {act : State → State} (hact : ∀ {t}, State.mapsOk t → (act t).mapsOk) :
    Out.mapsOk (s.inWindow c w act) := by
  have hs := h.toPhase (p := s.windowAt + c)
  unfold State.inWindow
  refine .ite h (hact (t := _) ?_)
  exact ⟨hs.1, hs.2⟩

theorem State.mapsOk.atStart {w} {act : State → State} (hact : ∀ {t}, State.mapsOk t → (act t).mapsOk) :
    Out.mapsOk (s.atStart w act) := by
  unfold State.atStart
  refine .ite h (hact (t := _) ?_)
  exact ⟨h.1, h.2⟩

theorem State.mapsOk.startStrokes : s.startStrokes.mapsOk := .ite h.mapCores h

theorem State.mapsOk.newBeat : s.newBeat.mapsOk := by
  unfold State.newBeat
  dsimp only
  generalize hx : State.modTympan (State.mapPorts (State.mapCores s _) _) _ = x
  have hs : x.mapsOk := hx ▸ h.mapCores.mapPorts.modTympan
  refine State.mapsOk.raiseRails (.ite (.countForever ?_) ?_) <;> exact ⟨hs.1, hs.2⟩

theorem State.mapsOk.execBeatStart : Out.mapsOk (execBeatStart s) := by
  unfold Machine.execBeatStart
  exact .ite h h.newBeat.freeForeign.startStrokes

theorem State.mapsOk.closeIssue : s.closeIssue.mapsOk := by
  unfold State.closeIssue
  dsimp only
  split
  · exact .ite h.mapCores.traceSource h.mapCores
  · exact (State.mapsOk.ite h.mapCores.traceSource h.mapCores).count.halt

theorem State.mapsOk.execStrokeIssueClose : Out.mapsOk (execStrokeIssueClose s) := h.inWindow fun h => h.closeIssue

theorem State.mapsOk.logBeat : s.logBeat.mapsOk := h

theorem State.mapsOk.execJournalCommit : Out.mapsOk (execJournalCommit s) :=
  h.inWindow fun h => h.mapCores.logBeat.journalWrites

theorem State.mapsOk.sealLog : s.sealLog.mapsOk := h

theorem State.mapsOk.execJournalSeal : Out.mapsOk (execJournalSeal s) := h.inWindow fun h => h.mapCores.sealLog

theorem State.mapsOk.sendDownbeat : s.sendDownbeat.mapsOk := .ite (.foldl (fun h => h.post) h) h

theorem State.mapsOk.sendHold {tag from_} : (s.sendHold tag from_).mapsOk := h

theorem State.mapsOk.holdBit : s.holdBit.mapsOk := by
  have hs := (h.modTympan (f := fun t => { t with powerHold := s.powerHold })).sendDownbeat
  unfold State.holdBit
  generalize (s.modTympan fun t => { t with powerHold := s.powerHold }).sendDownbeat = t at hs ⊢
  refine .ite ?_ (.sendHold ?_) <;> exact ⟨hs.1, hs.2⟩

theorem State.mapsOk.execHoldSample : Out.mapsOk (execHoldSample s) := h.inWindow fun h => h.holdBit

theorem State.mapsOk.downbeatCheck : s.downbeatCheck.mapsOk := .ite (.ite h h.halt) h

theorem State.mapsOk.execHoldVerdict : Out.mapsOk (execHoldVerdict s) := by
  refine h.inWindow fun h => State.mapsOk.downbeatCheck ?_
  exact ⟨h.1, h.2⟩

theorem State.mapsOk.execBoundarySnapshot : Out.mapsOk (execBoundarySnapshot s) := h.inWindow fun h => ⟨h.1, h.2⟩

theorem State.mapsOk.execPowerStep {m} : Out.mapsOk (execPowerStep m s) := by
  unfold Machine.execPowerStep
  exact .ite h.chargeStep (h.inWindow fun h => h.measured.setpoint.slackSend.levelDecision)

theorem State.mapsOk.execMuffleClockStop : Out.mapsOk (execMuffleClockStop s) := h.inWindow fun h => .ite ⟨h.1, h.2⟩ h

theorem State.mapsOk.execCopyLagCheck : Out.mapsOk (execCopyLagCheck s) := h.inWindow fun h => ⟨h.1, h.2⟩

theorem State.mapsOk.trimSlabs : s.trimSlabs.mapsOk := .ite h.modTympan h.modTympan.count

theorem State.mapsOk.newBar : s.newBar.mapsOk := by
  unfold State.newBar
  refine State.mapsOk.trimSlabs (.modTympan ?_)
  exact ⟨h.1, h.2⟩

theorem State.mapsOk.execBarBoundary : Out.mapsOk (execBarBoundary s) := h.atStart fun h => .ite h.newBar h

theorem State.mapsOk.execRtScrub : Out.mapsOk (execRtScrub s) := by
  unfold Machine.execRtScrub
  refine .ite h (State.mapsOk.ite ?_ (.count ?_)) <;> exact ⟨h.1, h.2⟩

theorem State.mapsOk.enterRunning : s.enterRunning.mapsOk := by
  have hs := h.setDev (n := devRunning)
  unfold State.enterRunning
  generalize s.setDev devRunning = t at hs ⊢
  split
  · exact h
  · refine .startStrokes (.mapCores (.mapPorts (.modTympan ?_)))
    exact ⟨hs.1, hs.2⟩

theorem State.mapsOk.execDownbeatEntry : Out.mapsOk (execDownbeatEntry s) := by
  unfold Machine.execDownbeatEntry
  exact .ite h.enterRunning h

theorem State.mapsOk.epochs : s.epochs.mapsOk := .foldl (fun h => h.traceEvent) h

theorem State.mapsOk.execTraceEpoch : Out.mapsOk (execTraceEpoch s) := h.atStart fun h => .ite h.epochs h

/-! ## The knell -/

theorem State.mapsOk.enterKnell {cause p} : (s.enterKnell cause p).mapsOk := by
  have hs := h.setDev (n := devKnell)
  unfold State.enterKnell
  generalize s.setDev devKnell = t at hs ⊢
  refine State.mapsOk.flood ?_
  exact ⟨hs.1, hs.2⟩

theorem State.mapsOk.execKnellEntry {cause at_} : Out.mapsOk (execKnellEntry cause at_ s) := by
  unfold Machine.execKnellEntry
  exact .ite h.enterKnell h

theorem State.mapsOk.execKnellMessage {p coord serial cause} : Out.mapsOk (execKnellMessage p coord serial cause s) := by
  unfold Machine.execKnellMessage
  refine .ite h (State.mapsOk.flood ?_)
  exact ⟨h.1, h.2⟩

theorem State.mapsOk.execRelayFail {path} : Out.mapsOk (execRelayFail path s) := by
  unfold Machine.execRelayFail
  refine .ite h (State.mapsOk.ite (.fault ?_) ?_) <;> exact ⟨h.1, h.2⟩

/-! ## The sideband -/

theorem State.mapsOk.takeHold {p tag} : (s.takeHold p tag).mapsOk := by
  unfold State.takeHold
  exact .ite h (.ite h.sendHold.count.halt h.sendHold)

theorem State.mapsOk.withAlignLost {b} : State.mapsOk { s with alignLost := b } := ⟨h.1, h.2⟩

theorem State.mapsOk.mismatchAt {p f} : (s.mismatchAt p f).mapsOk := by
  unfold State.mismatchAt
  have hs : (if (s.port p).mismatch then s else (s.modPort p fun q => { q with mismatch := true }).count 3 1).mapsOk :=
    .ite h h.modPort.count
  exact .ite (.ite hs.modPort.withAlignLost hs.modPort) hs

theorem State.mapsOk.judgeStamp {p f} : (s.judgeStamp p f).mapsOk := .ite h.mismatchAt h

theorem State.mapsOk.serveAlign {p f} : (s.serveAlign p f).mapsOk := .ite h.post h

theorem State.mapsOk.execSidebandFrame {p f} : Out.mapsOk (execSidebandFrame p f s) := by
  unfold Machine.execSidebandFrame
  refine .ite h (State.mapsOk.ite (.foldl (fun h => h.takeHold) ?_) ?_) <;>
  exact .ite h.modPort.judgeStamp.serveAlign.countPort h.modPort.judgeStamp.serveAlign

theorem State.mapsOk.execNeighbourSilent {p} : Out.mapsOk (execNeighbourSilent p s) := by
  unfold Machine.execNeighbourSilent
  exact .ite h.modPort h

theorem State.mapsOk.execDelayProbe {p sent received echo now} : Out.mapsOk (execDelayProbe p sent received echo now s) := by
  unfold Machine.execDelayProbe
  exact .ite h h.modPort.post

theorem State.mapsOk.loadCount {beat phase} : (s.loadCount beat phase).mapsOk := by
  unfold State.loadCount
  refine State.mapsOk.mapPorts ?_
  exact ⟨h.1, h.2⟩

theorem State.mapsOk.withTempo {tempo tempoPrev n b} :
    State.mapsOk { s with tempo := tempo, tempoPrev := tempoPrev, rootHops := n, root := b } := ⟨h.1, h.2⟩

theorem State.mapsOk.takeCount {delay count phase tempo hops} : (s.takeCount delay count phase tempo hops).mapsOk := by
  unfold State.takeCount
  exact h.loadCount.withTempo

theorem State.mapsOk.execAlignMessage {p count phase tempo hops} :
    Out.mapsOk (execAlignMessage p count phase tempo hops s) := by
  unfold Machine.execAlignMessage
  exact .ite h h.takeCount

theorem State.mapsOk.withElecting {b} : State.mapsOk { s with electing := b } := ⟨h.1, h.2⟩

theorem State.mapsOk.execElect {p lowest} : Out.mapsOk (execElect p lowest s) := by
  unfold Machine.execElect
  exact .ite h (State.mapsOk.ite h.modPort.withElecting.post h.modPort.withElecting.flood)

theorem State.mapsOk.withRoot {b n} : State.mapsOk { s with root := b, rootHops := n } := ⟨h.1, h.2⟩

theorem State.mapsOk.execRootElected : Out.mapsOk (execRootElected s) := by
  unfold Machine.execRootElected
  exact .ite h.loadCount.withRoot h

theorem State.mapsOk.setAligned {links} : (s.setAligned links).mapsOk := ⟨h.1, h.2⟩

theorem State.mapsOk.execDownbeatMessage {p d digest} : Out.mapsOk (execDownbeatMessage p d digest s) := by
  unfold Machine.execDownbeatMessage
  exact .ite h h.modPort

theorem State.mapsOk.execPowerSlack {p body} : Out.mapsOk (execPowerSlack p body s) := by
  unfold Machine.execPowerSlack
  exact .ite h h.modTympan.flood

theorem State.mapsOk.execIdent {p serial port place} : Out.mapsOk (execIdent p serial port place s) := by
  unfold Machine.execIdent
  exact .ite h h.modPort

/-! ## Links -/

theorem State.mapsOk.execLinkFrame {p raw badCodewords corrected unacked acked} :
    Out.mapsOk (execLinkFrame p raw badCodewords corrected unacked acked s) := by
  unfold Machine.execLinkFrame
  have hs {n m} := (h.countPort (p := p) (k := pRsCorrected) (n := n)).countPort (p := p) (k := pRsUncorrectable) (n := m)
  exact .ite h (.ite hs.modPort (State.mapsOk.ite hs.modPort.countPort hs.modPort))

theorem State.mapsOk.discard {p d v} : (s.discard p d v).mapsOk := by
  unfold State.discard
  exact .ite h.countPort h.countPort.abortForeign.sendDie

theorem State.mapsOk.portDown {p} : (s.portDown p).mapsOk := by
  unfold State.portDown
  exact .foldl (fun h => h.discard) h.modPort

theorem State.mapsOk.execPortRetrain {p unacked} : Out.mapsOk (execPortRetrain p unacked s) := by
  unfold Machine.execPortRetrain
  exact .ite h (.ite h.countPort.portDown h.countPort.modPort.countPort)

theorem State.mapsOk.execLinkTraining {p serial port half allLanes} :
    Out.mapsOk (execLinkTraining p serial port half allLanes s) := by
  unfold Machine.execLinkTraining
  exact .ite h (.ite h.modPort h.portDown)

theorem State.mapsOk.meshLost {c p} : (s.meshLost c p).mapsOk := by
  have hs : State.mapsOk { s.arrive p with west := (s.arrive p).west.crossed p, east := (s.arrive p).east.crossed p } :=
    ⟨h.1, h.2⟩
  unfold State.meshLost
  refine .ite hs.sendFail ?_
  split
  · exact hs.linkLost
  · split
    · exact .ite hs.linkLost hs
    · exact .ite hs hs.copyAbort.fault

theorem State.mapsOk.withFailedLinks {l} : State.mapsOk { s with failedLinks := l } := ⟨h.1, h.2⟩

theorem State.mapsOk.execMeshFlit {c side tries p} : Out.mapsOk (execMeshFlit c side tries p s) := by
  unfold Machine.execMeshFlit
  exact .ite h (.ite h.modCore h.modCore.withFailedLinks.meshLost.fault)

/-! ## The torus -/

theorem State.mapsOk.leaveAdaptive {q v} : (s.leaveAdaptive q v).mapsOk := h.modPort

theorem State.mapsOk.leaveEscape {q v} : (s.leaveEscape q v).mapsOk := h.modPort

theorem State.mapsOk.reserve {q} : (s.reserve q).mapsOk := h.modPort

theorem State.mapsOk.cross {d v} : (s.cross d v).mapsOk := h.modDie.modDie

theorem State.mapsOk.block {d from_ v} : (s.block d from_ v).mapsOk := h.modDie

theorem State.mapsOk.routeAdaptive {d from_ v} : (s.routeAdaptive d from_ v).mapsOk := by
  unfold State.routeAdaptive
  dsimp only
  split
  · exact h
  · exact h.discard
  · exact h.cross
  · split
    · exact h.leaveAdaptive
    · exact h.block

theorem State.mapsOk.takeEscape {d from_ q v} : (s.takeEscape d from_ q v).mapsOk := by
  unfold State.takeEscape
  exact .ite h.discard (.ite (.ite h.reserve.leaveEscape h.reserve.cross) h.block)

theorem State.mapsOk.routeEscape {d from_ v} : (s.routeEscape d from_ v).mapsOk := by
  unfold State.routeEscape
  split
  · exact h
  · exact .ite (.ite h.discard h.leaveEscape) h.takeEscape

theorem State.mapsOk.eject {d v} : (s.eject d v).mapsOk := by
  unfold State.eject
  exact .ite h.sendDie (.ite h.count.sendDie h.modDie)

theorem State.mapsOk.taken {d from_ v} : (s.taken d from_ v).mapsOk := by
  unfold State.taken
  refine .ite h.modDie ?_
  cases from_ with
  | mesh => exact h.leftMesh
  | transit => exact h.modDie
  | port => exact h.modPort

theorem State.mapsOk.execTorusRoute {d from_ p} : Out.mapsOk (execTorusRoute d from_ p s) := by
  unfold Machine.execTorusRoute
  exact .ite h (.ite h (State.mapsOk.ite h.taken.eject (.ite h.taken.routeEscape h.taken.routeAdaptive)))

theorem State.mapsOk.execEscapeMove {d p} : Out.mapsOk (execEscapeMove d p s) := by
  unfold Machine.execEscapeMove
  refine .ite h ?_
  split
  · exact .ite h h.modDie.takeEscape
  · exact h

theorem State.mapsOk.loopBack {v q} : (s.loopBack v q).mapsOk := ⟨h.1, h.2⟩

theorem State.mapsOk.execLoopPacket {d from_ p} : Out.mapsOk (execLoopPacket d from_ p s) := by
  unfold Machine.execLoopPacket
  refine .ite h ?_
  split
  · exact h
  · exact .ite h (.ite h.taken.loopBack (State.mapsOk.ite (.ite h.taken.discard h.taken.leaveEscape) h.taken.takeEscape))

end
end Sys2Proof.Machine
end

section
/-! SUPPORT. The maps stay canonical: the host's rings, resets and the mailbox. -/

namespace Sys2Proof.Machine

open Sys2Proof

section
variable {s : State} (h : s.mapsOk)
include h

/-! ## Semaphores and the host's page -/

theorem State.mapsOk.setSem {k v} : (s.setSem k v).mapsOk := h

theorem State.mapsOk.voteSem {k} : (s.voteSem k).mapsOk := .ite h.setSem.count h

theorem State.mapsOk.notOwner {p} : (s.notOwner p).mapsOk := h.countHost

theorem State.mapsOk.acquire {p k both} : (s.acquire p k both).2.mapsOk := by
  unfold State.acquire
  dsimp only
  split
  · exact h.voteSem
  · split
    · exact h.voteSem.setSem
    · exact h.voteSem

theorem State.mapsOk.releaseSem {p k} : (s.releaseSem p k).mapsOk := by
  unfold State.releaseSem
  exact .ite h.voteSem.setSem (.ite h.voteSem h.voteSem.notOwner)

theorem State.mapsOk.unlatch {p} : (s.unlatch p).mapsOk := h.modHost

theorem State.mapsOk.onBar0 {p} {act : State → State} (hact : ∀ {t}, State.mapsOk t → (act t).mapsOk) :
    Out.mapsOk (s.onBar0 p act) := by
  unfold State.onBar0
  exact .ite h (.ite h.emit (hact h.unlatch))

theorem State.mapsOk.onRegister {p} {act : State → State} (hact : ∀ {t}, State.mapsOk t → (act t).mapsOk) :
    Out.mapsOk (s.onRegister p act) := h.onBar0 fun h => .ite h (hact h)

theorem State.mapsOk.onBus {p} {act : State → State} (hact : ∀ {t}, State.mapsOk t → (act t).mapsOk) :
    Out.mapsOk (s.onBus p act) := by
  unfold State.onBus
  exact .ite h (.ite h.emit (hact h))

theorem State.mapsOk.guarded {p g} {act : State → State} (hact : ∀ {t}, State.mapsOk t → (act t).mapsOk) :
    (s.guarded p g act).mapsOk := .ite (hact h) h.notOwner

theorem State.mapsOk.execSemAcquire {p k both} : Out.mapsOk (execSemAcquire p k both s) := by
  refine h.onBar0 fun h => .ite h.emit ?_
  exact h.acquire.emit

/-! ## The command rings -/

theorem State.mapsOk.sendVector {p v} : (s.sendVector p v).mapsOk := by
  unfold State.sendVector
  exact .ite h.modHost h.emit

theorem State.mapsOk.writeEntry {p k e} : (s.writeEntry p k e).mapsOk := by
  unfold State.writeEntry
  dsimp only
  split
  · exact h.emit.modHost.sendVector
  · exact h.emit.modHost

theorem State.mapsOk.passTurn {p k} : (s.passTurn p k).mapsOk := h.modHost

theorem State.mapsOk.complete {p k status result} : (s.complete p k status result).mapsOk := by
  unfold State.complete
  dsimp only
  split
  · exact h
  · exact .ite h.modHost.passTurn.writeEntry h.modHost.passTurn.modHost

theorem State.mapsOk.refuse {p k status} : (s.refuse p k status).mapsOk := h.countHost.complete

theorem State.mapsOk.checked {p k invalid group ok} {act : State → State} (hact : (act s).mapsOk) :
    (s.checked p k invalid group ok act).mapsOk := by
  unfold State.checked
  exact .ite h.refuse (.ite h.refuse (.ite h.refuse hact))

theorem State.mapsOk.accept {p k} : (s.accept p k).mapsOk := h.modHost.passTurn

theorem State.mapsOk.execCommandFetch {p k e} : Out.mapsOk (execCommandFetch p k e s) := by
  unfold Machine.execCommandFetch
  exact .ite h (State.mapsOk.ite h.modHost h.modHost.refuse)

theorem State.mapsOk.execSqTailDoorbell {p k v} : Out.mapsOk (execSqTailDoorbell p k v s) :=
  h.onRegister fun h => h.modHost

theorem State.mapsOk.execCqHeadDoorbell {p k v} : Out.mapsOk (execCqHeadDoorbell p k v s) :=
  h.onRegister fun h => h.modHost

theorem State.mapsOk.flushHeld {p k} : (s.flushHeld p k).mapsOk := by
  unfold State.flushHeld
  exact .ite (.foldl (fun h => h.writeEntry) h.modHost) h

theorem State.mapsOk.execSqCfgWrite {p k v} : Out.mapsOk (execSqCfgWrite p k v s) :=
  h.onRegister fun h => h.modHost

theorem State.mapsOk.execCqCfgWrite {p k v} : Out.mapsOk (execCqCfgWrite p k v s) :=
  h.onRegister fun h => h.modHost.flushHeld

/-! ## Resets of a port -/

theorem State.mapsOk.testUnit {t busy pass} : (s.testUnit t busy pass).mapsOk := by
  unfold State.testUnit
  dsimp only
  split
  · exact h.modHost
  · split
    · exact h.modPort
    · exact h
  · exact h.modStack
  · exact h.modStack
  · exact h

theorem State.mapsOk.withLoopTests {l} : State.mapsOk { s with loopTests := l } := ⟨h.1, h.2⟩

theorem State.mapsOk.withLoad {l} : State.mapsOk { s with load := l } := ⟨h.1, h.2⟩

theorem State.mapsOk.withHostCopies {l} : State.mapsOk { s with hostCopies := l } := ⟨h.1, h.2⟩

theorem State.mapsOk.withSems {l} : State.mapsOk { s with sems := l } := ⟨h.1, h.2⟩

theorem State.mapsOk.withControl {c} : State.mapsOk { s with control := c } := ⟨h.1, h.2⟩

theorem State.mapsOk.withRecord {r} : State.mapsOk { s with record := r } := ⟨h.1, h.2⟩

theorem State.mapsOk.withRecordControl {r c} : State.mapsOk { s with record := r, control := c } := ⟨h.1, h.2⟩

theorem State.mapsOk.withTrace {t} : State.mapsOk { s with trace := t } := ⟨h.1, h.2⟩

theorem State.mapsOk.endTest {t pass} : (s.endTest t pass).mapsOk := h.withLoopTests.testUnit

theorem State.mapsOk.passTurns {p} {ks : List Ring} : (ks.foldl (fun s k => s.passTurn p k) s).mapsOk :=
  .foldl (fun h => h.passTurn) h

theorem State.mapsOk.clearPort {p} : (s.clearPort p).mapsOk := by
  unfold State.clearPort
  refine .foldl (fun h => h.endTest) (.withHostCopies ?_)
  split
  · exact .ite h.withSems.modHost.passTurns.withLoad h.withSems.modHost.passTurns
  · exact h.withSems.modHost.passTurns

theorem State.mapsOk.loseLink {p} : (s.loseLink p).mapsOk := by
  unfold State.loseLink
  exact .ite h.clearPort.modHost h

theorem State.mapsOk.execPortReset {p e} : Out.mapsOk (execPortReset p e s) := by
  unfold Machine.execPortReset
  refine .ite h ?_
  cases e <;> exact h.clearPort.modHost

theorem State.mapsOk.execPerstAssert {p} : Out.mapsOk (execPerstAssert p s) := by
  unfold Machine.execPerstAssert
  exact .ite h h.clearPort.modHost

theorem State.mapsOk.execHostLinkUp {p rate width flit} : Out.mapsOk (execHostLinkUp p rate width flit s) := by
  unfold Machine.execHostLinkUp
  exact .ite h.modHost h

theorem State.mapsOk.execD3hotExit {p} : Out.mapsOk (execD3hotExit p s) := by
  unfold Machine.execD3hotExit
  exact .ite h.modHost h

theorem State.mapsOk.execLoopbackSlave {p enter} : Out.mapsOk (execLoopbackSlave p enter s) := by
  unfold Machine.execLoopbackSlave
  exact .ite h (.ite h.loseLink.modHost h.modHost)

/-! ## Voted registers and the mailbox -/

theorem State.mapsOk.voteReg {off} : (s.voteReg off).mapsOk := by
  unfold State.voteReg
  dsimp only
  split
  case h_8 => exact .foldl (fun h => h.voteSem) h
  case h_9 => exact .foldl (fun h => h.voteSem) h
  case h_10 => exact h
  all_goals exact .ite ⟨h.1, h.2⟩ h

theorem State.mapsOk.mbxGo {p v} : (s.mbxGo p v).mapsOk := by
  unfold State.mbxGo
  refine .ite h ?_
  dsimp only
  split <;> exact h.withControl

theorem State.mapsOk.mbxDone {result data} : (s.mbxDone result data).mapsOk := h.withControl

theorem State.mapsOk.execAttest : Out.mapsOk (execAttest s) := by
  unfold Machine.execAttest
  split
  · exact h.mbxDone
  · exact h

theorem State.mapsOk.execCert : Out.mapsOk (execCert s) := by
  unfold Machine.execCert
  split
  · exact h.mbxDone
  · exact h

theorem State.mapsOk.execFwStage : Out.mapsOk (execFwStage s) := by
  unfold Machine.execFwStage
  split
  · exact h
  · dsimp only
    split
    · exact h.loseHbm.mbxDone
    · refine .ite (State.mapsOk.mbxDone ?_) h.mbxDone
      exact h.withRecordControl

end
end Sys2Proof.Machine
end

section
/-! SUPPORT. The maps stay canonical: the boot. -/

namespace Sys2Proof.Machine

open Sys2Proof

/-! ## The boot -/

/-- The state a try of the boot has reached has its maps in their canonical form. -/
def BootTry.mapsOk (b : BootTry) : Prop := b.s.mapsOk

theorem BootTry.mapsOk.ite {c : Prop} [Decidable c] {a b : BootTry} (ha : a.mapsOk) (hb : b.mapsOk) :
    (if c then a else b).mapsOk := by split <;> assumption

theorem BootTry.mapsOk.foldl {α : Type} {f : BootTry → α → BootTry} (hf : ∀ {b a}, b.mapsOk → (f b a).mapsOk)
    {l : List α} {b : BootTry} (h : b.mapsOk) : (l.foldl f b).mapsOk := by
  induction l generalizing b with
  | nil => exact h
  | cons a l ih => exact ih (hf h)

section
variable {s : State} (h : s.mapsOk)
include h

theorem State.mapsOk.bootStart {run second slot} : (BootTry.start s run second slot).mapsOk := h

theorem State.mapsOk.portFailed {p} : (s.portFailed p).mapsOk := h.portDown.modPort

theorem State.mapsOk.stacksBut {bad good other} : (s.stacksBut bad good other).mapsOk := .foldl (fun h => h.modStack) h

theorem State.mapsOk.firstProbes : s.firstProbes.mapsOk := by
  unfold State.firstProbes
  exact .foldl (fun h => h.modPort.post.post) h.withElecting

theorem State.mapsOk.withDelays {ds} : (s.withDelays ds).mapsOk := by
  unfold State.withDelays
  exact .foldl (fun h => .ite h.modPort h) h

theorem State.mapsOk.alignTo {a} : (s.alignTo a).mapsOk := by
  unfold State.alignTo
  refine .setAligned ?_
  split
  · exact h.withDelays.takeCount
  · exact h.withDelays.loadCount.withRoot

theorem State.mapsOk.withRefTime {n} : State.mapsOk { s with refTime := n } := ⟨h.1, h.2⟩

theorem State.mapsOk.nextBeatStart : s.nextBeatStart.mapsOk := by
  unfold State.nextBeatStart
  exact .ite h h.loadCount.withRefTime

theorem State.mapsOk.withClocksReleased {a b w e} :
    State.mapsOk { s with clocksReleased := a, clocksProvisional := b, west := w, east := e } := ⟨h.1, h.2⟩

/-- Turning the dies off drops the stacks and ports and keeps of each core only its counters. -/
theorem State.mapsOk.diesOff : s.diesOff.mapsOk := by
  unfold State.diesOff
  refine .foldl (fun h => .ite h.modPort h) ?_
  exact ⟨Sparse.mapAll_wf Core.fresh (fun _ x => x.countersOnly) s.cores h.1, rfl, rfl⟩

omit h in
theorem State.mapsOk_railsUp : s.railsUp.mapsOk := by
  have hs := State.mapsOk_off (s := s) (refclk := true)
  exact ⟨hs.1, hs.2⟩

theorem State.mapsOk.recordInterrupted {r} : (s.recordInterrupted r).mapsOk := by
  unfold State.recordInterrupted
  dsimp only
  split
  · exact h.withRecord
  · exact h
  · exact h.withRecord

end

section
variable {b : BootTry} (h : b.mapsOk)
include h

theorem BootTry.mapsOk.log {id result unit detail} : (b.log id result unit detail).mapsOk := h

theorem BootTry.mapsOk.act {f : State → State} (hf : ∀ {s}, State.mapsOk s → (f s).mapsOk) : (b.act f).mapsOk := hf h

theorem BootTry.mapsOk.at_ {id} : (b.at_ id).mapsOk := h.act fun h => h.withControl

theorem BootTry.mapsOk.withBad {v} : BootTry.mapsOk { b with bad := v } := h

theorem BootTry.mapsOk.withStop {v} : BootTry.mapsOk { b with stop := v } := h

theorem BootTry.mapsOk.mandatory {id units act} (hact : ∀ {bad s}, State.mapsOk s → (act bad s).mapsOk) :
    (b.mandatory id units act).mapsOk := by
  unfold BootTry.mandatory
  refine .ite h ?_
  dsimp only
  split
  · exact h.at_.act hact
  · have hs {bad} {c : Prop} [Decidable c] : (if c then (b.at_ id).act (act bad) else b.at_ id).mapsOk :=
      .ite (h.at_.act hact) h.at_
    have hl {l : List StepFail} {c : BootTry} (hc : c.mapsOk) :
        (l.foldl (fun b f => b.log id resFail f.unit f.detail) c).mapsOk := .foldl (fun h => h.log) hc
    exact .ite (BootTry.mapsOk.withBad (.ite (hl hs).log hs.log)) (BootTry.mapsOk.withStop (.ite (hl hs).log hs.log))

/-- A step that writes nothing. -/
theorem BootTry.mapsOk.readOnly {id units} : (b.mandatory id units fun _ s => s).mapsOk := h.mandatory fun h => h

/-- A step that passes wherever the try has not stopped. -/
theorem BootTry.mapsOk.passing {id} : (if b.stop.isSome then b else (b.at_ id).log id resPass 0 0).mapsOk := .ite h h.at_.log

theorem BootTry.mapsOk.hostUnit {p} : (b.hostUnit p).mapsOk := by
  unfold BootTry.hostUnit
  refine .ite h.log ?_
  split
  · exact h.act fun h => h.modHost
  · exact (h.act fun h => h.modHost).log

theorem BootTry.mapsOk.optional {α : Type} {id} {units : List α} {one}
    (hone : ∀ {b a}, BootTry.mapsOk b → (one b a).mapsOk) : (b.optional id units one).mapsOk := by
  unfold BootTry.optional
  exact .ite h (BootTry.mapsOk.foldl hone h.at_).log

theorem BootTry.mapsOk.trains {p half} : (b.trains p half).mapsOk := h.act fun h => h.modPort

theorem BootTry.mapsOk.trainUnit {p} : (b.trainUnit p).mapsOk := by
  unfold BootTry.trainUnit
  refine .ite (BootTry.mapsOk.log (.ite h h.trains)) (.ite h (.ite h.log (.ite h.trains ?_)))
  split
  · exact h.trains.log
  · exact (h.act fun h => h.portFailed).log

theorem BootTry.mapsOk.loopUnit {p} : (b.loopUnit p).mapsOk := by
  unfold BootTry.loopUnit
  refine .ite h.log (.ite h ?_)
  split
  · exact h.act fun h => h.modPort
  · exact (h.act fun h => h.modPort.portFailed).log

theorem BootTry.mapsOk.tests : b.tests.mapsOk := by
  have hx {l : List Nat} {b : BootTry} (h : b.mapsOk) : (l.foldl (fun b id => b.mandatory id true fun _ s => s) b).mapsOk :=
    .foldl (fun h => h.readOnly) h
  have h7 := (h.mandatory (id := 6) (units := false) (act := fun _ s =>
    { s with relay := 3, clocksProvisional := true, tympan := { s.tympan with testV := true, slabLevel := 0 } })
    fun h => ⟨h.1, h.2⟩).optional (id := 7) (units := [HPort.a, HPort.b]) (one := BootTry.hostUnit) fun h => h.hostUnit
  exact (((hx ((hx h7).mandatory fun h => h.stacksBut)).mandatory fun h => h.stacksBut).optional fun h => h.trainUnit).optional
    fun h => h.loopUnit

theorem BootTry.mapsOk.release : b.release.mapsOk := by
  unfold BootTry.release
  refine (h.mandatory fun h => ?_).mandatory fun h => h.modTympan
  exact h.nextBeatStart.mapStacks.withClocksReleased

theorem BootTry.mapsOk.close {outcome} : (b.close outcome).mapsOk := State.mapsOk.withRecordControl h

theorem BootTry.mapsOk.finish : b.finish.mapsOk := by
  have hs {o c} : State.mapsOk { ((b.at_ 0x25).log 0x25 resPass 0 0).close o with control := c } :=
    h.at_.log.close.withControl
  unfold BootTry.finish
  exact .ite hs.enterKnell hs.setDev.withControl

theorem BootTry.mapsOk.idlePorts : b.idlePorts.mapsOk := by
  unfold BootTry.idlePorts
  exact .ite (h.act fun h => h.modHost.modHost) h

theorem BootTry.mapsOk.knell : b.knell.mapsOk := h.idlePorts.close.enterKnell

theorem BootTry.mapsOk.stopped : b.stopped.mapsOk := h.idlePorts.close.diesOff.withControl

theorem BootTry.mapsOk.settle {again : BootTry → State} (hagain : ∀ {b}, BootTry.mapsOk b → (again b).mapsOk) :
    (b.settle again).mapsOk := by
  unfold BootTry.settle
  split
  · exact .ite h.knell (hagain h)
  · exact h.finish

theorem BootTry.mapsOk.fromRails {again : BootTry → State} (hagain : ∀ {b}, BootTry.mapsOk b → (again b).mapsOk) :
    (b.fromRails again).mapsOk := by
  have hb : (if b.tests.stop.isSome then b.tests else (b.tests.at_ 0x22).act State.firstProbes).mapsOk :=
    .ite h.tests (h.tests.at_.act fun h => h.firstProbes)
  unfold BootTry.fromRails
  dsimp only
  generalize (if b.tests.stop.isSome then b.tests else (b.tests.at_ 0x22).act State.firstProbes) = c at hb ⊢
  split
  · exact State.mapsOk.withControl hb
  · refine (hb.mandatory fun h => ?_).release.settle hagain
    split
    · exact h.alignTo
    · exact h

theorem BootTry.mapsOk.again : b.again.mapsOk :=
  h.close.diesOff.bootStart.fromRails fun h => h.stopped

end

section
variable {s : State} (h : s.mapsOk)
include h

theorem State.mapsOk.bootFrom3 {run} : (s.bootFrom3 run).mapsOk := by
  unfold State.bootFrom3
  dsimp only
  split
  · exact h.withRecordControl
  · refine .ite (BootTry.mapsOk.settle (BootTry.mapsOk.passing (.readOnly ?_)) fun h => h.again)
      (BootTry.mapsOk.fromRails (BootTry.mapsOk.passing (.readOnly ?_)) fun h => h.again) <;>
      exact h.withRecord.recordInterrupted.withRecordControl.bootStart.log

omit h in
theorem State.mapsOk_powered {run} : (s.railsUp.bootFrom3 run).mapsOk := State.mapsOk_railsUp.bootFrom3

theorem State.mapsOk.execPowerUp {run} : Out.mapsOk (execPowerUp run s) := by
  unfold Machine.execPowerUp
  exact .ite h (.ite h State.mapsOk_powered)

theorem State.mapsOk.stepAligned : s.stepAligned.mapsOk := by
  unfold State.stepAligned
  split
  · exact h
  · next r second slot entries _ =>
    have hb : BootTry.mapsOk { BootTry.start s r second slot with entries } := h
    exact hb.log.at_.withControl

theorem State.mapsOk.execAlignConfirm {links} : Out.mapsOk (execAlignConfirm links s) := by
  unfold Machine.execAlignConfirm
  exact .ite h.setAligned.stepAligned h

theorem State.mapsOk.execClockFinalRelease : Out.mapsOk (execClockFinalRelease s) := by
  unfold Machine.execClockFinalRelease
  split
  · exact h
  · next r second slot entries _ =>
    have hb {bad} : BootTry.mapsOk { BootTry.start s r second slot with
      entries, alt := s.control.altTaken, skip := s.control.skipped, bad } := h
    refine .ite h ?_
    refine BootTry.mapsOk.settle hb.release fun h => ?_
    split
    · exact h.stopped
    · exact h.again

theorem State.mapsOk.restartStep : s.restartStep.mapsOk := by
  have hc : State.mapsOk { s with counted := false, root := false, agree := 0 } := ⟨h.1, h.2⟩
  unfold State.restartStep
  exact .ite hc.mapPorts.firstProbes h

theorem State.mapsOk.execBusReturn : Out.mapsOk (execBusReturn s) := by
  unfold Machine.execBusReturn
  exact .ite h.restartStep.modTympan.raiseRails h

end
end Sys2Proof.Machine
end

section
/-! SUPPORT. The maps stay canonical: the host's registers, the memory window and commands. -/

namespace Sys2Proof.Machine

open Sys2Proof

theorem Out.mapsOk.thenHeld {o : Out} (ho : Out.mapsOk o) {p}
    (hw : ∀ {t}, State.mapsOk t → (t.applyWrites (otherPort p)).mapsOk) : Out.mapsOk (Out.thenHeld o p) := by
  cases o with
  | next s => exact hw ho
  | fault f => exact ho
  | refused r => exact ho

section
variable {s : State} (h : s.mapsOk)
include h

/-! ## Reads of the host's registers -/

theorem State.mapsOk.readBar0 {p off} : (s.readBar0 p off).mapsOk := by
  have hu := h.unlatch (p := p)
  fun_cases State.readBar0 s p off
  · exact hu.emit
  · exact hu.emit
  · exact hu.acquire.emit
  · exact State.mapsOk.emit (.ite hu.voteReg.voteReg.modHost hu.voteReg)

theorem State.mapsOk.readBar4 {p off} : (s.readBar4 p off).mapsOk := by
  unfold State.readBar4
  refine .ite h.unlatch.emit ?_
  dsimp only
  split
  · exact h.unlatch.emit
  · refine State.mapsOk.emit ?_
    exact .ite h.unlatch.modHost h.unlatch

theorem State.mapsOk.readMsix {p off} : (s.readMsix p off).mapsOk := by
  unfold State.readMsix
  dsimp only
  split <;> exact h.unlatch.emit

theorem State.mapsOk.execLoLatchRead {p how offset} : Out.mapsOk (execLoLatchRead p how offset s) :=
  h.onBus fun h => .ite h.readMsix (.ite h.unlatch.emit (.ite h.readBar4 h.readBar0))

theorem State.mapsOk.execRtVoteRead {p offset} : Out.mapsOk (execRtVoteRead p offset s) :=
  h.onBus fun h => .ite h.readBar0 h

/-! ## Writes of the host's registers -/

theorem State.mapsOk.withSnap {a b c} : State.mapsOk { s with snapBeat := a, snapPhase := b, snapStroke := c } := ⟨h.1, h.2⟩

theorem State.mapsOk.beatSnap {p v} : (s.beatSnap p v).mapsOk := h.guarded fun h => .ite h.withSnap h

theorem State.mapsOk.capturedAll : s.capturedAll.mapsOk := h

theorem State.mapsOk.cntSnap {p v} : (s.cntSnap p v).mapsOk := h.guarded fun h => .ite h.capturedAll h

theorem State.mapsOk.execBeatSnap {p v} : Out.mapsOk (execBeatSnap p v s) := h.onRegister fun h => h.beatSnap

theorem State.mapsOk.execCntSnap {p v} : Out.mapsOk (execCntSnap p v s) := h.onRegister fun h => h.cntSnap

theorem State.mapsOk.writeControl {p o v} : (s.writeControl p o v).mapsOk := by
  unfold State.writeControl
  dsimp only
  exact .ite (h.guarded fun h => h.withControl) (.ite (h.guarded fun h => h.withControl)
    (.ite (h.guarded fun h => h.withControl) (.ite h.mbxGo h)))

theorem State.mapsOk.writeQueue {p o v} : (s.writeQueue p o v).mapsOk := by
  unfold State.writeQueue
  dsimp only
  split
  · split
    case h_5 => exact h
    all_goals exact h.modHost
  · split
    case h_3 => exact h.modHost.flushHeld
    case h_5 => exact h
    all_goals exact h.modHost

theorem State.mapsOk.withHoldForce {b} : State.mapsOk { s with holdForce := b } := ⟨h.1, h.2⟩

theorem State.mapsOk.withLateMargin {n} : State.mapsOk { s with lateMargin := n } := ⟨h.1, h.2⟩

theorem State.mapsOk.writeBeat {p o v} : (s.writeBeat p o v).mapsOk := by
  unfold State.writeBeat
  split
  · exact h.beatSnap
  · exact h.withHoldForce
  · exact h.guarded fun h => h.withLateMargin
  · exact h

theorem State.mapsOk.writeTympan {p o v} : (s.writeTympan p o v).mapsOk := by
  have hset {f : Tympan → Tympan} : (s.guarded p gPower fun s => s.modTympan f).mapsOk := h.guarded fun h => h.modTympan
  unfold State.writeTympan
  dsimp only
  split
  case h_8 => exact h
  all_goals exact hset

theorem State.mapsOk.writeMsix {p o v} : (s.writeMsix p o v).mapsOk := by
  unfold State.writeMsix
  exact .ite h.modHost.modHost.emit h.modHost

theorem State.mapsOk.writePage {p o v} : (s.writePage p o v).mapsOk := by
  unfold State.writePage
  refine .ite h.notOwner (.ite h.writeMsix ?_)
  split
  case h_4 => exact h
  all_goals exact h.modHost

theorem State.mapsOk.writeCar {p o v} : (s.writeCar p o v).mapsOk := by
  unfold State.writeCar
  refine .ite ?_ h
  split
  · exact h.guarded fun h => h.modStack
  · exact h

theorem State.mapsOk.writeTrace {p o v} : (s.writeTrace p o v).mapsOk := by
  unfold State.writeTrace
  dsimp only
  split
  · exact h.guarded fun h => h.withTrace
  · exact h.guarded fun h => h.withTrace
  · exact h

theorem State.mapsOk.writeBlock {p off v} : (s.writeBlock p off v).mapsOk := by
  unfold State.writeBlock
  dsimp only
  split
  · split
    · exact h.releaseSem
    · exact h
  · exact h.writeQueue
  · exact h.writeBeat
  · exact h.writeTympan
  · exact h.writePage
  · exact h.writeCar
  · exact h.writeTrace
  · exact .ite h.cntSnap h

theorem State.mapsOk.writeBar0 {p off v} : (s.writeBar0 p off v).mapsOk := by
  unfold State.writeBar0
  exact .ite h.emit (.ite h.writeControl (.ite h.writeControl (.ite h h.writeBlock)))

theorem State.mapsOk.hostBlock {g a bs} : (s.hostBlock g a bs).mapsOk := by
  unfold State.hostBlock
  split
  · exact h.countStack
  · exact h.hbmBlock

theorem State.mapsOk.putBlock {g a bs fails} : (s.putBlock g a bs fails).mapsOk := by
  unfold State.putBlock
  exact .ite h.loseHbm h.hostBlock

theorem State.mapsOk.applyHeld {w} : (s.applyHeld w).mapsOk := by
  unfold State.applyHeld
  split
  · exact h.writeBar0
  · exact h.putBlock

theorem State.mapsOk.withHeldWrites {l} : State.mapsOk { s with heldWrites := l } := ⟨h.1, h.2⟩

theorem State.mapsOk.applyWrites {p} : (s.applyWrites p).mapsOk := by
  unfold State.applyWrites
  exact .foldl (fun h => h.applyHeld) h.withHeldWrites

theorem State.mapsOk.hostWrite {p same w} : (s.hostWrite p same w).mapsOk := by
  unfold State.hostWrite
  exact .ite h.withHeldWrites h.applyHeld

theorem State.mapsOk.execRegisterWrite {p offset v how} : Out.mapsOk (execRegisterWrite p offset v how s) := by
  unfold Machine.execRegisterWrite
  refine (h.onBar0 fun h => ?_).thenHeld fun h => h.applyWrites
  exact .ite (.ite h h.emit) (.ite h.writeBar0.writeBar0 (.ite h.emit h.hostWrite))

theorem State.mapsOk.execSemRelease {p k} : Out.mapsOk (execSemRelease p k s) :=
  (h.onRegister fun h => h.hostWrite).thenHeld fun h => h.applyWrites

theorem State.mapsOk.execBitAliasWrite {p offset v} : Out.mapsOk (execBitAliasWrite p offset v s) :=
  h.onBar0 fun h => .ite h.writeBar0 h

/-! ## The memory window -/

theorem State.mapsOk.bar2Refused {p offset len how t} (e : s.bar2Refused p offset len how = some t) : t.mapsOk := by
  unfold State.bar2Refused at e
  split at e
  · cases e; exact h.emit
  · split at e
    · cases e; exact h.emit
    · split at e
      · cases e; exact h
      · split at e <;> cases e
        exact h.emit

theorem State.mapsOk.execBar2Read {p offset len how} : Out.mapsOk (execBar2Read p offset len how s) := by
  unfold Machine.execBar2Read
  refine h.onBus fun h => ?_
  dsimp only
  split
  · next e => exact h.unlatch.bar2Refused e
  · exact .ite (State.mapsOk.foldl (fun h => h.loseHbm) h.unlatch).emit
      (State.mapsOk.foldl (fun h => h.loseHbm) h.unlatch).emit

theorem State.mapsOk.execBar2Write {p offset bytes how} : Out.mapsOk (execBar2Write p offset bytes how s) := by
  unfold Machine.execBar2Write
  refine (h.onBus fun h => ?_).thenHeld fun h => h.applyWrites
  dsimp only
  split
  · next e => exact h.unlatch.bar2Refused e
  · exact .foldl (fun h => h.hostWrite) h.unlatch

/-! ## Snapshot and trace -/

theorem State.mapsOk.buildGraph {sweep} : (s.buildGraph sweep).mapsOk := h.withTrace

theorem State.mapsOk.execWfGraphBuild : Out.mapsOk (execWfGraphBuild s) := by
  unfold Machine.execWfGraphBuild
  exact .ite h.buildGraph.withTrace h

theorem State.mapsOk.execSnapshot {p k} : Out.mapsOk (execSnapshot p k s) := by
  unfold Machine.execSnapshot
  split
  · exact h
  · refine State.mapsOk.checked h ?_
    refine State.mapsOk.complete ?_
    exact .ite h.capturedAll.buildGraph h.capturedAll.buildGraph.emit

theorem State.mapsOk.execTraceCollect {g} : Out.mapsOk (execTraceCollect g s) := by
  unfold Machine.execTraceCollect
  dsimp only
  split
  · exact h
  · refine .ite h (.ite h.modStack.countForever ?_)
    split
    · exact h
    · exact h.offer.modStack.withTrace

theorem State.mapsOk.execTraceFreeze : Out.mapsOk (execTraceFreeze s) := by
  unfold Machine.execTraceFreeze
  exact .ite h.withTrace h

theorem State.mapsOk.traceDo {p k action params ok} {act : BitVec 512 → State → State × Nat}
    (hact : ∀ {e}, (act e s).1.mapsOk) : Out.mapsOk (s.traceDo p k action params ok act) := by
  unfold State.traceDo
  split
  · exact h
  · refine State.mapsOk.checked h ?_
    exact hact.complete

theorem State.mapsOk.execTraceConfigure {p k} : Out.mapsOk (execTraceConfigure p k s) :=
  h.traceDo h.withTrace

theorem State.mapsOk.armTrace : s.armTrace.mapsOk := by
  unfold State.armTrace
  exact h.mapStacks.withTrace.epochs

theorem State.mapsOk.execTraceArm {p k} : Out.mapsOk (execTraceArm p k s) := h.traceDo h.armTrace

theorem State.mapsOk.execTraceForceTrigger {p k} : Out.mapsOk (execTraceForceTrigger p k s) :=
  h.traceDo (.ite h.traceTrigger h)

theorem State.mapsOk.stopTrace : s.stopTrace.mapsOk := h.withTrace

theorem State.mapsOk.execTraceStop {p k} : Out.mapsOk (execTraceStop p k s) := h.traceDo h.stopTrace

theorem State.mapsOk.execTraceReadOut {p k} : Out.mapsOk (execTraceReadOut p k s) := h.traceDo (.ite h h.emit)

/-! ## Commands of the job and of the power -/

theorem State.mapsOk.simple {p k op invalid group ok} {act : State → Nat → State × Nat}
    (hact : ∀ {v}, (act s v).1.mapsOk) : Out.mapsOk (s.simple p k op invalid group ok act) := by
  unfold State.simple
  split
  · exact h
  · refine State.mapsOk.checked h ?_
    exact hact.complete

theorem State.mapsOk.withDownbeat {a b c} : State.mapsOk { s with armed := a, downbeatLo := b, downbeatHi := c } := ⟨h.1, h.2⟩

theorem State.mapsOk.arm {d} : (s.arm d).mapsOk := h.withDownbeat.mapPorts

theorem State.mapsOk.execLaunch {p k} : Out.mapsOk (execLaunch p k s) := h.simple h.arm

theorem State.mapsOk.execHalt {p k} : Out.mapsOk (execHalt p k s) := by
  refine h.simple ?_
  dsimp only
  split
  · exact h.halt
  · exact h.disarm

theorem State.mapsOk.takeHint {i} : (s.takeHint i).mapsOk := by
  unfold State.takeHint
  exact .ite h.modTympan (.ite h.modTympan h.count)

theorem State.mapsOk.execPhaseHint {p k} : Out.mapsOk (execPhaseHint p k s) := h.simple h.takeHint

theorem State.mapsOk.withJobCap {v} : State.mapsOk { s with jobCap := v } := ⟨h.1, h.2⟩

theorem State.mapsOk.execPowerCap {p k} : Out.mapsOk (execPowerCap p k s) := h.simple h.withJobCap

end
end Sys2Proof.Machine
end

section
/-! SUPPORT. The maps stay canonical: host copies, tests, the image, shadow runs and the base die. -/

namespace Sys2Proof.Machine

open Sys2Proof

section
variable {s : State} (h : s.mapsOk)
include h

/-! ## Copies of the host -/

theorem State.mapsOk.copyAway {p k q data} : (s.copyAway p k q data).mapsOk := by
  unfold State.copyAway
  split
  · exact h.complete
  · exact h.accept.withHostCopies.sendAllDie

theorem State.mapsOk.copyLanded {c} : (s.copyLanded c).mapsOk := by
  unfold State.copyLanded
  dsimp only
  split
  · exact h.withHostCopies.complete
  · exact h.withHostCopies.sendAllDie

theorem State.mapsOk.copyFailed {c} : (s.copyFailed c).mapsOk := h.withHostCopies.complete

theorem State.mapsOk.copyStore {p pl c} : (s.copyStore p pl c).mapsOk := by
  unfold State.copyStore
  split
  · exact .foldl (fun h => h.hostWrite) h
  · exact h.modStack
  · exact h

theorem State.mapsOk.copySignal {p q pl} : (s.copySignal p q pl).mapsOk := by
  unfold State.copySignal
  exact .ite h h.send

theorem State.mapsOk.copyOut {p k q pl lost} : (s.copyOut p k q pl lost).mapsOk := by
  have he {n} : State.mapsOk (if n = 0 then s else s.emit (.write p q.host (s.readPlace pl n))) := .ite h h.emit
  unfold State.copyOut
  dsimp only
  split
  · exact he.loseBlock.complete
  · exact he.complete

theorem State.mapsOk.copyRequests {p q} : (s.copyRequests p q).mapsOk := h.modDie

theorem State.mapsOk.copyReplies {q pl} : (s.copyReplies q pl).mapsOk := by
  unfold State.copyReplies
  split
  · exact h.giveRows.modStack
  · exact h.giveRows.modStack
  · exact h

theorem State.mapsOk.copyCrossed {p q pl} : (s.copyCrossed p q pl).mapsOk := h.copyRequests.copySignal.copyReplies

theorem State.mapsOk.doCopy {p k q pl data lost down} : (s.doCopy p k q pl data lost down).mapsOk := by
  unfold State.doCopy
  refine .ite (.ite h.complete (.ite h.copyCrossed.copyOut h.copyCrossed.copyStore.complete))
    (.ite h.complete (.ite ?_ h.copyAway))
  exact State.mapsOk.complete (.ite h h.emit)

theorem State.mapsOk.execCopy {p k data lost down} : Out.mapsOk (execCopy p k data lost down s) := by
  unfold Machine.execCopy
  split
  · exact h
  · refine Out.mapsOk.thenHeld (o := .next _) (State.mapsOk.checked h ?_) fun h => h.applyWrites
    split
    · exact .ite h.doCopy h
    · exact h

theorem State.mapsOk.execAck {p} : Out.mapsOk (execAck p s) := by
  unfold Machine.execAck
  refine .ite h ?_
  dsimp only
  split
  · split
    · exact State.mapsOk.ite h.arrive h.arrive.copyLanded
    · exact h.arrive
  · exact h.arrive.modCore

theorem State.mapsOk.repairFailed {c slot} : (s.repairFailed c slot).mapsOk := by
  unfold State.repairFailed
  dsimp only
  split
  · exact h.modCore.itemLost
  · exact h.modCore

theorem State.mapsOk.execFailNotice {p} : Out.mapsOk (execFailNotice p s) := by
  unfold Machine.execFailNotice
  refine .ite h ?_
  dsimp only
  split
  · split
    · exact State.mapsOk.linkLost (.ite h.arrive h.arrive.copyFailed)
    · exact h.arrive.linkLost
  · refine .ite ?_ (.ite h.arrive.linkLost h.arrive.repairFailed)
    split
    · exact h.arrive
    · exact .ite h.arrive (State.mapsOk.ite h.arrive.copyAbort.fault h.arrive.copyAbort)

/-! ## Tests and draining -/

theorem State.mapsOk.startTest {t v} : (s.startTest t v).mapsOk := by
  have ht {c : Prop} [Decidable c] {q : HPort} :
      (State.testUnit { (if c then s.loseLink q else s) with loopTests := (if c then s.loseLink q else s).loopTests ++ [t] }
        t true false).mapsOk := (State.mapsOk.ite h.loseLink h).withLoopTests.testUnit
  unfold State.startTest
  exact .ite ht.sendAll (.ite ht.emit (.ite ht.emit ht))

theorem State.mapsOk.execLoopback {p k} : Out.mapsOk (execLoopback p k s) := by
  unfold Machine.execLoopback
  split
  · exact h
  · refine State.mapsOk.checked h ?_
    exact h.accept.startTest

theorem State.mapsOk.execLoopbackDone {p k errors hops} : Out.mapsOk (execLoopbackDone p k errors hops s) := by
  unfold Machine.execLoopbackDone
  split
  · exact h
  · exact .ite h h.endTest.complete

theorem State.mapsOk.execDrain {p k} : Out.mapsOk (execDrain p k s) := by
  unfold Machine.execDrain
  split
  · exact h
  · refine State.mapsOk.checked h ?_
    exact h.accept

theorem State.mapsOk.execDrainQuiet : Out.mapsOk (execDrainQuiet s) := by
  unfold Machine.execDrainQuiet
  refine .ite h ?_
  exact State.mapsOk.foldl (fun h => .foldl (fun h => .ite h.complete h) h) h

/-! ## The image -/

theorem State.mapsOk.withImageValid {v} : State.mapsOk { s with imageValid := v } := ⟨h.1, h.2⟩

theorem State.mapsOk.beginLoad : s.beginLoad.mapsOk := h.withImageValid.setDev

theorem State.mapsOk.hostReadFails {p k} : (s.hostReadFails p k).mapsOk := by
  unfold State.hostReadFails
  refine .ite h.withLoad.complete ?_
  split
  · exact h.endTest.complete
  · split
    · exact h.checked h.beginLoad.complete
    · exact .ite h (h.checked h.complete)
    · exact h

theorem State.mapsOk.execHostReadTimeout {p k} : Out.mapsOk (execHostReadTimeout p k s) := by
  unfold Machine.execHostReadTimeout
  exact .ite h.hostReadFails h

theorem State.mapsOk.execHostReadError {p k} : Out.mapsOk (execHostReadError p k s) := by
  unfold Machine.execHostReadError
  exact .ite h.hostReadFails h

theorem State.mapsOk.compareCables {b} : (s.compareCables b).mapsOk := .foldl (fun h => h.modPort) h

theorem State.mapsOk.installCores {b rank} : (s.installCores b rank).mapsOk := by
  unfold State.installCores
  refine .foldl (fun h => ?_) h.mapCores
  split
  · exact .foldl (fun h => h.modCore) h
  · exact h

theorem State.mapsOk.installRoutes {b} : (s.installRoutes b).mapsOk := .foldl (fun h => .foldl (fun h => h.modCore) h) h

/-- What an install writes besides cores, stacks and ports. -/
theorem State.mapsOk.withImage {i c sh v t m f iv ty fa} : State.mapsOk { s with
    image := i, coord := c, shape := sh, shapeValid := v, t := t, lateMargin := m, floor := f, imageValid := iv,
    tympan := ty, faults := fa } := ⟨h.1, h.2⟩

theorem State.mapsOk.install {b} : (s.install b).mapsOk := h.installCores.installRoutes.mapStacks.mapPorts.withImage.setDev

theorem State.mapsOk.withImageStage {l} : State.mapsOk { s with imageStage := l } := ⟨h.1, h.2⟩

theorem State.mapsOk.stage {bytes} : (s.stage bytes).mapsOk := h.withImageStage

theorem State.mapsOk.execLoadImage {p k extents image} : Out.mapsOk (execLoadImage p k extents image s) := by
  have hl {l} : State.mapsOk { (s.accept p k).beginLoad with load := l } := h.accept.beginLoad.withLoad
  unfold Machine.execLoadImage
  split
  · exact h
  · exact State.mapsOk.checked h (.ite h (State.mapsOk.raiseRails (.ite hl hl.stage)))

theorem State.mapsOk.rejectLoad {l code off} : (s.rejectLoad l code off).mapsOk := h.withLoad.complete

theorem State.mapsOk.execImageCheck : Out.mapsOk (execImageCheck s) := by
  unfold Machine.execImageCheck
  split
  · exact h
  · refine .ite h (.ite h.rejectLoad (.ite h ?_))
    dsimp only
    split
    · exact h.stage.rejectLoad
    · split
      · exact h.stage.compareCables.rejectLoad
      · exact h.stage.compareCables.withLoad.install.raiseRails.complete

/-! ## Shadow runs -/

theorem State.mapsOk.endShadow {c} : (s.endShadow c).mapsOk := h.modCore

theorem State.mapsOk.withFaults {f} : State.mapsOk { s with faults := f } := ⟨h.1, h.2⟩

theorem State.mapsOk.noteSdc {outcome c r} : (s.noteSdc outcome c r).mapsOk := h.withFaults

theorem State.mapsOk.oddOut {outcome c odd r} : (s.oddOut outcome c odd r).mapsOk := h.modCore.noteSdc.fault.endShadow

theorem State.mapsOk.unresolved {c r} : (s.unresolved c r).mapsOk := h.modCore.noteSdc.endShadow

theorem State.mapsOk.execShadowRun {c output} : Out.mapsOk (execShadowRun c output s) := by
  unfold Machine.execShadowRun
  split
  · exact h
  · refine .ite h (.ite h.modCore.endShadow (.ite h ?_))
    dsimp only
    split
    · exact h.guardFail
    · exact .ite h.setCore.endShadow h.setCore.modCore.traceSource

theorem State.mapsOk.execRefereeRun {c output} : Out.mapsOk (execRefereeRun c output s) := by
  unfold Machine.execRefereeRun
  split
  · exact h
  · split
    · exact h
    · refine .ite h (.ite h.unresolved (.ite h ?_))
      dsimp only
      split
      · exact h.guardFail
      · exact .ite h.setCore.oddOut (.ite h.setCore.oddOut h.setCore.unresolved)

/-! ## The base die -/

theorem State.mapsOk.execBaseDieAccept {g r lineFails} : Out.mapsOk (execBaseDieAccept g r lineFails s) := by
  unfold Machine.execBaseDieAccept
  refine .ite h ?_
  extract_lets t
  have ht : t.mapsOk := by
    dsimp only [t]
    split
    · exact h.arrive
    · exact h
  clear_value t
  dsimp only
  split
  · exact ht.modStack
  · split
    · split
      · exact .ite ht.countStack.modStack ht.serveLine
      · exact ht.modStack
    · exact ht.modStack

theorem State.mapsOk.execRegulatorSlot {g} : Out.mapsOk (execRegulatorSlot g s) := by
  unfold Machine.execRegulatorSlot
  refine .ite h ?_
  dsimp only
  split
  · exact h.modStack
  · exact State.mapsOk.ite h.modStack.freeEntry h.modStack

theorem State.mapsOk.execHbmRead {g offset fails} : Out.mapsOk (execHbmRead g offset fails s) := by
  unfold Machine.execHbmRead
  refine .ite h (.ite (State.mapsOk.ite h (.foldl (fun h => h.note) h.countStack)) ?_)
  exact State.mapsOk.foldl (fun h => h.freeEntry.sendFail) h.loseHbm

theorem State.mapsOk.fillServe {g lost p} : (s.fillServe g lost p).mapsOk := by
  unfold State.fillServe
  split
  · exact .ite h.freeEntry.sendFail h.freeEntry.serveRead
  · exact h

theorem State.mapsOk.execLineFill {g kb bad} : Out.mapsOk (execLineFill g kb bad s) := by
  unfold Machine.execLineFill
  dsimp only
  split
  · exact h
  · refine .ite h (State.mapsOk.foldl (fun h => h.fillServe) ?_)
    exact (State.mapsOk.foldl (fun h => .ite h.loseHbm h.failHbm) h).modStack

end
end Sys2Proof.Machine
end

section
/-! PROOF. Every step keeps the maps canonical. -/

namespace Sys2Proof.Machine

open Sys2Proof

/-! ## Instructions of one family -/

section
variable {s : State} (h : s.mapsOk)
include h

theorem State.mapsOk.execAload {c k f} : Out.mapsOk (execAload c k f s) := by
  unfold Machine.execAload
  exact h.execLoad

theorem State.mapsOk.execAloadt {c k f} : Out.mapsOk (execAloadt c k f s) := by
  unfold Machine.execAloadt
  exact h.execLoad

theorem State.mapsOk.execAdd {c k f} : Out.mapsOk (execAdd c k f s) := by
  unfold Machine.execAdd
  exact h.execArith

theorem State.mapsOk.execSub {c k f} : Out.mapsOk (execSub c k f s) := by
  unfold Machine.execSub
  exact h.execArith

theorem State.mapsOk.execAnd {c k f} : Out.mapsOk (execAnd c k f s) := by
  unfold Machine.execAnd
  exact h.execArith

theorem State.mapsOk.execOr {c k f} : Out.mapsOk (execOr c k f s) := by
  unfold Machine.execOr
  exact h.execArith

theorem State.mapsOk.execXor {c k f} : Out.mapsOk (execXor c k f s) := by
  unfold Machine.execXor
  exact h.execArith

theorem State.mapsOk.execShl {c k f} : Out.mapsOk (execShl c k f s) := by
  unfold Machine.execShl
  exact h.execArith

theorem State.mapsOk.execShr {c k f} : Out.mapsOk (execShr c k f s) := by
  unfold Machine.execShr
  exact h.execArith

theorem State.mapsOk.execSra {c k f} : Out.mapsOk (execSra c k f s) := by
  unfold Machine.execSra
  exact h.execArith

theorem State.mapsOk.execMul {c k f} : Out.mapsOk (execMul c k f s) := by
  unfold Machine.execMul
  exact h.execArith

theorem State.mapsOk.execMulh {c k f} : Out.mapsOk (execMulh c k f s) := by
  unfold Machine.execMulh
  exact h.execArith

theorem State.mapsOk.execSlt {c k f} : Out.mapsOk (execSlt c k f s) := by
  unfold Machine.execSlt
  exact h.execArith

theorem State.mapsOk.execVbin {c k f} : Out.mapsOk (execVbin c k f s) := by
  unfold Machine.execVbin
  exact h.execVector

theorem State.mapsOk.execVfma {c k f} : Out.mapsOk (execVfma c k f s) := by
  unfold Machine.execVfma
  exact h.execVector

theorem State.mapsOk.execVun {c k f} : Out.mapsOk (execVun c k f s) := by
  unfold Machine.execVun
  exact h.execVector

theorem State.mapsOk.execVscale {c k f} : Out.mapsOk (execVscale c k f s) := by
  unfold Machine.execVscale
  exact h.execVector

theorem State.mapsOk.execRstat {c k f} : Out.mapsOk (execRstat c k f s) := by
  unfold Machine.execRstat
  exact h.execRow

theorem State.mapsOk.execRsmax {c k f} : Out.mapsOk (execRsmax c k f s) := by
  unfold Machine.execRsmax
  exact h.execRow

theorem State.mapsOk.execRnorm {c k f} : Out.mapsOk (execRnorm c k f s) := by
  unfold Machine.execRnorm
  exact h.execRow

theorem State.mapsOk.execRsmaxb {c k f} : Out.mapsOk (execRsmaxb c k f s) := by
  unfold Machine.execRsmaxb
  exact h.execRow

theorem State.mapsOk.execRnormb {c k f} : Out.mapsOk (execRnormb c k f s) := by
  unfold Machine.execRnormb
  exact h.execRow

end

/-! ## Every step -/

/-- Every instruction keeps the maps canonical: each by the lemma about its own operation. -/
theorem State.mapsOk.exec {s : State} (h : s.mapsOk) (i : Instr) : Out.mapsOk (exec i s) := by
  cases i with
  | add => exact h.execAdd
  | sub => exact h.execSub
  | and => exact h.execAnd
  | or => exact h.execOr
  | xor => exact h.execXor
  | shl => exact h.execShl
  | shr => exact h.execShr
  | sra => exact h.execSra
  | mul => exact h.execMul
  | mulh => exact h.execMulh
  | slt => exact h.execSlt
  | ldw => exact h.execLdw
  | stw => exact h.execStw
  | rdspec => exact h.execRdspec
  | brc => exact h.execBrc
  | jmp => exact h.execJmp
  | aload => exact h.execAload
  | aloadt => exact h.execAloadt
  | apass => exact h.execApass
  | accumulate => exact h.execAccumulate
  | aclr => exact h.execAclr
  | apre => exact h.execApre
  | aread => exact h.execAread
  | adrop => exact h.execAdrop
  | vbin => exact h.execVbin
  | vfma => exact h.execVfma
  | vun => exact h.execVun
  | vcvt => exact h.execVcvt
  | vscale => exact h.execVscale
  | rstat => exact h.execRstat
  | rsmax => exact h.execRsmax
  | rnorm => exact h.execRnorm
  | rsmaxb => exact h.execRsmaxb
  | rnormb => exact h.execRnormb
  | cpy => exact h.execCpy
  | descriptorRead => exact h.execDescriptorRead
  | cmark => exact h.execCmark
  | sig => exact h.execSig
  | wait => exact h.execWait
  | beat => exact h.execBeat
  | endCtx => exact h.execEndCtx
  | nop => exact h.execNop
  | beatStart => exact h.execBeatStart
  | strokeIssueClose => exact h.execStrokeIssueClose
  | journalCommit => exact h.execJournalCommit
  | holdSample => exact h.execHoldSample
  | boundarySnapshot => exact h.execBoundarySnapshot
  | powerStep => exact h.execPowerStep
  | muffleClockStop => exact h.execMuffleClockStop
  | journalSeal => exact h.execJournalSeal
  | holdVerdict => exact h.execHoldVerdict
  | copyLagCheck => exact h.execCopyLagCheck
  | barBoundary => exact h.execBarBoundary
  | rtScrub => exact h.execRtScrub
  | downbeatEntry => exact h.execDownbeatEntry
  | traceEpoch => exact h.execTraceEpoch
  | slabTempRead => exact h.execSlabTempRead
  | sidebandFrame => exact h.execSidebandFrame
  | delayProbe => exact h.execDelayProbe
  | alignMessage => exact h.execAlignMessage
  | elect => exact h.execElect
  | rootElected => exact h.execRootElected
  | alignConfirm => exact h.execAlignConfirm
  | clockFinalRelease => exact h.execClockFinalRelease
  | downbeatMessage => exact h.execDownbeatMessage
  | knellMessage => exact h.execKnellMessage
  | powerSlack => exact h.execPowerSlack
  | ident => exact h.execIdent
  | neighbourSilent => exact h.execNeighbourSilent
  | relayFail => exact h.execRelayFail
  | linkFrame => exact h.execLinkFrame
  | portRetrain => exact h.execPortRetrain
  | meshFlit => exact h.execMeshFlit
  | torusRoute => exact h.execTorusRoute
  | escapeMove => exact h.execEscapeMove
  | copyRequest => exact h.execCopyRequest
  | baseDieAccept => exact h.execBaseDieAccept
  | regulatorSlot => exact h.execRegulatorSlot
  | hbmRead => exact h.execHbmRead
  | lineFill => exact h.execLineFill
  | readPacket => exact h.execReadPacket
  | writePacket => exact h.execWritePacket
  | finalWriteApply => exact h.execFinalWriteApply
  | pealForward => exact h.execPealForward
  | pealFinal => exact h.execPealFinal
  | signalPacket => exact h.execSignalPacket
  | ack => exact h.execAck
  | refuseNotice => exact h.execRefuseNotice
  | refusedResend => exact h.execRefusedResend
  | failNotice => exact h.execFailNotice
  | loopPacket => exact h.execLoopPacket
  | coreRoll => exact h.execCoreRoll
  | copyRoll => exact h.execCopyRoll
  | shadowRun => exact h.execShadowRun
  | refereeRun => exact h.execRefereeRun
  | knellEntry => exact h.execKnellEntry
  | rankEnter => exact h.execRankEnter
  | blockRearm => exact h.execBlockRearm
  | carillonData => exact h.execCarillonData
  | dualCopy => exact h.execDualCopy
  | dualResult => exact h.execDualResult
  | normPartial => exact h.execNormPartial
  | normRecord => exact h.execNormRecord
  | sumsqStart => exact h.execSumsqStart
  | allgatherStart => exact h.execAllgatherStart
  | permuteStart => exact h.execPermuteStart
  | passroundStart => exact h.execPassroundStart
  | optimizeStart => exact h.execOptimizeStart
  | busLost => exact h.execBusLost
  | rideRetain => exact h.execRideRetain
  | busReturn => exact h.execBusReturn
  | kettleEmpty => exact h.execKettleEmpty
  | supportEntry => exact h.execSupportEntry
  | supportEnd => exact h.execSupportEnd
  | busSag => exact h.execBusSag
  | busSwell => exact h.execBusSwell
  | rippleWindow => exact h.execRippleWindow
  | droopStretch => exact h.execDroopStretch
  | converterFault => exact h.execConverterFault
  | hintExpire => exact h.execHintExpire
  | refclkValid => exact h.execRefclkValid
  | refclkLost => exact h.execRefclkLost
  | powerUp => exact h.execPowerUp
  | softStartEnd => exact h.execSoftStartEnd
  | portReset => exact h.execPortReset
  | perstAssert => exact h.execPerstAssert
  | hostReadTimeout => exact h.execHostReadTimeout
  | commandFetch => exact h.execCommandFetch
  | loadImage => exact h.execLoadImage
  | imageCheck => exact h.execImageCheck
  | launch => exact h.execLaunch
  | halt => exact h.execHalt
  | phaseHint => exact h.execPhaseHint
  | powerCap => exact h.execPowerCap
  | copy => exact h.execCopy
  | snapshot => exact h.execSnapshot
  | wfGraphBuild => exact h.execWfGraphBuild
  | traceConfigure => exact h.execTraceConfigure
  | traceArm => exact h.execTraceArm
  | traceForceTrigger => exact h.execTraceForceTrigger
  | traceStop => exact h.execTraceStop
  | traceReadOut => exact h.execTraceReadOut
  | traceFreeze => exact h.execTraceFreeze
  | traceCollect => exact h.execTraceCollect
  | loopback => exact h.execLoopback
  | loopbackDone => exact h.execLoopbackDone
  | drain => exact h.execDrain
  | drainQuiet => exact h.execDrainQuiet
  | sqTailDoorbell => exact h.execSqTailDoorbell
  | cqHeadDoorbell => exact h.execCqHeadDoorbell
  | sqCfgWrite => exact h.execSqCfgWrite
  | cqCfgWrite => exact h.execCqCfgWrite
  | semAcquire => exact h.execSemAcquire
  | semRelease => exact h.execSemRelease
  | beatSnap => exact h.execBeatSnap
  | cntSnap => exact h.execCntSnap
  | attest => exact h.execAttest
  | cert => exact h.execCert
  | fwStage => exact h.execFwStage
  | bitAliasWrite => exact h.execBitAliasWrite
  | loLatchRead => exact h.execLoLatchRead
  | rtVoteRead => exact h.execRtVoteRead
  | bar2Read => exact h.execBar2Read
  | bar2Write => exact h.execBar2Write
  | registerWrite => exact h.execRegisterWrite
  | linkTraining => exact h.execLinkTraining
  | hostLinkUp => exact h.execHostLinkUp
  | d3hotExit => exact h.execD3hotExit
  | loopbackSlave => exact h.execLoopbackSlave
  | hostReadError => exact h.execHostReadError

/-- A step keeps the maps canonical: a cycle passing writes no map, and an instruction runs on a state that differs
only in its queue. -/
theorem step_mapsOk {s s' : State} (h : s.mapsOk) (e : step s = .next s') : s'.mapsOk := by
  unfold step at e
  split at e
  · exact Out.mapsOk.next (o := .next _) h.tick e
  · next i rest _ =>
    have hq : State.mapsOk { s with pending := rest } := ⟨h.1, h.2⟩
    exact (hq.exec i).next e

/-- Settles O4: each instruction's operation is built from the updates that keep the three maps canonical. -/
theorem mapsStayCanonical : Obligations.MapsStayCanonical := by
  unfold Obligations.MapsStayCanonical
  intro s s' h e
  exact step_mapsOk h e

end Sys2Proof.Machine
end

section
/-! PROOF. A done request of no packet raises the peak of entries: the counterexample to O37. -/

namespace Sys2Proof.Machine

open Sys2Proof

/-- An entry of the host's class for a read of one block. -/
def hostEntry (block : Nat) : ReqEntry := ⟨.host, true, .host false (64 * block) 1, 1, block, 1⟩

/-- A powered module at the host's slot whose stack records a lower peak of entries (0) than it holds (2). -/
def peakBehind : State :=
  { State.reset with powered := true, hbmStacks := [(0, { reqs := [hostEntry 0, hostEntry 1], slot := 256 })] }

/-- The host's slot serves the oldest host request. -/
theorem slotServes_peakBehind :
    peakBehind.slotServes (peakBehind.stack 0) (peakBehind.stack 0).slot = some (hostEntry 0) := by
  decide +kernel

/-- The served request gives its entry back, and the peak rises to the one entry left. -/
theorem exec_regulatorSlot_peakBehind :
    exec (.regulatorSlot 0) peakBehind = .next { peakBehind with hbmStacks := [(0, { reqs := [hostEntry 1], reqPeak := 1 })] } := by
  rfl

/-- Refutes O37: a request of no packet that is done frees its entry through `State.freeEntry`, which raises `reqPeak`
to the number of entries left, while the statement keeps `reqPeak` and does not ask that it be as high as the entries
of the state. -/
theorem not_baseDieAndRegulator : ¬ Obligations.BaseDieAndRegulator := by
  unfold Obligations.BaseDieAndRegulator
  intro h
  obtain ⟨-, hslot⟩ := h peakBehind 0 rfl
  obtain ⟨-, hserve, -, -⟩ := hslot _ rfl
  obtain ⟨-, -, -, hdone⟩ := hserve _ _ _ slotServes_peakBehind rfl rfl
  obtain ⟨s', hexec, -, hstack⟩ := hdone rfl (by intro p; simp [hostEntry]) (by decide +kernel) rfl rfl
  rw [exec_regulatorSlot_peakBehind] at hexec
  cases hexec
  exact absurd (congrArg Stack.reqPeak hstack) (by decide +kernel)

end Sys2Proof.Machine
end

section
/-! SUPPORT. POWER_STEP (O26): what it leaves of a state, and the bounds of a new setpoint. -/

namespace Sys2Proof.Machine

open Sys2Proof

/-! ## What O26 reads of a state -/

/-- The part of a state that the claim about the setpoint reads. -/
structure PowerView where
  reports : Option Measure
  busV : BitVec 14
  busP : BitVec 32
  kettleV : BitVec 14
  kettleE : BitVec 16
  demand : Rat
  busOk : Bool
  support : Bool
  charged : Bool
  busSet : Rat
  busNext : Rat
  cores : Sparse Core
  hbmStacks : Sparse Stack
  deviceState : Triple 3
  phase : Nat

/-- The view of a state. -/
def State.powerView (s : State) : PowerView :=
  { reports := s.tympan.reports, busV := s.tympan.busV, busP := s.tympan.busP, kettleV := s.tympan.kettleV
    kettleE := s.tympan.kettleE, demand := s.tympan.demand, busOk := s.tympan.busOk, support := s.tympan.support
    charged := s.tympan.charged, busSet := s.tympan.busSet, busNext := s.tympan.busNext, cores := s.cores
    hbmStacks := s.hbmStacks, deviceState := s.deviceState, phase := s.phase }

section
variable (s : State)

theorem State.powerView_ite {c : Prop} [Decidable c] {a b : State} {v : PowerView} (ha : a.powerView = v)
    (hb : b.powerView = v) : (if c then a else b).powerView = v := by split <;> assumption

theorem State.powerView_minMargin (v) : ({ s with minMargin := v } : State).powerView = s.powerView := rfl

theorem State.powerView_post (p : RPort) (type : BitVec 8) (body : BitVec 320) : (s.post p type body).powerView = s.powerView := by
  unfold State.post
  exact State.powerView_ite (a := s) rfl rfl

theorem State.powerView_foldl {α : Type} {f : State → α → State} (hf : ∀ s a, (f s a).powerView = s.powerView) (l : List α) :
    (l.foldl f s).powerView = s.powerView := by
  induction l generalizing s with
  | nil => rfl
  | cons a l ih => exact (ih (f s a)).trans (hf s a)

theorem State.powerView_flood (type : BitVec 8) (body : BitVec 320) (from_ : Option RPort) :
    (s.flood type body from_).powerView = s.powerView :=
  s.powerView_foldl (fun s p => s.powerView_post p type body) _

/-! ## The rest of the window step leaves the view -/

theorem State.powerView_slackSend : s.slackSend.powerView = s.powerView := by
  unfold State.slackSend
  extract_lets v t
  clear_value v
  have ht : t.powerView = s.powerView := by simp only [t, State.powerView, State.modTympan, Tympan.keepSlack]
  clear_value t
  exact State.powerView_ite (((t.flood 5 v.body none).powerView_minMargin none).trans ((t.powerView_flood _ _ _).trans ht)) rfl

theorem State.powerView_thermalStage : s.thermalStage.powerView = s.powerView := State.powerView_ite rfl rfl

theorem State.powerView_levelDecision : s.levelDecision.powerView = s.powerView := by
  unfold State.levelDecision
  have ht := s.powerView_thermalStage
  generalize s.thermalStage = t at ht ⊢
  rw [← ht]
  refine State.powerView_ite (State.powerView_ite (State.powerView_ite rfl ?_) rfl) ht.symm
  split
  · rfl
  · exact State.powerView_ite rfl rfl

/-! ## The measured values and the setpoint -/

variable (m : Measure)

theorem State.powerView_measured : (s.measured m).powerView = { s.powerView with
    reports := some m, busV := m.busV, busP := BitVec.ofInt 32 (Measure.busWatts m).floor, kettleV := m.kettleV
    kettleE := m.kettleE, demand := railWatts (Measure.rails m) * 100 / 91
    busOk := decide (7200 ≤ m.busV.toNat) && decide (m.busV.toNat ≤ 8800)
    support := s.tympan.support && decide (retention s.period < (m.kettleE.toNat : Rat) / 100)
    charged := s.tympan.charged || decide (4000 ≤ m.kettleE.toNat) } := by
  unfold State.measured
  extract_lets t p d overs heat joules whole list s₁ s₂
  clear_value whole joules heat list
  exact State.powerView_ite (a := s₂) rfl rfl

theorem State.modTympan_period (f : Tympan → Tympan) : (s.modTympan f).period = s.period := rfl

theorem State.measured_period : (s.measured m).period = s.period := by
  unfold State.measured
  extract_lets t p d overs heat joules whole list s₁ s₂
  have h : s₂.period = s.period := (s₁.modTympan_period _).trans (s.modTympan_period _)
  clear_value s₂ whole
  split
  · exact h
  · exact h

/-- Entering the measured values changes nothing that bounds the setpoint but the bus voltage and the sign of its power. -/
theorem State.measured_bounds :
    (s.measured m).tympan.busLost = s.tympan.busLost ∧ (s.measured m).tympan.slope = s.tympan.slope ∧
      (s.measured m).tympan.softStart = s.tympan.softStart ∧
      (s.measured m).tympan.returning = decide (Measure.busWatts m < 0) := by
  unfold State.measured
  extract_lets t p d overs heat joules whole list s₁ s₂
  clear_value whole joules heat list d p
  split <;> exact ⟨rfl, rfl, rfl, rfl⟩

theorem State.setpoint_held (h : s.tympan.busLost = true ∨ s.tympan.support = true) : s.setpoint = s := by
  unfold State.setpoint
  exact if_pos (by simpa using h)

theorem State.powerView_setpoint (hl : s.tympan.busLost = false) (hs : s.tympan.support = false) :
    s.setpoint.powerView = { s.powerView with
      busNext := (s.tympan.ballastCap s.refTime s.period (s.tympan.nextB s.period (s.beat + 1))).1 } := by
  unfold State.setpoint
  rw [if_neg (by simp [hl, hs])]
  exact State.powerView_ite rfl rfl

/-- A held setpoint or a new one: nothing else of the view changes. -/
theorem State.powerView_setpoint_busNext : s.setpoint.powerView = { s.powerView with busNext := s.setpoint.tympan.busNext } := by
  by_cases h : s.tympan.busLost = true ∨ s.tympan.support = true
  · rw [s.setpoint_held h]; rfl
  · simp only [not_or, Bool.not_eq_true] at h
    have e := s.powerView_setpoint h.1 h.2
    rw [e]
    exact congrArg (fun b => { s.powerView with busNext := b }) (congrArg PowerView.busNext e).symm

end

/-! ## The bounds of a new setpoint -/

/-- The limits of the setpoint of the next beat: it rises at most `step` from the one in force, is at most 11,500 W and 16 A,
2 A in the soft start and 1,500 W after it while the Kettle has not held 40 J (spec/12 R303, R312, R314). -/
structure BusLimits (inForce step : Rat) (decivolts : Nat) (softStart charged : Bool) (b : Rat) : Prop where
  nonneg : 0 ≤ b
  slope : b ≤ inForce + step
  power : b ≤ 11500
  current : b ≤ 16 * (decivolts : Rat) / 10
  soft : softStart = true → b ≤ 2 * (decivolts : Rat) / 10
  uncharged : softStart = false → charged = false → b ≤ 1500

/-- A lower setpoint that is not negative is in the limits too. -/
theorem BusLimits.anti {inForce step b b' : Rat} {decivolts : Nat} {softStart charged : Bool}
    (h : BusLimits inForce step decivolts softStart charged b) (h0 : 0 ≤ b') (hb : b' ≤ b) :
    BusLimits inForce step decivolts softStart charged b' where
  nonneg := h0
  slope := Rat.le_trans hb h.slope
  power := Rat.le_trans hb h.power
  current := Rat.le_trans hb h.current
  soft hs := Rat.le_trans hb (h.soft hs)
  uncharged hs hc := Rat.le_trans hb (h.uncharged hs hc)

/-- A setpoint of 0 is in the limits. -/
theorem BusLimits.zero {inForce step : Rat} {decivolts : Nat} {softStart charged : Bool} (h0 : 0 ≤ inForce) (hstep : 0 ≤ step) :
    BusLimits inForce step decivolts softStart charged 0 := by
  have hv : (0 : Rat) ≤ (decivolts : Rat) := Rat.natCast_nonneg
  exact ⟨Rat.le_refl, Rat.add_nonneg h0 hstep, by grind, by grind, fun _ => by grind, fun _ _ => by grind⟩

section
variable {t : Tympan} {p : Rat} (hp : 0 < p)
include hp

/-- Before the ballast rule the setpoint is in its limits: each `min` of `nextB` is one of them, and 0 is under all. -/
theorem Tympan.nextB_inLimits (next : Nat) (hr : t.returning = false) (h0 : 0 ≤ t.busSet) :
    BusLimits t.busSet ((t.slope.toNat : Rat) * 1000 * p) t.busV.toNat t.softStart t.charged (t.nextB p next) := by
  have hstep : 0 ≤ (t.slope.toNat : Rat) * 1000 * p :=
    Rat.mul_nonneg (Rat.mul_nonneg Rat.natCast_nonneg (by grind)) (Rat.le_of_lt hp)
  unfold Tympan.nextB
  extract_lets slope goal target goal' step b b' b''
  have hb : b ≤ t.busSet + step := Std.min_le_right
  have hb' : b' ≤ b := Std.min_le_left
  have hcap : b' ≤ min 11500 (16 * (t.busV.toNat : Rat) / 10) := Std.min_le_right
  have hle : b'' ≤ b' := by
    dsimp only [b'']
    split
    · exact Std.min_le_left
    · split
      · exact Rat.le_refl
      · exact Std.min_le_left
  have hsoft (hs : t.softStart = true) : b'' ≤ 2 * (t.busV.toNat : Rat) / 10 := by
    dsimp only [b'']
    rw [if_pos hs]
    exact Std.min_le_right
  have hlow (hs : t.softStart = false) (hc : t.charged = false) : b'' ≤ 1500 := by
    dsimp only [b'']
    rw [if_neg (ne_true_of_eq_false hs), if_neg (ne_true_of_eq_false hc)]
    exact Std.min_le_right
  split
  · exact .zero h0 hstep
  · next hneg =>
    have hnn : 0 ≤ b'' := by
      refine Rat.not_lt.mp fun hlt => hneg ⟨hlt, ?_⟩
      rw [hr, Bool.false_and, Bool.not_false]
    exact ⟨hnn, Rat.le_trans (Rat.le_trans hle hb') hb, Rat.le_trans hle (Rat.le_trans hcap Std.min_le_left),
      Rat.le_trans hle (Rat.le_trans hcap Std.min_le_right), hsoft, hlow⟩

/-- The ballast rule only lowers a setpoint, and not below 0: where the surplus is over the room, what just fits the room
is less. -/
theorem Tympan.ballastCap_le (now : Nat) {b : Rat} (h0 : 0 ≤ b) :
    0 ≤ (t.ballastCap now p b).1 ∧ (t.ballastCap now p b).1 ≤ b := by
  unfold Tympan.ballastCap
  extract_lets room surplus b'
  split
  · exact ⟨h0, Rat.le_refl⟩
  · next hs =>
    have hover : room < t.energy + (b * 975 / 1000 - t.demand) * p - 150 := Rat.not_le.mp hs
    have hroom : (room + 150 - t.energy) / p < b * 975 / 1000 - t.demand := by
      rw [Rat.div_lt_iff hp]
      grind
    have hfit : ((room + 150 - t.energy) / p + t.demand) * 1000 / 975 ≤ b := by
      generalize (room + 150 - t.energy) / p = q at hroom ⊢
      grind
    dsimp only [b']
    generalize ((room + 150 - t.energy) / p + t.demand) * 1000 / 975 = q at hfit ⊢
    exact ⟨by grind, by grind⟩

end

/-! ## The step while no rail is up -/

theorem exec_powerStep_unpowered {s : State} (m : Measure) (hp : s.powered = false) (hr : s.tympan.refclk = true) :
    exec (.powerStep m) s = .next (s.chargeStep m) := if_pos (by simp [hp, hr])

theorem exec_powerStep_noClock {s : State} (m : Measure) (hp : s.powered = false) (hr : s.tympan.refclk = false) :
    exec (.powerStep m) s = .next s := by
  show (if _ then _ else _) = _
  rw [if_neg (by simp [hr])]
  exact if_pos (by simp [hp])

/-- A window step that is due acts on the state at its cycle. -/
theorem State.inWindow_due {s : State} {c : Nat} {w : WinStep} (h : s.dueIn c w) (act : State → State) :
    s.inWindow c w act = .next (act (s.atCycle c w)) := by
  obtain ⟨hp, hw, ht⟩ := h
  have hat : ({ s.toPhase (s.windowAt + c) with windowDone := w :: s.windowDone } : State) = s.atCycle c w := by
    unfold State.toPhase
    rw [if_pos ht]
    rfl
  unfold State.inWindow
  rw [if_neg (by simp [hp, hw, ht]), hat]

theorem exec_powerStep_due {s : State} (m : Measure) (h : s.dueIn 12 .power) :
    exec (.powerStep m) s = .next ((s.atCycle 12 .power).measured m).setpoint.slackSend.levelDecision := by
  show (if _ then _ else _) = _
  rw [if_neg (by simp [h.1]), State.inWindow_due h]

end Sys2Proof.Machine
end

section
/-! PROOF. The setpoint keeps its limits. -/

namespace Sys2Proof.Machine

open Sys2Proof

/-! ## While no rail is up -/

theorem State.chargeStep_charged (s : State) (m : Measure) :
    (s.chargeStep m).tympan.charged = (s.tympan.charged || decide (4000 ≤ m.kettleE.toNat)) := rfl

/-- The draw it sets, by what the Kettle has held (spec/12 R303). -/
theorem State.chargeStep_busSet (s : State) (m : Measure) :
    (s.chargeStep m).tympan.busSet = if (s.chargeStep m).tympan.charged then s.tympan.busSet
      else if s.tympan.softStart then 2 * (m.busV.toNat : Rat) / 10 else 1500 := rfl

/-! ## When the step is due -/

/-- The state that POWER_STEP leaves when it is due. -/
def State.powerStepped (s : State) (m : Measure) : State :=
  ((s.atCycle 12 .power).measured m).setpoint.slackSend.levelDecision

section
variable (s : State) (m : Measure)

theorem State.period_pos (h : 0 < s.tempoNow) : 0 < s.period := by
  unfold State.period
  rw [Rat.lt_div_iff (by grind), Rat.zero_mul]
  exact Rat.natCast_pos.mpr h

theorem Measure.busWatts_nonneg (h : 0 ≤ m.busI) : 0 ≤ Measure.busWatts m := by
  have hw : 0 ≤ (m.busV.toNat : Rat) * (m.busI : Rat) := Rat.mul_nonneg Rat.natCast_nonneg (Rat.intCast_nonneg.mpr h)
  unfold Measure.busWatts
  generalize (m.busV.toNat : Rat) * (m.busI : Rat) = w at hw ⊢
  grind

theorem State.powerView_powerStepped_setpoint :
    (s.powerStepped m).powerView = ((s.atCycle 12 .power).measured m).setpoint.powerView :=
  (State.powerView_levelDecision _).trans (State.powerView_slackSend _)

/-- All that POWER_STEP writes of the view, but for the next setpoint. -/
theorem State.powerView_powerStepped : (s.powerStepped m).powerView = { s.powerView with
    reports := some m, busV := m.busV, busP := BitVec.ofInt 32 (Measure.busWatts m).floor, kettleV := m.kettleV
    kettleE := m.kettleE, demand := railWatts (Measure.rails m) * 100 / 91
    busOk := decide (7200 ≤ m.busV.toNat) && decide (m.busV.toNat ≤ 8800)
    support := s.tympan.support && decide (retention s.period < (m.kettleE.toNat : Rat) / 100)
    charged := s.tympan.charged || decide (4000 ≤ m.kettleE.toNat)
    phase := s.windowAt + 12, busNext := (s.powerStepped m).tympan.busNext } := by
  have e := s.powerView_powerStepped_setpoint m
  have hn : (s.powerStepped m).tympan.busNext = ((s.atCycle 12 .power).measured m).setpoint.tympan.busNext :=
    congrArg PowerView.busNext e
  rw [e, State.powerView_setpoint_busNext, State.powerView_measured, hn]
  rfl

theorem State.busNext_powerStepped_held (h : s.tympan.busLost = true ∨ (s.powerStepped m).tympan.support = true) :
    (s.powerStepped m).tympan.busNext = s.tympan.busNext := by
  have e := s.powerView_powerStepped_setpoint m
  have hm := (s.atCycle 12 .power).powerView_measured m
  have hset : ((s.atCycle 12 .power).measured m).setpoint = (s.atCycle 12 .power).measured m := by
    refine State.setpoint_held _ (h.imp (fun hl => ?_) fun hs => ?_)
    · exact ((s.atCycle 12 .power).measured_bounds m).1.trans hl
    · exact (congrArg PowerView.support hm).trans ((congrArg PowerView.support (s.powerView_powerStepped m)).symm.trans hs)
  rw [hset, hm] at e
  exact congrArg PowerView.busNext e

/-- A new setpoint is in its limits, which the ballast rule keeps. -/
theorem State.busNext_powerStepped_inLimits (ht : 0 < s.tempoNow) (hl : s.tympan.busLost = false)
    (hs : (s.powerStepped m).tympan.support = false) (h0 : 0 ≤ s.tympan.busSet) (hi : 0 ≤ m.busI) :
    BusLimits s.tympan.busSet ((s.tympan.slope.toNat : Rat) * 1000 * s.period) m.busV.toNat s.tympan.softStart
      (s.powerStepped m).tympan.charged (s.powerStepped m).tympan.busNext := by
  have e := s.powerView_powerStepped_setpoint m
  have v := s.powerView_powerStepped m
  have hm := (s.atCycle 12 .power).powerView_measured m
  have hper : ((s.atCycle 12 .power).measured m).period = s.period := (s.atCycle 12 .power).measured_period m
  obtain ⟨hlost, hslope, hsoft, hret⟩ := (s.atCycle 12 .power).measured_bounds m
  generalize (s.atCycle 12 .power).measured m = x at e hm hper hlost hslope hsoft hret
  have hsup : x.tympan.support = (s.powerStepped m).tympan.support :=
    (congrArg PowerView.support hm).trans (congrArg PowerView.support v).symm
  have hcharged : x.tympan.charged = (s.powerStepped m).tympan.charged :=
    (congrArg PowerView.charged hm).trans (congrArg PowerView.charged v).symm
  have hset : x.tympan.busSet = s.tympan.busSet := congrArg PowerView.busSet hm
  have hbusV : x.tympan.busV = m.busV := congrArg PowerView.busV hm
  rw [x.powerView_setpoint (hlost.trans hl) (hsup.trans hs), hper] at e
  have hn : (s.powerStepped m).tympan.busNext =
      (x.tympan.ballastCap x.refTime s.period (x.tympan.nextB s.period (x.beat + 1))).1 := congrArg PowerView.busNext e
  have hb := Tympan.nextB_inLimits (s.period_pos ht) (x.beat + 1)
    (hret.trans (decide_eq_false (Rat.not_lt.mpr (Measure.busWatts_nonneg m hi)))) (hset.symm ▸ h0)
  obtain ⟨hnn, hle⟩ := Tympan.ballastCap_le (t := x.tympan) (s.period_pos ht) x.refTime hb.nonneg
  have hlim := hb.anti hnn hle
  rw [← hn, hset, hslope, hbusV, hsoft, hcharged] at hlim
  exact hlim

end

/-- Settles O26: the step leaves its view as `State.powerView_powerStepped` says, and a new setpoint is in its limits by
`Tympan.nextB_inLimits` and `Tympan.ballastCap_le`. -/
theorem setpointKeepsItsLimits : Obligations.SetpointKeepsItsLimits := by
  unfold Obligations.SetpointKeepsItsLimits
  intro s m
  refine ⟨fun hp hr => ?_, fun hp hr => exec_powerStep_noClock m hp hr, fun hd ht => ?_⟩
  · rw [exec_powerStep_unpowered m hp hr]
    have hset := s.chargeStep_busSet m
    refine ⟨s.chargeStep m, rfl, rfl, ?_, fun hc hs => ?_, fun hc hs => ?_, fun hc => ?_⟩
    · rw [s.chargeStep_charged, Bool.or_eq_true, decide_eq_true_iff]
    · simpa [hc, hs] using hset
    · simpa [hc, hs] using hset
    · simpa [hc] using hset
  · have v := s.powerView_powerStepped m
    refine ⟨s.powerStepped m, exec_powerStep_due m hd, congrArg PowerView.reports v, congrArg PowerView.busV v,
      congrArg PowerView.busP v, congrArg PowerView.kettleV v, congrArg PowerView.kettleE v, ?demand, ?busOk,
      congrArg PowerView.cores v, congrArg PowerView.hbmStacks v, congrArg PowerView.deviceState v,
      congrArg PowerView.phase v, congrArg PowerView.busSet v, ?support, ?charged, s.busNext_powerStepped_held m, ?limits⟩
    case demand =>
      rw [show (s.powerStepped m).tympan.demand = railWatts (Measure.rails m) * 100 / 91 from congrArg PowerView.demand v,
        Rat.div_mul_cancel (by decide)]
      rfl
    case busOk =>
      rw [show (s.powerStepped m).tympan.busOk = (decide (7200 ≤ m.busV.toNat) && decide (m.busV.toNat ≤ 8800))
        from congrArg PowerView.busOk v, Bool.and_eq_true, decide_eq_true_iff, decide_eq_true_iff]
    case support =>
      rw [show (s.powerStepped m).tympan.support =
        (s.tympan.support && decide (retention s.period < (m.kettleE.toNat : Rat) / 100)) from congrArg PowerView.support v,
        Bool.and_eq_true, decide_eq_true_iff]
      rfl
    case charged =>
      rw [show (s.powerStepped m).tympan.charged = (s.tympan.charged || decide (4000 ≤ m.kettleE.toNat))
        from congrArg PowerView.charged v, Bool.or_eq_true, decide_eq_true_iff]
    case limits =>
      intro hl hs h0 hi
      obtain ⟨hnn, hslope, hpower, hcurrent, hsoft, hlow⟩ := s.busNext_powerStepped_inLimits m ht hl hs h0 hi
      exact ⟨hnn, hslope, hpower, hcurrent, hsoft, hlow⟩

end Sys2Proof.Machine
end

section
/-! SUPPORT. The array's instructions (O10): what passes their checks, what a stationary load reads, and what an
instruction leaves that changes its own context and the array alone. -/

namespace Sys2Proof.Machine

open Sys2Proof

/-! ## Operands that pass -/

theorem lsOk_blockOperand {a n : Nat} (h : blockOperand a n) : lsOk 64 (a, n) = true := by
  obtain ⟨haligned, hinside⟩ := h
  simp [lsOk, lsSize, haligned, hinside]

theorem slotsOf_pos (fmt : BitVec 4) : 0 < slotsOf fmt := by
  unfold slotsOf
  split <;> decide

theorem elemWidth_pos (fmt : BitVec 4) : 0 < elemWidth fmt := by
  unfold elemWidth
  split <;> decide

theorem up64_pos {n : Nat} (h : 0 < n) : 0 < up64 n := by
  unfold up64
  omega

/-- A run of a block-scaled format is not empty, so that the check judges its own size. -/
theorem sized_columnRun {fmt : BitVec 4} {n : Nat} (hb : isBlock fmt = true) (hn : 0 < n) :
    sized (columnRun fmt n) = columnRun fmt n := by
  have hrun : 0 < columnRun fmt n := by
    rw [columnRun, if_pos hb]
    exact up64_pos (Nat.mul_pos (Nat.mul_pos (by decide) (elemWidth_pos fmt)) (Nat.mul_pos (slotsOf_pos fmt) hn))
  exact if_neg (Nat.ne_of_gt hrun)

theorem countOf_pos (f : FmtM) : 0 < countOf f := Nat.succ_pos _

section
variable {t : CtxState} {f : FmtM} (hb : isBlock f.fmt = true)
include hb

theorem loadUse_lsFails (ha : blockOperand (addrA t f) (columnRun f.fmt 8)) (hs : blockOperand (addrB t f) 64) :
    (loadUse t f).lsFails 64 = false := by
  simp [Use.lsFails, loadUse, sized_columnRun hb, lsOk_blockOperand ha, lsOk_blockOperand hs]

theorem passUse_lsFails (ha : blockOperand (addrA t f) (columnRun f.fmt (countOf f)))
    (hs : blockOperand (addrB t f) (columnScales f.fmt (countOf f))) : (passUse t f).lsFails 64 = false := by
  simp [Use.lsFails, passUse, sized_columnRun hb (countOf_pos f), lsOk_blockOperand ha, lsOk_blockOperand hs]

/-- An allowed pair of formats, with LIMB only where both sides are I8 (spec/05 R128). -/
theorem pairOk_some {st : Station} {limb : Nat} (hpair : st.fmt = 3 ↔ f.fmt = 3)
    (hlimb : limb = 0 ∨ (st.fmt = 4 ∧ f.fmt = 4)) : pairOk (some st) f.fmt limb = true := by
  have h3 : ((st.fmt == 3) == (f.fmt == 3)) = true := by
    rw [beq_iff_eq, Bool.eq_iff_iff, beq_iff_eq, beq_iff_eq]
    exact hpair
  simpa only [pairOk, hb, h3, Bool.true_and, Bool.or_eq_true, Bool.and_eq_true, beq_iff_eq] using hlimb

end

theorem passUse_afFails {t : CtxState} {f : FmtM} (h : indexD t f + countOf f ≤ 256) : (passUse t f).afFails = false := by
  simp [Use.afFails, passUse, h]

theorem notOwned_false {x : Core} {k : Ctx} {e n : Nat}
    (h : ∀ b ∈ banksOf e n, (x.banks.get b).isOpen = true ∧ (x.banks.get b).owner.toNat = k.val) :
    x.notOwned k e n = false := by
  rw [Core.notOwned, List.any_eq_false]
  intro b hmem
  obtain ⟨hopen, howner⟩ := h b hmem
  simp [hopen, howner]

/-! ## The stationary operand -/

/-- The fill of the copy that the last pass did not use, field by field. -/
theorem CtxState.loadStation_eq (t : CtxState) (st : Station) : t.loadStation st = { t with
    stat0 := if t.passUsed then some st else t.stat0
    stat1 := if t.passUsed then t.stat1 else some st
    newest := !t.passUsed } := by
  unfold CtxState.loadStation
  cases t.passUsed <;> rfl

/-- The place of an element in a packed run gives its column, slot and row back. -/
theorem cell_of_place {slots col slot row : Nat} (hslot : slot < slots) (hrow : row < 32) :
    let i := (col * slots + slot) * 32 + row
    i / 32 / slots = col ∧ i / 32 % slots = slot ∧ i % 32 = row := by
  have hblock : ((col * slots + slot) * 32 + row) / 32 = col * slots + slot := by omega
  refine ⟨?_, ?_, by omega⟩
  · rw [hblock, Nat.mul_comm, Nat.mul_add_div (by omega), Nat.div_eq_of_lt hslot, Nat.add_zero]
  · rw [hblock, Nat.mul_comm, Nat.mul_add_mod, Nat.mod_eq_of_lt hslot]

section
variable (ls : Mem) (transpose : Bool) (fmt : BitVec 4) (a b : Nat) {col slot row : Nat}
  (hcol : col < 8) (hslot : slot < slotsOf fmt)
include hcol hslot

/-- The blocks of the eight columns, each of one block per slot. -/
theorem stationBlock_lt : col * slotsOf fmt + slot < 8 * slotsOf fmt :=
  calc col * slotsOf fmt + slot < (col + 1) * slotsOf fmt := by rw [Nat.succ_mul]; omega
    _ ≤ 8 * slotsOf fmt := Nat.mul_le_mul_right _ hcol

/-- Each cell holds the element that its load's order puts there (spec/05 R124 to R126). -/
theorem readStation_code (hrow : row < 32) :
    (readStation ls transpose fmt a b).codes.getD ((col * slotsOf fmt + slot) * 32 + row) 0 =
      BitVec.ofNat 8 (packedElem ls a (elemWidth fmt) (cellIndex transpose (slotsOf fmt) col slot row)) := by
  have hblock := stationBlock_lt fmt hcol hslot
  obtain ⟨hc, hs, hr⟩ := cell_of_place (col := col) hslot hrow
  have hlt : (col * slotsOf fmt + slot) * 32 + row < 8 * slotsOf fmt * 32 := by omega
  simp only [readStation, List.getD_eq_getElem?_getD, List.getElem?_map, List.getElem?_range hlt, Option.map_some,
    Option.getD_some, hc, hs, hr]

theorem readStation_scale :
    (readStation ls transpose fmt a b).scales.getD (col * slotsOf fmt + slot) 0 = scaleAt ls b (slotsOf fmt * col + slot) := by
  simp only [readStation, List.getD_eq_getElem?_getD, List.getElem?_map,
    List.getElem?_range (stationBlock_lt fmt hcol hslot), Option.map_some, Option.getD_some, Nat.mul_comm]

end

/-! ## The step of an array instruction -/

/-- The core after the effect of an array instruction: its context as given, the array busy n cycles more, and weight
columns set out behind those on their way. -/
def Core.arrayStep (x : Core) (k : Ctx) (t : CtxState) (n : BitVec 64) (cols : List GroupCol) : Core :=
  { x.modCtx k fun _ => t with arrayBusy := x.arrayBusy + n, arrayQ := x.arrayQ ++ cols }

@[simp] theorem Core.ctx_arrayStep_same (x : Core) (k : Ctx) (t : CtxState) (n : BitVec 64) (cols : List GroupCol) :
    (x.arrayStep k t n cols).ctx k = t := x.ctx_modCtx_same k fun _ => t

theorem Core.ctx_arrayStep_other (x : Core) {j k : Ctx} (t : CtxState) (n : BitVec 64) (cols : List GroupCol) (h : j ≠ k) :
    (x.arrayStep k t n cols).ctx j = x.ctx j := x.ctx_modCtx_other (fun _ => t) h

/-- The context changed, its chain step kept and the array's fields written are one array step. -/
theorem Core.arrayStep_noteStep (x : Core) (k : Ctx) (g : CtxState → CtxState) (w : DWord) (a b d : Nat) (n : BitVec 64)
    (cols : List GroupCol) : x.arrayStep k ((g (x.ctx k)).noteStep ⟨w, a, b, d⟩) n cols =
      { (x.modCtx k g).noteStep k w a b d with arrayBusy := x.arrayBusy + n, arrayQ := x.arrayQ ++ cols } := by
  rw [Core.noteStep, Core.modCtx_modCtx]
  rfl

theorem ctx_moveOn_same (s : State) (c : CoreId) (k : Ctx) (q : Work) (next : Next) (pc : Nat) :
    ((s.moveOn c k q next pc).core c).ctx k =
      { (s.core c).ctx k with pc := BitVec.ofNat 10 (next.pc pc), waiting := none } := by
  rw [core_moveOn_same]
  exact Core.ctx_modCtx_same _ k fun t => { t with pc := BitVec.ofNat 10 (next.pc pc), waiting := none }

theorem moveOn_otherCtxs (s : State) (c : CoreId) (k : Ctx) (q : Work) (next : Next) (pc : Nat) :
    otherCtxsSame c k s (s.moveOn c k q next pc) := by
  intro j hj
  rw [core_moveOn_same]
  exact Core.ctx_modCtx_other _ (fun t => { t with pc := BitVec.ofNat 10 (next.pc pc), waiting := none }) hj

/-- Of the whole module, context k of core c became t and went on, the array is busy n cycles more, the columns follow
those on their way, and the issue itself left its marks. -/
def arrayStepped (c : CoreId) (k : Ctx) (t : CtxState) (n : BitVec 64) (cols : List GroupCol) (s s' : State) : Prop :=
  onlyCore c s s' ∧ otherCtxsSame c k s s' ∧
    (s'.core c).ctx k = { t with pc := ((s.core c).ctx k).pc + 1, waiting := none } ∧
    s'.core c = { s.core c with
      ctxs := (s'.core c).ctxs
      last := some k
      pace := (s'.core c).pace
      arrayBusy := (s.core c).arrayBusy + n
      arrayQ := (s.core c).arrayQ ++ cols }

/-- A ready array instruction that nothing holds and whose checks pass changes its own context, the array's count and
queue, and what the issue itself leaves. -/
theorem issue_arrayStep {s : State} {c : CoreId} {k : Ctx} {word : DWord} {u : Use} {fails : List (Nat × Bool)}
    {act : State → State} {t : CtxState} {n : BitVec 64} {cols : List GroupCol} (ready : s.ready c k word)
    (calm : s.calm c k) (op : opcodeDefined (opcodeOf word) = true) (checks : ∀ p ∈ fails, p.2 = false)
    (pc : ((s.core c).ctx k).pc.toNat < 1023) (effect : act s = s.modCore c fun _ => (s.core c).arrayStep k t n cols) :
    ∃ s', issue s c k word u fails false .seq act = .next s' ∧ arrayStepped c k t n cols s s' := by
  refine ⟨_, issue_ready ready op rfl (calm_range calm u) (calm_hdr calm u) checks (pc_seq_le pc) (calm_read calm u),
    ?only, ?others, ?own, ?core⟩
  all_goals rw [effect]
  case only => exact onlyCore_trans (modCore_only s c _) (moveOn_only _ c k _ _ _)
  case others =>
    intro j hj
    rw [moveOn_otherCtxs _ c k _ _ _ j hj, State.core_modCore_same]
    exact Core.ctx_arrayStep_other _ _ _ _ hj
  case own => rw [ctx_moveOn_same, State.core_modCore_same, Core.ctx_arrayStep_same, pc_seq]
  case core =>
    rw [core_moveOn_same, State.core_modCore_same]
    rfl

end Sys2Proof.Machine
end

section
/-! PROOF. The stationary load and the pass (O10). -/

namespace Sys2Proof.Machine

open Sys2Proof

/-! ## ALOAD and ALOADT -/

/-- The opcode of ALOAD, and of ALOADT. -/
def loadOp (transpose : Bool) : BitVec 6 := if transpose then 0x11 else 0x10

theorem exec_load (transpose : Bool) (c : CoreId) (k : Ctx) (f : FmtM) (s : State) :
    exec (if transpose then .aloadt c k f else .aload c k f) s = execLoad transpose (loadOp transpose) c k f s := by
  cases transpose <;> rfl

theorem opcodeDefined_load (transpose : Bool) (f : FmtM) :
    opcodeDefined (opcodeOf (encM (loadOp transpose) f)) = true := by
  rw [opcodeOf_encM]
  cases transpose <;> decide

/-! ## APASS -/

/-- LIMB is the whole of a SUB that is 0, 1 or 2. -/
theorem limb_of_sub {f : FmtM} (h : f.sub.toNat ≤ 2) :
    bitsOf f.sub.toNat 1 0 = f.sub.toNat ∧ bitsOf f.sub.toNat 4 2 = 0 := by
  simp only [bitsOf]
  omega

/-- The columns that a pass sets out, each with its bank's window and opening. -/
def Core.passCols (x : Core) (k : Ctx) (f : FmtM) (t : CtxState) (st : Station) : List GroupCol :=
  (List.range (countOf f)).map fun j =>
    (groupCol st x.ls k f.fmt (addrA t f) (addrB t f) (indexD t f) (bitsOf f.sub.toNat 1 0) j).ofBank
      (x.banks.get (bankOf (indexD t f + j)))

/-! ## What a ready instruction of the array leaves -/

section
variable {s : State} {c : CoreId} {k : Ctx} {f : FmtM} {t : CtxState} (ctx : (s.core c).ctx k = t) (calm : s.calm c k)
  (pc : t.pc.toNat < 1023) (hflags : badFlags f = false)
include ctx calm pc hflags

/-- A ready load whose operands pass fills the spare copy with what it read, and keeps its chain step. -/
theorem execLoad_ready {transpose : Bool} (ready : s.ready c k (encM (loadOp transpose) f)) (hd : badD f = false)
    (hlen : badLen f = false) (hsub : badSub f = false) (hb : isBlock f.fmt = true)
    (hls : (loadUse t f).lsFails 64 = false) :
    ∃ s', execLoad transpose (loadOp transpose) c k f s = .next s' ∧
      arrayStepped c k ((t.loadStation (readStation (s.core c).ls transpose f.fmt (addrA t f) (addrB t f))).noteStep
        ⟨encM (loadOp transpose) f, addrA t f, addrB t f, 0⟩) 32 [] s s' := by
  subst ctx
  unfold execLoad
  refine issue_arrayStep ready calm (opcodeDefined_load transpose f) ?checks pc ?effect
  case checks => simp [hd, hlen, hsub, hflags, hls, hb]
  case effect =>
    rw [Core.arrayStep_noteStep _ _ (·.loadStation _), List.append_nil]
    rfl

/-- A ready pass whose fields and operands pass uses the newest operand and sets its columns out. -/
theorem execApass_ready {st : Station} (station : t.station = some st) (ready : s.ready c k (encM 0x12 f))
    (hsub : f.sub.toNat ≤ 2) (hpair : pairOk (some st) f.fmt (bitsOf f.sub.toNat 1 0) = true)
    (hls : (passUse t f).lsFails 64 = false) (haf : (passUse t f).afFails = false)
    (hown : (s.core c).notOwned k (indexD t f) (countOf f) = false) :
    ∃ s', execApass c k f s = .next s' ∧
      arrayStepped c k (({ t with passUsed := t.newest } : CtxState).noteStep
        ⟨encM 0x12 f, addrA t f, addrB t f, indexD t f⟩) (BitVec.ofNat 64 (countOf f)) ((s.core c).passCols k f t st)
        s s' := by
  subst ctx
  unfold execApass
  refine issue_arrayStep ready calm (by rw [opcodeOf_encM]; decide) ?checks pc ?effect
  case checks =>
    obtain ⟨hlimb, hhigh⟩ := limb_of_sub hsub
    have hne : f.sub.toNat ≠ 3 := by omega
    rw [hlimb] at hpair
    simp [hlimb, hhigh, hne, hflags, hls, haf, station, hpair, hown]
  case effect =>
    rw [Core.arrayStep_noteStep _ _ fun u => { u with passUsed := u.newest }]
    simp only [station]
    rfl

end

/-- Settles O10: a load by what `readStation` puts in each cell, a pass by the columns of `Core.passCols`; the rest is
the frame of `issue_arrayStep`. -/
theorem stationaryLoadAndPass : Obligations.StationaryLoadAndPass := by
  unfold Obligations.StationaryLoadAndPass
  rintro s c k f t x rfl ctx pc hflags hb calm
  have hflags' : badFlags f = false := by simp [badFlags, hflags]
  refine ⟨?load, ?pass⟩
  case load =>
    rintro transpose w rfl ready hdbase hdoff hlen hsub ha hs
    obtain ⟨s', run, only, others, own, core⟩ := execLoad_ready ctx calm pc hflags' ready (by simp [badD, hdbase, hdoff])
      (by simp [badLen, hlen]) (by simp [badSub, hsub]) hb (loadUse_lsFails hb ha hs)
    rw [CtxState.loadStation_eq, ctx] at own
    rw [List.append_nil] at core
    exact ⟨s', readStation (s.core c).ls transpose f.fmt (addrA t f) (addrB t f), (exec_load transpose c k f s).trans run,
      only, others, own, core, rfl, fun col slot row hcol hslot hrow =>
        ⟨readStation_code _ _ _ _ _ hcol hslot hrow, readStation_scale _ _ _ _ _ hcol hslot⟩⟩
  case pass =>
    intro st station ready hsub hlimb hpair ha hs hindex hown
    have hlow := (limb_of_sub hsub).1
    have hpair' : pairOk (some st) f.fmt (bitsOf f.sub.toNat 1 0) = true :=
      pairOk_some hb hpair (hlimb.imp_left fun h => hlow.trans (by simp [h]))
    obtain ⟨s', run, only, others, own, core⟩ := execApass_ready ctx calm pc hflags' station ready hsub hpair'
      (passUse_lsFails hb ha hs) (passUse_afFails hindex) (notOwned_false hown)
    rw [ctx] at own
    rw [Core.passCols, hlow] at core
    exact ⟨s', run, only, others, own, core⟩

end Sys2Proof.Machine
end

section
/-! SUPPORT. Sync counters (O19, O41): what a change, a signal and a consuming WAIT make of the counter named, and what
they leave of the core. -/

namespace Sys2Proof.Machine

open Sys2Proof

/-! ## The core beside its counters -/

/-- Of core x only the sync counters, the error counters, the tallies of the checkpoints and what the issues tell of
readiness may differ in y. -/
def Core.syncOnly (x y : Core) : Prop :=
  y = { x with pace := y.pace, ctrs := y.ctrs, errs := y.errs, checkpoints := y.checkpoints }

theorem Core.syncOnly.trans {x y z : Core} (h : x.syncOnly y) (g : y.syncOnly z) : x.syncOnly z := by
  unfold Core.syncOnly at *
  rw [g, h]

theorem Core.syncOnly.ctxs_eq {x y : Core} (h : x.syncOnly y) : y.ctxs = x.ctxs := by rw [h]

theorem Core.setSync_syncOnly (x : Core) (i : Fin 64) (v : SyncCtr) : x.syncOnly (x.setSync i v) := rfl

theorem Core.tallySync_syncOnly (x : Core) (i : Fin 64) (d : Int) : x.syncOnly (x.tallySync i d) := rfl

theorem Core.moveSync_syncOnly (x : Core) (i : Fin 64) (d : Int) : x.syncOnly (x.moveSync i d) := by
  unfold Core.moveSync
  dsimp only
  split <;> rfl

theorem Core.joinSync_syncOnly (x : Core) (i : Fin 64) (n : Nat) : x.syncOnly (x.joinSync i n) := by
  unfold Core.joinSync
  dsimp only
  split <;> rfl

theorem Core.signal_syncOnly (x : Core) (i : Fin 64) (n : Nat) (src : EndPt) (isLocal : Bool) :
    x.syncOnly (x.signal i n src isLocal) := (x.moveSync_syncOnly i n).trans (Core.setSync_syncOnly _ _ _)

theorem Core.signalIn_syncOnly (x : Core) (i : Fin 64) (n : Nat) (src : EndPt) (same : Bool) :
    x.syncOnly (x.signalIn i n src same) := by
  unfold Core.signalIn
  split
  · exact (x.joinSync_syncOnly i n).trans (Core.setSync_syncOnly _ _ _)
  · exact x.signal_syncOnly i n src false

theorem Core.unsig_syncOnly (x : Core) (m : SigMark) : x.syncOnly (x.unsig m) := by
  unfold Core.unsig
  dsimp only
  split <;> rfl

theorem Core.consume_syncOnly (x : Core) (i : Fin 64) (v : Nat) (joined : Bool) : x.syncOnly (x.consume i v joined) := by
  unfold Core.consume
  split
  · exact (x.unsig_syncOnly _).trans (Core.moveSync_syncOnly _ _ _)
  · exact x.moveSync_syncOnly i _

/-! ## A change of a counter (spec/09 R225) -/

section
variable {v : SyncCtr} {d : Int} {w : Nat} (h : (v.value.toNat : Int) + d = w)
include h

/-- A change that takes the counter to w, not below 0, is cut at 65,535. -/
theorem SyncCtr.move_to : v.move d = { v with
    value := BitVec.ofNat 16 (min 65535 w), sat := v.sat || decide (65535 < w), clamped := decide (65535 < w) } := by
  unfold SyncCtr.move
  simp only [h]
  by_cases hw : 65535 < w
  · rw [if_pos (by omega), Nat.min_eq_left (by omega)]
    simp [hw]
  · rw [if_neg (by omega), if_neg (by omega), Nat.min_eq_right (by omega)]
    simp [hw]

theorem SyncCtr.clamps_to : v.clamps d = decide (65535 < w) := by
  unfold SyncCtr.clamps
  rw [h, decide_eq_false (p := (w : Int) < 0) (by omega), Bool.or_false]
  exact decide_eq_decide.mpr (by omega)

end

@[simp] theorem Core.syncCtr_count (x : Core) (j n : Nat) (i : Fin 64) : (x.count j n).syncCtr i = x.syncCtr i := rfl

@[simp] theorem Core.syncCtr_tallySync (x : Core) (i j : Fin 64) (d : Int) : (x.tallySync i d).syncCtr j = x.syncCtr j := rfl

@[simp] theorem Core.errs_tallySync (x : Core) (i : Fin 64) (d : Int) : (x.tallySync i d).errs = x.errs := rfl

@[simp] theorem Core.syncCtr_moveSync_same (x : Core) (i : Fin 64) (d : Int) :
    (x.moveSync i d).syncCtr i = (x.syncCtr i).move d := by
  unfold Core.moveSync
  dsimp only
  split <;> simp

theorem Core.syncCtr_moveSync_other (x : Core) {i j : Fin 64} (d : Int) (h : j ≠ i) :
    (x.moveSync i d).syncCtr j = x.syncCtr j := by
  unfold Core.moveSync
  dsimp only
  split <;> simp [Core.syncCtr_setSync_other _ _ h]

/-- SYNC_CLAMP counts a clamp. -/
theorem Core.errs_moveSync (x : Core) (i : Fin 64) (d : Int) :
    (x.moveSync i d).errs = if (x.syncCtr i).clamps d then (x.count jSyncClamp 1).errs else x.errs := by
  unfold Core.moveSync
  dsimp only
  split <;> rfl

@[simp] theorem Core.syncCtr_joinSync_same (x : Core) (i : Fin 64) (n : Nat) :
    (x.joinSync i n).syncCtr i =
      { (x.syncCtr i).move n with clamped := (x.syncCtr i).clamped || (x.syncCtr i).clamps n } := by
  unfold Core.joinSync
  dsimp only
  split <;> simp

theorem Core.syncCtr_joinSync_other (x : Core) {i j : Fin 64} (n : Nat) (h : j ≠ i) :
    (x.joinSync i n).syncCtr j = x.syncCtr j := by
  unfold Core.joinSync
  dsimp only
  split <;> simp [Core.syncCtr_setSync_other _ _ h]

/-! ## A signal (spec/09 R222, R225) -/

@[simp] theorem Core.syncCtr_signal_same (x : Core) (i : Fin 64) (n : Nat) (src : EndPt) (isLocal : Bool) :
    (x.signal i n src isLocal).syncCtr i = { signalled (x.syncCtr i) n src false with local_ := isLocal } := by
  simp [Core.signal, signalled, SyncCtr.move_to (v := x.syncCtr i) (Int.natCast_add _ n).symm]

theorem Core.syncCtr_signal_other (x : Core) {i j : Fin 64} (n : Nat) (src : EndPt) (isLocal : Bool) (h : j ≠ i) :
    (x.signal i n src isLocal).syncCtr j = x.syncCtr j := by
  rw [Core.signal, Core.syncCtr_setSync_other _ _ h, Core.syncCtr_moveSync_other _ _ h]

/-- SYNC_CLAMP counts a signal that passes 65,535. -/
theorem Core.errs_signal (x : Core) (i : Fin 64) (n : Nat) (src : EndPt) (isLocal : Bool) :
    (x.signal i n src isLocal).errs =
      if 65535 < (x.syncCtr i).value.toNat + n then (x.count jSyncClamp 1).errs else x.errs := by
  rw [Core.signal, Core.setSync_errs, Core.errs_moveSync, SyncCtr.clamps_to (Int.natCast_add _ n).symm]
  simp only [decide_eq_true_eq]

/-! ## A signal from the fabric (spec/09 R225) -/

section
variable (x : Core) (i : Fin 64) (n : Nat) (src : EndPt) (same : Bool)

theorem Core.errs_joinSync : (x.joinSync i n).errs =
    if (x.syncCtr i).clamps n && !(x.syncCtr i).clamped then (x.count jSyncClamp 1).errs else x.errs := by
  unfold Core.joinSync
  dsimp only
  split <;> rfl

theorem Core.syncCtr_signalIn_same : (x.signalIn i n src same).syncCtr i = signalled (x.syncCtr i) n src same := by
  cases same with
  | false => exact Core.syncCtr_signal_same x i n src false
  | true =>
    have h := Int.natCast_add (x.syncCtr i).value.toNat n
    simp [Core.signalIn, SyncCtr.move_to h.symm, SyncCtr.clamps_to h.symm, signalled]

theorem Core.syncCtr_signalIn_other {j : Fin 64} (h : j ≠ i) : (x.signalIn i n src same).syncCtr j = x.syncCtr j := by
  cases same with
  | false => exact Core.syncCtr_signal_other x n src false h
  | true =>
    exact (Core.syncCtr_setSync_other _ _ h).trans (Core.syncCtr_joinSync_other x n h)

/-- SYNC_CLAMP counts a signal that passes 65,535, once for the changes of one cycle. -/
theorem Core.errs_signalIn : (x.signalIn i n src same).errs =
    if 65535 < (x.syncCtr i).value.toNat + n ∧ (same && (x.syncCtr i).clamped) = false then
      (x.count jSyncClamp 1).errs
    else x.errs := by
  cases same with
  | false =>
    simp only [Bool.false_and, and_true]
    exact Core.errs_signal x i n src false
  | true =>
    have h := Int.natCast_add (x.syncCtr i).value.toNat n
    refine (Core.errs_joinSync x i n).trans ?_
    simp only [SyncCtr.clamps_to h.symm, Bool.true_and, Bool.and_eq_true, decide_eq_true_eq, Bool.not_eq_true']

theorem Core.checkpoints_moveSync (d : Int) : (x.moveSync i d).checkpoints = x.checkpoints := by
  unfold Core.moveSync
  dsimp only
  split <;> rfl

theorem Core.checkpoints_joinSync : (x.joinSync i n).checkpoints = x.checkpoints := by
  unfold Core.joinSync
  dsimp only
  split <;> rfl

theorem Core.checkpoints_signalIn : (x.signalIn i n src same).checkpoints = x.checkpoints := by
  cases same with
  | false => exact Core.checkpoints_moveSync x i n
  | true => exact Core.checkpoints_joinSync x i n

/-- A signal changes counters, and what the issues tell of readiness. -/
theorem Core.signalIn_frame : x.signalIn i n src same = { x with
    ctrs := (x.signalIn i n src same).ctrs, errs := (x.signalIn i n src same).errs
    pace := (x.signalIn i n src same).pace } := by
  have frame := x.signalIn_syncOnly i n src same
  unfold Core.syncOnly at frame
  rwa [Core.checkpoints_signalIn] at frame

end

/-- Error counters that a step left or counted one clamp in, as the claims say it. -/
theorem coreCounted_of_errs {x y : Core} {p : Prop} [Decidable p]
    (h : y.errs = if p then (x.count jSyncClamp 1).errs else x.errs) :
    if p then coreCounted x y jSyncClamp 1 else y.errs = x.errs := by
  split
  · rw [if_pos ‹_›] at h
    intro i
    rw [h]
    exact coreCounted_count x jSyncClamp 1 i
  · rwa [if_neg ‹_›] at h

/-! ## A consuming WAIT (spec/09 R224, R225) -/

theorem Core.waitValue_alone {x : Core} {i : Fin 64} {joined : Bool} (h : x.sigJoined i joined = none) :
    x.waitValue i joined = (x.syncCtr i).value.toNat := by rw [Core.waitValue, h]

theorem Core.waitValue_joined {x : Core} {i : Fin 64} {joined : Bool} {m : SigMark} (h : x.sigJoined i joined = some m) :
    x.waitValue i joined = m.before.value.toNat := by rw [Core.waitValue, h]

theorem Core.sigJoined_ctr {x : Core} {i : Fin 64} {joined : Bool} {m : SigMark} (h : x.sigJoined i joined = some m) :
    m.ctr = i := by
  unfold Core.sigJoined at h
  split at h
  · split at h
    · rename_i hm
      cases h
      simpa using (Bool.and_eq_true_iff.mp hm).2
    · cases h
  · cases h

@[simp] theorem Core.syncCtr_unsig_same (x : Core) (m : SigMark) :
    (x.unsig m).syncCtr m.ctr =
      { m.before with src := (x.syncCtr m.ctr).src, local_ := (x.syncCtr m.ctr).local_ } := by
  unfold Core.unsig
  dsimp only
  split <;> exact Core.syncCtr_setSync_same _ _ _

theorem Core.syncCtr_unsig_other (x : Core) {m : SigMark} {j : Fin 64} (h : j ≠ m.ctr) :
    (x.unsig m).syncCtr j = x.syncCtr j := by
  unfold Core.unsig
  dsimp only
  split <;> exact Core.syncCtr_setSync_other _ _ h

/-- The clamp that the SIG of the mark counted is not counted. -/
theorem Core.look_errs_unsig {x : Core} {m : SigMark} (h : Sparse.look {} x.errs jSyncClamp = m.clamps.add 1) :
    Sparse.look {} (x.unsig m).errs jSyncClamp = m.clamps := by
  unfold Core.unsig
  dsimp only
  split
  · exact Sparse.look_put_same _ _ _ _
  · rename_i hne
    exact absurd h hne

theorem Core.syncCtr_consume_other (x : Core) {i j : Fin 64} (v : Nat) (joined : Bool) (h : j ≠ i) :
    (x.consume i v joined).syncCtr j = x.syncCtr j := by
  unfold Core.consume
  split
  · rename_i m hm
    rw [Core.syncCtr_moveSync_other _ _ h, Core.syncCtr_unsig_other _ (by rwa [Core.sigJoined_ctr hm])]
  · exact Core.syncCtr_moveSync_other _ _ h

section
variable {x : Core} {i : Fin 64} {joined : Bool} {v : Nat}

/-- Alone, a WAIT takes VALUE off the counter, which holds it: nothing is clamped. -/
theorem Core.consume_alone (h : x.sigJoined i joined = none) (hv : v ≤ (x.syncCtr i).value.toNat) :
    (x.consume i v joined).syncCtr i =
        { x.syncCtr i with value := BitVec.ofNat 16 ((x.syncCtr i).value.toNat - v), clamped := false } ∧
      (x.consume i v joined).errs = x.errs := by
  have hw : ((x.syncCtr i).value.toNat : Int) + -(v : Int) = ((x.syncCtr i).value.toNat - v : Nat) := by omega
  have hlt : ¬ 65535 < (x.syncCtr i).value.toNat - v := by have := (x.syncCtr i).value.isLt; omega
  rw [Core.consume, h]
  constructor
  · simp [SyncCtr.move_to hw, hlt, Nat.min_eq_right (Nat.le_of_not_lt hlt)]
  · simp [Core.errs_moveSync, SyncCtr.clamps_to hw, hlt]

/-- In the cycle of a SIG's change, the increment less VALUE is one change of what the SIG found. -/
theorem Core.consume_joined {m : SigMark} {w : Nat} (h : x.sigJoined i joined = some m)
    (hv : v ≤ m.before.value.toNat) (hw : m.before.value.toNat + m.inc - v = w) :
    (x.consume i v joined).syncCtr i = { m.before with
        value := BitVec.ofNat 16 (min 65535 w), sat := m.before.sat || decide (65535 < w), clamped := decide (65535 < w)
        src := (x.syncCtr i).src, local_ := (x.syncCtr i).local_ } ∧
      (Sparse.look {} x.errs jSyncClamp = m.clamps.add 1 →
        Sparse.look {} (x.consume i v joined).errs jSyncClamp = if 65535 < w then m.clamps.add 1 else m.clamps) := by
  obtain rfl := Core.sigJoined_ctr h
  have hw' : (((x.unsig m).syncCtr m.ctr).value.toNat : Int) + ((m.inc : Int) - v) = w := by
    rw [Core.syncCtr_unsig_same]
    dsimp only
    omega
  rw [Core.consume, h]
  constructor
  · rw [Core.syncCtr_moveSync_same, SyncCtr.move_to hw', Core.syncCtr_unsig_same]
  · intro hclamps
    rw [Core.errs_moveSync, SyncCtr.clamps_to hw']
    simp only [decide_eq_true_eq]
    split
    · rw [Core.look_count_same, Core.look_errs_unsig hclamps]
    · exact Core.look_errs_unsig hclamps

end

/-- The core after the effect of a WAIT, its tally aside. -/
def Core.waited (x : Core) (f : FmtY) (joined : Bool) : Core :=
  if f.consume = 1 then x.consume (ctrOf f) f.value.toNat joined else x

section
variable {x : Core} {f : FmtY} {joined : Bool}

theorem Core.waited_consuming (h : f.consume = 1) :
    x.waited f joined = x.consume (ctrOf f) f.value.toNat joined := if_pos h

theorem Core.waited_reading (h : f.consume ≠ 1) : x.waited f joined = x := if_neg h

theorem Core.syncCtr_waited_other {j : Fin 64} (hj : j ≠ ctrOf f) : (x.waited f joined).syncCtr j = x.syncCtr j := by
  by_cases h : f.consume = 1
  · rw [Core.waited_consuming h, Core.syncCtr_consume_other _ _ _ hj]
  · rw [Core.waited_reading h]

/-- A WAIT that joins no SIG and whose counter holds VALUE takes it off where CONSUME is 1, and counts no clamp. -/
theorem Core.waited_alone (h : x.sigJoined (ctrOf f) joined = none)
    (hv : f.value.toNat ≤ (x.syncCtr (ctrOf f)).value.toNat) :
    (x.waited f joined).errs = x.errs ∧ (x.waited f joined).syncCtr (ctrOf f) = { x.syncCtr (ctrOf f) with
      value := if f.consume = 1 then (x.syncCtr (ctrOf f)).value - f.value else (x.syncCtr (ctrOf f)).value
      clamped := if f.consume = 1 then false else (x.syncCtr (ctrOf f)).clamped } := by
  by_cases hconsume : f.consume = 1
  · obtain ⟨counter, errs⟩ := Core.consume_alone h hv
    have hsub : BitVec.ofNat 16 ((x.syncCtr (ctrOf f)).value.toNat - f.value.toNat) =
        (x.syncCtr (ctrOf f)).value - f.value := by bv_omega
    rw [Core.waited_consuming hconsume, counter, errs, hsub, if_pos hconsume, if_pos hconsume]
    exact ⟨rfl, rfl⟩
  · rw [Core.waited_reading hconsume, if_neg hconsume, if_neg hconsume]
    exact ⟨rfl, rfl⟩

end

end Sys2Proof.Machine
end

section
/-! PROOF. SIG and WAIT (O19). -/

namespace Sys2Proof.Machine

open Sys2Proof

/-! ## A ready instruction that names nothing in a store -/

/-- Of the whole module, context k of core c went on, and the core has the sync counters and error counters of y. -/
def syncMoved (c : CoreId) (k : Ctx) (y : Core) (s s' : State) : Prop :=
  ctxMoved c k (((s.core c).ctx k).pc + 1) s s' ∧
    s'.core c = { s.core c with
      ctxs := (s'.core c).ctxs, last := some k, pace := (s'.core c).pace, ctrs := y.ctrs, errs := y.errs
      checkpoints := (s'.core c).checkpoints }

section
variable {c : CoreId} {k : Ctx} {y : Core} {s s' : State} (h : syncMoved c k y s s')
include h

theorem syncMoved.ctrs_eq : (s'.core c).ctrs = y.ctrs := by rw [h.2]

theorem syncMoved.errs_eq : (s'.core c).errs = y.errs := by rw [h.2]

theorem syncMoved.syncCtr_eq (j : Fin 64) : (s'.core c).syncCtr j = y.syncCtr j := by
  rw [Core.syncCtr, h.ctrs_eq, Core.syncCtr]

end

section
variable {s : State} {c : CoreId} {k : Ctx} {word : DWord} {fails : List (Nat × Bool)} {held : Bool} {act : State → State}
  (ready : s.ready c k word) (op : opcodeDefined (opcodeOf word) = true) (pc : ((s.core c).ctx k).pc.toNat < 1023)
  (hheld : held = false) (checks : ∀ p ∈ fails, p.2 = false)
include ready op pc hheld checks

theorem issue_noUse : issue s c k word {} fails held .seq act =
    .next ((act s).moveOn c k (s.workOf c k word) .seq ((s.core c).ctx k).pc.toNat) :=
  issue_ready ready op hheld (rangeHeld_empty s c k) (badHdr_empty _) checks (pc_seq_le pc) (badRead_empty _)

/-- One that changes only the counters of its core moves its context on, and the counters are as it left them. -/
theorem issue_syncOnly {y : Core} (only : onlyCore c s (act s)) (core : (act s).core c = y)
    (sync : (s.core c).syncOnly y) :
    ∃ s', issue s c k word {} fails held .seq act = .next s' ∧ syncMoved c k y s s' := by
  refine ⟨_, issue_noUse ready op pc hheld checks, ⟨?only, ?others, ?last, ?own⟩, ?core⟩
  case only => exact onlyCore_trans only (moveOn_only _ c k _ _ _)
  case others =>
    intro j hj
    rw [moveOn_otherCtxs _ c k _ _ _ j hj, core]
    simp only [Core.ctx, sync.ctxs_eq]
  case last => rw [core_moveOn_same]
  case own =>
    rw [ctx_moveOn_same, core, pc_seq]
    simp only [Core.ctx, sync.ctxs_eq]
  case core =>
    rw [core_moveOn_same, core, sync]
    rfl

end

/-! ## The trace -/

/-- A WAIT held fewer than 16 cycles is no trace event (spec/17 R442). -/
theorem State.waitEvent_short (s : State) (c : CoreId) (k : Ctx) (f : FmtY) {held : Nat} (h : held < 16) :
    s.waitEvent c k f held = s := by
  unfold State.waitEvent
  split
  · rfl
  · simp [Nat.not_le.mpr h]

/-! ## SIG -/

theorem opcodeDefined_sig (f : FmtY) : opcodeDefined (opcodeOf (encY 0x38 f)) = true := by
  rw [opcodeOf_encY]
  decide

theorem opcodeDefined_wait (f : FmtY) : opcodeDefined (opcodeOf (encY 0x39 f)) = true := by
  rw [opcodeOf_encY]
  decide

theorem ctrOf_eq {f : FmtY} {i : Fin 64} (h : i.val = f.ctr.toNat) : ctrOf f = i := Fin.ext h.symm

/-- The core after the effect of a local SIG: the counter signalled, the tally, and the mark for a WAIT that joins it. -/
def Core.localSig (x : Core) (i : Fin 64) (v : Nat) (src : EndPt) : Core :=
  let y := (x.signal i v src true).tallySync i v
  { y with pace := { y.pace with sig := some ⟨i, x.syncCtr i, Sparse.look {} x.errs jSyncClamp, v, false⟩ } }

theorem State.localSig_eq (s : State) (c : CoreId) (i : Fin 64) (v : Nat) :
    s.localSig c i v = s.modCore c fun x => x.localSig i v (s.coreEnd c) := rfl

theorem Core.localSig_syncOnly (x : Core) (i : Fin 64) (v : Nat) (src : EndPt) : x.syncOnly (x.localSig i v src) :=
  ((x.signal_syncOnly i v src true).trans (Core.tallySync_syncOnly _ _ _)).trans rfl

section
variable {s : State} {c : CoreId} {k : Ctx} {f : FmtY} (pc : ((s.core c).ctx k).pc.toNat < 1023) (hrsv : f.rsv = 0)
include pc hrsv

section
variable (ready : s.ready c k (encY 0x38 f)) (free : ∀ g ∈ (s.core c).arrayQ, g.ctx ≠ k) (hlow : 1 ≤ f.value.toNat)
  (hhigh : f.value.toNat ≤ 255) (hconsume : f.consume = 0)
include ready free hlow hhigh hconsume

theorem execSig_local (hremote : f.remote = 0) (habase : f.abase = 0) :
    ∃ s', execSig c k f s = .next s' ∧
      syncMoved c k ((s.core c).signal (ctrOf f) f.value.toNat (s.coreEnd c) true) s s' := by
  have hrem : (f.remote == 1) = false := by rw [hremote]; rfl
  unfold execSig
  simp only [hrem, Bool.not_false, if_true, State.localSig_eq]
  refine issue_syncOnly (y := (s.core c).localSig (ctrOf f) f.value.toNat (s.coreEnd c)) ready (opcodeDefined_sig f) pc
    (by simpa using free) ?checks (modCore_only s c _) (State.core_modCore_same s c _) (Core.localSig_syncOnly _ _ _ _)
  case checks =>
    have hne : f.value.toNat ≠ 0 := by omega
    simp [habase, hrsv, hconsume, hne, Nat.not_lt.mpr hhigh]

/-- A remote SIG whose address passes issues with what it does to a counter elsewhere. -/
theorem execSig_remote {d : CoreId} {j : Fin 64} (hremote : f.remote = 1) (hctr : f.ctr = 0)
    (heven : f.abase.toNat % 2 = 0) (target : s.ctrTarget (pairAddr ((s.core c).ctx k) f) = some (d, j))
    (far : ¬(d = c ∧ addrModule (pairAddr ((s.core c).ctx k) f) = s.coord)) :
    execSig c k f s = .next (State.moveOn
      (if 0 < ((s.core c).ctx k).skipSig then s.modCtx c k fun t => { t with skipSig := t.skipSig - 1 }
        else (s.modCore c fun x => x.tallyCtx k 0 1).send
          (signalPacketOf (s.coreEnd c) (s.coreEnd c) 31 (pairAddr ((s.core c).ctx k) f) f.value.toNat))
      c k (s.workOf c k (encY 0x38 f)) .seq ((s.core c).ctx k).pc.toNat) := by
  unfold execSig
  refine (issue_noUse ready (opcodeDefined_sig f) pc (by simpa using free) ?checks).trans ?effect
  case checks =>
    have hne : f.value.toNat ≠ 0 := by omega
    simp [hremote, hctr, heven, target, hrsv, hconsume, hne, Nat.not_lt.mpr hhigh]
  case effect =>
    have hfar : (decide (d = c) && decide (addrModule (pairAddr ((s.core c).ctx k) f) = s.coord)) = false := by
      rw [Bool.eq_false_iff]
      simpa using far
    simp only [hremote, target, hfar]
    rfl

end

/-! ## WAIT -/

section
variable {held : WaitIn} (ready : s.ready c k (encY 0x39 f)) (habase : f.abase = 0) (hremote : f.remote = 0)
  (hheld : held.held < 16)
include ready habase hremote hheld

/-- A WAIT whose counter holds VALUE issues, and consumes VALUE where CONSUME is 1. -/
theorem execWait_met (met : f.value.toNat ≤ (s.core c).waitValue (ctrOf f) held.joined) :
    ∃ s', execWait c k f held s = .next s' ∧ syncMoved c k ((s.core c).waited f held.joined) s s' := by
  have checks : ∀ p ∈ [(ckIllegal, f.abase != 0 || f.remote != 0 || f.rsv != 0)], p.2 = false := by
    simp [habase, hremote, hrsv]
  have event : s.waitEvent c k f held.held = s := State.waitEvent_short s c k f hheld
  unfold execWait
  simp only [met, decide_true, Bool.not_true, Bool.and_false, Bool.false_eq_true, if_false]
  unfold Core.waited
  by_cases hconsume : f.consume = 1
  · simp only [hconsume, if_true]
    exact issue_syncOnly ready (opcodeDefined_wait f) pc rfl checks
      (y := ((s.core c).consume (ctrOf f) f.value.toNat held.joined).tallySync (ctrOf f) (-f.value.toNat))
      (by rw [event]; exact modCore_only s c _) (by rw [event]; exact State.core_modCore_same s c _)
      ((Core.consume_syncOnly _ _ _ _).trans (Core.tallySync_syncOnly _ _ _))
  · simp only [hconsume, if_false]
    exact issue_syncOnly ready (opcodeDefined_wait f) pc rfl checks (by rw [event]; exact onlyCore_refl c s)
      (by rw [event]) rfl

end

end

/-- A WAIT whose counter does not hold VALUE shows itself waiting, unless it does already. -/
theorem execWait_unmet {s : State} {c : CoreId} {k : Ctx} {f : FmtY} {held : WaitIn}
    (ready : s.ready c k (encY 0x39 f))
    (unmet : (s.core c).waitValue (ctrOf f) held.joined < f.value.toNat) :
    execWait c k f held s = .next (if ((s.core c).ctx k).waiting.isSome then s
      else s.modCtx c k fun t => { t with waiting := some (f.ctr, f.value, s.beat) }) := by
  obtain ⟨select, guard, fetch⟩ := ready
  have may : s.mayIssue c k = true := (Bool.and_eq_true_iff.mp select).1
  have hmet : decide (f.value.toNat ≤ (s.core c).waitValue (ctrOf f) held.joined) = false := by simpa using unmet
  unfold execWait
  simp only [may, guard, fetch, hmet, decide_true, Bool.not_false, Bool.and_true, if_true]

/-- Settles O19: what a SIG and a WAIT make of the counter is said by `Core.signal` and `Core.consume`; the rest is the
frame of `issue_syncOnly`. -/
theorem signalsAndWaits : Obligations.SignalsAndWaits := by
  unfold Obligations.SignalsAndWaits
  rintro s c k f x t i rfl rfl pc hrsv hi
  obtain rfl := ctrOf_eq hi
  refine ⟨fun ready free hlow hhigh hconsume => ⟨?sigLocal, ?sigRemote⟩, fun held ready habase hremote hheld =>
    ⟨?waitAlone, ?waitJoined, ?waitUnmet⟩⟩
  case sigLocal =>
    intro hremote habase
    obtain ⟨s', run, moved⟩ := execSig_local pc hrsv ready free hlow hhigh hconsume hremote habase
    refine ⟨s', run, moved.1, ?core, ?raised, fun j hj => ?others, ?clamp⟩
    case core => rw [moved.2]
    case raised => rw [moved.syncCtr_eq, Core.syncCtr_signal_same]; rfl
    case others => rw [moved.syncCtr_eq, Core.syncCtr_signal_other _ _ _ _ hj]
    case clamp => exact coreCounted_of_errs (moved.errs_eq.trans (Core.errs_signal _ _ _ _ _))
  case sigRemote =>
    intro d j hremote hctr heven target far
    have run := execSig_remote pc hrsv ready free hlow hhigh hconsume hremote hctr heven target far
    constructor
    · intro hskip
      rw [if_neg (by omega)] at run
      refine ⟨_, run, rfl, fun e he => ?_, fun j hj => ?_, ?_, ?_⟩
      · rw [(moveOn_only _ c k _ _ _).2 e he, State.core_send, State.core_modCore_other s _ he]
      · rw [moveOn_otherCtxs _ c k _ _ _ j hj, State.core_send, State.core_modCore_same]
        rfl
      · rw [ctx_moveOn_same, pc_seq, State.core_send, State.core_modCore_same]
        rfl
      · rw [core_moveOn_same, State.core_send, State.core_modCore_same]
        rfl
    · intro hskip
      rw [if_pos hskip] at run
      refine ⟨_, run, onlyCore_trans (modCore_only s c _) (moveOn_only _ c k _ _ _), fun j hj => ?_, ?_, ?_⟩
      · rw [moveOn_otherCtxs _ c k _ _ _ j hj, State.modCtx, State.core_modCore_same, Core.ctx_modCtx_other _ _ hj]
      · rw [ctx_moveOn_same, pc_seq, State.modCtx, State.core_modCore_same, Core.ctx_modCtx_same]
      · rw [core_moveOn_same, State.modCtx, State.core_modCore_same]
        rfl
  case waitAlone =>
    intro alone hv
    obtain ⟨s', run, moved⟩ := execWait_met pc hrsv ready habase hremote hheld
      (by rwa [Core.waitValue_alone alone])
    obtain ⟨errs, counter⟩ := Core.waited_alone alone hv
    refine ⟨s', run, moved.1, moved.2.trans ?_, (moved.syncCtr_eq _).trans counter, fun j hj => ?_⟩
    · rw [moved.ctrs_eq, errs]
    · rw [moved.syncCtr_eq, Core.syncCtr_waited_other hj]
  case waitJoined =>
    intro m v joined hv hw
    obtain ⟨s', run, moved⟩ := execWait_met pc hrsv ready habase hremote hheld
      (by rwa [Core.waitValue_joined joined])
    obtain ⟨counter, errs⟩ := Core.consume_joined joined hv hw
    refine ⟨s', run, moved.1, by rw [moved.2], fun hconsume => ?_, fun hconsume => ?_, fun j hj => ?_⟩
    · rw [moved.ctrs_eq, moved.errs_eq, Core.waited_reading (by rw [hconsume]; decide)]
      exact ⟨rfl, rfl⟩
    · rw [moved.syncCtr_eq, moved.errs_eq, Core.waited_consuming hconsume]
      exact ⟨counter, errs⟩
    · rw [moved.syncCtr_eq, Core.syncCtr_waited_other hj]
  case waitUnmet =>
    intro unmet
    have run := execWait_unmet ready unmet
    by_cases shown : ((s.core c).ctx k).waiting.isSome = true
    · rw [if_pos shown] at run
      exact ⟨s, run, onlyCore_refl c s, fun _ _ => rfl, rfl, by rw [if_pos shown]⟩
    · rw [if_neg shown] at run
      refine ⟨_, run, modCore_only s c _, fun j hj => ?_, ?_, ?_⟩
      · rw [State.modCtx, State.core_modCore_same, Core.ctx_modCtx_other _ _ hj]
      · rw [State.modCtx, State.core_modCore_same]
        rfl
      · rw [State.modCtx, State.core_modCore_same, Core.ctx_modCtx_same, if_neg shown]

end Sys2Proof.Machine
end

section
/-! PROOF. A WRITE without data for HBM (O39). -/

namespace Sys2Proof.Machine

open Sys2Proof

/-- The entry block of a REDUCE over the first KiB of HBM, to which core (0, 0) of rank 0 alone contributes. -/
def oneBlockReduce : BitVec 512 := BitVec.ofNat 512 (1 + 2 ^ 32 + 2 ^ 274 + 2 ^ 307 + 2 ^ 317)

/-- The image of a job of one module. -/
def soloImage : Image :=
  { digest := 0, keyDigest := 0, ranks := [(0, 0)], rank := 0, dimX := 1, dimY := 1, dimZ := 1, tempo := 1200, floor := 0
    split := 0, fenced := false, scCache := 0, dseed := 0, carSeed := 0, shadowSeed := 0, shadowK := 0, shadowLs := 0
    routes := [] }

/-- A running module of rank 0 whose stack 0 has that REDUCE loaded and both staging areas full. -/
def fullStage : State :=
  { State.reset with
    powered := true, deviceState := Triple.all 4, image := some soloImage
    hbmStacks := [(0, { car :=
      { loaded := true, ops := [(0, oneBlockReduce)], stageUse := stageSize, spillUse := spillSize } })] }

/-- A WRITE of no bytes to the start of HBM 0, of a copy of core (0, 0). -/
def emptyWrite : Packet :=
  { kind := .write, tag := EndPt.core 0 ⟨0, 0⟩, src := EndPt.core 0 ⟨0, 0⟩, addr := stackAddr 5 0 0 0 }

/-- An address in the region of a REDUCE is plain for 0 bytes: none of them lies there. -/
theorem plain_emptyWrite : (fullStage.stack 0).plain 0 0 :=
  ⟨.inr (.inl (Nat.zero_le _)), fun _ h => absurd h (Nat.not_lt_zero _)⟩

/-- The packet is taken as a contribution to the REDUCE, which has no room for its block, and is refused. -/
theorem exec_emptyWrite :
    ∃ s', exec (.writePacket emptyWrite) fullStage = .next s' ∧ s'.inFlight = [refuseOf emptyWrite] :=
  ⟨_, rfl, by decide +kernel⟩

/-- Refutes O39: of a WRITE without data, `Stack.plain` asks nothing of the REDUCE at its address, and the model takes it
for a contribution, which it refuses when the staging areas are full; the statement has it counted in a landing entry. -/
theorem not_writesLandInTheStore : ¬ Obligations.WritesLandInTheStore := by
  unfold Obligations.WritesLandInTheStore
  rintro ⟨-, stores⟩
  obtain ⟨-, stack⟩ := stores fullStage emptyWrite 0 0 rfl (by decide +kernel) rfl rfl rfl rfl rfl
  obtain ⟨s', exec, frame, -⟩ := stack 0 _ (.hbm 0 0) _ _ rfl (by decide +kernel) (by decide +kernel)
    (by decide +kernel) rfl (.inr ⟨by decide +kernel, by decide +kernel, rfl⟩)
    (.inl ⟨rfl, by decide, plain_emptyWrite⟩)
  obtain ⟨t, exec', sent⟩ := exec_emptyWrite
  cases exec.symm.trans exec'
  have kept : s'.inFlight = [] := congrArg State.inFlight frame
  rw [sent] at kept
  exact absurd kept (List.cons_ne_nil _ _)

end Sys2Proof.Machine
end

section
/-! SUPPORT. Faults, halts and lost data (O41): what they change of the module, and what a resend's failing source
leaves. -/

namespace Sys2Proof.Machine

open Sys2Proof

/-! ## Endpoints -/

@[simp] theorem EndPt.coreOf_core (m : BitVec 10) (c : CoreId) : EndPt.coreOf (EndPt.core m c) = some c := by
  obtain ⟨⟨x, hx⟩, ⟨y, hy⟩⟩ := c
  simp [EndPt.coreOf, EndPt.core, coreAt, Nat.mod_eq_of_lt (show x < 1024 by omega),
    Nat.mod_eq_of_lt (show y < 512 by omega), hx, hy]

@[simp] theorem State.coreOf_coreEnd (s : State) (c : CoreId) : EndPt.coreOf (s.coreEnd c) = some c :=
  EndPt.coreOf_core s.coord c

@[simp] theorem State.coreEnd_module (s : State) (c : CoreId) : (s.coreEnd c).module = s.coord := rfl

/-! ## Every stack changed -/

theorem State.mapStacks_frame (s : State) (f : StackId → Stack → Stack) :
    ∃ hs, s.mapStacks f = { s with hbmStacks := hs } := by
  unfold State.mapStacks
  induction List.finRange 16 generalizing s with
  | nil => exact ⟨_, rfl⟩
  | cons h hs ih => exact ih (s.modStack h (f h))

/-- A landing table with the entries of a transfer marked aborted. -/
def markAborted (tag : EndPt) (slot : BitVec 5) (l : List Landing) : List Landing :=
  l.map fun e => if e.tag == tag && e.slot == slot then { e with aborted := true } else e

section
variable (s : State) (tag : EndPt) (slot : BitVec 5)

theorem State.abortLandings_eq : s.abortLandings tag slot =
    (s.mapCores fun _ x => { x with landing := markAborted tag slot x.landing }).mapStacks fun _ t =>
      { t with landing := markAborted tag slot t.landing } := rfl

/-- Marking the entries of a transfer changes the cores and the stacks, and nothing else. -/
theorem State.abortLandings_frame : ∃ hs, s.abortLandings tag slot = { s with
    cores := (s.mapCores fun _ x => { x with landing := markAborted tag slot x.landing }).cores, hbmStacks := hs } := by
  rw [State.abortLandings_eq]
  exact State.mapStacks_frame _ _

theorem State.core_abortLandings (wf : Sparse.wf Core.fresh s.cores = true) (d : CoreId) :
    (s.abortLandings tag slot).core d = { s.core d with landing := markAborted tag slot (s.core d).landing } := by
  obtain ⟨hs, frame⟩ := s.abortLandings_frame tag slot
  rw [frame]
  exact State.core_mapCores s (fun _ x => { x with landing := markAborted tag slot x.landing }) d rfl wf

end

/-! ## Faults and halts -/

/-- A fault changes the record of faults alone, and LAST_FAULT there names it. -/
theorem State.faultIn_frame (s : State) (beat cls : Nat) (place : Charged) (ctx depth : Nat) (addr : DWord) :
    ∃ F, s.faultIn beat cls place ctx depth addr = { s with faults := F } ∧
      F.lastFault = faultWord cls place ctx depth := by
  have fold (ks : List Nat) (t : State) : ∃ F, ks.foldl (fun s k => s.note k place) t = { t with faults := F } ∧
      F.lastFault = t.faults.lastFault := by
    induction ks generalizing t with
    | nil => exact ⟨_, rfl, rfl⟩
    | cons k ks ih => exact ih (t.note k place)
  exact fold _ _

/-- A fault found now does what a trigger source of the trace does besides. -/
theorem State.fault_frame (s : State) (cls : Nat) (place : Charged) (ctx depth : Nat) (addr : DWord) :
    ∃ F hs tr, s.fault cls place ctx depth addr = { s with faults := F, hbmStacks := hs, trace := tr } ∧
      F.lastFault = faultWord cls place ctx depth := by
  obtain ⟨F, frame, last⟩ := s.faultIn_frame s.beat cls place ctx depth addr
  rw [State.fault, frame]
  exact ⟨F, _, _, (State.traceSource_frame _ 2).1, last⟩

/-- A halt's change of the device state touches neither stacks nor packets. -/
theorem State.setDev_halted (s : State) :
    s.setDev devHalted = { s.disarm with deviceState := Triple.all (BitVec.ofNat 3 devHalted) } := by
  simp [State.setDev, devHalted, devLoaded, devRunning]

/-! ## What a failing source leaves -/

theorem mem_addOnce {α : Type} [DecidableEq α] {x y : α} {l : List α} (h : y ∈ l) : y ∈ addOnce x l := by
  unfold addOnce
  split
  · exact h
  · exact List.mem_append_left _ h

theorem mem_addOnce_self {α : Type} [DecidableEq α] (x : α) (l : List α) : x ∈ addOnce x l := by
  unfold addOnce
  split
  · assumption
  · exact List.mem_append_right _ (List.mem_singleton_self x)

/-- The refused packets that wait are the same, and every HBM block that failed its reads still does. -/
def State.keepsBad (s s' : State) : Prop :=
  s'.resends = s.resends ∧ ∀ h, ∀ b ∈ (s.stack h).hbmBad, b ∈ (s'.stack h).hbmBad

theorem State.keepsBad.refl (s : State) : s.keepsBad s := ⟨rfl, fun _ _ hb => hb⟩

/-- A branch keeps them when both sides do. -/
theorem State.keepsBad.ite {p : Prop} [Decidable p] {s₀ a b : State} (ha : s₀.keepsBad a) (hb : s₀.keepsBad b) :
    s₀.keepsBad (if p then a else b) := by split <;> assumption

section
variable {s₀ s : State} (k : s₀.keepsBad s)
include k

theorem State.keepsBad.modCore {c f} : s₀.keepsBad (s.modCore c f) := k

theorem State.keepsBad.count {i n} : s₀.keepsBad (s.count i n) := k

theorem State.keepsBad.countStack {h i n} : s₀.keepsBad (s.countStack h i n) := k

theorem State.keepsBad.note {i place} : s₀.keepsBad (s.note i place) := k

theorem State.keepsBad.send {p} : s₀.keepsBad (s.send p) := k

theorem State.keepsBad.sendAll {ps} : s₀.keepsBad (s.sendAll ps) := k

theorem State.keepsBad.mapCores {f} : s₀.keepsBad (s.mapCores f) := k

/-- A stack's change that clears no failing block. -/
theorem State.keepsBad.modStack {h : StackId} {f : Stack → Stack}
    (hf : ∀ t, ∀ b ∈ t.hbmBad, b ∈ (f t).hbmBad) : s₀.keepsBad (s.modStack h f) := by
  refine ⟨k.1, fun g b hb => ?_⟩
  by_cases hg : g = h
  · subst hg
    rw [State.stack_modStack_same]
    exact hf _ b (k.2 g b hb)
  · rw [State.stack_modStack_other s f hg]
    exact k.2 g b hb

end

theorem State.keepsBad.mapStacks {s₀ s : State} {f : StackId → Stack → Stack} (k : s₀.keepsBad s)
    (hf : ∀ h t, ∀ b ∈ t.hbmBad, b ∈ (f h t).hbmBad) : s₀.keepsBad (s.mapStacks f) := by
  unfold State.mapStacks
  induction List.finRange 16 generalizing s with
  | nil => exact k
  | cons h hs ih => exact ih (k.modStack (hf h))

section
variable {s₀ s : State} (k : s₀.keepsBad s)
include k

theorem State.keepsBad.traceSource {i} : s₀.keepsBad (s.traceSource i) := by
  obtain ⟨frame, kept⟩ := s.traceSource_frame i
  refine ⟨(congrArg State.resends frame).trans k.1, fun h b hb => ?_⟩
  rw [kept h]
  exact k.2 h b hb

theorem State.keepsBad.fault {cls place ctx depth addr} : s₀.keepsBad (s.fault cls place ctx depth addr) := by
  have record : s₀.keepsBad (s.faultIn s.beat cls place ctx depth addr) := by
    obtain ⟨F, frame, -⟩ := s.faultIn_frame s.beat cls place ctx depth addr
    rw [frame]
    exact k
  exact record.traceSource

theorem State.keepsBad.disarm : s₀.keepsBad s.disarm := by
  unfold State.disarm
  split <;> exact k

theorem State.keepsBad.withDeviceState {v} : s₀.keepsBad { s with deviceState := v } := ⟨k.1, k.2⟩

theorem State.keepsBad.setDev_halted : s₀.keepsBad (s.setDev devHalted) := by
  rw [State.setDev_halted]
  exact k.disarm.withDeviceState

theorem State.keepsBad.withHalt {v b n} : s₀.keepsBad { s with haltCause := v, haltBeat := b, haltTime := n } :=
  ⟨k.1, k.2⟩

theorem State.keepsBad.withCause {v} : s₀.keepsBad { s with haltCause := v } := ⟨k.1, k.2⟩

theorem State.keepsBad.halt {cause ctx x y} : s₀.keepsBad (s.halt cause ctx x y) := by
  unfold State.halt
  exact .ite k.setDev_halted.withHalt.traceSource (.ite k.withCause k)

theorem State.keepsBad.stackLost {cls h addr} : s₀.keepsBad (s.stackLost cls h addr) := by
  have halted : s₀.keepsBad (((s.fault cls (.stack h) 0 0 addr).countStack h 3 1).halt 5 0 0 0) :=
    k.fault.countStack.halt
  unfold State.stackLost
  dsimp only
  split
  · exact halted.modStack fun _ _ hb => hb
  · exact halted

theorem State.keepsBad.coreLost {c ctx addr} : s₀.keepsBad (s.coreLost c ctx addr) := k.fault.modCore.halt

theorem State.keepsBad.itemLost {c ctx cls item} : s₀.keepsBad (s.itemLost c ctx cls item) := k.coreLost.modCore

theorem State.keepsBad.pendRoll {c cause} : s₀.keepsBad (s.pendRoll c cause) := k.modCore

theorem State.keepsBad.guardFail {c ctx cls item} : s₀.keepsBad (s.guardFail c ctx cls item) := by
  unfold State.guardFail
  dsimp only
  split
  · exact k
  · split
    · exact k.itemLost
    · split
      · split
        · exact k
        · exact k.modCore.traceSource
      · split
        · exact k.pendRoll
        · exact k.modCore.pendRoll.traceSource

theorem State.keepsBad.repairCopy {c e b} : s₀.keepsBad (s.repairCopy c e b) := k.sendAll.modCore

theorem State.keepsBad.repairBlock {c ctx b} : s₀.keepsBad (s.repairBlock c ctx b) := by
  unfold State.repairBlock
  dsimp only
  split
  · exact k
  · split
    · split
      · exact k.modCore.repairCopy
      · exact k.itemLost
    · split
      · exact k.itemLost
      · exact k.modCore

theorem State.keepsBad.copyGuard {c cls item} : s₀.keepsBad (s.copyGuard c cls item) := by
  unfold State.copyGuard
  dsimp only
  split
  · exact k
  · split
    · exact k.modCore.fault.repairBlock
    · exact k.modCore.guardFail

theorem State.keepsBad.failHbm {h b} : s₀.keepsBad (s.failHbm h b) :=
  k.countStack.note.note.modStack fun _ _ hb => mem_addOnce hb

theorem State.keepsBad.loseHbm {h b} : s₀.keepsBad (s.loseHbm h b) := k.failHbm.stackLost

theorem State.keepsBad.loseAll {h bs} : s₀.keepsBad (s.loseAll h bs) := by
  induction bs generalizing s with
  | nil => exact k
  | cons b bs ih => exact ih k.loseHbm

theorem State.keepsBad.loseBlock {pl cls b} : s₀.keepsBad (s.loseBlock pl cls b) := by
  unfold State.loseBlock
  split
  · exact k.loseHbm
  · refine State.keepsBad.stackLost ?_
    exact k.modStack fun _ _ hb => hb
  · exact k

theorem State.keepsBad.sourceFault {pl cls item} : s₀.keepsBad (s.sourceFault pl cls item) := by
  unfold State.sourceFault
  split
  · exact k.copyGuard
  · exact k.copyGuard
  · exact k.copyGuard
  · exact k.loseBlock

theorem State.keepsBad.abortLandings {tag slot} : s₀.keepsBad (s.abortLandings tag slot) :=
  k.mapCores.mapStacks fun _ _ _ hb => hb

theorem State.keepsBad.withDeadCopies {l} : s₀.keepsBad { s with deadCopies := l } := ⟨k.1, k.2⟩

theorem State.keepsBad.abortForeign {p} : s₀.keepsBad (s.abortForeign p) := by
  unfold State.abortForeign
  split
  · exact k
  · exact k.abortLandings.withDeadCopies

theorem State.keepsBad.sendFail {p src cls} : s₀.keepsBad (s.sendFail p src cls) := k.abortForeign.send

theorem State.keepsBad.rereadAbort {p pl cls item} : s₀.keepsBad (s.rereadAbort p pl cls item) := by
  unfold State.rereadAbort
  cases pl with
  | hbm h o =>
    dsimp only
    split
    · exact k.loseAll.sendFail
    · exact k.loseAll
  | _ =>
    dsimp only
    split
    · exact k.sourceFault.sendFail
    · exact k.sourceFault

end

/-! ## An item of a core lost -/

section
variable (s : State) (c : CoreId) (k : Ctx) (cls item : Nat)

theorem State.core_fault (place : Charged) (ctx depth : Nat) (addr : DWord) (d : CoreId) :
    (s.fault cls place ctx depth addr).core d = s.core d := by
  obtain ⟨F, hs, tr, frame, -⟩ := s.fault_frame cls place ctx depth addr
  rw [frame]
  rfl

theorem State.core_halt (cause ctx x y : Nat) (d : CoreId) : (s.halt cause ctx x y).core d = s.core d := by
  rw [State.core, State.halt_cores, State.core]

theorem State.core_itemLost_same : (s.itemLost c k cls item).core c =
    { ((s.core c).count jDataLost 1).markBad cls item with
      lost := addOnce (cls, item) ((s.core c).count jDataLost 1).lost } := by
  rw [State.itemLost, State.core_modCore_same, State.coreLost, State.core_halt, State.core_modCore_same,
    State.core_fault]

theorem State.core_itemLost_other {d : CoreId} (h : d ≠ c) : (s.itemLost c k cls item).core d = s.core d := by
  rw [State.itemLost, State.core_modCore_other _ _ h, State.coreLost, State.core_halt, State.core_modCore_other _ _ h,
    State.core_fault]

end

theorem Core.markBad_ls (x : Core) (cls item : Nat) : (x.markBad cls item).ls = x.ls := by
  unfold Core.markBad
  split <;> rfl

end Sys2Proof.Machine
end

section
/-! PROOF. Signals, acknowledgements and notices (O41). -/

namespace Sys2Proof.Machine

open Sys2Proof

/-! ## What each command does where it acts -/

section
variable {s : State} {p : Packet} {c : CoreId} (power : s.powered = true) (way : s.stranded p = false)
include power way

theorem execSignalPacket_taken {i : Fin 64} (kind : p.kind = .signal) (place : placeOf p.addr = some (.ctr c i))
    (here : addrModule p.addr = s.coord) (turn : s.signalTurn p = true) : execSignalPacket p s =
      .next ((s.arrive p).modCore c fun x => x.signalIn i p.sigVal.toNat p.tag p.joined) := by
  unfold execSignalPacket
  simp [place, power, way, kind, here, turn]

theorem execAck_taken (kind : p.kind = .ack) (tag : p.tag = s.coreEnd c) : execAck p s =
    .next ((s.arrive p).modCore c fun x =>
      { x with
        slots := x.slots.filter fun sl => sl.id != p.slot.toNat || sl.aborted
        served := x.served.filter (· != p.slot.toNat)
        repairs := x.repairs.filter (·.1 != p.slot.toNat) }) := by
  unfold execAck
  simp [power, way, kind, tag]

theorem execFailNotice_repair (kind : p.kind = .fail) (tag : p.tag = s.coreEnd c) (low : 16 ≤ p.slot.toNat)
    (high : p.slot.toNat ≤ 30) : execFailNotice p s = .next ((s.arrive p).repairFailed c p.slot.toNat) := by
  have hcopy : ¬ p.slot.toNat ≤ 15 := by omega
  have hsig : ¬ p.slot = 31#5 := by bv_omega
  unfold execFailNotice
  simp [power, way, kind, tag, hcopy, hsig]

/-- A FAIL for a copy that is not aborted yet aborts it; that of a discard is a fault. -/
theorem execFailNotice_copy {sl : CopySlot} (kind : p.kind = .fail) (tag : p.tag = s.coreEnd c)
    (copy : p.slot.toNat ≤ 15) (slot : (s.core c).slots.find? (fun sl => sl.id == p.slot.toNat) = some sl)
    (live : sl.aborted = false) :
    execFailNotice p s = .next (
      if p.cls = 0 then ((s.arrive p).copyAbort c p.slot (decide (p.cls < 6))).fault 5 (.core c) sl.ctx.val 0 0
      else (s.arrive p).copyAbort c p.slot (decide (p.cls < 6))) := by
  unfold execFailNotice
  simp [power, way, kind, tag, copy, slot, live]

theorem execRefuseNotice_taken (kind : p.kind = .refuse) (src : p.src.module = s.coord) : execRefuseNotice p s =
    .next { s.arrive p with resends := s.resends ++ [⟨{ p with
      kind := p.was, data := p.kept, kept := [], was := .refuse, via := none, escape := false, escDim := 0, hops := 0
      joined := false, renewed := false }, s.refTime + resendDelay⟩] } := by
  unfold execRefuseNotice
  simp [power, way, kind, src]

end

/-! ## Sending again -/

/-- A packet sent again goes out as it is, but for its transit row; the port dies' rotations may turn. -/
theorem State.sendAgain_frame (s : State) (p : Packet) : ∃ v w e,
    s.sendAgain p = { s with inFlight := s.inFlight ++ [{ p with via := v }], west := w, east := e } := by
  unfold State.sendAgain
  split
  · rename_i d _
    unfold State.sendDie
    dsimp only
    split
    · cases d <;> exact ⟨_, _, _, rfl⟩
    · exact ⟨_, _, _, rfl⟩
  · exact ⟨p.via, _, _, rfl⟩

/-- Read again from its source, a packet keeps everything but its data. -/
theorem State.reread_frame (s : State) (p : Packet) : ∃ d, s.reread p = { p with data := d } := by
  unfold State.reread
  split
  · exact ⟨_, rfl⟩
  · split <;> exact ⟨_, rfl⟩

/-- The data of a WRITE that has a source are read there again. -/
theorem State.data_reread_write {s : State} {p : Packet} (kind : p.kind = .write) (origin : p.origin ≠ 0) :
    (s.reread p).data = s.readAddr p.origin p.data.length := by
  rw [State.reread, if_neg origin, kind]

section
variable {s : State} {q : Resend} (power : s.powered = true)
  (due : s.resends.find? (fun r => decide (r.due ≤ s.refTime)) = some q)
include power due

/-- The packet that is due goes out again, its data read from its source. -/
theorem execRefusedResend_sent (whole : s.rereadFails q.packet = none) : execRefusedResend s =
    .next (State.sendAgain { s with resends := removeOne q s.resends } (s.reread q.packet)) := by
  unfold execRefusedResend
  simp only [due, power, whole]
  rfl

theorem execRefusedResend_failed {pl : Place} {cls item : Nat} (fails : s.rereadFails q.packet = some (pl, cls, item)) :
    execRefusedResend s =
      .next (State.rereadAbort { s with resends := removeOne q s.resends } q.packet pl cls item) := by
  unfold execRefusedResend
  simp only [due, power, fails]
  rfl

end

/-- A copy whose packet cannot be read again hears of it by a FAIL notice. -/
theorem State.rereadAbort_fail (s : State) {p : Packet} (pl : Place) (cls item : Nat)
    (copy : (EndPt.coreOf p.tag).isSome = true) : ∃ w ∈ (s.rereadAbort p pl cls item).inFlight,
      w.kind = .fail ∧ w.tag = p.tag ∧ w.slot = p.slot ∧ w.src = s.placeEnd pl := by
  unfold State.rereadAbort
  dsimp only
  rw [if_pos copy]
  exact ⟨_, List.mem_append_right _ (List.mem_singleton_self _), rfl, rfl, rfl, rfl⟩

/-! ## A copy aborted -/

section
variable (s : State) (c : CoreId) (slot : BitVec 5) (rolls : Bool)

/-- The core of an aborted copy: its slot says so, and COPY_ABORT counts it. -/
def Core.copyAborted (x : Core) (slot : BitVec 5) (rolls : Bool) : Core :=
  Core.count { x with
    slots := x.slots.map fun sl =>
      if sl.id = slot.toNat then { sl with aborted := true, rolling := rolls } else sl } jCopyAbort 1

theorem State.copyAbort_eq : s.copyAbort c slot rolls =
    (s.modCore c fun x => x.copyAborted slot rolls).abortLandings (s.coreEnd c) slot := rfl

theorem State.copyAbort_frame : ∃ cs hs, s.copyAbort c slot rolls = { s with cores := cs, hbmStacks := hs } := by
  obtain ⟨hs, frame⟩ := (s.modCore c fun x => x.copyAborted slot rolls).abortLandings_frame (s.coreEnd c) slot
  exact ⟨_, hs, frame⟩

variable {s} (wf : Sparse.wf Core.fresh s.cores = true)
include wf

theorem State.core_copyAbort_same : (s.copyAbort c slot rolls).core c =
    { (s.core c).copyAborted slot rolls with landing := markAborted (s.coreEnd c) slot (s.core c).landing } := by
  rw [State.copyAbort_eq, State.core_abortLandings _ _ _ (Sparse.put_wf _ _ _ _ wf), State.core_modCore_same]
  rfl

theorem State.core_copyAbort_other {d : CoreId} (h : d ≠ c) : (s.copyAbort c slot rolls).core d =
    { s.core d with landing := markAborted (s.coreEnd c) slot (s.core d).landing } := by
  rw [State.copyAbort_eq, State.core_abortLandings _ _ _ (Sparse.put_wf _ _ _ _ wf), State.core_modCore_other _ _ h]

end

theorem faultWord_core (cls : Nat) (c : CoreId) (ctx : Nat) :
    faultWord cls (.core c) ctx 0 = BitVec.ofNat 32 (cls + c.x.val * 2 ^ 8 + c.y.val * 2 ^ 18 + ctx * 2 ^ 27) := by
  unfold faultWord
  dsimp only
  rw [Nat.zero_mul, Nat.add_zero]

/-- A discard is a fault of class 5 besides, which changes no core and no packet; another failure is none. -/
theorem State.discardFault_frame (t : State) (cls : Nat) (c : CoreId) (ctx : Nat) :
    let t' := if cls = 0 then t.fault 5 (.core c) ctx 0 0 else t
    (∀ d, t'.core d = t.core d) ∧ t'.inFlight = t.inFlight ∧
      (cls = 0 → t'.faults.lastFault = faultWord 5 (.core c) ctx 0) ∧ (cls ≠ 0 → t'.faults = t.faults) := by
  intro t'
  by_cases discard : cls = 0
  · obtain ⟨F, hs, tr, frame, last⟩ := t.fault_frame 5 (.core c) ctx 0 0
    have entered : t' = t.fault 5 (.core c) ctx 0 0 := if_pos discard
    refine ⟨fun d => ?_, ?_, fun _ => ?_, fun h => absurd discard h⟩
    · rw [entered, State.core_fault]
    all_goals rw [entered, frame]
    exact last
  · have kept : t' = t := if_neg discard
    rw [kept]
    exact ⟨fun _ => rfl, rfl, fun h => absurd h discard, fun _ => rfl⟩

/-- A repair copy that fails loses the block it was to repair. -/
theorem State.repairFailed_found {s : State} {c : CoreId} {slot b : Nat}
    (found : (s.core c).repairs.find? (·.1 == slot) = some (slot, b)) : s.repairFailed c slot =
      (s.modCore c fun x => { x with repairs := x.repairs.filter (·.1 != slot) }).itemLost c 0 1 b := by
  rw [State.repairFailed, found]

/-- Settles O41: a signal by `Core.signalIn`, a failing source by what `State.keepsBad` says it leaves, an aborted copy
by `Core.copyAborted`; the rest is the frame of each command. -/
theorem signalsAndNotices : Obligations.SignalsAndNotices := by
  unfold Obligations.SignalsAndNotices
  intro s p power way
  refine ⟨?signal, ?ack, ?repair, ?refuse, ?resend, ?fail⟩
  case signal =>
    intro c i kind place here turn
    refine ⟨_, execSignalPacket_taken power way kind place here turn, rfl,
      fun d hd => State.core_modCore_other _ _ hd, ?_, ?_, ?_, fun j hj => ?_⟩
    all_goals rw [State.core_modCore_same]
    · exact Core.signalIn_frame _ _ _ _ _
    · exact Core.syncCtr_signalIn_same _ _ _ _ _
    · exact coreCounted_of_errs (Core.errs_signalIn _ _ _ _ _)
    · exact Core.syncCtr_signalIn_other _ _ _ _ _ hj
  case ack =>
    intro c kind tag
    refine ⟨_, execAck_taken power way kind tag, rfl, fun d hd => State.core_modCore_other _ _ hd, ?_⟩
    exact State.core_modCore_same _ _ _
  case repair =>
    intro c b kind tag low high found
    have run := execFailNotice_repair power way kind tag low high
    rw [State.repairFailed_found (s := s.arrive p) found] at run
    refine ⟨_, run, ?_, fun d hd => ?_, ?_⟩
    · rw [State.core_itemLost_same]
      exact mem_addOnce_self _ _
    · rw [State.core_itemLost_other _ _ _ _ _ hd, State.core_modCore_other _ _ hd]
      rfl
    · rw [State.core_itemLost_same, Core.markBad_ls, State.core_modCore_same]
      rfl
  case refuse =>
    intro kind src
    exact ⟨_, _, execRefuseNotice_taken power way kind src, rfl, rfl, rfl, rfl, rfl, rfl, rfl, rfl⟩
  case resend =>
    intro q due
    constructor
    · intro whole
      obtain ⟨v, w, e, sent⟩ :=
        State.sendAgain_frame { s with resends := removeOne q s.resends } (s.reread q.packet)
      obtain ⟨d, read⟩ := s.reread_frame q.packet
      refine ⟨_, { s.reread q.packet with via := v }, execRefusedResend_sent power due whole, ?_, ?_,
        fun kind origin => State.data_reread_write kind origin⟩
      · rw [sent]
      · rw [read]
    · intro pl cls item fails
      have kept := (State.keepsBad.refl { s with resends := removeOne q s.resends }).rereadAbort
        (p := q.packet) (pl := pl) (cls := cls) (item := item)
      refine ⟨_, execRefusedResend_failed power due fails, kept.1, fun h o hpl b hb => ?_,
        State.rereadAbort_fail { s with resends := removeOne q s.resends } pl cls item⟩
      subst hpl
      exact kept.2 h b (List.mem_filter.mp hb).1
  case fail =>
    intro c sl kind tag copy slot live wf
    have run := execFailNotice_copy power way kind tag copy slot live
    obtain ⟨cs, hs, aborted⟩ := (s.arrive p).copyAbort_frame c p.slot (decide (p.cls < 6))
    have same := State.core_copyAbort_same (s := s.arrive p) c p.slot (decide (p.cls < 6)) wf
    have others {d : CoreId} (hd : d ≠ c) :=
      State.core_copyAbort_other (s := s.arrive p) c p.slot (decide (p.cls < 6)) wf hd
    obtain ⟨cores, flight, discard, failure⟩ :=
      State.discardFault_frame ((s.arrive p).copyAbort c p.slot (decide (p.cls < 6))) p.cls c sl.ctx.val
    refine ⟨_, run, flight.trans ?_, ?_, ?_, fun d hd => ?_, fun hcls => (discard hcls).trans ?_,
      fun hcls => (failure hcls).trans ?_⟩
    · rw [aborted]
      rfl
    · rw [cores, same]
      rfl
    · rw [cores, same]
      exact coreCounted_count _ _ _
    · rw [cores, others hd]
      rfl
    · exact faultWord_core 5 c sl.ctx.val
    · rw [aborted]
      rfl

end Sys2Proof.Machine
end
